-- ==== Sys2Proof/Word.lean ====
section
/-!
DEFINITION. Words, bytes and the sparse maps the state is made of.

Bit numbering and byte order are R1 and R2: bit 0 is the least significant bit, `x[h:l]` is
`BitVec.extractLsb' l (h - l + 1) x`, and a multi-byte value lies least significant byte first.
-/

namespace Sys2Proof

/-- A 64-bit word: a gaffer, A-side or X-side scalar register, an instruction word, an address. -/
abbrev Word := BitVec 64

/-- A byte of memory. -/
abbrev Byte := BitVec 8

/-- A 1,024-bit vector register or data-queue entry (R95, R134). -/
abbrev Vec := BitVec 1024

/-- The field `x[l + w - 1 : l]` (R2). -/
abbrev field (l w : Nat) {n : Nat} (x : BitVec n) : BitVec w := x.extractLsb' l w

/-- A sparse map with natural keys: pairs with strictly rising keys. -/
abbrev SMap (α : Type) := List (Nat × α)

namespace SMap

variable {α : Type}

/-- What the map holds at `k`; `d` where nothing is listed. -/
def get (d : α) : SMap α → Nat → α
  | [], _ => d
  | (j, v) :: m, k => if k = j then v else get d m k

/-- Remove every entry at `k`. -/
def del : SMap α → Nat → SMap α
  | [], _ => []
  | (j, v) :: m, k => if k = j then del m k else (j, v) :: del m k

/-- Store `v` at `k`, keeping the keys rising. -/
def ins : SMap α → Nat → α → SMap α
  | [], k, v => [(k, v)]
  | (j, w) :: m, k, v =>
    if k < j then (k, v) :: (j, w) :: m
    else if k = j then (k, v) :: m
    else (j, w) :: ins m k v

/-- Store `v` at `k`; storing what an unlisted key reads as removes the entry. -/
def put [DecidableEq α] (d : α) (m : SMap α) (k : Nat) (v : α) : SMap α :=
  if v = d then del m k else ins m k v

/-- The keys of a map rise strictly, and every one of them is at least `lo`. -/
def sortedFrom : Nat → SMap α → Bool
  | _, [] => true
  | lo, (j, _) :: m => decide (lo ≤ j) && sortedFrom (j + 1) m

/-- The canonical form: rising keys, no entry equal to the default. -/
def canon [DecidableEq α] (d : α) (m : SMap α) : Bool :=
  sortedFrom 0 m && m.all (fun e => decide (e.2 ≠ d))

end SMap

/-- The first element that satisfies `p`, with the list without it. -/
def takeFirst {α : Type} (p : α → Bool) : List α → Option (α × List α)
  | [] => none
  | x :: xs =>
    if p x then some (x, xs)
    else (takeFirst p xs).map (fun r => (r.1, x :: r.2))

/-- Change the first element that satisfies `p`. -/
def updFirst {α : Type} (p : α → Bool) (f : α → α) : List α → List α
  | [] => []
  | x :: xs => if p x then f x :: xs else x :: updFirst p f xs

end Sys2Proof
end

