-- ==== Sys2Proof/Syntax.lean ====
section
/-!
DEFINITION. The abstract syntax: one constructor of `Instr` per row of the opcode table.

The rows are of two kinds.  A row of R26 to R33 is an instruction word; its constructor carries the
operand fields of its form (R21) at their exact widths, and its literals (R19).  The other rows are
steps of the machine that no word of a program performs (a result landing, a grant, a packet
arriving, a request of system software).  Their constructors carry the place at which the step
happens and whatever the manual leaves to the outside or to chance in it.
-/

namespace Sys2Proof

/-- The scope codes of R22. -/
inductive Scope where
  | core | chair | die | package | system
  deriving DecidableEq, Repr, Inhabited

/-- The element types VSETT admits (R136). -/
inductive VType where
  | f32 | bf16 | f16 | i8 | u8 | i16 | i32
  deriving DecidableEq, Repr, Inhabited

/-- The conditions of BQPUSH and BQSKIP (R99). -/
inductive Cond where
  | xa1 | xa0 | nz (a : BitVec 5) | z (a : BitVec 5) | vs | vc | hit
  deriving DecidableEq, Repr, Inhabited

/-- The conditions of BRS (R64). -/
inductive BrsCond where
  | xa1 | xa0 | ax1 | ax0 | vs | vc
  deriving DecidableEq, Repr, Inhabited

/-- The addend of AADDI: imm22, or one or two literals that replace it (R122). -/
inductive AImm where
  | imm (i : BitVec 22) | lit1 (l : BitVec 32) | lit2 (l : BitVec 64)
  deriving DecidableEq, Repr, Inhabited

/-- The source of SMOV: a scalar register, or one literal (R142). -/
inductive SSrc where
  | reg (a : BitVec 6) | lit (l : BitVec 32)
  deriving DecidableEq, Repr, Inhabited

/-- A transfer's memory operand: an A-side register, or an address generator (R163). -/
inductive XAddr where
  | reg (a : BitVec 5) | gen (g : BitVec 4)
  deriving DecidableEq, Repr, Inhabited

/-- The two sides of a transfer command, by its dir code (R167). -/
inductive XTile where
  /-- dir 0b000: memory to scratchpad -/
  | toSp (h : BitVec 6) (spo : BitVec 14) (an : XAddr)
  /-- dir 0b001: scratchpad to memory -/
  | toMem (an : XAddr) (h : BitVec 6) (spo : BitVec 14)
  /-- dir 0b011: memory to memory -/
  | memMem (ad : BitVec 5) (an : XAddr)
  deriving DecidableEq, Repr, Inhabited

/-- The extent of DROP (R167). -/
inductive XDrop where
  | mem (an : XAddr) | sp (h : BitVec 6) (spo : BitVec 14)
  deriving DecidableEq, Repr, Inhabited

/-- The destination of ACCWB (R200). -/
inductive AccDst where
  | sp (m : BitVec 4) | mem (a : BitVec 5) | gen (g : BitVec 4)
  deriving DecidableEq, Repr, Inhabited

/-- The firmware image that the boot ROM finds, and its signature (R328). -/
structure BootImage where
  firmware : List Byte
  sig : List Byte
  deriving DecidableEq, Repr, Inhabited

/-- What the scrubber reads in one step (R218). -/
inductive ScrubPlace where
  /-- an atom of stack memory at a physical address; `bad`: its check bits are uncorrectable -/
  | stack (pa : Nat) (bad : Bool)
  /-- an atom of a core's scratchpad -/
  | scratchpad (ch c off : Nat) (bad : Bool)
  /-- an accumulator tile of a core -/
  | tile (ch c t : Nat) (bad : Bool)
  /-- a register file, queue or gaffer SRAM of a chair -/
  | inside (ch : Nat) (bad : Bool)
  deriving DecidableEq, Repr, Inhabited

/-- The rows of the opcode table, in its order. -/
inductive Instr where
  -- the gaffer's words (R26)
  | nop
  | add (d a b : BitVec 6) | sub (d a b : BitVec 6)
  | mul (d a b : BitVec 6) | mulh (d a b : BitVec 6) | mulhu (d a b : BitVec 6)
  | div (d a b : BitVec 6) | divu (d a b : BitVec 6) | rem (d a b : BitVec 6)
  | and (d a b : BitVec 6) | or (d a b : BitVec 6) | xor (d a b : BitVec 6)
  | shl (d a b : BitVec 6) | shr (d a b : BitVec 6) | sar (d a b : BitVec 6)
  | min (d a b : BitVec 6) | max (d a b : BitVec 6)
  | minu (d a b : BitVec 6) | maxu (d a b : BitVec 6)
  | seq (d a b : BitVec 6) | slt (d a b : BitVec 6) | sltu (d a b : BitVec 6)
  | bfx (d a pos wm1 : BitVec 6) | bfi (d a pos wm1 : BitVec 6)
  | clz (d a : BitVec 6) | popc (d a : BitVec 6)
  | addi (d a : BitVec 6) (imm : BitVec 20) | andi (d a : BitVec 6) (imm : BitVec 20)
  | ori (d a : BitVec 6) (imm : BitVec 20) | xori (d a : BitVec 6) (imm : BitVec 20)
  | shli (d a sh : BitVec 6) | shri (d a sh : BitVec 6) | sari (d a sh : BitVec 6)
  | slti (d a : BitVec 6) (imm : BitVec 20) | lui (d : BitVec 6) (imm : BitVec 20)
  | ldl (d a : BitVec 6) (imm : BitVec 20) | stl (d a : BitVec 6) (imm : BitVec 20)
  | ldlw (d a : BitVec 6) (imm : BitVec 20) | stlw (d a : BitVec 6) (imm : BitVec 20)
  | beq (a b : BitVec 6) (off : BitVec 20) | bne (a b : BitVec 6) (off : BitVec 20)
  | blt (a b : BitVec 6) (off : BitVec 20) | bge (a b : BitVec 6) (off : BitVec 20)
  | bltu (a b : BitVec 6) (off : BitVec 20) | bgeu (a b : BitVec 6) (off : BitVec 20)
  | jal (l : BitVec 6) (off : BitVec 20) | jalr (d a : BitVec 6) (imm : BitVec 20)
  | loop (lv : BitVec 2) (a : BitVec 6) (off : BitVec 20)
  | loopp (lv : BitVec 2) (a : BitVec 6) (off : BitVec 20)
  | lbrk (lv : BitVec 2) (a : BitVec 6)
  | emit (m : BitVec 6) (l : BitVec 64) | emitp (m a : BitVec 6)
  | emitt (m a : BitVec 6) (sh : BitVec 5) (l : BitVec 64)
  | fmt (m a : BitVec 6) | expect (m a : BitVec 6) (k : BitVec 8)
  | joinpt (t : BitVec 8) | joinw (a : BitVec 6)
  | detq (d : BitVec 6) (sel : BitVec 2) | chairw (a : BitVec 6) (mode : BitVec 1)
  | gpop (d a : BitVec 6) (op : BitVec 3) | gpopn (d a : BitVec 6)
  | grab (d : BitVec 6) | step (d : BitVec 6) | yield | exit
  | semrd (d : BitVec 6) (k : BitVec 8) | wquiet (sc : BitVec 3)
  | csrr (d : BitVec 6) (csr : BitVec 12) | csrw (a : BitVec 6) (csr : BitVec 12)
  | fselWrite (a : BitVec 6)
  | trap (k : BitVec 20) | resume | reinject (k : BitVec 1)
  | savectx (a : BitVec 6) (k : BitVec 20) | restctx (a : BitVec 6) (k : BitVec 20)
  | lit (eng : BitVec 4) (v : BitVec 32)
  -- the A-side's words (R27)
  | ldq (q : BitVec 2) (ag cnt : BitVec 4) | ldqMv (q : BitVec 2) (ag cnt : BitVec 4)
  | ldqs (q : BitVec 2) (ag cnt : BitVec 4) | ldqsMv (q : BitVec 2) (ag cnt : BitVec 4)
  | ldqg (q : BitVec 2) (ag cnt : BitVec 4) (s : BitVec 1) (size : BitVec 1)
  | ldqgMv (q : BitVec 2) (ag cnt : BitVec 4) (s : BitVec 1)
  | stq (q : BitVec 1) (ag cnt : BitVec 4) | stqs (q : BitVec 1) (ag cnt : BitVec 4)
  | lds (d a : BitVec 5) (imm : BitVec 22) | sts (d a : BitVec 5) (imm : BitVec 22)
  | ldsq (q : BitVec 2) (a : BitVec 5) (imm : BitVec 22)
  /-- pending access `k` of core `c` of chair `ch` returns its data -/
  | loadDataReturn (ch c k : Nat)
  | aadd (d a b : BitVec 5) | asub (d a b : BitVec 5) | amul (d a b : BitVec 5) (mode : BitVec 2)
  | ashl (d a b : BitVec 5) | ashr (d a b : BitVec 5) (mode : BitVec 1)
  | aand (d a b : BitVec 5) | aor (d a b : BitVec 5)
  | amin (d a b : BitVec 5) (mode : BitVec 1) | amax (d a b : BitVec 5) (mode : BitVec 1)
  | aslt (d a b : BitVec 5) (mode : BitVec 1) | aaddi (d a : BitVec 5) (x : AImm)
  | agset (g : BitVec 4) (a b c : BitVec 5) | agsetB (g : BitVec 4) (a : BitVec 5)
  | agnext (g : BitVec 4) (a : BitVec 5) | agnextW (g : BitVec 4) (a : BitVec 5)
  | agpos (g : BitVec 4) (a : BitVec 5) | agrd (a : BitVec 5) (g : BitVec 4) (sel : BitVec 2)
  | bqpush (c : Cond) | bqskip (c : Cond) (n : BitVec 8)
  | probe (d a : BitVec 5)
  /-- the fill of the tag entry in way `w` of set `st` has moved its last atom -/
  | probeFillComplete (ch c st w : Nat)
  | pevict (a : BitVec 5)
  /-- the eviction of the tag entry in way `w` of set `st` has moved its last atom -/
  | probeEvictionComplete (ch c st w : Nat)
  | rprobe (d a b : BitVec 5) | rprobeWait (d a b : BitVec 5) | runpin (a b : BitVec 5)
  | atadd (d a b : BitVec 5) (sc : Scope) | atfadd (d a b : BitVec 5) (sc : Scope)
  | atmin (d a b : BitVec 5) (sc : Scope) | atmax (d a b : BitVec 5) (sc : Scope)
  | atxch (d a b : BitVec 5) (sc : Scope) | atcas (d a b c : BitVec 5) (sc : Scope)
  | ator (d a b : BitVec 5) (sc : Scope) | atand (d a b : BitVec 5) (sc : Scope)
  | fence (sc : Scope) | rel (sc : Scope) | acq (sc : Scope)
  | hgive (h : BitVec 6) (a : BitVec 5) | htake (h : BitVec 6) | hquery (d : BitVec 5) (h : BitVec 6)
  | watch (n : BitVec 2) (a b : BitVec 5) (kind : BitVec 2)
  -- the X-side's words (R28)
  | sadd (d a b : BitVec 6) | ssub (d a b : BitVec 6) | smul (d a b : BitVec 6)
  | sand (d a b : BitVec 6) | sor (d a b : BitVec 6) | sxor (d a b : BitVec 6)
  | sshl (d a b : BitVec 6) | sshr (d a b : BitVec 6)
  | sfadd (d a b : BitVec 6) | sfmul (d a b : BitVec 6)
  | smov (d : BitVec 6) (x : SSrc) | spopq (d : BitVec 6) (q : BitVec 2)
  | spushg (a : BitVec 6) | bqout (a : BitVec 6) | dqcnt (d : BitVec 6)
  /-- the oldest in-flight result of core `c` whose landing cycle has come lands -/
  | resultLanding (ch c : Nat)
  | vadd (p : BitVec 5) (d a b : BitVec 9) | vsub (p : BitVec 5) (d a b : BitVec 9)
  | vmul (p : BitVec 5) (d a b : BitVec 9) | vmulh (p : BitVec 5) (d a b : BitVec 9)
  | vmin (p : BitVec 5) (d a b : BitVec 9) | vmax (p : BitVec 5) (d a b : BitVec 9)
  | vabs (p : BitVec 5) (d a : BitVec 9) | vneg (p : BitVec 5) (d a : BitVec 9)
  | vand (p : BitVec 5) (d a b : BitVec 9) | vor (p : BitVec 5) (d a b : BitVec 9)
  | vxor (p : BitVec 5) (d a b : BitVec 9) | vnot (p : BitVec 5) (d a : BitVec 9)
  | vshl (p : BitVec 5) (d a b : BitVec 9) | vshr (p : BitVec 5) (d a b : BitVec 9)
  | vsar (p : BitVec 5) (d a b : BitVec 9) | vadds (p : BitVec 5) (d a b : BitVec 9)
  | vfadd (p : BitVec 5) (d a b : BitVec 9) | vfsub (p : BitVec 5) (d a b : BitVec 9)
  | vfmul (p : BitVec 5) (d a b : BitVec 9) | vfma (p : BitVec 5) (d a b : BitVec 9)
  | vfmin (p : BitVec 5) (d a b : BitVec 9) | vfmax (p : BitVec 5) (d a b : BitVec 9)
  | vfabs (p : BitVec 5) (d a : BitVec 9) | vfneg (p : BitVec 5) (d a : BitVec 9)
  | vrcp (p : BitVec 5) (d a : BitVec 9) | vrsq (p : BitVec 5) (d a : BitVec 9)
  | vexp2 (p : BitVec 5) (d a : BitVec 9) | vlog2 (p : BitVec 5) (d a : BitVec 9)
  | vceq (p : BitVec 5) (pd : BitVec 5) (a b : BitVec 9)
  | vclt (p : BitVec 5) (pd : BitVec 5) (a b : BitVec 9)
  | vcle (p : BitVec 5) (pd : BitVec 5) (a b : BitVec 9)
  | vfceq (p : BitVec 5) (pd : BitVec 5) (a b : BitVec 9)
  | vfclt (p : BitVec 5) (pd : BitVec 5) (a b : BitVec 9)
  | vfcle (p : BitVec 5) (pd : BitVec 5) (a b : BitVec 9)
  | vfcun (p : BitVec 5) (pd : BitVec 5) (a b : BitVec 9)
  | pand (pd pa pb : BitVec 5) | por (pd pa pb : BitVec 5) | pxor (pd pa pb : BitVec 5)
  | pnot (pd pa : BitVec 5) | pany (sd : BitVec 6) (pa : BitVec 5) | pcnt (sd : BitVec 6) (pa : BitVec 5)
  | vpopq (p : BitVec 5) (d : BitVec 9) (q : BitVec 2)
  | vpushq (p : BitVec 5) (q : BitVec 1) (a : BitVec 9)
  | vsel (p : BitVec 5) (d a b : BitVec 9) | vbcast (p : BitVec 5) (d : BitVec 9) (sa : BitVec 6)
  | vperm (p : BitVec 5) (d a b : BitVec 9) | vrot (p : BitVec 5) (d a k : BitVec 9)
  | vext (sd : BitVec 6) (a k : BitVec 9) | vins (d : BitVec 9) (sa : BitVec 6) (k : BitVec 9)
  | vmov (p : BitVec 5) (d a : BitVec 9)
  | vcvt (d a : BitVec 9) (t : VType) | vcvtd (d a : BitVec 9) (t : VType)
  | vpack (d a : BitVec 9) (h : BitVec 1) | vunpk (d a : BitVec 9) (h : BitVec 1)
  | vrsum (p : BitVec 5) (sd : BitVec 6) (a : BitVec 9) | vrmax (p : BitVec 5) (sd : BitVec 6) (a : BitVec 9)
  | vrmin (p : BitVec 5) (sd : BitVec 6) (a : BitVec 9) | vfrsum (p : BitVec 5) (sd : BitVec 6) (a : BitVec 9)
  | defer (p : BitVec 5) (a : BitVec 9) (tag : BitVec 8) | drain (d : BitVec 9) (pd : BitVec 5)
  | vcompnm (d a : BitVec 9) (mode : BitVec 2) | vsett (t : VType)
  -- the furnace's words (R29)
  | lease (n : BitVec 7)
  /-- quad `q` of chair `ch`: the furnace is granted -/
  | leaseGrant (ch q : Nat)
  /-- the holder core `c` lapses -/
  | leaseLapse (ch c : Nat)
  | unlease
  | mma (acc : BitVec 9) (ma mb : BitVec 4) | mmat (acc : BitVec 9) (ma mb : BitVec 4)
  /-- the oldest started command of core `c` whose cycles are done lands in its tile -/
  | furnaceCommandComplete (ch c : Nat)
  | mset (mp : BitVec 4) (off : BitVec 19) | minc (mp : BitVec 4) (off : BitVec 19)
  | accz (acc : BitVec 9) (k : BitVec 5) | accrd (acc : BitVec 9) (m : BitVec 4) (k : BitVec 5)
  | accwr (acc : BitVec 9) (m : BitVec 4) (k : BitVec 5)
  | accwb (acc : BitVec 9) (dst : AccDst) (k : BitVec 5)
  | accmv (acc s : BitVec 9) (k : BitVec 5) | accrel (acc : BitVec 9) (k : BitVec 5)
  | mwait | fmtskip
  -- the transfer engine's words (R30)
  | move (t : XTile) (xq : BitVec 2) (len : BitVec 32)
  | movePull (h : BitVec 6) (spo : BitVec 14) (xq : BitVec 2) (len : BitVec 32)
  | dup (t : XTile) (xq : BitVec 2) (len : BitVec 32)
  | drop (e : XDrop) (xq : BitVec 2) (len : BitVec 32)
  | promote (t : XTile) (xq : BitVec 2) (len : BitVec 32)
  | move2d (t : XTile) (xq : BitVec 2) (slot : BitVec 3)
  | move3d (t : XTile) (xq : BitVec 2) (slot : BitVec 3)
  | xshape (slot : BitVec 3) (desc : BitVec 64)
  | kick (chn : BitVec 4) (xq : BitVec 2) | chlink (chn : BitVec 4) (n : BitVec 6)
  | arrive (a : BitVec 5) (h : BitVec 6) (xq : BitVec 2) (target : BitVec 32)
  | xfill (an : XAddr) (val : BitVec 8) (xq : BitVec 2) (len : BitVec 32)
  | xcancel (xq : BitVec 2) | xstat (a : BitVec 5) (xq : BitVec 2)
  /-- the head command of execution queue `q` runs its probe phase -/
  | xfrCommandStart (ch c q : Nat)
  /-- the head command of execution queue `q` does its remaining pairs and finishes -/
  | xfrCommandComplete (ch c q : Nat)
  -- the near-memory port's words (R31)
  | nmred (u : BitVec 4) (a : BitVec 5) | nmatt (u : BitVec 4) (a : BitVec 5)
  | nmopt (u : BitVec 3) (a : BitVec 5) | nmmask (u : BitVec 3) (a : BitVec 5)
  | nmbankOff (pc : BitVec 8) | nmbankOn (pc : BitVec 8)
  | nmbcst (pc : BitVec 8) (a : BitVec 5) | nmbmac (pc : BitVec 8) (k : BitVec 3) (a : BitVec 5)
  | nmbrd (pc : BitVec 8) (k : BitVec 3) | nmpop (q : BitVec 2)
  | nmpool (a : BitVec 5) (n : BitVec 32) | nmarena (a : BitVec 5) (base : BitVec 64)
  /-- the unit takes the oldest issued command of core `c` -/
  | nmCommandAccept (ch c : Nat)
  /-- accepted command `k` of core `c` finishes and its result lands -/
  | nmResult (ch c k : Nat)
  -- the fabric port's words (R32)
  | put (a b : BitVec 5) (sc : Scope) (len : BitVec 32)
  | getw (h : BitVec 6) (a b : BitVec 5) (sc : Scope) (len : BitVec 32)
  | amsend (a b : BitVec 5) (s : BitVec 6) (sc : Scope)
  | mrecv (d e b : BitVec 5) | mdone | qrepair (a : BitVec 5)
  | barinit (a : BitVec 5) (sc : Scope) (h : Option (BitVec 6)) (target : BitVec 32)
  | barv (a : BitVec 5) (n : BitVec 15) | barw (a : BitVec 5) (ph : BitVec 1)
  | barsem (a : BitVec 5) (k : BitVec 8) (ph : BitVec 1)
  -- core control (R33)
  | detach (t : BitVec 8) (addr : BitVec 64) | join (t : BitVec 8)
  | jmps (off : BitVec 24) | brs (c : BrsCond) (off : BitVec 24) | cexit
  | seminit (k : BitVec 8) (v : BitVec 16) | semadd (k : BitVec 8) (v : BitVec 16)
  | semwait (k : BitVec 8) (v : BitVec 16) | cfence (sc : Scope)
  | xsave (a : BitVec 5) (part : BitVec 2) | xrest (a : BitVec 5) (part : BitVec 2)
  | csrrc (a : BitVec 5) (csr : BitVec 12) | csrwc (csr : BitVec 12) (a : BitVec 5)
  | pcfgWrite (a : BitVec 5) | acondWrite (a : BitVec 5) | pqvaWrite (a : BitVec 5)
  | frankWrite (a : BitVec 5)
  -- cores and chairs
  | ringTake (ch c : Nat) | streamFetch (ch c : Nat) | coreRejoin (ch c : Nat)
  | chairFinish (ch : Nat) | queueDeadlock (ch : Nat) | yieldBudgetExpiry (ch : Nat)
  | chairHalt (ch : Nat) | preemptionRequest (ctx : Nat) | softSave (ch : Nat)
  /-- the die controller saves halted chair `ch` -/
  | chairSave (ch : Nat)
  /-- the chair of index `n` of context `ctx` is restored onto chair `ch` -/
  | chairRestore (ctx n ch : Nat)
  -- contexts
  /-- the eight descriptor words, with the job number and rank system software binds -/
  | descriptorLoad (die : Nat) (words : List Word) (job rank : Nat) (ranks : List Nat)
  | containerLoad (ctx : Nat) (bytes : List Byte)
  | contextResume (ctx : Nat) | contextKill (ctx : Nat) | contextRelease (ctx : Nat)
  -- kernels and graphs
  | launchRecord (die : Nat) (words : List Word) | scoreboardTake (die : Nat)
  /-- kernel of sequence number `k` of lead die `die` gets the chairs listed (package indices) -/
  | kernelIssue (die k : Nat) (chairs : List Nat)
  | argumentBlockLoaded (die k : Nat) | kernelRetire (die k : Nat) | kernelCancel (die k : Nat)
  | dieWithdraw (die k : Nat)
  | graphLaunch (die : Nat) (words : List Word) | nodeReady (die g n : Nat)
  | transferNodeComplete (die g n : Nat) | graphCancel (die g : Nat)
  -- pages: `leaf` is the physical address of the leaf entry
  | epochEnd (leaf frame : Nat) | windowEnd (leaf : Nat)
  /-- demote the page: to the host tier at `frame` where `host`, else to deep-tier address `frame` -/
  | freeFramesLow (die leaf : Nat) (host : Bool) (frame : Nat)
  | migrationComplete (leaf : Nat) | deepWriteCommit (leaf : Nat) | deepWriteFail (leaf : Nat)
  /-- the arriving page takes stack frame `frame`; `bad`: byte offsets of atoms flash lost -/
  | arrivalComplete (leaf frame : Nat) (bad : List Nat)
  | scrub (p : ScrubPlace) | remap (ctx : Nat) (va : Word) (pte : Word)
  -- links: `dir` names the sending side
  | linkEnable (l : Nat) | trainingSuccess (l : Nat) | trainingFailure (l : Nat)
  | flitCrcFail (l dir : Nat) | ackMissing (l dir : Nat) | replayAcknowledged (l dir : Nat)
  | lossResend (id : Nat) | stopRequest | linkResume (l : Nat)
  -- packets: `k` is the packet's number in the fabric
  | putData (k : Nat) | getRequest (k : Nat) | getResponse (k : Nat) | messageArrival (k : Nat)
  | barrierOperation (k : Nat) | reply (k : Nat)
  /-- one pass of a wave of job `job`; `i`, `c`, `loss` are what the other packages report -/
  | wavePass (job : Nat) (sys : Bool) (i c loss : Nat)
  | hostWrite (pa : Nat) (bytes : List Byte)
  -- the die controller
  /-- `fails`: the later step of the bring-up that fails, if one does -/
  | powerOn (die : Nat) (image : BootImage) (fails : Option Nat)
  | thermalThrottle (die temp : Nat) | thermalPreempt (die temp : Nat) | thermalRestore (die temp : Nat)
  /-- `frames`: for POOLN, the 64 KiB frames the pool receives -/
  | mgmtRegisterWrite (die off : Nat) (val : Word) (frames : List Nat)
  | ggrantWrite (die : Nat) (val : Word) | keySlotWrite (die slot : Nat) (key : List Byte)
  | tenantAssign (ch : Nat) (tenant : Option Nat)
  | slotTableWrite (die : Nat) (xfer : Bool) (turn : Nat) (tenant : Option Nat)
  | attestationRequest (die ctx : Nat) (nonce : List Byte)
  | storePerformed (ch c k : Nat) | accumulatorWordComplete (ch c k : Nat)
  | nearMemoryCommandComplete (ch c k : Nat) | logReadIndexAdvance (ctx n : Nat)
  | flitReceived (l dir seq : Nat)
  deriving DecidableEq, Repr, Inhabited

/-- The clause fields of R15, and for gaffer words the STAGE field of R17 in the top of SSEM. -/
structure Clause where
  wsem : BitVec 8 := 0
  ssem : BitVec 8 := 0
  wcnt : BitVec 2 := 0
  scnt : BitVec 2 := 0
  deriving DecidableEq, Repr, Inhabited

/-- A decoded word: its clauses and its instruction. -/
structure Decoded where
  clause : Clause
  instr : Instr
  deriving DecidableEq, Repr, Inhabited

end Sys2Proof
end

