-- ==== Sys2Proof/Machine/State.lean ====
section
/-!
DEFINITION. The state of the package, as plain data, and the state right after reset.

Everything the manual gives the machine stands here under the manual's name: the gaffer (R68), the ring
(R57), the core's engines and queues (R93, R112, R134, R187), the transfer engine (R162), the handles
(R130), the frame of a halted chair (R225), the context objects (R219, R221, R332), the pages
(R208 to R211), the stacks (R158, R263), the links and packets (R294, R295), jobs and their counters
(R297), the scheduler (R314 to R323) and the die controllers (R328, R331, R353).

Three fields are the model's own and not the manual's: `agenda`, the turns the outside has asked for;
`tick`, a counter that feeds the free values; and `act`, the word the machine is running.
-/

namespace Sys2Proof.Machine

/-- Why the machine stops with a fault.  No meaning of this model raises one: every fault of the manual
is a state of the machine (a frame, a DEAD context), and the machine goes on. -/
inductive Fault where
  /-- Raised by no one: an access to a physical address that R206 reserves would raise it, and every
  such access is caught earlier as a context error (R205, R223).  Safe. -/
  | reservedAddress
  deriving DecidableEq, Repr, Inhabited

/-- Why the machine refuses an instruction. -/
inductive Refusal where
  /-- Raised by the arm of an instruction that has no meaning yet.  Safe. -/
  | notModelled (mnemonic : String)
  deriving DecidableEq, Repr, Inhabited

/-! ## Memory -/

/-- The states of an atom (R158). -/
inductive AtomState where
  | vacant | home | replica | poison
  deriving DecidableEq, Repr, Inhabited

/-- A space of atoms: stack and host memory, a scratchpad, the deep tier.  `bytes` holds the bytes that
are not zero, `atoms` the atoms that are not VACANT by atom number, and `errs` the atoms whose stored
bits hold an uncorrectable error that no access has found yet (R217). -/
structure Space where
  bytes : List Host.Cell := []
  atoms : SMap AtomState := []
  errs : List Nat := []
  deriving DecidableEq, Repr, Inhabited

/-! ## Words on their way -/

/-- A provenance tag (R24). -/
structure Prov where
  kind : BitVec 2 := 3
  gpc : BitVec 13 := 0
  esn : BitVec 28 := 0
  soff : BitVec 21 := 0
  deriving DecidableEq, Repr, Inhabited

/-- What a ring slot holds (R57). -/
inductive SlotItem where
  | word (w : Word)
  | joinpt (t : BitVec 8)
  deriving DecidableEq, Repr, Inhabited

/-- A ring slot: its item, its ESN, the cores its mask selects, the word index of its EMIT, and li0 to
li3 when it was emitted (R25, R57, R214). -/
structure Slot where
  item : SlotItem := .word 0
  esn : BitVec 28 := 0
  cores : BitVec 16 := 0
  gpc : BitVec 13 := 0
  lis : List Nat := []
  deriving DecidableEq, Repr, Inhabited

/-- A word in an engine queue (R93), with its provenance and the li values of R214. -/
structure QWord where
  w : Word := 0
  /-- its place in the order in which the core took or fetched its words -/
  n : Nat := 0
  prov : Prov := {}
  lis : List Nat := []
  deriving DecidableEq, Repr, Inhabited

/-- The signal clause of a word on its way, with the word's provenance, its li values, and the word with its
literals, which a record of its fault names (R214, R225). -/
structure Sig where
  sem : BitVec 8 := 0
  amt : Nat := 0
  prov : Prov := {}
  lis : List Nat := []
  w : Word := 0
  lits : List (BitVec 32) := []
  /-- of an arrival from outside the core: its SRANK and SCORE (R303) -/
  sender : Option (Nat × Nat) := none
  deriving DecidableEq, Repr, Inhabited

/-! ## The gaffer -/

/-- A hardware loop level (R78): N, k, i0, the body's first and last word, S - 1, whether its pass
boundaries are soft points, and the N it started with. -/
structure Level where
  n : Nat := 0
  k : Nat := 0
  i0 : Nat := 0
  start : BitVec 13 := 0
  last : BitVec 13 := 0
  s1 : Nat := 0
  pre : Bool := false
  n0 : Nat := 0
  deriving DecidableEq, Repr, Inhabited

/-- A breakaway span (R61): the core, its tag, the ESN d of the DETACH, the word index of the DETACH's
EMIT, the matching JOINPT's ESN once emitted, the recorded promise counters, and whether the core has
taken the DETACH. -/
structure Break where
  core : Nat
  tag : BitVec 8
  d : BitVec 28
  gpc : BitVec 13 := 0
  lis : List Nat := []
  joinEsn : Option (BitVec 28) := none
  counters : SMap Nat := []
  taken : Bool := false
  /-- its core will never take the DETACH: the word was dropped at the taking (R228) -/
  dropped : Bool := false
  deriving DecidableEq, Repr, Inhabited

/-- A soft point that a request has taken: the cycle, and where the gaffer would stand without the request (R79, R233). -/
structure Untaken where
  at_ : Nat
  pc : BitVec 13
  levels : SMap Level
  depth : Nat
  deriving DecidableEq, Repr, Inhabited

/-- A registered WQUIET (R307): its scope code, and the number of the first wave that may prove it. -/
structure Quiet where
  sc : Nat
  wave : Nat
  done : Bool := false
  deriving DecidableEq, Repr, Inhabited

/-- The gaffer's state (R68), with the ready cycles of R69 and the emission state of R20 and R61. -/
structure Gaffer where
  g : SMap Word := []
  ready : SMap Nat := []
  pc : BitVec 13 := 0
  isram : SMap Word := []
  dsram : List Host.Cell := []
  levels : SMap Level := []
  depth : Nat := 0
  head : BitVec 28 := 0
  prom : SMap Nat := []
  ds : Bool := false
  dt : BitVec 13 := 0
  /-- the pending branch was taken -/
  taken : Bool := false
  /-- the pending branch is an LBRK of this level that leaves it -/
  leave : Option Nat := none
  /-- gaffer literals waiting for their word (R19) -/
  lits : List (BitVec 32) := []
  /-- LITs emitted and not yet followed by a word, by engine: how many, to which cores (R20) -/
  emitted : SMap (Nat × BitVec 16) := []
  breaks : List Break := []
  /-- the records of DETACHes that were emitted while their core was away: it skips them, unless the DETACH that it was
  away for is dropped (R60, R61) -/
  shadows : List Break := []
  /-- a LOOPP resumed from a soft save: the N and i0 of the frame (R79) -/
  resume : Option (Nat × Nat) := none
  /-- a soft save is draining a level: the level, the original N and k' (R79) -/
  drain : Option (Nat × Nat × Nat) := none
  /-- the last soft point that a request has taken -/
  untaken : Option Untaken := none
  /-- a soft point that waits to save: the N and i0 of its LOOPP, or `none` inside for a YIELD -/
  save : Option (Option (Nat × Nat)) := none
  /-- the chair wait of the word at PC has passed (R17) -/
  waited : Bool := false
  /-- by how much a core's Pin held less than that wait took (R85) -/
  short : SMap Nat := []
  /-- the chair wait the gaffer is waiting on: semaphore and amount (R105) -/
  waitOn : Option (Nat × Nat) := none
  exited : Bool := false
  quiet : Option Quiet := none
  /-- the cycle in which the gaffer issued last -/
  issued : Option Nat := none
  deriving DecidableEq, Repr, Inhabited

/-! ## The A-side -/

/-- An address generator: base, stride, position, limit (R112). -/
structure AGen where
  base : Word := 0
  stride : Word := 0
  pos : BitVec 32 := 0
  lim : BitVec 32 := 0
  deriving DecidableEq, Repr, Inhabited

/-- The states of a probe tag entry (R125). -/
inductive TagState where
  | invalid | filling | valid | evicting
  deriving DecidableEq, Repr, Inhabited

/-- A probe tag entry: its state, the block's address, when it was last touched, the signals owed when
the block is in the slot, those owed when it is back in memory, and the block that waits for the entry
(R124). -/
structure Tag where
  st : TagState := .invalid
  block : Word := 0
  touched : Nat := 0
  sigs : List Sig := []
  back : List Sig := []
  next : Option (Word × Sig) := none
  /-- the leaf of the block's page, and of the page of the block that waits: held against moves (R124, R209) -/
  leaf : Option Nat := none
  nextLeaf : Option Nat := none
  /-- atoms of the fill or the eviction that have moved (R124, R179) -/
  moved : Nat := 0
  deriving DecidableEq, Repr, Inhabited

/-- A TLB entry (R207): the page's first virtual address, its leaf's address and value, its size. -/
structure TlbEntry where
  va : Word
  leaf : Nat
  pte : Word
  size : Nat
  deriving DecidableEq, Repr, Inhabited

/-- What an issued A-side access does. -/
inductive AOp where
  | load | store
  | atadd | atfadd | atmin | atmax | atxch | atcas | ator | atand
  | fence | rel | acq
  deriving DecidableEq, Repr, Inhabited

/-- Where an issued access puts what it read. -/
inductive ADst where
  | none | reg (d : BitVec 5)
  deriving DecidableEq, Repr, Inhabited

/-- What the issue of an access took: its generator with the position before and after, and its store data
queue with the entries it popped.  A dropped word gives it back (R116, R228). -/
structure ATaken where
  gen : Option (BitVec 4 × BitVec 32 × BitVec 32) := none
  sq : Option (Nat × List Vec) := none
  deriving DecidableEq, Repr, Inhabited

/-- An A-side access that has issued and is not yet done: its number, its operation, the bytes it
touches in the order it uses them, its store data or operands, what its issue took, and its signal. -/
structure APend where
  id : Nat
  op : AOp
  segs : List (Word × Nat) := []
  mv : Bool := false
  data : List Byte := []
  dst : ADst := .none
  sc : Scope := .core
  took : ATaken := {}
  sig : Sig := {}
  /-- the place of its word in the order in which the core took or fetched its words -/
  n : Nat := 0
  /-- it met the cause of a fault after its chair froze, and waits for the restart (R224) -/
  stuck : Bool := false
  /-- the first cycle in which its data may return -/
  at_ : Nat := 0
  deriving DecidableEq, Repr, Inhabited

/-- A load data queue entry: its number, its 128 bytes once they have arrived, and the first cycle that may pop
it (R94, R95). -/
structure DqEntry where
  id : Nat
  data : Option Vec := none
  at_ : Nat := 0
  deriving DecidableEq, Repr, Inhabited

/-- A watch slot: kind and range (R132). -/
structure Watch where
  kind : BitVec 2 := 0
  base : Word := 0
  len : Nat := 0
  deriving DecidableEq, Repr, Inhabited

/-- A result for an A-side register on its way from another engine: the register, the first cycle that sees it,
its value, and its word's signal. -/
structure Late where
  d : BitVec 5
  at_ : Nat
  v : Word
  sig : Sig := {}
  deriving DecidableEq, Repr, Inhabited

/-- The A-side's state (R112) and its queues (R93). -/
structure ASide where
  a : SMap Word := []
  ag : SMap AGen := []
  v : Bool := false
  vacr : Word := 0
  /-- the access whose vacant report VACR holds, while V is set by one: reports count in issue order (R116, R186) -/
  vacId : Option Nat := none
  pcfg : BitVec 12 := 0
  pqva : Word := 0
  tags : SMap Tag := []
  pins : List (Word × Nat) := []
  watch : SMap Watch := []
  tlb : List TlbEntry := []
  skip : Nat := 0
  pend : List APend := []
  dq : SMap (List DqEntry) := []
  sq : SMap (List Vec) := []
  xa : List Bool := []
  ax : List Bool := []
  po : List Bool := []
  /-- what the condition of the BQPUSH at the head was, while it waits for room (R100) -/
  bq : Option Bool := none
  /-- results on their way from other engines -/
  late : List Late := []
  deriving DecidableEq, Repr, Inhabited

/-! ## The X-side -/

/-- The destination of an X-side result (R140). -/
inductive XDest where
  | none | s (d : BitVec 6) | v (d : BitVec 9) | p (d : BitVec 5)
  /-- DRAIN: two vectors and a predicate -/
  | vvp (d : BitVec 9) (pd : BitVec 5)
  /-- VCOMPNM: two vectors -/
  | vv (d : BitVec 9)
  deriving DecidableEq, Repr, Inhabited

/-- A result issued and not yet landed (R141): where it goes, what it is, the flags it raises, the first
cycle that sees it, and its word's signal. -/
structure Inflight where
  dest : XDest
  val : Vec := 0
  val2 : Vec := 0
  pval : BitVec 32 := 0
  flags : BitVec 9 := 0
  at_ : Nat := 0
  sig : Sig := {}
  deriving DecidableEq, Repr, Inhabited

/-- A deferral batch: its tag, and its lanes with their numbers (R154). -/
structure Batch where
  tag : BitVec 8
  lanes : List (Nat × BitVec 32)
  deriving DecidableEq, Repr, Inhabited

/-- The X-side's state (R134) with FLAGS and FRM (R41, R43), its return-queue lane and deferral queue. -/
structure XSide where
  s : SMap Word := []
  v : SMap Vec := []
  p : SMap (BitVec 32) := []
  vtype : VType := .f32
  drow : BitVec 10 := 0
  flags : BitVec 9 := 0
  frm : BitVec 3 := 0
  fly : List Inflight := []
  lane : List Word := []
  defq : List Batch := []
  /-- cycles in which the scalar and the vector pipe issued last (R139) -/
  scalarAt : Option Nat := none
  vectorAt : Option Nat := none
  deriving DecidableEq, Repr, Inhabited

/-! ## The furnace and the accumulators -/

/-- The lease states (R189). -/
inductive Lease where
  | none | waiting (n : Nat) | holding (r : Nat) | lapsed (r : Nat)
  deriving DecidableEq, Repr, Inhabited

/-- The states of an accumulator tile (R198). -/
inductive TileState where
  | vacant | home | held | poison
  deriving DecidableEq, Repr, Inhabited

/-- An accumulator tile: element (i, j) under key 32 i + j (R187). -/
structure Tile where
  st : TileState := .vacant
  /-- while it is HELD: what it is apart from the hold, as long as earlier words on it have not acted (R188) -/
  under : TileState := .home
  pendingRel : Bool := false
  data : SMap (BitVec 32) := []
  /-- its bits hold an uncorrectable error that no access has found yet -/
  err : Bool := false
  deriving DecidableEq, Repr, Inhabited

/-- A format queue entry: the word, its stamp, and whether it is old (R81). -/
structure FmtEntry where
  val : Word
  stamp : BitVec 28
  old : Bool := false
  deriving DecidableEq, Repr, Inhabited

/-- A started MXA word that has not completed. -/
inductive MOp where
  /-- a furnace command: its tile, the group of each element, whether it is INT8, its flags, and the
  cycle in which its occupancy ends (R197) -/
  | mma (acc : BitVec 9) (group : SMap (BitVec 32)) (int : Bool) (flags : BitVec 9) (doneAt : Nat)
  | accz (acc : BitVec 9) (k : BitVec 5)
  /-- ACCRD and ACCWR: with the number of atoms that have moved -/
  | accrd (acc : BitVec 9) (off : Nat) (k : BitVec 5) (done : Nat)
  | accwr (acc : BitVec 9) (off : Nat) (k : BitVec 5) (done : Nat)
  | accmv (acc s : BitVec 9) (k : BitVec 5)
  | accrel (acc : BitVec 9) (k : BitVec 5)
  /-- ACCWB: its tiles, its destination resolved at the start, the format word, the bias lanes, and the tiles that it
  holds -/
  | accwb (acc : BitVec 9) (k : BitVec 5) (mem : Bool) (rows : List (Word × Nat)) (fmt : Word) (bias : Vec)
      (held : List Nat)
  | lease
  deriving DecidableEq, Repr, Inhabited

structure MPend where
  id : Nat
  op : MOp
  sig : Sig := {}
  deriving DecidableEq, Repr, Inhabited

/-- The MXA state of a core (R187). -/
structure MSide where
  mp : SMap (BitVec 19) := []
  tiles : SMap Tile := []
  lease : Lease := .none
  idle : Nat := 0
  /-- the cycle of the core's last grant or furnace command (R189) -/
  startAt : Option Nat := none
  fmtq : List FmtEntry := []
  pend : List MPend := []
  deriving DecidableEq, Repr, Inhabited

/-! ## The transfer engine -/

/-- One side of a transfer: memory at an address, or a handle's scratchpad at an offset. -/
inductive XSideLoc where
  | mem (va : Word) | sp (h : BitVec 6) (off : Nat) | nowhere
  deriving DecidableEq, Repr, Inhabited

/-- What a transfer command does. -/
inductive XKind where
  | move | pull | dup | drop | promote | fill (val : Byte) | arrive (target : BitVec 32) | kick (chn : BitVec 4)
  deriving DecidableEq, Repr, Inhabited

/-- The states of a transfer command (R166). -/
inductive XState where
  | queued | probing | moving | done | stopped | cancelled
  deriving DecidableEq, Repr, Inhabited

/-- The operands of a transfer command as captured (R163, R179): what it does, its two sides, its length,
for a shaped move the descriptor and whether it moves planes, and the generator it will advance. -/
structure XOpnd where
  kind : XKind
  src : XSideLoc := .nowhere
  dst : XSideLoc := .nowhere
  len : Nat := 0
  shape : Option Word := none
  planes : Bool := false
  gen : Option (BitVec 4) := none
  /-- the position that the generator had when it was read (R163) -/
  pos : BitVec 32 := 0
  /-- a failed start has taken the generator's advance back (R164) -/
  back : Bool := false
  /-- the generator's position was at or past its limit (R117) -/
  limitBad : Bool := false
  deriving DecidableEq, Repr, Inhabited

/-- Why a transfer command has stopped (R179): the chair froze, a context error, or a level C fault, whose code
names a page fault, a poison error, an atom-state fault, or a failed check of R164 or R165. -/
inductive XCause where
  | freeze | context | fault (code : Nat)
  deriving DecidableEq, Repr, Inhabited

/-- A transfer command in an execution queue: its operands, for a KICK the recorded command it is at with
its index in the chain, its state, the first pair not yet done, and why it has stopped. -/
structure XCmd where
  op : XOpnd
  sub : Option XOpnd := none
  chidx : Nat := 0
  st : XState := .queued
  cause : Option XCause := none
  next : Nat := 0
  /-- leaves of the pages held against moves while it is MOVING (R166, R209) -/
  held : List Nat := []
  sig : Sig := {}
  deriving DecidableEq, Repr, Inhabited

/-- An execution queue with the status XSTAT reports (R176). -/
structure XQueue where
  cmds : List XCmd := []
  canc : Nat := 0
  vac : Bool := false
  loss : Bool := false
  stop : Bool := false
  rem : Nat := 0
  deriving DecidableEq, Repr, Inhabited

/-- An armed arrival word: its offset, its handle, and the ARRIVE's signal (R177). -/
structure Armed where
  off : Nat
  h : BitVec 6
  sig : Sig := {}
  deriving DecidableEq, Repr, Inhabited

/-- The first number by which a fault record names an armed arrival word; the numbers below name execution queues. -/
def Armed.firstPid : Nat := 64

/-- The transfer engine's state (R162, R171, R174). -/
structure TSide where
  xq : SMap XQueue := []
  shapes : SMap Word := []
  chains : SMap (List Instr) := []
  /-- a chain being recorded, and how many words it still takes -/
  record : Option (BitVec 4 × Nat) := none
  armed : List Armed := []
  deriving DecidableEq, Repr, Inhabited

/-! ## The near-memory port -/

/-- A near-memory command with its operands as captured at issue (R244, R264). -/
inductive NOp where
  | nmred (d : List Word) | nmatt (d : List Word) | nmopt (d : List Word) | nmmask (d : List Word)
  | bankOff (pc : Nat) | bankOn (pc : Nat)
  | bcst (pc : Nat) (va : Word) | bmac (pc k : Nat) (va : Word) (pa leaf : Nat) | brd (pc k : Nat)
  | pool (va : Word) (n : Nat) | arena (base : Word) (len : Nat)
  deriving DecidableEq, Repr, Inhabited

/-- An issued near-memory command: the stack it runs on, whether its unit has taken it, its first row
not done, whether GEN is already odd, and the NANROWS counted so far. -/
structure NPend where
  id : Nat
  op : NOp
  die : Nat := 0
  unit : Nat := 0
  accepted : Bool := false
  next : Nat := 0
  begun : Bool := false
  nanrows : Nat := 0
  sig : Sig := {}
  /-- the place of its word in the order in which the core took or fetched its words -/
  n : Nat := 0
  /-- NMRED: the rows that have joined, the values they gave, and the row being read with its bytes so far -/
  cnt : Nat := 0
  acc : List Nat := []
  row : Option Word := none
  buf : List Byte := []
  /-- NMOPT and NMMASK: the writes of the row that are still to be made, and whether the row holds a NaN -/
  writes : List (Word × List Byte) := []
  nan : Bool := false
  /-- the leaves of the pages that the command has counted (R210) -/
  pages : List Nat := []
  deriving DecidableEq, Repr, Inhabited

/-- A slot of the near-memory result FIFO: the command it is reserved for, the result, and the first cycle that
may pop it (R94, R95). -/
structure NmEntry where
  id : Nat
  result : Option Vec := none
  at_ : Nat := 0
  deriving DecidableEq, Repr, Inhabited

structure NSide where
  /-- the address that the descriptor word at the head has read: its release still waits (R244, R249) -/
  cap : Option Word := none
  pend : List NPend := []
  fifo : List NmEntry := []
  deriving DecidableEq, Repr, Inhabited

/-! ## The fabric port -/

/-- A message in an inbox (R301 to R304). -/
structure Msg where
  tag : BitVec 16 := 0
  srank : Nat := 0
  score : Nat := 0
  arg : Word := 0
  pkg : Bool := true
  sc : Scope := .package
  payload : List (AtomState × List Byte) := []
  held : Bool := false
  deriving DecidableEq, Repr, Inhabited

/-- An armed BARSEM link or a registered BARW: the word's physical address, G0, and for a link the
semaphore it adds to (R284). -/
structure Link1 where
  pa : Nat
  g0 : Nat
  sem : Option (BitVec 8) := none
  remote : Option Nat := none
  /-- an event in which GEN differs from G0 has been seen -/
  passed : Bool := false
  /-- the word it came from, which a record of an overflow names (R106) -/
  sig : Sig := {}
  deriving DecidableEq, Repr, Inhabited

/-- An issued FAB word whose signal is still owed: how many packets are not yet acknowledged. -/
structure FPend where
  id : Nat
  left : Nat
  sig : Sig := {}
  deriving DecidableEq, Repr, Inhabited

/-- The registers that the FAB word at the head of its queue has read at its issue: a_a, a_b and s_s (R284, R298). -/
structure FabRegs where
  a : Word := 0
  b : Word := 0
  s : Word := 0
  deriving DecidableEq, Repr, Inhabited

structure FSide where
  frank : BitVec 10 := 0
  /-- the word at the head has issued, and its release still waits -/
  cap : Option FabRegs := none
  inbox : List Msg := []
  links : List Link1 := []
  barw : Option Link1 := none
  pend : List FPend := []
  deriving DecidableEq, Repr, Inhabited

/-! ## The core -/

/-- The states of a core in its chair (R59); FROZEN is the chair's. -/
inductive CorePhase where
  | drafting | leaving | detached | joining | exited
  deriving DecidableEq, Repr, Inhabited

/-- A page fault's own fields (R214). -/
structure PageRec where
  point : Nat
  need : BitVec 3
  reason : Nat
  va : Word
  base : Word
  rem : Nat
  lis : List Nat := []
  deriving DecidableEq, Repr, Inhabited

/-- A level C record (R225). -/
structure Rec where
  code : Nat
  prov : Prov := {}
  w : Word := 0
  lits : List (BitVec 32) := []
  eng : Nat := 0
  page : Option PageRec := none
  /-- for a semaphore overflow, the semaphore (R106) -/
  sem : Nat := 0
  /-- for the overflow of an arrival from outside, its SRANK and SCORE (R303) -/
  sender : Option (Nat × Nat) := none
  /-- the number of the issued word in its engine, where the word had left its queue -/
  pid : Option Nat := none
  /-- the key of the probe tag entry whose fill or eviction faulted (R124) -/
  tagKey : Option Nat := none
  deriving DecidableEq, Repr, Inhabited

/-- A core: its place in the chair's stream (R57 to R61), its queues, its semaphores, its engines and
its scratchpad. -/
structure Core where
  phase : CorePhase := .drafting
  pos : BitVec 28 := 0
  tag : Option (BitVec 8) := none
  d : BitVec 28 := 0
  spc : Word := 0
  spc0 : Word := 0
  dgpc : BitVec 13 := 0
  dlis : List Nat := []
  pin : SMap Nat := []
  sp : SMap Nat := []
  /-- words taken and fetched so far -/
  taken : Nat := 0
  /-- a fetched control word of the stream that waits (R63) -/
  buf : Option QWord := none
  queues : SMap (List QWord) := []
  sem : SMap Nat := []
  /-- the wait clause of the head word of an engine has passed -/
  waited : SMap Bool := []
  /-- the cycle in which the head word of an engine began to wait (R105) -/
  since : SMap Nat := []
  /-- the cycle in which each engine issued last; key 0 is the taking -/
  issued : SMap Nat := []
  /-- additions to a semaphore in the cycle named, and their sum (R105) -/
  adds : SMap (Nat × Nat) := []
  /-- the cycle in which a wait on a semaphore last passed, plus one (R105) -/
  took : SMap Nat := []
  /-- the entries pushed into each queue in the cycle named (R94), by the queue's key -/
  pushed : SMap (Nat × Nat) := []
  /-- additions that come too late in their cycle, or to a frozen chair: the semaphore, the amount, the signal and
  the engine (R105, R224) -/
  later : List (Nat × Nat × Sig × Nat) := []
  rec_ : Option Rec := none
  a : ASide := {}
  x : XSide := {}
  m : MSide := {}
  t : TSide := {}
  n : NSide := {}
  f : FSide := {}
  spad : Space := {}
  deriving DecidableEq, Repr, Inhabited

/-! ## The chair -/

/-- The states of a handle (R130). -/
inductive HandleState where
  | free | held (c : Nat) | offered (c t : Nat)
  deriving DecidableEq, Repr, Inhabited

/-- A handle: its state, the core whose scratchpad holds its region, and the region in atoms. -/
structure Handle where
  st : HandleState := .free
  home : Nat := 0
  base : Nat := 0
  len : Nat := 0
  deriving DecidableEq, Repr, Inhabited

/-- A quad: the last holder, and the cycle from which the furnace takes a command (R189, R190). -/
structure Quad where
  last : Nat := 3
  busy : Nat := 0
  /-- the cycle in which the furnace became free, and whether a holder stands -/
  freeAt : Nat := 0
  deriving DecidableEq, Repr, Inhabited

/-- The chair states of R219, with IDLE for a chair no context holds. -/
inductive ChairState where
  | idle | run | halted | saved | exited
  deriving DecidableEq, Repr, Inhabited

/-- How a gaffer goes on after a halt (R228). -/
structure Cont where
  pc : BitVec 13 := 0
  ds : Bool := false
  dt : BitVec 13 := 0
  taken : Bool := false
  leave : Option Nat := none
  trap : Bool := false
  /-- the chair wait of the word at PC has passed (R17) -/
  waited : Bool := false
  /-- by how much a core's Pin held less than that wait took (R85) -/
  short : SMap Nat := []
  /-- the literals of the word at PC, where they lie before it (R19) -/
  lits : List (BitVec 32) := []
  /-- the gaffer has executed EXIT (R67) -/
  exited : Bool := false
  /-- the N and i0 of the LOOPP at PC, which goes on from a soft point (R79) -/
  resume : Option (Nat × Nat) := none
  /-- a soft save is draining a level (R79) -/
  drain : Option (Nat × Nat × Nat) := none
  deriving DecidableEq, Repr, Inhabited

/-- The chair part of a frame (R225). -/
structure Frame where
  /-- cause being served: level (true: C), code, TRAP code, the gaffer word -/
  levelC : Bool := false
  cause : Nat := 0
  trapCode : BitVec 20 := 0
  gword : Word := 0
  /-- the provenance of that word (R24, R227) -/
  gprov : Prov := {}
  /-- the freeze cycle, by the time that the context's own delays count in -/
  cycle : Nat := 0
  /-- the freeze cycle's value of the chair's counter (R14) -/
  counter : Nat := 0
  hnest : Bool := false
  /-- the level G cause shares its halt with level C records -/
  both : Bool := false
  cont : Cont := {}
  held : Option Cont := none
  /-- where the handler goes on, when a hard pre-emption has halted it (R230, R232) -/
  inner : Option Cont := none
  savedG : SMap Word := []
  hscratch : Word := 0
  fsel : Nat := 0
  mode : Bool := false
  handler : Bool := false
  /-- a hard pre-emption (R232) -/
  hard : Bool := false
  levels : SMap Level := []
  depth : Nat := 0
  deriving DecidableEq, Repr, Inhabited

/-- A halt that has been asked for and not yet taken: the cycle in which the cause arose. -/
structure Halt where
  cycle : Nat
  hard : Bool := false
  deriving DecidableEq, Repr, Inhabited

/-- A chair (R219): its gaffer, ring, cores, handles and quads. -/
structure Chair where
  st : ChairState := .idle
  tenant : Option Nat := none
  ctx : Option Nat := none
  idx : Nat := 0
  /-- the chair's own cycle counter since its reset (R14) -/
  clock : Nat := 0
  /-- the time that delays count in: it goes with the context that the chair runs, and stands while it is frozen -/
  cycle : Nat := 0
  budget : Nat := 0
  req : Bool := false
  gf : Gaffer := {}
  ring : SMap Slot := []
  cores : SMap Core := []
  handles : SMap Handle := []
  quads : SMap Quad := []
  /-- a level G fault raised and not yet halted for -/
  gfault : Option (Nat × BitVec 20) := none
  halt : Option Halt := none
  frame : Frame := {}
  /-- withdrawn by the scheduler, and told so (R318) -/
  withdrawn : Bool := false
  /-- the chair has run its first word -/
  started : Bool := false
  deriving DecidableEq, Repr, Inhabited

/-! ## Contexts -/

/-- The states of a context (R219). -/
inductive CtxState where
  | free | loading | ready | running | frozen | preempted | faulted | dead
  deriving DecidableEq, Repr, Inhabited

/-- A chair in its save block: what lies in the block besides the atoms and tiles (R234).
DEDUCED (assumption 39). -/
structure SavedChair where
  chair : Chair := {}
  /-- the chair's package index when it was saved -/
  from_ : Nat := 0
  deriving DecidableEq, Repr, Inhabited

/-- An arena (R265). -/
structure Arena where
  base : Word
  len : Nat
  deriving DecidableEq, Repr, Inhabited

/-- A context: its state, descriptor (R221), record (R332), job (R296), chairs, log (R238), arenas and
replay position (R355). -/
structure Ctx where
  st : CtxState := .free
  die : Nat := 0
  desc : List Word := []
  mr : BitVec 384 := 0
  next : Nat := 0
  entry : BitVec 13 := 0
  code : SMap Word := []
  job : Nat := 0
  rank : Nat := 0
  ranks : List Nat := []
  chairs : List Nat := []
  /-- chairs of the context that have executed EXIT and finished, by index -/
  gone : List Nat := []
  saved : SMap SavedChair := []
  logW : Nat := 0
  logR : Nat := 0
  logOver : Nat := 0
  /-- log entries that wait for a pseudo-channel in GANG mode, oldest first (R263) -/
  logHeld : List (List Byte) := []
  arenas : List Arena := []
  /-- entries recorded or consumed, by chair (R354, R355) -/
  rr : SMap Nat := []
  /-- the container that is being loaded, and how many of its segments stand in their places (R332) -/
  image : List Byte := []
  placed : Nat := 0
  /-- the stream segments that the loader has measured and sealed: each one's virtual address and bytes (R332, R333) -/
  sealed : List (Word × List Byte) := []
  /-- the entries of the supplied log, once the log's own entries may overwrite them (R355) -/
  script : Option (List (List Byte)) := none
  /-- the kernel the context runs: lead die and launch sequence number -/
  kernel : Option (Nat × Nat) := none
  reason : Nat := 0
  deriving DecidableEq, Repr, Inhabited

/-! ## Pages -/

/-- The states of a page (R208). -/
inductive PageState where
  | resident | migrating | arriving | departing | deep
  deriving DecidableEq, Repr, Inhabited

/-- What the derailleur keeps for a page, by its leaf's address (R210, R211): state, window count, die
counts of the epoch, budget spent, the frame a move goes to, the deep address of a departure, pins. -/
structure Page where
  st : PageState := .resident
  /-- the context whose access the page was first counted for -/
  ctx : Option Nat := none
  va : Word := 0
  window : Nat := 0
  epoch : Nat := 0
  dies : SMap Nat := []
  used : Nat := 0
  target : Nat := 0
  holds : Nat := 0
  /-- the requester's die of an arrival -/
  asker : Nat := 0
  deriving DecidableEq, Repr, Inhabited

/-! ## Links, packets, jobs -/

/-- The states of a link (R294). -/
inductive LinkState where
  | down | training | up | retry | stopped | failed
  deriving DecidableEq, Repr, Inhabited

/-- A flit that its sender holds unacknowledged: its sequence number, its packet, and how many flits the sender had
sent before it. -/
structure Flit where
  seq : Nat
  pkt : Nat
  at_ : Nat := 0
  deriving DecidableEq, Repr, Inhabited

/-- One direction of a link: the next sequence number, the flits sent, the unacknowledged ones, the replays of the
first of them, the last one received, and the flits that a stopped receiver has saved. -/
structure LinkDir where
  nextSeq : Nat := 0
  sent : Nat := 0
  unacked : List Flit := []
  replays : Nat := 0
  /-- the flits with a lower sequence number are those of the last replay -/
  replayed : Nat := 0
  got : Option Nat := none
  saved : List Flit := []
  deriving DecidableEq, Repr, Inhabited

structure Link where
  st : LinkState := .down
  tries : Nat := 0
  fwd : LinkDir := {}
  back : LinkDir := {}
  deriving DecidableEq, Repr, Inhabited

/-- A packet's TYPE (R295). -/
inductive PktType where
  | putData | getReq | getResp | message | barrier | reply
  deriving DecidableEq, Repr, Inhabited

/-- A barrier operation in a packet (R299). -/
inductive BarOp where
  | init (target : BitVec 32) (sc : Scope) (h : Option (BitVec 6)) | arrive (n : Nat) | wait (ph : Bool)
  | link (ph : Bool) (k : BitVec 8)
  /-- a counted atom of handle `h` of chair `ch` of another package, whose BARINIT has bound the word (R282) -/
  | counted (h : BitVec 6) (ch : Nat)
  deriving DecidableEq, Repr, Inhabited

/-- A packet in the fabric (R295), with the context and FAB word it belongs to. -/
structure Pkt where
  num : Nat
  ty : PktType
  job : Nat := 0
  ctx : Nat := 0
  srank : Nat := 0
  drank : Nat := 0
  score : Nat := 0
  dcore : Nat := 0
  nsem : BitVec 8 := 0
  pkg : Bool := true
  sc : Scope := .package
  tag : BitVec 16 := 0
  len : Nat := 0
  addr : Word := 0
  arg : Word := 0
  h : BitVec 6 := 0
  data : List (AtomState × List Byte) := []
  bar : BarOp := .arrive 0
  /-- the FAB word's number at the issuing core -/
  fid : Nat := 0
  code : Nat := 0
  order : Nat := 0
  prov : Prov := {}
  /-- the issuing core's chair, by package index (R284) -/
  chair : Nat := 0
  /-- the die whose port injected it -/
  die : Nat := 0
  /-- where it is: in a die, or at the hub (R8, R9) -/
  pos : Option Nat := some 0
  /-- the places that the atoms of its data were taken from -/
  srcs : List Nat := []
  /-- an acknowledgement: the sources of data lost at the destination, each with the atom that is POISON there (R300) -/
  lost : List (Nat × Nat) := []
  deriving DecidableEq, Repr, Inhabited

/-- The counter pairs of a fabric interface for a job (R297): package I and C, system I and C. -/
structure Pair where
  pi : BitVec 64 := 0
  pc : BitVec 64 := 0
  si : BitVec 64 := 0
  sc : BitVec 64 := 0
  deriving DecidableEq, Repr, Inhabited

/-- An outstanding loss (R308). -/
structure Loss where
  id : Nat
  job : Nat
  pkts : List Pkt := []
  count : Nat := 0
  sysOnly : Bool := false
  deriving DecidableEq, Repr, Inhabited

/-- A broom wave in progress (R306): its job and pair, its number, and what pass 1 summed. -/
structure Wave where
  job : Nat
  sys : Bool
  num : Nat
  pass1 : Option (Nat × Nat × Nat) := none
  deriving DecidableEq, Repr, Inhabited

/-- A BYTES binding of a barrier word to a handle (R282): the word, the context, the chair it runs on now, the CHAIR that
the word names, and the handle; where the word is in another package, its rank and address there. -/
structure Binding where
  pa : Nat
  far : Option (Nat × Word) := none
  ctx : Nat := 0
  ch : Nat
  named : Nat := 0
  h : BitVec 6
  deriving DecidableEq, Repr, Inhabited

/-! ## Dies -/

/-- The states of a kernel (R315). -/
inductive KernelState where
  | queued | waiting | issuing | running | retired | failed
  deriving DecidableEq, Repr, Inhabited

/-- A kernel: its launch record, sequence number, the dies it got in the order they joined, which the groups of its
chairs follow, the groups that have left and the one that is marked, the range given out, and the graph node it belongs
to (R318). -/
structure Kernel where
  seq : Nat
  words : List Word
  st : KernelState := .queued
  dies : List Nat := []
  left : List Nat := []
  marked : Option Nat := none
  given : Nat := 0
  /-- the dispatcher has asked its context to make room for a kernel of higher priority (R325) -/
  asked : Bool := false
  /-- the graph node it belongs to: the graph's sequence number and the node -/
  node : Option (Nat × Nat) := none
  /-- leaves of the pages of its streams, held until it retires (R317) -/
  held : List Nat := []
  deriving DecidableEq, Repr, Inhabited

/-- A graph node's progress (R321). -/
inductive NodeState where
  | idle | running | done | skipped
  deriving DecidableEq, Repr, Inhabited

structure Node where
  words : List Word
  st : NodeState := .idle
  count : Nat := 0
  /-- a BACK edge or a while has readied it -/
  again : Bool := false
  /-- the node has run -/
  ran : Bool := false
  /-- the tenant of its kernel, once that has ended (R323) -/
  tenant : Option Nat := none
  deriving DecidableEq, Repr, Inhabited

/-- A running task graph (R320 to R322). -/
structure Graph where
  seq : Nat
  /-- the launch record stands in the launch queue (R316) -/
  queued : Bool := false
  nodes : SMap Node := []
  failed : Option (Nat × Nat) := none
  cancelled : Bool := false
  finished : Bool := false
  irq : Option Nat := none
  deriving DecidableEq, Repr, Inhabited

/-- GANG mode of a pseudo-channel (R263): the owning core (chair, core), the bank accumulators under key
16 k + b, and the gang buffer. -/
structure Gang where
  ch : Nat
  core : Nat
  acc : SMap (BitVec 32) := []
  buf : SMap (BitVec 16) := []
  deriving DecidableEq, Repr, Inhabited

/-- A pseudo-channel: the context it is granted to, its gang (`none` in NORMAL mode), and the gangs that frames
keep while chairs of their contexts are halted or saved, each with its context (R263). -/
structure PChan where
  grant : Option Nat := none
  gang : Option Gang := none
  kept : List (Nat × Gang) := []
  deriving DecidableEq, Repr, Inhabited

/-- A die: bring-up and attestation (R328, R352, R334), management registers (R353), key slots (R331), slot
tables (R323), the arena pool (R266), the pseudo-channels, the launch queue, scoreboard and graphs. -/
structure Die where
  ready : Bool := false
  /-- the step of its bring-up that it stands in, or at which a failure has stopped it (R352) -/
  stage : Nat := 0
  stuck : Bool := false
  recovery : Bool := false
  fwm : BitVec 384 := 0
  repSeq : Nat := 0
  /-- the last attestation report, as bytes -/
  report : List Byte := []
  errlog : Nat := 0
  flow : Word := 0
  scrubn : BitVec 16 := 0
  pooln : BitVec 32 := 0
  /-- GGRANT as last written (R353) -/
  ggrant : Word := 0
  therm : BitVec 16 := 0
  /-- the clock in steps of 250 MHz below 3 GHz (R351) -/
  slow : Nat := 0
  noLaunch : Bool := false
  rrNrec : BitVec 32 := 0
  rrDiv : BitVec 32 := 0
  keys : SMap (List Byte) := []
  stackSlots : SMap Nat := []
  xferSlots : SMap Nat := []
  pool : List Nat := []
  chans : SMap PChan := []
  launchQ : List Nat := []
  /-- graph launches refused and reported to the host (R320) -/
  refusals : Nat := 0
  nextSeq : Nat := 0
  kernels : List Kernel := []
  graphs : List Graph := []
  /-- the free frames of the stack have fallen below the low mark and not yet reached the high mark (R210) -/
  demoting : Bool := false
  deriving DecidableEq, Repr, Inhabited

/-! ## Turns -/

/-- Who moves next.  One core's engines, the gaffers, the transfer engines and the outside move apart from
one another; a turn names one of them and one indivisible move. -/
inductive Turn where
  /-- the gaffer of a chair fetches and runs its next word -/
  | gaffer (ch : Nat)
  /-- an engine of a core starts the head of its queue -/
  | engine (ch c e : Nat)
  /-- a core runs the control word it has fetched from its stream -/
  | control (ch c : Nat)
  /-- the chair's clock moves on by one cycle -/
  | cycle (ch : Nat)
  /-- execution queue q moves one atom pair -/
  | atom (ch c q : Nat)
  /-- a step that no word of a program performs -/
  | event (i : Instr)
  /-- a link's sender puts a flit of a packet, or an idle one, on the link -/
  | flit (l dir : Nat) (pkt : Option Nat)
  /-- started ACCRD or ACCWR `k` of core `c` moves one atom -/
  | tile (ch c k : Nat)
  /-- near-memory command `k` of core `c` does one row -/
  | row (ch c k : Nat)
  /-- the loader goes on with the container of context `k` -/
  | load (k : Nat)
  /-- the die controller applies a host write that a replayed chair's log gives next -/
  | replayed (ch : Nat)
  /-- a die controller reads its junction temperature -/
  | sense (die temp : Nat)
  /-- an atom of memory takes an uncorrectable error -/
  | upset (pa : Nat)
  /-- an atom of a scratchpad takes one -/
  | upsetSpad (ch c off : Nat)
  /-- an accumulator tile takes one -/
  | upsetTile (ch c t : Nat)
  /-- the next atom of a PUT data packet is written at its home -/
  | land (num : Nat)
  /-- a packet of another package of the job comes in over a spoke link -/
  | inbound (p : Pkt)
  deriving DecidableEq, Repr, Inhabited

/-- The word being run, and where. -/
structure Act where
  chair : Nat := 0
  core : Nat := 0
  eng : Nat := 0
  clause : Clause := {}
  prov : Prov := {}
  lis : List Nat := []
  w : Word := 0
  lits : List (BitVec 32) := []
  /-- its place in the order in which the core took or fetched its words -/
  n : Nat := 0
  /-- the word that the core is about to take or fetch is one that R34 admits -/
  lawful : Bool := true
  deriving DecidableEq, Repr, Inhabited

/-- The state of the package. -/
structure State where
  mem : Space := {}
  deep : Space := {}
  pages : SMap Page := []
  /-- the owner tag of each 4 KiB frame: the context's ID plus one; unlisted: unowned (R218) -/
  frames : SMap Nat := []
  chairs : SMap Chair := []
  ctxs : SMap Ctx := []
  dies : SMap Die := []
  links : SMap Link := []
  net : List Pkt := []
  pktNum : Nat := 0
  pairs : SMap Pair := []
  losses : List Loss := []
  lossNum : Nat := 0
  waves : List Wave := []
  waveNum : Nat := 0
  /-- every unit has been stopped (R312) -/
  stopped : Bool := false
  binds : List Binding := []
  agenda : List Turn := []
  tick : Nat := 0
  act : Act := {}
  deriving DecidableEq, Repr, Inhabited

/-- The package right after reset (R158, R323, R352): every atom and tile VACANT, every handle FREE, every
chair of no tenant and no context, every context FREE, every link DOWN, every die before its bring-up.
DESIGN CHOICE (assumptions 2 and 3): what the manual gives no reset value is zero or empty. -/
def State.reset : State := {}

end Sys2Proof.Machine
end

