-- ==== Sys2Proof/Config.lean ====
section
/-!
DEFINITION. What the manual fixes for the device, and the free values: opaque constants for what it leaves
open.  Nothing can be proved about the value of a free value.
-/

namespace Sys2Proof

open Machine in
/-- FREE VALUE. Which turn comes next when no turn is asked for: durations and the order between engines
are free (R13, R356). -/
opaque Config.freeTurn : Nat → Turn

/-- FREE VALUE. A choice the device makes freely: a TLB victim (R207), a die's free frames (R210, R266),
the chairs the dispatcher grants (R318). -/
opaque Config.freeNat : Nat → Nat

/-- FREE VALUE. SHA-384 (R328, R330, R332). -/
opaque Config.sha384 : List Byte → BitVec 384

/-- FREE VALUE. ECDSA P-384 verification: key, digest, signature (R330). -/
opaque Config.ecdsaValid : List Byte → BitVec 384 → List Byte → Bool

/-- FREE VALUE. The Bretia root key in the boot ROM (R328). -/
opaque Config.rootKey : List Byte

/-- FREE VALUE. The signature of a digest by the attestation key that a die derives from its fused secret
and a firmware measurement (R328, R334): die, measurement, digest. -/
opaque Config.attestSign : Nat → BitVec 384 → BitVec 384 → List Byte

open Machine in
/-- FREE VALUE. The bytes in which a save block holds the items of a chair for which the manual gives no layout (R234):
the chair, and the number of the byte. -/
opaque Config.itemByte : Chair → Nat → Byte

open Machine in
/-- FREE VALUE. The chair that a restore reads from such bytes when system software has changed them (R235). -/
opaque Config.itemsRead : List Byte → Chair

/-- Bytes of one stack (R206). -/
def Config.stackBytes : Nat := 0x1800000000

/-- The host tier's first physical address (R206). -/
def Config.hostBase : Nat := 0x8000000000000

/-- Physical addresses are 52 bits (R206). -/
def Config.physTop : Nat := 0x10000000000000

/-- The scratchpad's bytes (R164). -/
def Config.spadBytes : Nat := 0x50000

/-- Queue depths (R93). -/
def Config.wordQueue : Nat := 32
def Config.dataQueue : Nat := 16
def Config.outcomeQueue : Nat := 32
def Config.formatQueue : Nat := 16
def Config.laneDepth : Nat := 16
def Config.deferBatches : Nat := 256
def Config.resultFifo : Nat := 8
def Config.inboxDepth : Nat := 64

/-! Link numbers.  DESIGN CHOICE (assumption 59): the manual numbers no links. -/

/-- The ten die bridges, by number: the dies that each joins (R8). -/
def Config.bridges : List (Nat × Nat) :=
  [(0, 1), (1, 2), (2, 3), (4, 5), (5, 6), (6, 7), (0, 4), (1, 5), (2, 6), (3, 7)]

/-- The hub link of die d is this plus d (R292). -/
def Config.hubBase : Nat := 0x10

/-- The ports of the hub that carry no packet of R295, from this number on: the UCIe host port, the two CXL ports, and
the two flash controller dies (R9, R292). -/
def Config.portBase : Nat := 0x20

/-- The mesh links of die d are those from this plus 0x100 d on, 0x100 numbers each (R292). -/
def Config.meshBase : Nat := 0x100

/-- The mesh links of a die: one for each of its 32 chair routers, its stack port, its die controller and up to three
bridges (R292). -/
def Config.meshLinks : Nat := 37

/-- The bytes of the deep tier that one flash controller serves (R9). -/
def Config.flashBytes : Nat := 2 ^ 42

/-- The port of the flash controller that serves a deep address (R9, R216). -/
def Config.flashPort (pa : Nat) : Nat := Config.portBase + 3 + pa / Config.flashBytes

/-- Which of the host port and the two CXL ports maps a host-tier address (R206): the configuration of these ports, which the
manual does not expose (R293).
DESIGN CHOICE (assumption 59). -/
opaque Config.hostUnit : Nat → Nat

/-- The port that maps a host-tier address. -/
def Config.hostPort (pa : Nat) : Nat := Config.portBase + Config.hostUnit pa % 3

/-- The first of the sixteen spoke links, which join the hubs of two packages (R6, R292). -/
def Config.spokeBase : Nat := 0x1000

/-- The home die of a physical stack address (R206). -/
def homeDie (pa : Nat) : Nat := pa / Config.stackBytes

/-- A physical address lies in a stack (R206). -/
def inStack (pa : Nat) : Bool := pa < 8 * Config.stackBytes

/-- A physical address lies in the host tier (R206). -/
def inHost (pa : Nat) : Bool := Config.hostBase ≤ pa && pa < Config.physTop

/-- Dies joined to a die by a bridge, lowest first (R8). -/
def bridged (d : Nat) : List Nat :=
  (List.range 8).filter fun e => (e / 4 == d / 4 && (e + 1 == d || d + 1 == e)) || e == (d ^^^ 4)

end Sys2Proof
end

