-- ==== Sys2Proof/WellFormed.lean ====
section
/-!
DEFINITION. Which instructions and clauses the manual admits: the static limits of R17, R23 and of
the instructions' own chapters.  An instruction that fails one of them is no instruction; its word
is an illegal word, or in gaffer code an illegal gaffer instruction.
-/

namespace Sys2Proof

/-- A canonical address: 57 bits, sign-extended to 64 (R115). -/
def canonical (a : Word) : Bool := (field 0 57 a).signExtend 64 == a

/-- The scratchpad offset of the XM form: atoms 0 to 0x27FF (R21). -/
def spoOk (spo : BitVec 14) : Bool := spo.toNat ≤ 0x27FF

/-- A tile operand's static limits (R21). -/
def XTile.ok : XTile → Bool
  | .toSp _ spo _ => spoOk spo
  | .toMem _ _ spo => spoOk spo
  | .memMem _ _ => true

/-- The shaped moves take dir 0b000 and 0b001 only (R172). -/
def XTile.shapedOk : XTile → Bool
  | .toSp _ spo _ => spoOk spo
  | .toMem _ _ spo => spoOk spo
  | .memMem _ _ => false

/-- A tile range acc to acc + k lies in acc0 to acc511 (R199). -/
def accOk (acc : BitVec 9) (k : BitVec 5) : Bool := acc.toNat + k.toNat ≤ 511

/-- Gaffer CSRs that CSRR may read (R70, R227). -/
def gafCsrReads : List Nat :=
  [0x001, 0x002, 0x003, 0x00A, 0x020, 0x021, 0x022, 0x023, 0x024, 0x025, 0x026, 0x027, 0x028, 0x029,
   0x040, 0x041, 0x042, 0x043, 0x044, 0x045]

/-- Core CSRs that a table assigns (R237, R299, R324). -/
def coreCsrs : List Nat :=
  [0x001, 0x002, 0x003, 0x010, 0x011, 0x012, 0x013, 0x030, 0x031, 0x032, 0x033, 0x034,
   0x038, 0x039, 0x03A, 0x03B, 0x03C]

/-- The core CSRs whose writes are rows of the opcode table of their own. -/
def ownRowCsrs : List Nat := [0x031, 0x032, 0x033, 0x039]

/-- The static limits of an instruction's fields. -/
def wellFormed : Instr → Bool
  | .bfx _ _ pos wm1 => pos.toNat + wm1.toNat + 1 ≤ 64
  | .bfi _ _ pos wm1 => pos.toNat + wm1.toNat + 1 ≤ 64
  | .loop _ _ off => 1 ≤ off.toNat && off.toNat ≤ 8191
  | .loopp _ _ off => 1 ≤ off.toNat && off.toNat ≤ 8191
  | .expect _ _ k => k != 0
  | .detq _ sel => sel.toNat ≤ 2
  | .gpop _ _ op => op.toNat ≤ 4
  | .wquiet sc => 1 ≤ sc.toNat && sc.toNat ≤ 4
  | .csrr _ csr => gafCsrReads.contains csr.toNat
  | .csrw _ csr => csr.toNat == 0x00A
  | .lit eng _ => eng.toNat ≤ 7
  | .amul _ _ _ mode => mode.toNat ≤ 2
  | .bqskip _ n => n != 0
  | .watch _ a b kind => kind != 0 || (a == 0 && b == 0)
  | .drain d _ => d.toNat ≠ 511
  | .vcompnm d _ mode => d.toNat ≠ 511 && mode.toNat ≤ 2
  | .lease n => 1 ≤ n.toNat && n.toNat ≤ 64
  | .mset _ off => off.toNat < 0x50000 && off.toNat % 32 == 0
  | .minc _ off => off.toNat % 32 == 0
  | .accz acc k => accOk acc k
  | .accrd acc _ k => accOk acc k
  | .accwr acc _ k => accOk acc k
  | .accwb acc _ k => accOk acc k
  | .accmv acc s k =>
    accOk acc k && accOk s k &&
      (acc.toNat + k.toNat < s.toNat || s.toNat + k.toNat < acc.toNat)
  | .accrel acc k => accOk acc k
  | .move t _ _ => t.ok
  | .movePull _ spo _ _ => spoOk spo
  | .dup t _ _ => t.ok
  | .drop (.sp _ spo) _ _ => spoOk spo
  | .promote t _ _ => t.ok
  | .move2d t _ _ => t.shapedOk
  | .move3d t _ _ => t.shapedOk
  | .chlink _ n => 1 ≤ n.toNat && n.toNat ≤ 32
  | .nmbankOff pc => pc.toNat ≤ 191
  | .nmbankOn pc => pc.toNat ≤ 191
  | .nmbcst pc _ => pc.toNat ≤ 191
  | .nmbmac pc _ _ => pc.toNat ≤ 191
  | .nmbrd pc _ => pc.toNat ≤ 191
  | .nmpool _ n => 1 ≤ n.toNat && n.toNat ≤ 65536
  | .put _ _ sc _ => sc == .package || sc == .system
  | .getw _ _ _ sc _ => sc == .package || sc == .system
  | .mrecv d e _ => d != e || d == 0
  | .barinit _ _ _ target => target != 0
  | .barv _ n => n != 0
  | .barsem _ k _ => k != 0
  | .detach _ addr => canonical addr && addr.toNat % 8 == 0
  | .csrrc _ csr => coreCsrs.contains csr.toNat
  | .csrwc csr _ => coreCsrs.contains csr.toNat && !ownRowCsrs.contains csr.toNat
  | _ => true

/-- The engine whose words an instruction belongs to (R18); `none` for a step no word performs. -/
def Instr.engine : Instr → Option Nat
  | .nop | .add .. | .sub .. | .mul .. | .mulh .. | .mulhu .. | .div .. | .divu .. | .rem ..
  | .and .. | .or .. | .xor .. | .shl .. | .shr .. | .sar .. | .min .. | .max .. | .minu ..
  | .maxu .. | .seq .. | .slt .. | .sltu .. | .bfx .. | .bfi .. | .clz .. | .popc .. | .addi ..
  | .andi .. | .ori .. | .xori .. | .shli .. | .shri .. | .sari .. | .slti .. | .lui .. | .ldl ..
  | .stl .. | .ldlw .. | .stlw .. | .beq .. | .bne .. | .blt .. | .bge .. | .bltu .. | .bgeu ..
  | .jal .. | .jalr .. | .loop .. | .loopp .. | .lbrk .. | .emit .. | .emitp .. | .emitt ..
  | .fmt .. | .expect .. | .joinpt .. | .joinw .. | .detq .. | .chairw .. | .gpop .. | .gpopn ..
  | .grab .. | .step .. | .yield | .exit | .semrd .. | .wquiet .. | .csrr .. | .csrw ..
  | .fselWrite .. | .trap .. | .resume | .reinject .. | .savectx .. | .restctx .. => some 0
  | .lit eng _ => some eng.toNat
  | .ldq .. | .ldqMv .. | .ldqs .. | .ldqsMv .. | .ldqg .. | .ldqgMv .. | .stq .. | .stqs ..
  | .lds .. | .sts .. | .ldsq .. | .aadd .. | .asub .. | .amul .. | .ashl .. | .ashr .. | .aand ..
  | .aor .. | .amin .. | .amax .. | .aslt .. | .aaddi .. | .agset .. | .agsetB .. | .agnext ..
  | .agnextW .. | .agpos .. | .agrd .. | .bqpush .. | .bqskip .. | .probe .. | .pevict ..
  | .rprobe .. | .rprobeWait .. | .runpin .. | .atadd .. | .atfadd .. | .atmin .. | .atmax ..
  | .atxch .. | .atcas .. | .ator .. | .atand .. | .fence .. | .rel .. | .acq .. | .hgive ..
  | .htake .. | .hquery .. | .watch .. => some 1
  | .sadd .. | .ssub .. | .smul .. | .sand .. | .sor .. | .sxor .. | .sshl .. | .sshr .. | .sfadd ..
  | .sfmul .. | .smov .. | .spopq .. | .spushg .. | .bqout .. | .dqcnt .. | .vadd .. | .vsub ..
  | .vmul .. | .vmulh .. | .vmin .. | .vmax .. | .vabs .. | .vneg .. | .vand .. | .vor .. | .vxor ..
  | .vnot .. | .vshl .. | .vshr .. | .vsar .. | .vadds .. | .vfadd .. | .vfsub .. | .vfmul ..
  | .vfma .. | .vfmin .. | .vfmax .. | .vfabs .. | .vfneg .. | .vrcp .. | .vrsq .. | .vexp2 ..
  | .vlog2 .. | .vceq .. | .vclt .. | .vcle .. | .vfceq .. | .vfclt .. | .vfcle .. | .vfcun ..
  | .pand .. | .por .. | .pxor .. | .pnot .. | .pany .. | .pcnt .. | .vpopq .. | .vpushq ..
  | .vsel .. | .vbcast .. | .vperm .. | .vrot .. | .vext .. | .vins .. | .vmov .. | .vcvt ..
  | .vcvtd .. | .vpack .. | .vunpk .. | .vrsum .. | .vrmax .. | .vrmin .. | .vfrsum .. | .defer ..
  | .drain .. | .vcompnm .. | .vsett .. => some 2
  | .lease .. | .unlease | .mma .. | .mmat .. | .mset .. | .minc .. | .accz .. | .accrd ..
  | .accwr .. | .accwb .. | .accmv .. | .accrel .. | .mwait | .fmtskip => some 3
  | .move .. | .movePull .. | .dup .. | .drop .. | .promote .. | .move2d .. | .move3d ..
  | .xshape .. | .kick .. | .chlink .. | .arrive .. | .xfill .. | .xcancel .. | .xstat .. => some 4
  | .nmred .. | .nmatt .. | .nmopt .. | .nmmask .. | .nmbankOff .. | .nmbankOn .. | .nmbcst ..
  | .nmbmac .. | .nmbrd .. | .nmpop .. | .nmpool .. | .nmarena .. => some 5
  | .put .. | .getw .. | .amsend .. | .mrecv .. | .mdone | .qrepair .. | .barinit .. | .barv ..
  | .barw .. | .barsem .. => some 6
  | .detach .. | .join .. | .jmps .. | .brs .. | .cexit | .seminit .. | .semadd .. | .semwait ..
  | .cfence .. | .xsave .. | .xrest .. | .csrrc .. | .csrwc .. | .pcfgWrite .. | .acondWrite ..
  | .pqvaWrite .. | .frankWrite .. => some 7
  | _ => none

/-- The Where column of R33: DETACH stands in the ring only, the stream's control words in a stream
only, and every other word in either place. -/
def placeOk (inStream : Bool) : Instr → Bool
  | .detach .. => !inStream
  | .join .. | .jmps .. | .brs .. | .cexit => inStream
  | _ => true

/-- The loop stage a gaffer word carries (R17). -/
def Clause.stage (c : Clause) : Nat := (field 6 2 c.ssem).toNat

/-- The clause limits of R16, R17 and R62; a LIT carries no clause (R19). -/
def clauseOk (c : Clause) (i : Instr) : Bool :=
  let waitOk := c.wsem != 0 || c.wcnt == 0
  let none := c.wsem == 0 && c.wcnt == 0 && c.ssem == 0 && c.scnt == 0
  match i with
  | .lit .. => none
  | .jmps .. => none
  | .brs .. => none
  | .cexit => none
  | .detach .. => waitOk && c.ssem == 0 && c.scnt == 0
  | .join .. => waitOk && c.ssem == 0 && c.scnt == 0
  | _ =>
    if i.engine = some 0 then waitOk && field 0 6 c.ssem == 0 && c.scnt == 0
    else waitOk && (c.ssem != 0 || c.scnt == 0)

end Sys2Proof
end

