-- ==== Sys2Proof/Decode.lean ====
section
/-!
DEFINITION. Decoding a 64-bit word with its literals (R15 to R34), total and rejecting by name, and
after it the encoder, written from the same tables.

Some definitions are marked noncomputable for one reason only: Lean's compiler gives run-time tags to
at most 245 constructors of a type, and the opcode table has more rows.  The kernel evaluates them all.
-/

namespace Sys2Proof

/-- Why a word is no instruction (R20, R23, R34). -/
inductive DecodeError where
  /-- ENG 8 to 15 (R18) -/
  | engine
  /-- an unassigned opcode (R26 to R33) -/
  | opcode
  /-- a nonzero reserved bit (R21) -/
  | reserved
  /-- an inadmissible field value (R23) -/
  | field
  /-- a clause the word does not admit (R16, R17, R62) -/
  | clause
  /-- a literal mismatch (R20) -/
  | literal
  deriving DecidableEq, Repr, Inhabited

/-- What a decoding step answers. -/
abbrev Dec := Except DecodeError Instr

/-- No literal. -/
def lit0 (L : List (BitVec 32)) (k : Dec) : Dec :=
  match L with
  | [] => k
  | _ => .error .literal

/-- Exactly one literal. -/
def lit1 (L : List (BitVec 32)) (k : BitVec 32 → Dec) : Dec :=
  match L with
  | [l] => k l
  | _ => .error .literal

/-- Exactly two literals: the first is bits 31:0 (R19). -/
def lit2 (L : List (BitVec 32)) (k : BitVec 64 → Dec) : Dec :=
  match L with
  | [l, h] => k (h ++ l)
  | _ => .error .literal

/-- The scope codes of R22; 5 to 7 are reserved. -/
def withScope (s : BitVec 3) (k : Scope → Dec) : Dec :=
  if s = 0 then k .core else if s = 1 then k .chair else if s = 2 then k .die
  else if s = 3 then k .package else if s = 4 then k .system else .error .field

/-- The condition codes of R99, with the a field that must be zero except under `nz` and `z`. -/
def withCond (c : BitVec 3) (a : BitVec 5) (k : Cond → Dec) : Dec :=
  if c = 3 then k (.nz a) else if c = 4 then k (.z a)
  else if a = 0 then
    (if c = 1 then k .xa1 else if c = 2 then k .xa0 else if c = 5 then k .vs
     else if c = 6 then k .vc else if c = 7 then k .hit else .error .field)
  else .error .reserved

/-- The condition codes of R64. -/
def withBrs (c : BitVec 3) (k : BrsCond → Dec) : Dec :=
  if c = 1 then k .xa1 else if c = 2 then k .xa0 else if c = 3 then k .ax1
  else if c = 4 then k .ax0 else if c = 5 then k .vs else if c = 6 then k .vc else .error .field

/-- The element type codes of R136. -/
def withVType (t : BitVec 4) (k : VType → Dec) : Dec :=
  if t = 0 then k .f32 else if t = 1 then k .bf16 else if t = 2 then k .f16
  else if t = 4 then k .i8 else if t = 5 then k .u8 else if t = 6 then k .i16
  else if t = 7 then k .i32 else .error .field

/-- ACCWB's DST and register fields (R200). -/
def withAccDst (d : BitVec 2) (n : BitVec 5) (k : AccDst → Dec) : Dec :=
  if d = 1 then k (.mem n)
  else if field 4 1 n = 0 then
    (if d = 0 then k (.sp (field 0 4 n)) else if d = 2 then k (.gen (field 0 4 n)) else .error .field)
  else .error .reserved

/-- The at and an fields (R21): with at = 1, an[24] must be zero. -/
def withXAddr (n : BitVec 6) (k : XAddr → Dec) : Dec :=
  if field 5 1 n = 0 then k (.reg (field 0 5 n))
  else if field 4 1 n = 0 then k (.gen (field 0 4 n)) else .error .reserved

/-- The sides of a tile by dir (R167); h[5] and spo are zero in the memory-to-memory form. -/
def withTile (h : BitVec 6) (n : BitVec 6) (d : BitVec 3) (s : BitVec 14) (k : XTile → Dec) : Dec :=
  if d = 0 then withXAddr n fun n => k (.toSp h s n)
  else if d = 1 then withXAddr n fun n => k (.toMem n h s)
  else if d = 3 then
    (if field 5 1 h = 0 ∧ s = 0 then withXAddr n fun n => k (.memMem (field 0 5 h) n)
     else .error .reserved)
  else .error .field

/-- A shape slot literal: bits 31:3 zero (R30). -/
def withSlot (l : BitVec 32) (k : BitVec 3 → Dec) : Dec :=
  if field 3 29 l = 0 then k (field 0 3 l) else .error .field


/-! The operand forms of R21.  `d<form>` reads a form: it checks the bits that must be zero or one and
hands the fields to its continuation. -/

def dG3 (x : BitVec 32) (k : BitVec 6 → BitVec 6 → BitVec 6 → Dec) : Dec :=
  if field 0 14 x = 0 then k (field 26 6 x) (field 20 6 x) (field 14 6 x) else .error .reserved

def dG3b0 (x : BitVec 32) (k : BitVec 6 → BitVec 6 → Dec) : Dec :=
  if field 0 20 x = 0 then k (field 26 6 x) (field 20 6 x) else .error .reserved

def dG3bf (x : BitVec 32) (k : BitVec 6 → BitVec 6 → BitVec 6 → BitVec 6 → Dec) : Dec :=
  if field 14 6 x = 0 ∧ field 0 2 x = 0 then k (field 26 6 x) (field 20 6 x) (field 8 6 x) (field 2 6 x) else .error .reserved

def dG3op (x : BitVec 32) (k : BitVec 6 → BitVec 6 → BitVec 3 → Dec) : Dec :=
  if field 14 6 x = 0 ∧ field 0 11 x = 0 then k (field 26 6 x) (field 20 6 x) (field 11 3 x) else .error .reserved

def dG3n (x : BitVec 32) (k : BitVec 6 → BitVec 6 → Dec) : Dec :=
  if field 0 20 x = 0 then k (field 26 6 x) (field 20 6 x) else .error .reserved

def dGI (x : BitVec 32) (k : BitVec 6 → BitVec 6 → BitVec 20 → Dec) : Dec :=
  k (field 26 6 x) (field 20 6 x) (field 0 20 x)

def dGIsh (x : BitVec 32) (k : BitVec 6 → BitVec 6 → BitVec 6 → Dec) : Dec :=
  if field 6 14 x = 0 then k (field 26 6 x) (field 20 6 x) (field 0 6 x) else .error .reserved

def dGIlui (x : BitVec 32) (k : BitVec 6 → BitVec 20 → Dec) : Dec :=
  if field 20 6 x = 0 then k (field 26 6 x) (field 0 20 x) else .error .reserved

def dGB (x : BitVec 32) (k : BitVec 6 → BitVec 6 → BitVec 20 → Dec) : Dec :=
  k (field 26 6 x) (field 20 6 x) (field 0 20 x)

def dGBj (x : BitVec 32) (k : BitVec 6 → BitVec 20 → Dec) : Dec :=
  if field 20 6 x = 0 then k (field 26 6 x) (field 0 20 x) else .error .reserved

def dGL (x : BitVec 32) (k : BitVec 2 → BitVec 6 → BitVec 20 → Dec) : Dec :=
  if field 26 4 x = 0 then k (field 30 2 x) (field 20 6 x) (field 0 20 x) else .error .reserved

def dGLb (x : BitVec 32) (k : BitVec 2 → BitVec 6 → Dec) : Dec :=
  if field 26 4 x = 0 ∧ field 0 20 x = 0 then k (field 30 2 x) (field 20 6 x) else .error .reserved

def dGE (x : BitVec 32) (k : BitVec 6 → Dec) : Dec :=
  if field 0 26 x = 0 then k (field 26 6 x) else .error .reserved

def dGEa (x : BitVec 32) (k : BitVec 6 → BitVec 6 → Dec) : Dec :=
  if field 0 20 x = 0 then k (field 26 6 x) (field 20 6 x) else .error .reserved

def dGEt (x : BitVec 32) (k : BitVec 6 → BitVec 6 → BitVec 5 → Dec) : Dec :=
  if field 12 8 x = 0 ∧ field 0 7 x = 0 then k (field 26 6 x) (field 20 6 x) (field 7 5 x) else .error .reserved

def dGEk (x : BitVec 32) (k : BitVec 6 → BitVec 6 → BitVec 8 → Dec) : Dec :=
  if field 0 12 x = 0 then k (field 26 6 x) (field 20 6 x) (field 12 8 x) else .error .reserved

def dGX0 (x : BitVec 32) (k : Dec) : Dec :=
  if field 0 32 x = 0 then k else .error .reserved

def dGXd (x : BitVec 32) (k : BitVec 6 → Dec) : Dec :=
  if field 0 26 x = 0 then k (field 26 6 x) else .error .reserved

def dGXt (x : BitVec 32) (k : BitVec 8 → Dec) : Dec :=
  if field 8 24 x = 0 then k (field 0 8 x) else .error .reserved

def dGXa (x : BitVec 32) (k : BitVec 6 → Dec) : Dec :=
  if field 26 6 x = 0 ∧ field 0 20 x = 0 then k (field 20 6 x) else .error .reserved

def dGXdsel (x : BitVec 32) (k : BitVec 6 → BitVec 2 → Dec) : Dec :=
  if field 2 24 x = 0 then k (field 26 6 x) (field 0 2 x) else .error .reserved

def dGXam (x : BitVec 32) (k : BitVec 6 → BitVec 1 → Dec) : Dec :=
  if field 26 6 x = 0 ∧ field 1 19 x = 0 then k (field 20 6 x) (field 0 1 x) else .error .reserved

def dGXdk (x : BitVec 32) (k : BitVec 6 → BitVec 8 → Dec) : Dec :=
  if field 8 18 x = 0 then k (field 26 6 x) (field 0 8 x) else .error .reserved

def dGXsc (x : BitVec 32) (k : BitVec 3 → Dec) : Dec :=
  if field 3 29 x = 0 then k (field 0 3 x) else .error .reserved

def dGXdc (x : BitVec 32) (k : BitVec 6 → BitVec 12 → Dec) : Dec :=
  if field 12 14 x = 0 then k (field 26 6 x) (field 0 12 x) else .error .reserved

def dGXac (x : BitVec 32) (k : BitVec 6 → BitVec 12 → Dec) : Dec :=
  if field 26 6 x = 0 ∧ field 12 8 x = 0 then k (field 20 6 x) (field 0 12 x) else .error .reserved

def dGXk (x : BitVec 32) (k : BitVec 20 → Dec) : Dec :=
  if field 20 12 x = 0 then k (field 0 20 x) else .error .reserved

def dGXk1 (x : BitVec 32) (k : BitVec 1 → Dec) : Dec :=
  if field 1 31 x = 0 then k (field 0 1 x) else .error .reserved

def dGXak (x : BitVec 32) (k : BitVec 6 → BitVec 20 → Dec) : Dec :=
  if field 26 6 x = 0 then k (field 20 6 x) (field 0 20 x) else .error .reserved

def dS3 (x : BitVec 32) (k : BitVec 6 → BitVec 6 → BitVec 6 → Dec) : Dec :=
  if field 0 14 x = 0 then k (field 26 6 x) (field 20 6 x) (field 14 6 x) else .error .reserved

def dS3da (x : BitVec 32) (k : BitVec 6 → BitVec 6 → Dec) : Dec :=
  if field 0 20 x = 0 then k (field 26 6 x) (field 20 6 x) else .error .reserved

def dS3a (x : BitVec 32) (k : BitVec 6 → Dec) : Dec :=
  if field 26 6 x = 0 ∧ field 0 20 x = 0 then k (field 20 6 x) else .error .reserved

def dS3d (x : BitVec 32) (k : BitVec 6 → Dec) : Dec :=
  if field 0 26 x = 0 then k (field 26 6 x) else .error .reserved

def dV3 (x : BitVec 32) (k : BitVec 5 → BitVec 9 → BitVec 9 → BitVec 9 → Dec) : Dec :=
  k (field 27 5 x) (field 18 9 x) (field 9 9 x) (field 0 9 x)

def dV3a (x : BitVec 32) (k : BitVec 5 → BitVec 9 → BitVec 9 → Dec) : Dec :=
  if field 0 9 x = 0 then k (field 27 5 x) (field 18 9 x) (field 9 9 x) else .error .reserved

def dVC (x : BitVec 32) (k : BitVec 5 → BitVec 5 → BitVec 9 → BitVec 9 → Dec) : Dec :=
  if field 18 4 x = 0 then k (field 27 5 x) (field 22 5 x) (field 9 9 x) (field 0 9 x) else .error .reserved

def dVI (x : BitVec 32) (k : BitVec 5 → BitVec 9 → BitVec 9 → BitVec 9 → Dec) : Dec :=
  k (field 27 5 x) (field 18 9 x) (field 9 9 x) (field 0 9 x)

def dVP3 (x : BitVec 32) (k : BitVec 5 → BitVec 5 → BitVec 5 → Dec) : Dec :=
  if field 0 17 x = 0 then k (field 27 5 x) (field 22 5 x) (field 17 5 x) else .error .reserved

def dVP2 (x : BitVec 32) (k : BitVec 5 → BitVec 5 → Dec) : Dec :=
  if field 0 22 x = 0 then k (field 27 5 x) (field 22 5 x) else .error .reserved

def dVPs (x : BitVec 32) (k : BitVec 5 → BitVec 6 → Dec) : Dec :=
  if field 27 5 x = 0 ∧ field 17 5 x = 0 ∧ field 0 11 x = 0 then k (field 22 5 x) (field 11 6 x) else .error .reserved

def dVIb (x : BitVec 32) (k : BitVec 5 → BitVec 9 → BitVec 6 → Dec) : Dec :=
  if field 15 3 x = 0 ∧ field 0 9 x = 0 then k (field 27 5 x) (field 18 9 x) (field 9 6 x) else .error .reserved

def dVIx (x : BitVec 32) (k : BitVec 6 → BitVec 9 → BitVec 9 → Dec) : Dec :=
  if field 24 8 x = 0 then k (field 18 6 x) (field 9 9 x) (field 0 9 x) else .error .reserved

def dVIn (x : BitVec 32) (k : BitVec 9 → BitVec 6 → BitVec 9 → Dec) : Dec :=
  if field 27 5 x = 0 ∧ field 15 3 x = 0 then k (field 18 9 x) (field 9 6 x) (field 0 9 x) else .error .reserved

def dVR (x : BitVec 32) (k : BitVec 5 → BitVec 6 → BitVec 9 → Dec) : Dec :=
  if field 18 3 x = 0 ∧ field 0 9 x = 0 then k (field 27 5 x) (field 21 6 x) (field 9 9 x) else .error .reserved

def dVIh (x : BitVec 32) (k : BitVec 9 → BitVec 9 → BitVec 1 → Dec) : Dec :=
  if field 27 5 x = 0 ∧ field 1 8 x = 0 then k (field 18 9 x) (field 9 9 x) (field 0 1 x) else .error .reserved

def dVIm (x : BitVec 32) (k : BitVec 9 → BitVec 9 → BitVec 2 → Dec) : Dec :=
  if field 27 5 x = 0 ∧ field 2 7 x = 0 then k (field 18 9 x) (field 9 9 x) (field 0 2 x) else .error .reserved

def dVId (x : BitVec 32) (k : BitVec 5 → BitVec 9 → BitVec 8 → Dec) : Dec :=
  if field 18 9 x = 0 ∧ field 8 1 x = 0 then k (field 27 5 x) (field 9 9 x) (field 0 8 x) else .error .reserved

def dVIdr (x : BitVec 32) (k : BitVec 9 → BitVec 5 → Dec) : Dec :=
  if field 27 5 x = 0 ∧ field 5 13 x = 0 then k (field 18 9 x) (field 0 5 x) else .error .reserved

def dA3 (x : BitVec 32) (k : BitVec 5 → BitVec 5 → BitVec 5 → Dec) : Dec :=
  if field 0 17 x = 0 then k (field 27 5 x) (field 22 5 x) (field 17 5 x) else .error .reserved

def dA3m1 (x : BitVec 32) (k : BitVec 5 → BitVec 5 → BitVec 5 → BitVec 1 → Dec) : Dec :=
  if field 1 16 x = 0 then k (field 27 5 x) (field 22 5 x) (field 17 5 x) (field 0 1 x) else .error .reserved

def dA3m2 (x : BitVec 32) (k : BitVec 5 → BitVec 5 → BitVec 5 → BitVec 2 → Dec) : Dec :=
  if field 2 15 x = 0 then k (field 27 5 x) (field 22 5 x) (field 17 5 x) (field 0 2 x) else .error .reserved

def dAI (x : BitVec 32) (k : BitVec 5 → BitVec 5 → BitVec 22 → Dec) : Dec :=
  k (field 27 5 x) (field 22 5 x) (field 0 22 x)

def dAG3 (x : BitVec 32) (k : BitVec 4 → BitVec 5 → BitVec 5 → BitVec 5 → Dec) : Dec :=
  if field 0 13 x = 0 then k (field 28 4 x) (field 23 5 x) (field 18 5 x) (field 13 5 x) else .error .reserved

def dAFs (x : BitVec 32) (k : BitVec 3 → Dec) : Dec :=
  if field 3 29 x = 0 then k (field 0 3 x) else .error .reserved

def dAPda (x : BitVec 32) (k : BitVec 5 → BitVec 5 → Dec) : Dec :=
  if field 0 22 x = 0 then k (field 27 5 x) (field 22 5 x) else .error .reserved

def dAPa (x : BitVec 32) (k : BitVec 5 → Dec) : Dec :=
  if field 27 5 x = 0 ∧ field 0 22 x = 0 then k (field 22 5 x) else .error .reserved

def dAPdab (x : BitVec 32) (k : BitVec 5 → BitVec 5 → BitVec 5 → Dec) : Dec :=
  if field 0 17 x = 0 then k (field 27 5 x) (field 22 5 x) (field 17 5 x) else .error .reserved

def dAPdabw (x : BitVec 32) (k : BitVec 5 → BitVec 5 → BitVec 5 → Dec) : Dec :=
  if field 16 1 x = 1 ∧ field 0 16 x = 0 then k (field 27 5 x) (field 22 5 x) (field 17 5 x) else .error .reserved

def dAPab (x : BitVec 32) (k : BitVec 5 → BitVec 5 → Dec) : Dec :=
  if field 27 5 x = 0 ∧ field 0 17 x = 0 then k (field 22 5 x) (field 17 5 x) else .error .reserved

def dAA (x : BitVec 32) (k : BitVec 5 → BitVec 5 → BitVec 5 → BitVec 3 → Dec) : Dec :=
  if field 12 5 x = 0 ∧ field 0 9 x = 0 then k (field 27 5 x) (field 22 5 x) (field 17 5 x) (field 9 3 x) else .error .reserved

def dAAc (x : BitVec 32) (k : BitVec 5 → BitVec 5 → BitVec 5 → BitVec 5 → BitVec 3 → Dec) : Dec :=
  if field 0 9 x = 0 then k (field 27 5 x) (field 22 5 x) (field 17 5 x) (field 12 5 x) (field 9 3 x) else .error .reserved

def dAHha (x : BitVec 32) (k : BitVec 6 → BitVec 5 → Dec) : Dec :=
  if field 0 21 x = 0 then k (field 26 6 x) (field 21 5 x) else .error .reserved

def dAHh (x : BitVec 32) (k : BitVec 6 → Dec) : Dec :=
  if field 0 26 x = 0 then k (field 26 6 x) else .error .reserved

def dAHdh (x : BitVec 32) (k : BitVec 6 → BitVec 5 → Dec) : Dec :=
  if field 21 5 x = 0 ∧ field 0 16 x = 0 then k (field 26 6 x) (field 16 5 x) else .error .reserved

def dM0 (x : BitVec 32) (k : Dec) : Dec :=
  if field 0 32 x = 0 then k else .error .reserved

def dML (x : BitVec 32) (k : BitVec 7 → Dec) : Dec :=
  if field 7 25 x = 0 then k (field 0 7 x) else .error .reserved

def dM3 (x : BitVec 32) (k : BitVec 9 → BitVec 4 → BitVec 4 → Dec) : Dec :=
  if field 0 15 x = 0 then k (field 23 9 x) (field 19 4 x) (field 15 4 x) else .error .reserved

def dMS (x : BitVec 32) (k : BitVec 4 → BitVec 19 → Dec) : Dec :=
  if field 19 9 x = 0 then k (field 28 4 x) (field 0 19 x) else .error .reserved

def dMAz (x : BitVec 32) (k : BitVec 9 → BitVec 5 → Dec) : Dec :=
  if field 5 18 x = 0 then k (field 23 9 x) (field 0 5 x) else .error .reserved

def dMAm (x : BitVec 32) (k : BitVec 9 → BitVec 4 → BitVec 5 → Dec) : Dec :=
  if field 5 9 x = 0 ∧ field 18 5 x = 0 then k (field 23 9 x) (field 14 4 x) (field 0 5 x) else .error .reserved

def dMAs (x : BitVec 32) (k : BitVec 9 → BitVec 9 → BitVec 5 → Dec) : Dec :=
  if field 5 9 x = 0 then k (field 23 9 x) (field 14 9 x) (field 0 5 x) else .error .reserved

def dXC (x : BitVec 32) (k : BitVec 4 → BitVec 2 → Dec) : Dec :=
  if field 3 25 x = 0 ∧ field 0 1 x = 0 then k (field 28 4 x) (field 1 2 x) else .error .reserved

def dXCs (x : BitVec 32) (k : BitVec 3 → Dec) : Dec :=
  if field 31 1 x = 0 ∧ field 0 28 x = 0 then k (field 28 3 x) else .error .reserved

def dXSa (x : BitVec 32) (k : BitVec 5 → BitVec 2 → Dec) : Dec :=
  if field 3 24 x = 0 ∧ field 0 1 x = 0 then k (field 27 5 x) (field 1 2 x) else .error .reserved

def dXCx (x : BitVec 32) (k : BitVec 2 → Dec) : Dec :=
  if field 3 29 x = 0 ∧ field 0 1 x = 0 then k (field 1 2 x) else .error .reserved

def dXCc (x : BitVec 32) (k : BitVec 4 → Dec) : Dec :=
  if field 0 28 x = 0 then k (field 28 4 x) else .error .reserved

def dNCa (x : BitVec 32) (k : BitVec 4 → BitVec 5 → Dec) : Dec :=
  if field 0 23 x = 0 then k (field 28 4 x) (field 23 5 x) else .error .reserved

def dNCu3 (x : BitVec 32) (k : BitVec 3 → BitVec 5 → Dec) : Dec :=
  if field 31 1 x = 0 ∧ field 0 23 x = 0 then k (field 28 3 x) (field 23 5 x) else .error .reserved

def dNCpa (x : BitVec 32) (k : BitVec 5 → BitVec 8 → Dec) : Dec :=
  if field 28 4 x = 0 ∧ field 0 15 x = 0 then k (field 23 5 x) (field 15 8 x) else .error .reserved

def dNCpka (x : BitVec 32) (k : BitVec 3 → BitVec 5 → BitVec 8 → Dec) : Dec :=
  if field 31 1 x = 0 ∧ field 0 15 x = 0 then k (field 28 3 x) (field 23 5 x) (field 15 8 x) else .error .reserved

def dNCpk (x : BitVec 32) (k : BitVec 3 → BitVec 8 → Dec) : Dec :=
  if field 31 1 x = 0 ∧ field 23 5 x = 0 ∧ field 0 15 x = 0 then k (field 28 3 x) (field 15 8 x) else .error .reserved

def dNPq (x : BitVec 32) (k : BitVec 2 → Dec) : Dec :=
  if field 31 1 x = 0 ∧ field 0 29 x = 0 then k (field 29 2 x) else .error .reserved

def dNCn (x : BitVec 32) (k : BitVec 5 → Dec) : Dec :=
  if field 28 4 x = 0 ∧ field 0 23 x = 0 then k (field 23 5 x) else .error .reserved

def dFM (x : BitVec 32) (k : BitVec 5 → BitVec 5 → BitVec 5 → Dec) : Dec :=
  if field 21 1 x = 0 ∧ field 0 16 x = 0 then k (field 27 5 x) (field 22 5 x) (field 16 5 x) else .error .reserved

def dF0 (x : BitVec 32) (k : Dec) : Dec :=
  if field 0 32 x = 0 then k else .error .reserved

def dFa (x : BitVec 32) (k : BitVec 5 → Dec) : Dec :=
  if field 0 27 x = 0 then k (field 27 5 x) else .error .reserved

def dFBa (x : BitVec 32) (k : BitVec 5 → BitVec 15 → Dec) : Dec :=
  if field 15 12 x = 0 then k (field 27 5 x) (field 0 15 x) else .error .reserved

def dFBw (x : BitVec 32) (k : BitVec 5 → BitVec 1 → Dec) : Dec :=
  if field 19 8 x = 0 ∧ field 0 18 x = 0 then k (field 27 5 x) (field 18 1 x) else .error .reserved

def dFBs (x : BitVec 32) (k : BitVec 5 → BitVec 8 → BitVec 1 → Dec) : Dec :=
  if field 0 18 x = 0 then k (field 27 5 x) (field 19 8 x) (field 18 1 x) else .error .reserved

def dSKt (x : BitVec 32) (k : BitVec 8 → Dec) : Dec :=
  if field 0 24 x = 0 then k (field 24 8 x) else .error .reserved

def dSB (x : BitVec 32) (k : BitVec 3 → BitVec 24 → Dec) : Dec :=
  if field 24 5 x = 0 then k (field 29 3 x) (field 0 24 x) else .error .reserved

def dSKv (x : BitVec 32) (k : BitVec 8 → BitVec 16 → Dec) : Dec :=
  if field 16 8 x = 0 then k (field 24 8 x) (field 0 16 x) else .error .reserved

def dSCsc (x : BitVec 32) (k : BitVec 3 → Dec) : Dec :=
  if field 15 17 x = 0 ∧ field 0 12 x = 0 then k (field 12 3 x) else .error .reserved

def dSCp (x : BitVec 32) (k : BitVec 5 → BitVec 2 → Dec) : Dec :=
  if field 2 25 x = 0 then k (field 27 5 x) (field 0 2 x) else .error .reserved

def dSCc (x : BitVec 32) (k : BitVec 5 → BitVec 12 → Dec) : Dec :=
  if field 12 15 x = 0 then k (field 27 5 x) (field 0 12 x) else .error .reserved

def dAIq (x : BitVec 32) (k : BitVec 2 → BitVec 5 → BitVec 22 → Dec) : Dec :=
  if field 29 3 x = 0 then k (field 27 2 x) (field 22 5 x) (field 0 22 x) else .error .reserved

def dAG1 (x : BitVec 32) (k : BitVec 4 → BitVec 5 → BitVec 2 → Dec) : Dec :=
  if field 2 21 x = 0 then k (field 28 4 x) (field 23 5 x) (field 0 2 x) else .error .reserved

def dAB (x : BitVec 32) (k : BitVec 5 → BitVec 3 → BitVec 8 → Dec) : Dec :=
  if field 8 16 x = 0 then k (field 27 5 x) (field 24 3 x) (field 0 8 x) else .error .reserved

def dA3w (x : BitVec 32) (k : BitVec 2 → BitVec 5 → BitVec 5 → BitVec 2 → Dec) : Dec :=
  if field 29 3 x = 0 ∧ field 2 15 x = 0 then k (field 27 2 x) (field 22 5 x) (field 17 5 x) (field 0 2 x) else .error .reserved

def dS3q (x : BitVec 32) (k : BitVec 6 → BitVec 2 → Dec) : Dec :=
  if field 13 13 x = 0 ∧ field 0 11 x = 0 then k (field 26 6 x) (field 11 2 x) else .error .reserved

def dAQl (x : BitVec 32) (k : BitVec 2 → BitVec 1 → BitVec 4 → BitVec 4 → Dec) : Dec :=
  if field 31 1 x = 0 ∧ field 0 20 x = 0 then k (field 29 2 x) (field 28 1 x) (field 24 4 x) (field 20 4 x) else .error .reserved

def dAQg (x : BitVec 32) (k : BitVec 2 → BitVec 1 → BitVec 4 → BitVec 4 → BitVec 1 → BitVec 1 → Dec) : Dec :=
  if field 31 1 x = 0 ∧ field 17 3 x = 0 ∧ field 0 15 x = 0 then k (field 29 2 x) (field 28 1 x) (field 24 4 x) (field 20 4 x) (field 16 1 x) (field 15 1 x) else .error .reserved

def dAQs (x : BitVec 32) (k : BitVec 1 → BitVec 4 → BitVec 4 → Dec) : Dec :=
  if field 31 1 x = 1 ∧ field 30 1 x = 0 ∧ field 28 1 x = 0 ∧ field 0 20 x = 0 then k (field 29 1 x) (field 24 4 x) (field 20 4 x) else .error .reserved

def dVQl (x : BitVec 32) (k : BitVec 5 → BitVec 9 → BitVec 2 → Dec) : Dec :=
  if field 17 1 x = 0 ∧ field 0 15 x = 0 then k (field 27 5 x) (field 18 9 x) (field 15 2 x) else .error .reserved

def dVQs (x : BitVec 32) (k : BitVec 5 → BitVec 9 → BitVec 1 → Dec) : Dec :=
  if field 17 1 x = 1 ∧ field 16 1 x = 0 ∧ field 0 15 x = 0 then k (field 27 5 x) (field 18 9 x) (field 15 1 x) else .error .reserved

def dVIt (x : BitVec 32) (k : BitVec 9 → BitVec 9 → BitVec 4 → Dec) : Dec :=
  if field 27 5 x = 0 ∧ field 4 5 x = 0 then k (field 18 9 x) (field 9 9 x) (field 0 4 x) else .error .reserved

def dMAw (x : BitVec 32) (k : BitVec 9 → BitVec 2 → BitVec 5 → BitVec 5 → Dec) : Dec :=
  if field 19 2 x = 0 ∧ field 5 9 x = 0 then k (field 23 9 x) (field 21 2 x) (field 14 5 x) (field 0 5 x) else .error .reserved

def dXM (x : BitVec 32) (k : BitVec 6 → BitVec 6 → BitVec 3 → BitVec 14 → BitVec 2 → Dec) : Dec :=
  if field 0 1 x = 0 then k (field 26 6 x) (field 20 6 x) (field 17 3 x) (field 3 14 x) (field 1 2 x) else .error .reserved

def dXF (x : BitVec 32) (k : BitVec 6 → BitVec 8 → BitVec 2 → Dec) : Dec :=
  if field 26 6 x = 0 ∧ field 3 9 x = 0 ∧ field 0 1 x = 0 then k (field 20 6 x) (field 12 8 x) (field 1 2 x) else .error .reserved

def dNCm (x : BitVec 32) (k : BitVec 4 → BitVec 8 → Dec) : Dec :=
  if field 23 5 x = 0 ∧ field 0 15 x = 0 then k (field 28 4 x) (field 15 8 x) else .error .reserved

def dF (x : BitVec 32) (k : BitVec 5 → BitVec 5 → BitVec 6 → BitVec 3 → Dec) : Dec :=
  if field 0 13 x = 0 then k (field 27 5 x) (field 22 5 x) (field 16 6 x) (field 13 3 x) else .error .reserved

def dFBi (x : BitVec 32) (k : BitVec 5 → BitVec 1 → BitVec 3 → BitVec 15 → Dec) : Dec :=
  if field 19 8 x = 0 then k (field 27 5 x) (field 18 1 x) (field 15 3 x) (field 0 15 x) else .error .reserved

/-- The opcodes of the gaffer engine (R26). -/
def decodeGaf (x : BitVec 32) (L : List (BitVec 32)) (opc : Nat) : Dec :=
  match opc with
  | 0x00 => lit0 L (dGX0 x (.ok .nop))
  | 0x01 => lit0 L (dG3 x fun d a b => .ok (.add d a b))
  | 0x02 => lit0 L (dG3 x fun d a b => .ok (.sub d a b))
  | 0x03 => lit0 L (dG3 x fun d a b => .ok (.mul d a b))
  | 0x04 => lit0 L (dG3 x fun d a b => .ok (.mulh d a b))
  | 0x05 => lit0 L (dG3 x fun d a b => .ok (.mulhu d a b))
  | 0x06 => lit0 L (dG3 x fun d a b => .ok (.div d a b))
  | 0x07 => lit0 L (dG3 x fun d a b => .ok (.divu d a b))
  | 0x08 => lit0 L (dG3 x fun d a b => .ok (.rem d a b))
  | 0x09 => lit0 L (dG3 x fun d a b => .ok (.and d a b))
  | 0x0A => lit0 L (dG3 x fun d a b => .ok (.or d a b))
  | 0x0B => lit0 L (dG3 x fun d a b => .ok (.xor d a b))
  | 0x0C => lit0 L (dG3 x fun d a b => .ok (.shl d a b))
  | 0x0D => lit0 L (dG3 x fun d a b => .ok (.shr d a b))
  | 0x0E => lit0 L (dG3 x fun d a b => .ok (.sar d a b))
  | 0x0F => lit0 L (dG3 x fun d a b => .ok (.min d a b))
  | 0x10 => lit0 L (dG3 x fun d a b => .ok (.max d a b))
  | 0x11 => lit0 L (dG3 x fun d a b => .ok (.minu d a b))
  | 0x12 => lit0 L (dG3 x fun d a b => .ok (.maxu d a b))
  | 0x13 => lit0 L (dG3 x fun d a b => .ok (.seq d a b))
  | 0x14 => lit0 L (dG3 x fun d a b => .ok (.slt d a b))
  | 0x15 => lit0 L (dG3 x fun d a b => .ok (.sltu d a b))
  | 0x16 => lit0 L (dG3bf x fun d a p w => .ok (.bfx d a p w))
  | 0x17 => lit0 L (dG3bf x fun d a p w => .ok (.bfi d a p w))
  | 0x18 => lit0 L (dG3b0 x fun d a => .ok (.clz d a))
  | 0x19 => lit0 L (dG3b0 x fun d a => .ok (.popc d a))
  | 0x20 => lit0 L (dGI x fun d a i => .ok (.addi d a i))
  | 0x21 => lit0 L (dGI x fun d a i => .ok (.andi d a i))
  | 0x22 => lit0 L (dGI x fun d a i => .ok (.ori d a i))
  | 0x23 => lit0 L (dGI x fun d a i => .ok (.xori d a i))
  | 0x24 => lit0 L (dGIsh x fun d a s => .ok (.shli d a s))
  | 0x25 => lit0 L (dGIsh x fun d a s => .ok (.shri d a s))
  | 0x26 => lit0 L (dGIsh x fun d a s => .ok (.sari d a s))
  | 0x27 => lit0 L (dGI x fun d a i => .ok (.slti d a i))
  | 0x28 => lit0 L (dGIlui x fun d i => .ok (.lui d i))
  | 0x30 => lit0 L (dGI x fun d a i => .ok (.ldl d a i))
  | 0x31 => lit0 L (dGI x fun d a i => .ok (.stl d a i))
  | 0x32 => lit0 L (dGI x fun d a i => .ok (.ldlw d a i))
  | 0x33 => lit0 L (dGI x fun d a i => .ok (.stlw d a i))
  | 0x38 => lit0 L (dGB x fun a b i => .ok (.beq a b i))
  | 0x39 => lit0 L (dGB x fun a b i => .ok (.bne a b i))
  | 0x3A => lit0 L (dGB x fun a b i => .ok (.blt a b i))
  | 0x3B => lit0 L (dGB x fun a b i => .ok (.bge a b i))
  | 0x3C => lit0 L (dGB x fun a b i => .ok (.bltu a b i))
  | 0x3D => lit0 L (dGB x fun a b i => .ok (.bgeu a b i))
  | 0x3E => lit0 L (dGBj x fun l i => .ok (.jal l i))
  | 0x3F => lit0 L (dGI x fun d a i => .ok (.jalr d a i))
  | 0x40 => lit0 L (dGL x fun v a i => .ok (.loop v a i))
  | 0x41 => lit0 L (dGL x fun v a i => .ok (.loopp v a i))
  | 0x42 => lit0 L (dGLb x fun v a => .ok (.lbrk v a))
  | 0x48 => lit2 L fun l => dGE x fun m => .ok (.emit m l)
  | 0x49 => lit0 L (dGEa x fun m a => .ok (.emitp m a))
  | 0x4A => lit2 L fun l => dGEt x fun m a s => .ok (.emitt m a s l)
  | 0x4B => lit0 L (dGEa x fun m a => .ok (.fmt m a))
  | 0x4C => lit0 L (dGEk x fun m a k => .ok (.expect m a k))
  | 0x50 => lit0 L (dGXt x fun t => .ok (.joinpt t))
  | 0x51 => lit0 L (dGXa x fun a => .ok (.joinw a))
  | 0x52 => lit0 L (dGXdsel x fun d s => .ok (.detq d s))
  | 0x53 => lit0 L (dGXam x fun a m => .ok (.chairw a m))
  | 0x54 => lit0 L (dG3op x fun d a o => .ok (.gpop d a o))
  | 0x55 => lit0 L (dG3n x fun d a => .ok (.gpopn d a))
  | 0x58 => lit0 L (dGXd x fun d => .ok (.grab d))
  | 0x59 => lit0 L (dGXd x fun d => .ok (.step d))
  | 0x5A => lit0 L (dGX0 x (.ok .yield))
  | 0x5B => lit0 L (dGX0 x (.ok .exit))
  | 0x5C => lit0 L (dGXdk x fun d k => .ok (.semrd d k))
  | 0x5D => lit0 L (dGXsc x fun s => .ok (.wquiet s))
  | 0x60 => lit0 L (dGXdc x fun d c => .ok (.csrr d c))
  | 0x61 => lit0 L (dGXac x fun a c => if c = 0x045 then .ok (.fselWrite a) else .ok (.csrw a c))
  | 0x62 => lit0 L (dGXk x fun k => .ok (.trap k))
  | 0x63 => lit0 L (dGX0 x (.ok .resume))
  | 0x64 => lit0 L (dGXk1 x fun k => .ok (.reinject k))
  | 0x65 => lit0 L (dGXak x fun a k => .ok (.savectx a k))
  | 0x66 => lit0 L (dGXak x fun a k => .ok (.restctx a k))
  | _ => .error .opcode

/-- The opcodes of the A-side engine (R27). -/
def decodeAcc (x : BitVec 32) (L : List (BitVec 32)) (opc : Nat) : Dec :=
  match opc with
  | 0x00 => lit0 L (dAQl x fun q v g n => if v = 0 then .ok (.ldq q g n) else .ok (.ldqMv q g n))
  | 0x01 => lit0 L (dAQl x fun q v g n => if v = 0 then .ok (.ldqs q g n) else .ok (.ldqsMv q g n))
  | 0x02 => lit0 L (dAQg x fun q v g n z s =>
      if v = 0 then .ok (.ldqg q g n s z) else if z = 1 then .ok (.ldqgMv q g n s) else .error .field)
  | 0x03 => lit0 L (dAQs x fun q g n => .ok (.stq q g n))
  | 0x04 => lit0 L (dAQs x fun q g n => .ok (.stqs q g n))
  | 0x08 => lit0 L (dAI x fun d a i => .ok (.lds d a i))
  | 0x09 => lit0 L (dAI x fun d a i => .ok (.sts d a i))
  | 0x0A => lit0 L (dAIq x fun q a i => .ok (.ldsq q a i))
  | 0x10 => lit0 L (dA3 x fun d a b => .ok (.aadd d a b))
  | 0x11 => lit0 L (dA3 x fun d a b => .ok (.asub d a b))
  | 0x12 => lit0 L (dA3m2 x fun d a b m => .ok (.amul d a b m))
  | 0x13 => lit0 L (dA3 x fun d a b => .ok (.ashl d a b))
  | 0x14 => lit0 L (dA3m1 x fun d a b m => .ok (.ashr d a b m))
  | 0x15 => lit0 L (dA3 x fun d a b => .ok (.aand d a b))
  | 0x16 => lit0 L (dA3 x fun d a b => .ok (.aor d a b))
  | 0x17 => lit0 L (dA3m1 x fun d a b m => .ok (.amin d a b m))
  | 0x18 => lit0 L (dA3m1 x fun d a b m => .ok (.amax d a b m))
  | 0x19 => lit0 L (dA3m1 x fun d a b m => .ok (.aslt d a b m))
  | 0x1A => dAI x fun d a i => (match L with
      | [] => .ok (.aaddi d a (.imm i))
      | [l] => if i = 0 then .ok (.aaddi d a (.lit1 l)) else .error .reserved
      | [l, h] => if i = 0 then .ok (.aaddi d a (.lit2 (h ++ l))) else .error .reserved
      | _ => .error .literal)
  | 0x20 => lit0 L (if field 0 2 x = 1 then dAG1 x fun g a _ => .ok (.agsetB g a)
      else dAG3 x fun g a b c => .ok (.agset g a b c))
  | 0x21 => lit0 L (dAG1 x fun g a s => if s = 0 then .ok (.agnext g a) else if s = 1 then .ok (.agnextW g a) else .error .field)
  | 0x22 => lit0 L (dAG1 x fun g a s => if s = 0 then .ok (.agpos g a) else .error .field)
  | 0x23 => lit0 L (dAG1 x fun g a s => .ok (.agrd a g s))
  | 0x28 => lit0 L (dAB x fun a c n => if n = 0 then withCond c a fun c => .ok (.bqpush c) else .error .reserved)
  | 0x29 => lit0 L (dAB x fun a c n => withCond c a fun c => .ok (.bqskip c n))
  | 0x30 => lit0 L (dAPda x fun d a => .ok (.probe d a))
  | 0x31 => lit0 L (dAPa x fun a => .ok (.pevict a))
  | 0x32 => lit0 L (if field 16 1 x = 0 then dAPdab x fun d a b => .ok (.rprobe d a b) else dAPdabw x fun d a b => .ok (.rprobeWait d a b))
  | 0x33 => lit0 L (dAPab x fun a b => .ok (.runpin a b))
  | 0x38 => lit0 L (dAA x fun d a b s => withScope s fun s => .ok (.atadd d a b s))
  | 0x39 => lit0 L (dAA x fun d a b s => withScope s fun s => .ok (.atfadd d a b s))
  | 0x3A => lit0 L (dAA x fun d a b s => withScope s fun s => .ok (.atmin d a b s))
  | 0x3B => lit0 L (dAA x fun d a b s => withScope s fun s => .ok (.atmax d a b s))
  | 0x3C => lit0 L (dAA x fun d a b s => withScope s fun s => .ok (.atxch d a b s))
  | 0x3D => lit0 L (dAAc x fun d a b c s => withScope s fun s => .ok (.atcas d a b c s))
  | 0x3E => lit0 L (dAA x fun d a b s => withScope s fun s => .ok (.ator d a b s))
  | 0x3F => lit0 L (dAA x fun d a b s => withScope s fun s => .ok (.atand d a b s))
  | 0x40 => lit0 L (dAFs x fun s => withScope s fun s => .ok (.fence s))
  | 0x41 => lit0 L (dAFs x fun s => withScope s fun s => .ok (.rel s))
  | 0x42 => lit0 L (dAFs x fun s => withScope s fun s => .ok (.acq s))
  | 0x48 => lit0 L (dAHha x fun h a => .ok (.hgive h a))
  | 0x49 => lit0 L (dAHh x fun h => .ok (.htake h))
  | 0x4A => lit0 L (dAHdh x fun h d => .ok (.hquery d h))
  | 0x50 => lit0 L (dA3w x fun d a b m => .ok (.watch d a b m))
  | _ => .error .opcode

/-- The opcodes of the X-side engine (R28). -/
def decodeExe (x : BitVec 32) (L : List (BitVec 32)) (opc : Nat) : Dec :=
  match opc with
  | 0x00 => lit0 L (dS3 x fun d a b => .ok (.sadd d a b))
  | 0x01 => lit0 L (dS3 x fun d a b => .ok (.ssub d a b))
  | 0x02 => lit0 L (dS3 x fun d a b => .ok (.smul d a b))
  | 0x03 => lit0 L (dS3 x fun d a b => .ok (.sand d a b))
  | 0x04 => lit0 L (dS3 x fun d a b => .ok (.sor d a b))
  | 0x05 => lit0 L (dS3 x fun d a b => .ok (.sxor d a b))
  | 0x06 => lit0 L (dS3 x fun d a b => .ok (.sshl d a b))
  | 0x07 => lit0 L (dS3 x fun d a b => .ok (.sshr d a b))
  | 0x08 => lit0 L (dS3 x fun d a b => .ok (.sfadd d a b))
  | 0x09 => lit0 L (dS3 x fun d a b => .ok (.sfmul d a b))
  | 0x0A => dS3da x fun d a => (match L with
      | [] => .ok (.smov d (.reg a))
      | [l] => if a = 0 then .ok (.smov d (.lit l)) else .error .reserved
      | _ => .error .literal)
  | 0x0B => lit0 L (dS3q x fun d q => .ok (.spopq d q))
  | 0x0C => lit0 L (dS3a x fun a => .ok (.spushg a))
  | 0x0D => lit0 L (dS3a x fun a => .ok (.bqout a))
  | 0x10 => lit0 L (dV3 x fun p d a b => .ok (.vadd p d a b))
  | 0x11 => lit0 L (dV3 x fun p d a b => .ok (.vsub p d a b))
  | 0x12 => lit0 L (dV3 x fun p d a b => .ok (.vmul p d a b))
  | 0x13 => lit0 L (dV3 x fun p d a b => .ok (.vmulh p d a b))
  | 0x14 => lit0 L (dV3 x fun p d a b => .ok (.vmin p d a b))
  | 0x15 => lit0 L (dV3 x fun p d a b => .ok (.vmax p d a b))
  | 0x16 => lit0 L (dV3a x fun p d a => .ok (.vabs p d a))
  | 0x17 => lit0 L (dV3a x fun p d a => .ok (.vneg p d a))
  | 0x18 => lit0 L (dV3 x fun p d a b => .ok (.vand p d a b))
  | 0x19 => lit0 L (dV3 x fun p d a b => .ok (.vor p d a b))
  | 0x1A => lit0 L (dV3 x fun p d a b => .ok (.vxor p d a b))
  | 0x1B => lit0 L (dV3a x fun p d a => .ok (.vnot p d a))
  | 0x1C => lit0 L (dV3 x fun p d a b => .ok (.vshl p d a b))
  | 0x1D => lit0 L (dV3 x fun p d a b => .ok (.vshr p d a b))
  | 0x1E => lit0 L (dV3 x fun p d a b => .ok (.vsar p d a b))
  | 0x1F => lit0 L (dV3 x fun p d a b => .ok (.vadds p d a b))
  | 0x20 => lit0 L (dV3 x fun p d a b => .ok (.vfadd p d a b))
  | 0x21 => lit0 L (dV3 x fun p d a b => .ok (.vfsub p d a b))
  | 0x22 => lit0 L (dV3 x fun p d a b => .ok (.vfmul p d a b))
  | 0x23 => lit0 L (dV3 x fun p d a b => .ok (.vfma p d a b))
  | 0x24 => lit0 L (dV3 x fun p d a b => .ok (.vfmin p d a b))
  | 0x25 => lit0 L (dV3 x fun p d a b => .ok (.vfmax p d a b))
  | 0x26 => lit0 L (dV3a x fun p d a => .ok (.vfabs p d a))
  | 0x27 => lit0 L (dV3a x fun p d a => .ok (.vfneg p d a))
  | 0x28 => lit0 L (dV3a x fun p d a => .ok (.vrcp p d a))
  | 0x29 => lit0 L (dV3a x fun p d a => .ok (.vrsq p d a))
  | 0x2A => lit0 L (dV3a x fun p d a => .ok (.vexp2 p d a))
  | 0x2B => lit0 L (dV3a x fun p d a => .ok (.vlog2 p d a))
  | 0x30 => lit0 L (dVC x fun p q a b => .ok (.vceq p q a b))
  | 0x31 => lit0 L (dVC x fun p q a b => .ok (.vclt p q a b))
  | 0x32 => lit0 L (dVC x fun p q a b => .ok (.vcle p q a b))
  | 0x33 => lit0 L (dVC x fun p q a b => .ok (.vfceq p q a b))
  | 0x34 => lit0 L (dVC x fun p q a b => .ok (.vfclt p q a b))
  | 0x35 => lit0 L (dVC x fun p q a b => .ok (.vfcle p q a b))
  | 0x36 => lit0 L (dVC x fun p q a b => .ok (.vfcun p q a b))
  | 0x38 => lit0 L (dVP3 x fun q a b => .ok (.pand q a b))
  | 0x39 => lit0 L (dVP3 x fun q a b => .ok (.por q a b))
  | 0x3A => lit0 L (dVP3 x fun q a b => .ok (.pxor q a b))
  | 0x3B => lit0 L (dVP2 x fun q a => .ok (.pnot q a))
  | 0x3C => lit0 L (dVPs x fun a s => .ok (.pany s a))
  | 0x3D => lit0 L (dVPs x fun a s => .ok (.pcnt s a))
  | 0x40 => lit0 L (dVQl x fun p v q => .ok (.vpopq p v q))
  | 0x41 => lit0 L (dVQs x fun p v q => .ok (.vpushq p q v))
  | 0x42 => lit0 L (dV3 x fun p d a b => .ok (.vsel p d a b))
  | 0x43 => lit0 L (dVIb x fun p d s => .ok (.vbcast p d s))
  | 0x44 => lit0 L (dV3 x fun p d a b => .ok (.vperm p d a b))
  | 0x45 => lit0 L (dVI x fun p d a k => .ok (.vrot p d a k))
  | 0x46 => lit0 L (dVIx x fun s a k => .ok (.vext s a k))
  | 0x47 => lit0 L (dVIn x fun d s k => .ok (.vins d s k))
  | 0x48 => lit0 L (dVIt x fun d a t => withVType t fun t => .ok (.vcvt d a t))
  | 0x49 => lit0 L (dVIt x fun d a t => withVType t fun t => .ok (.vcvtd d a t))
  | 0x4A => lit0 L (dVIh x fun d a h => .ok (.vpack d a h))
  | 0x4B => lit0 L (dVIh x fun d a h => .ok (.vunpk d a h))
  | 0x4C => lit0 L (dVR x fun p s a => .ok (.vrsum p s a))
  | 0x4D => lit0 L (dVR x fun p s a => .ok (.vrmax p s a))
  | 0x4E => lit0 L (dVR x fun p s a => .ok (.vrmin p s a))
  | 0x4F => lit0 L (dVR x fun p s a => .ok (.vfrsum p s a))
  | 0x50 => lit0 L (dVId x fun p a t => .ok (.defer p a t))
  | 0x51 => lit0 L (dVIdr x fun d q => .ok (.drain d q))
  | 0x52 => lit0 L (dS3d x fun d => .ok (.dqcnt d))
  | 0x58 => lit0 L (dVIm x fun d a m => .ok (.vcompnm d a m))
  | 0x59 => lit0 L (dVIt x fun d a t => if d = 0 ∧ a = 0 then withVType t fun t => .ok (.vsett t) else .error .reserved)
  | 0x5A => lit0 L (dV3a x fun p d a => .ok (.vmov p d a))
  | _ => .error .opcode

/-- The opcodes of the furnace engine (R29). -/
def decodeMxa (x : BitVec 32) (L : List (BitVec 32)) (opc : Nat) : Dec :=
  match opc with
  | 0x00 => lit0 L (dML x fun n => .ok (.lease n))
  | 0x01 => lit0 L (dM0 x (.ok .unlease))
  | 0x02 => lit0 L (dM3 x fun t a b => .ok (.mma t a b))
  | 0x03 => lit0 L (dM3 x fun t a b => .ok (.mmat t a b))
  | 0x04 => lit0 L (dMS x fun m o => .ok (.mset m o))
  | 0x05 => lit0 L (dMS x fun m o => .ok (.minc m o))
  | 0x06 => lit0 L (dMAz x fun t k => .ok (.accz t k))
  | 0x07 => lit0 L (dMAm x fun t m k => .ok (.accrd t m k))
  | 0x08 => lit0 L (dMAm x fun t m k => .ok (.accwr t m k))
  | 0x09 => lit0 L (dMAw x fun t d n k => withAccDst d n fun w => .ok (.accwb t w k))
  | 0x0A => lit0 L (dMAs x fun t s k => .ok (.accmv t s k))
  | 0x0B => lit0 L (dMAz x fun t k => .ok (.accrel t k))
  | 0x0C => lit0 L (dM0 x (.ok .mwait))
  | 0x0D => lit0 L (dM0 x (.ok .fmtskip))
  | _ => .error .opcode

/-- The opcodes of the transfer engine (R30). -/
def decodeXfr (x : BitVec 32) (L : List (BitVec 32)) (opc : Nat) : Dec :=
  match opc with
  | 0x00 => lit1 L fun l => dXM x fun h n d s q =>
      if d = 2 then (if n = 0 then .ok (.movePull h s q l) else .error .reserved)
      else withTile h n d s fun t => .ok (.move t q l)
  | 0x01 => lit1 L fun l => dXM x fun h n d s q => withTile h n d s fun t => .ok (.dup t q l)
  | 0x02 => lit1 L fun l => dXM x fun h n d s q =>
      if d = 0 then (if h = 0 ∧ s = 0 then withXAddr n fun n => .ok (.drop (.mem n) q l) else .error .reserved)
      else if d = 1 then (if n = 0 then .ok (.drop (.sp h s) q l) else .error .reserved)
      else .error .field
  | 0x03 => lit1 L fun l => dXM x fun h n d s q => withTile h n d s fun t => .ok (.promote t q l)
  | 0x04 => lit1 L fun l => withSlot l fun sl => dXM x fun h n d s q => withTile h n d s fun t => .ok (.move2d t q sl)
  | 0x05 => lit1 L fun l => withSlot l fun sl => dXM x fun h n d s q => withTile h n d s fun t => .ok (.move3d t q sl)
  | 0x06 => lit2 L fun l => dXCs x fun s => .ok (.xshape s l)
  | 0x07 => lit0 L (dXC x fun c x => .ok (.kick c x))
  | 0x08 => lit1 L fun l => dXCc x fun c => if field 6 26 l = 0 then .ok (.chlink c (field 0 6 l)) else .error .field
  | 0x09 => lit1 L fun l => dXF x fun n v q =>
      if field 5 1 n = 0 then (if field 6 2 v = 0 then .ok (.arrive (field 0 5 n) (field 0 6 v) q l) else .error .field) else .error .reserved
  | 0x0A => lit1 L fun l => dXF x fun n v q => withXAddr n fun n => .ok (.xfill n v q l)
  | 0x0B => lit0 L (dXCx x fun x => .ok (.xcancel x))
  | 0x0C => lit0 L (dXSa x fun a x => .ok (.xstat a x))
  | _ => .error .opcode

/-- The opcodes of the near-memory engine (R31). -/
noncomputable def decodeNmu (x : BitVec 32) (L : List (BitVec 32)) (opc : Nat) : Dec :=
  match opc with
  | 0x00 => lit0 L (dNCa x fun u a => .ok (.nmred u a))
  | 0x01 => lit0 L (dNCa x fun u a => .ok (.nmatt u a))
  | 0x02 => lit0 L (dNCu3 x fun u a => .ok (.nmopt u a))
  | 0x03 => lit0 L (dNCu3 x fun u a => .ok (.nmmask u a))
  | 0x04 => lit0 L (dNCm x fun u p => if u = 0 then .ok (.nmbankOff p) else if u = 1 then .ok (.nmbankOn p) else .error .field)
  | 0x05 => lit0 L (dNCpa x fun a p => .ok (.nmbcst p a))
  | 0x06 => lit0 L (dNCpka x fun k a p => .ok (.nmbmac p k a))
  | 0x07 => lit0 L (dNCpk x fun k p => .ok (.nmbrd p k))
  | 0x08 => lit0 L (dNPq x fun q => .ok (.nmpop q))
  | 0x09 => lit1 L fun l => dNCn x fun a => .ok (.nmpool a l)
  | 0x0A => lit2 L fun l => dNCn x fun a => .ok (.nmarena a l)
  | _ => .error .opcode

/-- The opcodes of the fabric engine (R32). -/
noncomputable def decodeFab (x : BitVec 32) (L : List (BitVec 32)) (opc : Nat) : Dec :=
  match opc with
  | 0x00 => lit1 L fun l => dF x fun a b s c => if s = 0 then withScope c fun c => .ok (.put a b c l) else .error .reserved
  | 0x01 => lit1 L fun l => dF x fun a b s c => withScope c fun c => .ok (.getw s a b c l)
  | 0x02 => lit0 L (dF x fun a b s c => withScope c fun c => .ok (.amsend a b s c))
  | 0x03 => lit0 L (dFM x fun d b e => .ok (.mrecv d e b))
  | 0x04 => lit0 L (dF0 x (.ok .mdone))
  | 0x05 => lit0 L (dFa x fun a => .ok (.qrepair a))
  | 0x08 => lit1 L fun l => dFBi x fun a p c n => withScope c fun c =>
      if p = 0 then (if n = 0 then .ok (.barinit a c none l) else .error .reserved)
      else (if field 6 9 n = 0 then .ok (.barinit a c (some (field 0 6 n)) l) else .error .field)
  | 0x09 => lit0 L (dFBa x fun a n => .ok (.barv a n))
  | 0x0A => lit0 L (dFBw x fun a h => .ok (.barw a h))
  | 0x0B => lit0 L (dFBs x fun a k h => .ok (.barsem a k h))
  | _ => .error .opcode

/-- The opcodes of the core-control engine (R33). -/
noncomputable def decodeSys (x : BitVec 32) (L : List (BitVec 32)) (opc : Nat) : Dec :=
  match opc with
  | 0x00 => lit2 L fun l => dSKt x fun t => .ok (.detach t l)
  | 0x01 => lit0 L (dSKt x fun t => .ok (.join t))
  | 0x02 => lit0 L (dSB x fun c o => if c = 0 then .ok (.jmps o) else .error .reserved)
  | 0x03 => lit0 L (dSB x fun c o => withBrs c fun c => .ok (.brs c o))
  | 0x04 => lit0 L (dF0 x (.ok .cexit))
  | 0x08 => lit0 L (dSKv x fun k v => .ok (.seminit k v))
  | 0x09 => lit0 L (dSKv x fun k v => .ok (.semadd k v))
  | 0x0A => lit0 L (dSKv x fun k v => .ok (.semwait k v))
  | 0x0B => lit0 L (dSCsc x fun s => withScope s fun s => .ok (.cfence s))
  | 0x10 => lit0 L (dSCp x fun a p => .ok (.xsave a p))
  | 0x11 => lit0 L (dSCp x fun a p => .ok (.xrest a p))
  | 0x12 => lit0 L (dSCc x fun a c => .ok (.csrrc a c))
  | 0x13 => lit0 L (dSCc x fun a c =>
      if c = 0x031 then .ok (.acondWrite a) else if c = 0x032 then .ok (.pcfgWrite a)
      else if c = 0x033 then .ok (.pqvaWrite a) else if c = 0x039 then .ok (.frankWrite a)
      else .ok (.csrwc c a))
  | _ => .error .opcode

/-- The clause fields of a word (R15). -/
def clauseOf (w : BitVec 64) : Clause :=
  { wsem := field 56 8 w, ssem := field 48 8 w, wcnt := field 46 2 w, scnt := field 44 2 w }

/-- The engine of a word (R15). -/
def engOf (w : BitVec 64) : Nat := (field 40 4 w).toNat

/-- A word is a LIT when its OPC is 0xFF (R19). -/
def isLit (w : BitVec 64) : Bool := field 32 8 w == 0xFF

/-- The operation of a word by its engine (R18), from its operand and its literals. -/
noncomputable def decodeOp (eng opc : Nat) (x : BitVec 32) (L : List (BitVec 32)) : Dec :=
  match eng with
  | 0 => decodeGaf x L opc
  | 1 => decodeAcc x L opc
  | 2 => decodeExe x L opc
  | 3 => decodeMxa x L opc
  | 4 => decodeXfr x L opc
  | 5 => decodeNmu x L opc
  | 6 => decodeFab x L opc
  | 7 => decodeSys x L opc
  | _ => .error .engine

/-- Decode a word with the literals that precede it.
DESIGN CHOICE (assumption 68): noncomputable, for the code generator alone. -/
noncomputable def decode (w : BitVec 64) (L : List (BitVec 32)) : Except DecodeError Decoded :=
  let c := clauseOf w
  let i? : Dec :=
    if engOf w > 7 then .error .engine
    else if isLit w then lit0 L (.ok (.lit (field 40 4 w) (field 0 32 w)))
    else decodeOp (engOf w) (field 32 8 w).toNat (field 0 32 w) L
  match i? with
  | .error e => .error e
  | .ok i =>
    if wellFormed i = false then .error .field
    else if clauseOk c i = false then .error .clause
    else .ok ⟨c, i⟩

/-! The encoder. -/

/-- Bits 43:0 of a word: ENG, OPC and operand (R15). -/
def word (eng : BitVec 4) (opc : BitVec 8) (x : BitVec 32) : BitVec 44 := eng ++ opc ++ x

def Scope.code : Scope → BitVec 3
  | .core => 0 | .chair => 1 | .die => 2 | .package => 3 | .system => 4

def Cond.code : Cond → BitVec 3
  | .xa1 => 1 | .xa0 => 2 | .nz _ => 3 | .z _ => 4 | .vs => 5 | .vc => 6 | .hit => 7

def Cond.reg : Cond → BitVec 5
  | .nz a => a | .z a => a | _ => 0

def BrsCond.code : BrsCond → BitVec 3
  | .xa1 => 1 | .xa0 => 2 | .ax1 => 3 | .ax0 => 4 | .vs => 5 | .vc => 6

def VType.code : VType → BitVec 4
  | .f32 => 0 | .bf16 => 1 | .f16 => 2 | .i8 => 4 | .u8 => 5 | .i16 => 6 | .i32 => 7

def AccDst.code : AccDst → BitVec 2
  | .sp _ => 0 | .mem _ => 1 | .gen _ => 2

def AccDst.reg : AccDst → BitVec 5
  | .sp m => 0#1 ++ m | .mem a => a | .gen g => 0#1 ++ g

/-- The at and an fields. -/
def XAddr.bits : XAddr → BitVec 6
  | .reg a => 0#1 ++ a | .gen g => 1#1 ++ (0#1 ++ g)

def XTile.h : XTile → BitVec 6
  | .toSp h _ _ => h | .toMem _ h _ => h | .memMem d _ => 0#1 ++ d

def XTile.n : XTile → BitVec 6
  | .toSp _ _ n => n.bits | .toMem n _ _ => n.bits | .memMem _ n => n.bits

def XTile.d : XTile → BitVec 3
  | .toSp .. => 0 | .toMem .. => 1 | .memMem .. => 3

def XTile.s : XTile → BitVec 14
  | .toSp _ s _ => s | .toMem _ _ s => s | .memMem .. => 0

/-! `e<form>` writes a form of R21. -/


def eG3 (d : BitVec 6) (a : BitVec 6) (b : BitVec 6) : BitVec 32 :=
  d ++ a ++ b ++ 0#14

def eG3b0 (d : BitVec 6) (a : BitVec 6) : BitVec 32 :=
  d ++ a ++ 0#20

def eG3bf (d : BitVec 6) (a : BitVec 6) (p : BitVec 6) (w : BitVec 6) : BitVec 32 :=
  d ++ a ++ 0#6 ++ p ++ w ++ 0#2

def eG3op (d : BitVec 6) (a : BitVec 6) (o : BitVec 3) : BitVec 32 :=
  d ++ a ++ 0#6 ++ o ++ 0#11

def eG3n (d : BitVec 6) (a : BitVec 6) : BitVec 32 :=
  d ++ a ++ 0#20

def eGI (d : BitVec 6) (a : BitVec 6) (i : BitVec 20) : BitVec 32 :=
  d ++ a ++ i

def eGIsh (d : BitVec 6) (a : BitVec 6) (s : BitVec 6) : BitVec 32 :=
  d ++ a ++ 0#14 ++ s

def eGIlui (d : BitVec 6) (i : BitVec 20) : BitVec 32 :=
  d ++ 0#6 ++ i

def eGB (a : BitVec 6) (b : BitVec 6) (i : BitVec 20) : BitVec 32 :=
  a ++ b ++ i

def eGBj (l : BitVec 6) (i : BitVec 20) : BitVec 32 :=
  l ++ 0#6 ++ i

def eGL (v : BitVec 2) (a : BitVec 6) (i : BitVec 20) : BitVec 32 :=
  v ++ 0#4 ++ a ++ i

def eGLb (v : BitVec 2) (a : BitVec 6) : BitVec 32 :=
  v ++ 0#4 ++ a ++ 0#20

def eGE (m : BitVec 6) : BitVec 32 :=
  m ++ 0#26

def eGEa (m : BitVec 6) (a : BitVec 6) : BitVec 32 :=
  m ++ a ++ 0#20

def eGEt (m : BitVec 6) (a : BitVec 6) (s : BitVec 5) : BitVec 32 :=
  m ++ a ++ 0#8 ++ s ++ 0#7

def eGEk (m : BitVec 6) (a : BitVec 6) (k : BitVec 8) : BitVec 32 :=
  m ++ a ++ k ++ 0#12

def eGX0  : BitVec 32 :=
  0#32

def eGXd (d : BitVec 6) : BitVec 32 :=
  d ++ 0#26

def eGXt (t : BitVec 8) : BitVec 32 :=
  0#24 ++ t

def eGXa (a : BitVec 6) : BitVec 32 :=
  0#6 ++ a ++ 0#20

def eGXdsel (d : BitVec 6) (s : BitVec 2) : BitVec 32 :=
  d ++ 0#24 ++ s

def eGXam (a : BitVec 6) (m : BitVec 1) : BitVec 32 :=
  0#6 ++ a ++ 0#19 ++ m

def eGXdk (d : BitVec 6) (k : BitVec 8) : BitVec 32 :=
  d ++ 0#18 ++ k

def eGXsc (s : BitVec 3) : BitVec 32 :=
  0#29 ++ s

def eGXdc (d : BitVec 6) (c : BitVec 12) : BitVec 32 :=
  d ++ 0#14 ++ c

def eGXac (a : BitVec 6) (c : BitVec 12) : BitVec 32 :=
  0#6 ++ a ++ 0#8 ++ c

def eGXk (k : BitVec 20) : BitVec 32 :=
  0#12 ++ k

def eGXk1 (k : BitVec 1) : BitVec 32 :=
  0#31 ++ k

def eGXak (a : BitVec 6) (k : BitVec 20) : BitVec 32 :=
  0#6 ++ a ++ k

def eS3 (d : BitVec 6) (a : BitVec 6) (b : BitVec 6) : BitVec 32 :=
  d ++ a ++ b ++ 0#14

def eS3da (d : BitVec 6) (a : BitVec 6) : BitVec 32 :=
  d ++ a ++ 0#20

def eS3a (a : BitVec 6) : BitVec 32 :=
  0#6 ++ a ++ 0#20

def eS3d (d : BitVec 6) : BitVec 32 :=
  d ++ 0#26

def eV3 (p : BitVec 5) (d : BitVec 9) (a : BitVec 9) (b : BitVec 9) : BitVec 32 :=
  p ++ d ++ a ++ b

def eV3a (p : BitVec 5) (d : BitVec 9) (a : BitVec 9) : BitVec 32 :=
  p ++ d ++ a ++ 0#9

def eVC (p : BitVec 5) (q : BitVec 5) (a : BitVec 9) (b : BitVec 9) : BitVec 32 :=
  p ++ q ++ 0#4 ++ a ++ b

def eVI (p : BitVec 5) (d : BitVec 9) (a : BitVec 9) (k : BitVec 9) : BitVec 32 :=
  p ++ d ++ a ++ k

def eVP3 (q : BitVec 5) (a : BitVec 5) (b : BitVec 5) : BitVec 32 :=
  q ++ a ++ b ++ 0#17

def eVP2 (q : BitVec 5) (a : BitVec 5) : BitVec 32 :=
  q ++ a ++ 0#22

def eVPs (a : BitVec 5) (s : BitVec 6) : BitVec 32 :=
  0#5 ++ a ++ 0#5 ++ s ++ 0#11

def eVIb (p : BitVec 5) (d : BitVec 9) (s : BitVec 6) : BitVec 32 :=
  p ++ d ++ 0#3 ++ s ++ 0#9

def eVIx (s : BitVec 6) (a : BitVec 9) (k : BitVec 9) : BitVec 32 :=
  0#8 ++ s ++ a ++ k

def eVIn (d : BitVec 9) (s : BitVec 6) (k : BitVec 9) : BitVec 32 :=
  0#5 ++ d ++ 0#3 ++ s ++ k

def eVR (p : BitVec 5) (s : BitVec 6) (a : BitVec 9) : BitVec 32 :=
  p ++ s ++ 0#3 ++ a ++ 0#9

def eVIh (d : BitVec 9) (a : BitVec 9) (h : BitVec 1) : BitVec 32 :=
  0#5 ++ d ++ a ++ 0#8 ++ h

def eVIm (d : BitVec 9) (a : BitVec 9) (m : BitVec 2) : BitVec 32 :=
  0#5 ++ d ++ a ++ 0#7 ++ m

def eVId (p : BitVec 5) (a : BitVec 9) (t : BitVec 8) : BitVec 32 :=
  p ++ 0#9 ++ a ++ 0#1 ++ t

def eVIdr (d : BitVec 9) (q : BitVec 5) : BitVec 32 :=
  0#5 ++ d ++ 0#13 ++ q

def eA3 (d : BitVec 5) (a : BitVec 5) (b : BitVec 5) : BitVec 32 :=
  d ++ a ++ b ++ 0#17

def eA3m1 (d : BitVec 5) (a : BitVec 5) (b : BitVec 5) (m : BitVec 1) : BitVec 32 :=
  d ++ a ++ b ++ 0#16 ++ m

def eA3m2 (d : BitVec 5) (a : BitVec 5) (b : BitVec 5) (m : BitVec 2) : BitVec 32 :=
  d ++ a ++ b ++ 0#15 ++ m

def eAI (d : BitVec 5) (a : BitVec 5) (i : BitVec 22) : BitVec 32 :=
  d ++ a ++ i

def eAG3 (g : BitVec 4) (a : BitVec 5) (b : BitVec 5) (c : BitVec 5) : BitVec 32 :=
  g ++ a ++ b ++ c ++ 0#13

def eAFs (s : BitVec 3) : BitVec 32 :=
  0#29 ++ s

def eAPda (d : BitVec 5) (a : BitVec 5) : BitVec 32 :=
  d ++ a ++ 0#22

def eAPa (a : BitVec 5) : BitVec 32 :=
  0#5 ++ a ++ 0#22

def eAPdab (d : BitVec 5) (a : BitVec 5) (b : BitVec 5) : BitVec 32 :=
  d ++ a ++ b ++ 0#17

def eAPdabw (d : BitVec 5) (a : BitVec 5) (b : BitVec 5) : BitVec 32 :=
  d ++ a ++ b ++ 1#1 ++ 0#16

def eAPab (a : BitVec 5) (b : BitVec 5) : BitVec 32 :=
  0#5 ++ a ++ b ++ 0#17

def eAA (d : BitVec 5) (a : BitVec 5) (b : BitVec 5) (s : BitVec 3) : BitVec 32 :=
  d ++ a ++ b ++ 0#5 ++ s ++ 0#9

def eAAc (d : BitVec 5) (a : BitVec 5) (b : BitVec 5) (c : BitVec 5) (s : BitVec 3) : BitVec 32 :=
  d ++ a ++ b ++ c ++ s ++ 0#9

def eAHha (h : BitVec 6) (a : BitVec 5) : BitVec 32 :=
  h ++ a ++ 0#21

def eAHh (h : BitVec 6) : BitVec 32 :=
  h ++ 0#26

def eAHdh (h : BitVec 6) (d : BitVec 5) : BitVec 32 :=
  h ++ 0#5 ++ d ++ 0#16

def eM0  : BitVec 32 :=
  0#32

def eML (n : BitVec 7) : BitVec 32 :=
  0#25 ++ n

def eM3 (t : BitVec 9) (a : BitVec 4) (b : BitVec 4) : BitVec 32 :=
  t ++ a ++ b ++ 0#15

def eMS (m : BitVec 4) (o : BitVec 19) : BitVec 32 :=
  m ++ 0#9 ++ o

def eMAz (t : BitVec 9) (k : BitVec 5) : BitVec 32 :=
  t ++ 0#18 ++ k

def eMAm (t : BitVec 9) (m : BitVec 4) (k : BitVec 5) : BitVec 32 :=
  t ++ 0#5 ++ m ++ 0#9 ++ k

def eMAs (t : BitVec 9) (s : BitVec 9) (k : BitVec 5) : BitVec 32 :=
  t ++ s ++ 0#9 ++ k

def eXC (c : BitVec 4) (x : BitVec 2) : BitVec 32 :=
  c ++ 0#25 ++ x ++ 0#1

def eXCs (s : BitVec 3) : BitVec 32 :=
  0#1 ++ s ++ 0#28

def eXSa (a : BitVec 5) (x : BitVec 2) : BitVec 32 :=
  a ++ 0#24 ++ x ++ 0#1

def eXCx (x : BitVec 2) : BitVec 32 :=
  0#29 ++ x ++ 0#1

def eXCc (c : BitVec 4) : BitVec 32 :=
  c ++ 0#28

def eNCa (u : BitVec 4) (a : BitVec 5) : BitVec 32 :=
  u ++ a ++ 0#23

def eNCu3 (u : BitVec 3) (a : BitVec 5) : BitVec 32 :=
  0#1 ++ u ++ a ++ 0#23

def eNCpa (a : BitVec 5) (p : BitVec 8) : BitVec 32 :=
  0#4 ++ a ++ p ++ 0#15

def eNCpka (k : BitVec 3) (a : BitVec 5) (p : BitVec 8) : BitVec 32 :=
  0#1 ++ k ++ a ++ p ++ 0#15

def eNCpk (k : BitVec 3) (p : BitVec 8) : BitVec 32 :=
  0#1 ++ k ++ 0#5 ++ p ++ 0#15

def eNPq (q : BitVec 2) : BitVec 32 :=
  0#1 ++ q ++ 0#29

def eNCn (a : BitVec 5) : BitVec 32 :=
  0#4 ++ a ++ 0#23

def eFM (d : BitVec 5) (b : BitVec 5) (e : BitVec 5) : BitVec 32 :=
  d ++ b ++ 0#1 ++ e ++ 0#16

def eF0  : BitVec 32 :=
  0#32

def eFa (a : BitVec 5) : BitVec 32 :=
  a ++ 0#27

def eFBa (a : BitVec 5) (n : BitVec 15) : BitVec 32 :=
  a ++ 0#12 ++ n

def eFBw (a : BitVec 5) (h : BitVec 1) : BitVec 32 :=
  a ++ 0#8 ++ h ++ 0#18

def eFBs (a : BitVec 5) (k : BitVec 8) (h : BitVec 1) : BitVec 32 :=
  a ++ k ++ h ++ 0#18

def eSKt (t : BitVec 8) : BitVec 32 :=
  t ++ 0#24

def eSB (c : BitVec 3) (o : BitVec 24) : BitVec 32 :=
  c ++ 0#5 ++ o

def eSKv (k : BitVec 8) (v : BitVec 16) : BitVec 32 :=
  k ++ 0#8 ++ v

def eSCsc (s : BitVec 3) : BitVec 32 :=
  0#17 ++ s ++ 0#12

def eSCp (a : BitVec 5) (p : BitVec 2) : BitVec 32 :=
  a ++ 0#25 ++ p

def eSCc (a : BitVec 5) (c : BitVec 12) : BitVec 32 :=
  a ++ 0#15 ++ c

def eAIq (q : BitVec 2) (a : BitVec 5) (i : BitVec 22) : BitVec 32 :=
  0#3 ++ q ++ a ++ i

def eAG1 (g : BitVec 4) (a : BitVec 5) (s : BitVec 2) : BitVec 32 :=
  g ++ a ++ 0#21 ++ s

def eAB (a : BitVec 5) (c : BitVec 3) (n : BitVec 8) : BitVec 32 :=
  a ++ c ++ 0#16 ++ n

def eA3w (d : BitVec 2) (a : BitVec 5) (b : BitVec 5) (m : BitVec 2) : BitVec 32 :=
  0#3 ++ d ++ a ++ b ++ 0#15 ++ m

def eS3q (d : BitVec 6) (q : BitVec 2) : BitVec 32 :=
  d ++ 0#13 ++ q ++ 0#11

def eAQl (q : BitVec 2) (v : BitVec 1) (g : BitVec 4) (n : BitVec 4) : BitVec 32 :=
  0#1 ++ q ++ v ++ g ++ n ++ 0#20

def eAQg (q : BitVec 2) (v : BitVec 1) (g : BitVec 4) (n : BitVec 4) (z : BitVec 1) (s : BitVec 1) : BitVec 32 :=
  0#1 ++ q ++ v ++ g ++ n ++ 0#3 ++ z ++ s ++ 0#15

def eAQs (q : BitVec 1) (g : BitVec 4) (n : BitVec 4) : BitVec 32 :=
  1#1 ++ 0#1 ++ q ++ 0#1 ++ g ++ n ++ 0#20

def eVQl (p : BitVec 5) (v : BitVec 9) (q : BitVec 2) : BitVec 32 :=
  p ++ v ++ 0#1 ++ q ++ 0#15

def eVQs (p : BitVec 5) (v : BitVec 9) (q : BitVec 1) : BitVec 32 :=
  p ++ v ++ 1#1 ++ 0#1 ++ q ++ 0#15

def eVIt (d : BitVec 9) (a : BitVec 9) (t : BitVec 4) : BitVec 32 :=
  0#5 ++ d ++ a ++ 0#5 ++ t

def eMAw (t : BitVec 9) (d : BitVec 2) (n : BitVec 5) (k : BitVec 5) : BitVec 32 :=
  t ++ d ++ 0#2 ++ n ++ 0#9 ++ k

def eXM (h : BitVec 6) (n : BitVec 6) (d : BitVec 3) (s : BitVec 14) (q : BitVec 2) : BitVec 32 :=
  h ++ n ++ d ++ s ++ q ++ 0#1

def eXF (n : BitVec 6) (v : BitVec 8) (q : BitVec 2) : BitVec 32 :=
  0#6 ++ n ++ v ++ 0#9 ++ q ++ 0#1

def eNCm (u : BitVec 4) (p : BitVec 8) : BitVec 32 :=
  u ++ 0#5 ++ p ++ 0#15

def eF (a : BitVec 5) (b : BitVec 5) (s : BitVec 6) (c : BitVec 3) : BitVec 32 :=
  a ++ b ++ s ++ c ++ 0#13

def eFBi (a : BitVec 5) (p : BitVec 1) (c : BitVec 3) (n : BitVec 15) : BitVec 32 :=
  a ++ 0#8 ++ p ++ c ++ n


/-- Bits 43:0 of an instruction's word, and its literals, from the same tables; `none` for a LIT and for
a step that no word performs. -/
def encodeLow : Instr → Option (BitVec 44 × List (BitVec 32))
  | .nop => some (word 0 0x00 eGX0, [])
  | .add d a b => some (word 0 0x01 (eG3 d a b), [])
  | .sub d a b => some (word 0 0x02 (eG3 d a b), [])
  | .mul d a b => some (word 0 0x03 (eG3 d a b), [])
  | .mulh d a b => some (word 0 0x04 (eG3 d a b), [])
  | .mulhu d a b => some (word 0 0x05 (eG3 d a b), [])
  | .div d a b => some (word 0 0x06 (eG3 d a b), [])
  | .divu d a b => some (word 0 0x07 (eG3 d a b), [])
  | .rem d a b => some (word 0 0x08 (eG3 d a b), [])
  | .and d a b => some (word 0 0x09 (eG3 d a b), [])
  | .or d a b => some (word 0 0x0A (eG3 d a b), [])
  | .xor d a b => some (word 0 0x0B (eG3 d a b), [])
  | .shl d a b => some (word 0 0x0C (eG3 d a b), [])
  | .shr d a b => some (word 0 0x0D (eG3 d a b), [])
  | .sar d a b => some (word 0 0x0E (eG3 d a b), [])
  | .min d a b => some (word 0 0x0F (eG3 d a b), [])
  | .max d a b => some (word 0 0x10 (eG3 d a b), [])
  | .minu d a b => some (word 0 0x11 (eG3 d a b), [])
  | .maxu d a b => some (word 0 0x12 (eG3 d a b), [])
  | .seq d a b => some (word 0 0x13 (eG3 d a b), [])
  | .slt d a b => some (word 0 0x14 (eG3 d a b), [])
  | .sltu d a b => some (word 0 0x15 (eG3 d a b), [])
  | .bfx d a p w => some (word 0 0x16 (eG3bf d a p w), [])
  | .bfi d a p w => some (word 0 0x17 (eG3bf d a p w), [])
  | .clz d a => some (word 0 0x18 (eG3b0 d a), [])
  | .popc d a => some (word 0 0x19 (eG3b0 d a), [])
  | .addi d a i => some (word 0 0x20 (eGI d a i), [])
  | .andi d a i => some (word 0 0x21 (eGI d a i), [])
  | .ori d a i => some (word 0 0x22 (eGI d a i), [])
  | .xori d a i => some (word 0 0x23 (eGI d a i), [])
  | .shli d a s => some (word 0 0x24 (eGIsh d a s), [])
  | .shri d a s => some (word 0 0x25 (eGIsh d a s), [])
  | .sari d a s => some (word 0 0x26 (eGIsh d a s), [])
  | .slti d a i => some (word 0 0x27 (eGI d a i), [])
  | .lui d i => some (word 0 0x28 (eGIlui d i), [])
  | .ldl d a i => some (word 0 0x30 (eGI d a i), [])
  | .stl d a i => some (word 0 0x31 (eGI d a i), [])
  | .ldlw d a i => some (word 0 0x32 (eGI d a i), [])
  | .stlw d a i => some (word 0 0x33 (eGI d a i), [])
  | .beq a b i => some (word 0 0x38 (eGB a b i), [])
  | .bne a b i => some (word 0 0x39 (eGB a b i), [])
  | .blt a b i => some (word 0 0x3A (eGB a b i), [])
  | .bge a b i => some (word 0 0x3B (eGB a b i), [])
  | .bltu a b i => some (word 0 0x3C (eGB a b i), [])
  | .bgeu a b i => some (word 0 0x3D (eGB a b i), [])
  | .jal l i => some (word 0 0x3E (eGBj l i), [])
  | .jalr d a i => some (word 0 0x3F (eGI d a i), [])
  | .loop v a i => some (word 0 0x40 (eGL v a i), [])
  | .loopp v a i => some (word 0 0x41 (eGL v a i), [])
  | .lbrk v a => some (word 0 0x42 (eGLb v a), [])
  | .emit m l => some (word 0 0x48 (eGE m), [field 0 32 l, field 32 32 l])
  | .emitp m a => some (word 0 0x49 (eGEa m a), [])
  | .emitt m a s l => some (word 0 0x4A (eGEt m a s), [field 0 32 l, field 32 32 l])
  | .fmt m a => some (word 0 0x4B (eGEa m a), [])
  | .expect m a k => some (word 0 0x4C (eGEk m a k), [])
  | .joinpt t => some (word 0 0x50 (eGXt t), [])
  | .joinw a => some (word 0 0x51 (eGXa a), [])
  | .detq d s => some (word 0 0x52 (eGXdsel d s), [])
  | .chairw a m => some (word 0 0x53 (eGXam a m), [])
  | .gpop d a o => some (word 0 0x54 (eG3op d a o), [])
  | .gpopn d a => some (word 0 0x55 (eG3n d a), [])
  | .grab d => some (word 0 0x58 (eGXd d), [])
  | .step d => some (word 0 0x59 (eGXd d), [])
  | .yield => some (word 0 0x5A eGX0, [])
  | .exit => some (word 0 0x5B eGX0, [])
  | .semrd d k => some (word 0 0x5C (eGXdk d k), [])
  | .wquiet s => some (word 0 0x5D (eGXsc s), [])
  | .csrr d c => some (word 0 0x60 (eGXdc d c), [])
  | .csrw a c => some (word 0 0x61 (eGXac a c), [])
  | .fselWrite a => some (word 0 0x61 (eGXac a 0x045), [])
  | .trap k => some (word 0 0x62 (eGXk k), [])
  | .resume => some (word 0 0x63 eGX0, [])
  | .reinject k => some (word 0 0x64 (eGXk1 k), [])
  | .savectx a k => some (word 0 0x65 (eGXak a k), [])
  | .restctx a k => some (word 0 0x66 (eGXak a k), [])
  | .ldq q g n => some (word 1 0x00 (eAQl q 0 g n), [])
  | .ldqMv q g n => some (word 1 0x00 (eAQl q 1 g n), [])
  | .ldqs q g n => some (word 1 0x01 (eAQl q 0 g n), [])
  | .ldqsMv q g n => some (word 1 0x01 (eAQl q 1 g n), [])
  | .ldqg q g n s z => some (word 1 0x02 (eAQg q 0 g n z s), [])
  | .ldqgMv q g n s => some (word 1 0x02 (eAQg q 1 g n 1 s), [])
  | .stq q g n => some (word 1 0x03 (eAQs q g n), [])
  | .stqs q g n => some (word 1 0x04 (eAQs q g n), [])
  | .lds d a i => some (word 1 0x08 (eAI d a i), [])
  | .sts d a i => some (word 1 0x09 (eAI d a i), [])
  | .ldsq q a i => some (word 1 0x0A (eAIq q a i), [])
  | .aadd d a b => some (word 1 0x10 (eA3 d a b), [])
  | .asub d a b => some (word 1 0x11 (eA3 d a b), [])
  | .amul d a b m => some (word 1 0x12 (eA3m2 d a b m), [])
  | .ashl d a b => some (word 1 0x13 (eA3 d a b), [])
  | .ashr d a b m => some (word 1 0x14 (eA3m1 d a b m), [])
  | .aand d a b => some (word 1 0x15 (eA3 d a b), [])
  | .aor d a b => some (word 1 0x16 (eA3 d a b), [])
  | .amin d a b m => some (word 1 0x17 (eA3m1 d a b m), [])
  | .amax d a b m => some (word 1 0x18 (eA3m1 d a b m), [])
  | .aslt d a b m => some (word 1 0x19 (eA3m1 d a b m), [])
  | .aaddi d a (.imm i) => some (word 1 0x1A (eAI d a i), [])
  | .aaddi d a (.lit1 l) => some (word 1 0x1A (eAI d a 0), [l])
  | .aaddi d a (.lit2 l) => some (word 1 0x1A (eAI d a 0), [field 0 32 l, field 32 32 l])
  | .agset g a b c => some (word 1 0x20 (eAG3 g a b c), [])
  | .agsetB g a => some (word 1 0x20 (eAG1 g a 1), [])
  | .agnext g a => some (word 1 0x21 (eAG1 g a 0), [])
  | .agnextW g a => some (word 1 0x21 (eAG1 g a 1), [])
  | .agpos g a => some (word 1 0x22 (eAG1 g a 0), [])
  | .agrd a g s => some (word 1 0x23 (eAG1 g a s), [])
  | .bqpush c => some (word 1 0x28 (eAB c.reg c.code 0), [])
  | .bqskip c n => some (word 1 0x29 (eAB c.reg c.code n), [])
  | .probe d a => some (word 1 0x30 (eAPda d a), [])
  | .pevict a => some (word 1 0x31 (eAPa a), [])
  | .rprobe d a b => some (word 1 0x32 (eAPdab d a b), [])
  | .rprobeWait d a b => some (word 1 0x32 (eAPdabw d a b), [])
  | .runpin a b => some (word 1 0x33 (eAPab a b), [])
  | .atadd d a b s => some (word 1 0x38 (eAA d a b s.code), [])
  | .atfadd d a b s => some (word 1 0x39 (eAA d a b s.code), [])
  | .atmin d a b s => some (word 1 0x3A (eAA d a b s.code), [])
  | .atmax d a b s => some (word 1 0x3B (eAA d a b s.code), [])
  | .atxch d a b s => some (word 1 0x3C (eAA d a b s.code), [])
  | .atcas d a b c s => some (word 1 0x3D (eAAc d a b c s.code), [])
  | .ator d a b s => some (word 1 0x3E (eAA d a b s.code), [])
  | .atand d a b s => some (word 1 0x3F (eAA d a b s.code), [])
  | .fence s => some (word 1 0x40 (eAFs s.code), [])
  | .rel s => some (word 1 0x41 (eAFs s.code), [])
  | .acq s => some (word 1 0x42 (eAFs s.code), [])
  | .hgive h a => some (word 1 0x48 (eAHha h a), [])
  | .htake h => some (word 1 0x49 (eAHh h), [])
  | .hquery d h => some (word 1 0x4A (eAHdh h d), [])
  | .watch d a b m => some (word 1 0x50 (eA3w d a b m), [])
  | .sadd d a b => some (word 2 0x00 (eS3 d a b), [])
  | .ssub d a b => some (word 2 0x01 (eS3 d a b), [])
  | .smul d a b => some (word 2 0x02 (eS3 d a b), [])
  | .sand d a b => some (word 2 0x03 (eS3 d a b), [])
  | .sor d a b => some (word 2 0x04 (eS3 d a b), [])
  | .sxor d a b => some (word 2 0x05 (eS3 d a b), [])
  | .sshl d a b => some (word 2 0x06 (eS3 d a b), [])
  | .sshr d a b => some (word 2 0x07 (eS3 d a b), [])
  | .sfadd d a b => some (word 2 0x08 (eS3 d a b), [])
  | .sfmul d a b => some (word 2 0x09 (eS3 d a b), [])
  | .smov d (.reg a) => some (word 2 0x0A (eS3da d a), [])
  | .smov d (.lit l) => some (word 2 0x0A (eS3da d 0), [l])
  | .spopq d q => some (word 2 0x0B (eS3q d q), [])
  | .spushg a => some (word 2 0x0C (eS3a a), [])
  | .bqout a => some (word 2 0x0D (eS3a a), [])
  | .vadd p d a b => some (word 2 0x10 (eV3 p d a b), [])
  | .vsub p d a b => some (word 2 0x11 (eV3 p d a b), [])
  | .vmul p d a b => some (word 2 0x12 (eV3 p d a b), [])
  | .vmulh p d a b => some (word 2 0x13 (eV3 p d a b), [])
  | .vmin p d a b => some (word 2 0x14 (eV3 p d a b), [])
  | .vmax p d a b => some (word 2 0x15 (eV3 p d a b), [])
  | .vabs p d a => some (word 2 0x16 (eV3a p d a), [])
  | .vneg p d a => some (word 2 0x17 (eV3a p d a), [])
  | .vand p d a b => some (word 2 0x18 (eV3 p d a b), [])
  | .vor p d a b => some (word 2 0x19 (eV3 p d a b), [])
  | .vxor p d a b => some (word 2 0x1A (eV3 p d a b), [])
  | .vnot p d a => some (word 2 0x1B (eV3a p d a), [])
  | .vshl p d a b => some (word 2 0x1C (eV3 p d a b), [])
  | .vshr p d a b => some (word 2 0x1D (eV3 p d a b), [])
  | .vsar p d a b => some (word 2 0x1E (eV3 p d a b), [])
  | .vadds p d a b => some (word 2 0x1F (eV3 p d a b), [])
  | .vfadd p d a b => some (word 2 0x20 (eV3 p d a b), [])
  | .vfsub p d a b => some (word 2 0x21 (eV3 p d a b), [])
  | .vfmul p d a b => some (word 2 0x22 (eV3 p d a b), [])
  | .vfma p d a b => some (word 2 0x23 (eV3 p d a b), [])
  | .vfmin p d a b => some (word 2 0x24 (eV3 p d a b), [])
  | .vfmax p d a b => some (word 2 0x25 (eV3 p d a b), [])
  | .vfabs p d a => some (word 2 0x26 (eV3a p d a), [])
  | .vfneg p d a => some (word 2 0x27 (eV3a p d a), [])
  | .vrcp p d a => some (word 2 0x28 (eV3a p d a), [])
  | .vrsq p d a => some (word 2 0x29 (eV3a p d a), [])
  | .vexp2 p d a => some (word 2 0x2A (eV3a p d a), [])
  | .vlog2 p d a => some (word 2 0x2B (eV3a p d a), [])
  | .vceq p q a b => some (word 2 0x30 (eVC p q a b), [])
  | .vclt p q a b => some (word 2 0x31 (eVC p q a b), [])
  | .vcle p q a b => some (word 2 0x32 (eVC p q a b), [])
  | .vfceq p q a b => some (word 2 0x33 (eVC p q a b), [])
  | .vfclt p q a b => some (word 2 0x34 (eVC p q a b), [])
  | .vfcle p q a b => some (word 2 0x35 (eVC p q a b), [])
  | .vfcun p q a b => some (word 2 0x36 (eVC p q a b), [])
  | .pand q a b => some (word 2 0x38 (eVP3 q a b), [])
  | .por q a b => some (word 2 0x39 (eVP3 q a b), [])
  | .pxor q a b => some (word 2 0x3A (eVP3 q a b), [])
  | .pnot q a => some (word 2 0x3B (eVP2 q a), [])
  | .pany s a => some (word 2 0x3C (eVPs a s), [])
  | .pcnt s a => some (word 2 0x3D (eVPs a s), [])
  | .vpopq p v q => some (word 2 0x40 (eVQl p v q), [])
  | .vpushq p q v => some (word 2 0x41 (eVQs p v q), [])
  | .vsel p d a b => some (word 2 0x42 (eV3 p d a b), [])
  | .vbcast p d s => some (word 2 0x43 (eVIb p d s), [])
  | .vperm p d a b => some (word 2 0x44 (eV3 p d a b), [])
  | .vrot p d a k => some (word 2 0x45 (eVI p d a k), [])
  | .vext s a k => some (word 2 0x46 (eVIx s a k), [])
  | .vins d s k => some (word 2 0x47 (eVIn d s k), [])
  | .vcvt d a t => some (word 2 0x48 (eVIt d a t.code), [])
  | .vcvtd d a t => some (word 2 0x49 (eVIt d a t.code), [])
  | .vpack d a h => some (word 2 0x4A (eVIh d a h), [])
  | .vunpk d a h => some (word 2 0x4B (eVIh d a h), [])
  | .vrsum p s a => some (word 2 0x4C (eVR p s a), [])
  | .vrmax p s a => some (word 2 0x4D (eVR p s a), [])
  | .vrmin p s a => some (word 2 0x4E (eVR p s a), [])
  | .vfrsum p s a => some (word 2 0x4F (eVR p s a), [])
  | .defer p a t => some (word 2 0x50 (eVId p a t), [])
  | .drain d q => some (word 2 0x51 (eVIdr d q), [])
  | .dqcnt d => some (word 2 0x52 (eS3d d), [])
  | .vcompnm d a m => some (word 2 0x58 (eVIm d a m), [])
  | .vsett t => some (word 2 0x59 (eVIt 0 0 t.code), [])
  | .vmov p d a => some (word 2 0x5A (eV3a p d a), [])
  | .lease n => some (word 3 0x00 (eML n), [])
  | .unlease => some (word 3 0x01 eM0, [])
  | .mma t a b => some (word 3 0x02 (eM3 t a b), [])
  | .mmat t a b => some (word 3 0x03 (eM3 t a b), [])
  | .mset m o => some (word 3 0x04 (eMS m o), [])
  | .minc m o => some (word 3 0x05 (eMS m o), [])
  | .accz t k => some (word 3 0x06 (eMAz t k), [])
  | .accrd t m k => some (word 3 0x07 (eMAm t m k), [])
  | .accwr t m k => some (word 3 0x08 (eMAm t m k), [])
  | .accwb t w k => some (word 3 0x09 (eMAw t w.code w.reg k), [])
  | .accmv t s k => some (word 3 0x0A (eMAs t s k), [])
  | .accrel t k => some (word 3 0x0B (eMAz t k), [])
  | .mwait => some (word 3 0x0C eM0, [])
  | .fmtskip => some (word 3 0x0D eM0, [])
  | .move t q l => some (word 4 0x00 (eXM t.h t.n t.d t.s q), [l])
  | .movePull h s q l => some (word 4 0x00 (eXM h 0 2 s q), [l])
  | .dup t q l => some (word 4 0x01 (eXM t.h t.n t.d t.s q), [l])
  | .drop (.mem n) q l => some (word 4 0x02 (eXM 0 n.bits 0 0 q), [l])
  | .drop (.sp h s) q l => some (word 4 0x02 (eXM h 0 1 s q), [l])
  | .promote t q l => some (word 4 0x03 (eXM t.h t.n t.d t.s q), [l])
  | .move2d t q sl => some (word 4 0x04 (eXM t.h t.n t.d t.s q), [sl.setWidth 32])
  | .move3d t q sl => some (word 4 0x05 (eXM t.h t.n t.d t.s q), [sl.setWidth 32])
  | .xshape s l => some (word 4 0x06 (eXCs s), [field 0 32 l, field 32 32 l])
  | .kick c x => some (word 4 0x07 (eXC c x), [])
  | .chlink c n => some (word 4 0x08 (eXCc c), [n.setWidth 32])
  | .arrive a h q l => some (word 4 0x09 (eXF (0#1 ++ a) (0#2 ++ h) q), [l])
  | .xfill n v q l => some (word 4 0x0A (eXF n.bits v q), [l])
  | .xcancel x => some (word 4 0x0B (eXCx x), [])
  | .xstat a x => some (word 4 0x0C (eXSa a x), [])
  | .nmred u a => some (word 5 0x00 (eNCa u a), [])
  | .nmatt u a => some (word 5 0x01 (eNCa u a), [])
  | .nmopt u a => some (word 5 0x02 (eNCu3 u a), [])
  | .nmmask u a => some (word 5 0x03 (eNCu3 u a), [])
  | .nmbankOff p => some (word 5 0x04 (eNCm 0 p), [])
  | .nmbankOn p => some (word 5 0x04 (eNCm 1 p), [])
  | .nmbcst p a => some (word 5 0x05 (eNCpa a p), [])
  | .nmbmac p k a => some (word 5 0x06 (eNCpka k a p), [])
  | .nmbrd p k => some (word 5 0x07 (eNCpk k p), [])
  | .nmpop q => some (word 5 0x08 (eNPq q), [])
  | .nmpool a l => some (word 5 0x09 (eNCn a), [l])
  | .nmarena a l => some (word 5 0x0A (eNCn a), [field 0 32 l, field 32 32 l])
  | .put a b c l => some (word 6 0x00 (eF a b 0 c.code), [l])
  | .getw s a b c l => some (word 6 0x01 (eF a b s c.code), [l])
  | .amsend a b s c => some (word 6 0x02 (eF a b s c.code), [])
  | .mrecv d e b => some (word 6 0x03 (eFM d b e), [])
  | .mdone => some (word 6 0x04 eF0, [])
  | .qrepair a => some (word 6 0x05 (eFa a), [])
  | .barinit a c none l => some (word 6 0x08 (eFBi a 0 c.code 0), [l])
  | .barinit a c (some h) l => some (word 6 0x08 (eFBi a 1 c.code (0#9 ++ h)), [l])
  | .barv a n => some (word 6 0x09 (eFBa a n), [])
  | .barw a h => some (word 6 0x0A (eFBw a h), [])
  | .barsem a k h => some (word 6 0x0B (eFBs a k h), [])
  | .detach t l => some (word 7 0x00 (eSKt t), [field 0 32 l, field 32 32 l])
  | .join t => some (word 7 0x01 (eSKt t), [])
  | .jmps o => some (word 7 0x02 (eSB 0 o), [])
  | .brs c o => some (word 7 0x03 (eSB c.code o), [])
  | .cexit => some (word 7 0x04 eF0, [])
  | .seminit k v => some (word 7 0x08 (eSKv k v), [])
  | .semadd k v => some (word 7 0x09 (eSKv k v), [])
  | .semwait k v => some (word 7 0x0A (eSKv k v), [])
  | .cfence s => some (word 7 0x0B (eSCsc s.code), [])
  | .xsave a p => some (word 7 0x10 (eSCp a p), [])
  | .xrest a p => some (word 7 0x11 (eSCp a p), [])
  | .csrrc a c => some (word 7 0x12 (eSCc a c), [])
  | .csrwc c a => some (word 7 0x13 (eSCc a c), [])
  | .acondWrite a => some (word 7 0x13 (eSCc a 0x031), [])
  | .pcfgWrite a => some (word 7 0x13 (eSCc a 0x032), [])
  | .pqvaWrite a => some (word 7 0x13 (eSCc a 0x033), [])
  | .frankWrite a => some (word 7 0x13 (eSCc a 0x039), [])
  | _ => none

/-- A LIT word of an engine (R19). -/
def litWord (eng : BitVec 4) (v : BitVec 32) : BitVec 64 := 0#20 ++ word eng 0xFF v

/-- The words of an instruction with its clauses: its LITs first, then the word (R19).  A step that no
word performs has none. -/
def encode (d : Decoded) : List (BitVec 64) :=
  match d.instr with
  | .lit eng v => [litWord eng v]
  | i =>
    match encodeLow i with
    | none => []
    | some (low, lits) =>
      lits.map (litWord (low.extractLsb' 40 4)) ++
        [d.clause.wsem ++ d.clause.ssem ++ d.clause.wcnt ++ d.clause.scnt ++ low]

/-- Decode a sequence of words that are one instruction: LITs of one engine, then its word (R19, R20). -/
noncomputable def decodeUnit : List (BitVec 64) → Except DecodeError Decoded
  | [] => .error .literal
  | [w] => decode w []
  | [l, w] =>
    if isLit l ∧ field 44 20 l = 0 ∧ engOf l = engOf w ∧ isLit w = false then decode w [field 0 32 l]
    else .error .literal
  | [l, h, w] =>
    if isLit l ∧ field 44 20 l = 0 ∧ isLit h ∧ field 44 20 h = 0 ∧ engOf l = engOf w ∧ engOf h = engOf w
        ∧ isLit w = false then
      decode w [field 0 32 l, field 0 32 h]
    else .error .literal
  | _ => .error .literal

/-- The least literal counts an opcode admits (R26 to R33): what a word that stands alone in a table
is completed with. -/
def litNeed (eng opc : Nat) : Nat :=
  match eng, opc with
  | 0, 0x48 => 2 | 0, 0x4A => 2
  | 4, 0x00 => 1 | 4, 0x01 => 1 | 4, 0x02 => 1 | 4, 0x03 => 1 | 4, 0x04 => 1 | 4, 0x05 => 1
  | 4, 0x06 => 2 | 4, 0x08 => 1 | 4, 0x09 => 1 | 4, 0x0A => 1
  | 5, 0x09 => 1 | 5, 0x0A => 2
  | 6, 0x00 => 1 | 6, 0x01 => 1 | 6, 0x08 => 1
  | 7, 0x00 => 2
  | _, _ => 0

/-- The greatest literal count an opcode admits (R26 to R33). -/
def litMost (eng opc : Nat) : Nat :=
  match eng, opc with
  | 1, 0x1A => 2
  | 2, 0x0A => 1
  | e, o => litNeed e o

/-- The literal count of a word admits `n` literals before it (R20); an opcode that the map does not assign counts none, so
that with a LIT pending its emit is illegal.
DEDUCED (assumption 73). -/
def litAdmits (w : BitVec 64) (n : Nat) : Bool :=
  if isLit w then n < 2
  else
    let e := engOf w
    let o := (field 32 8 w).toNat
    litNeed e o ≤ n && n ≤ litMost e o

/-- The instruction this decoder reads from a table word of `nbits` bits: the words of the table are
64 bits, and the literals the word needs are zero.
DEDUCED (assumption 7). -/
noncomputable def decodeTableWord (nbits w : Nat) : Option Instr :=
  let word : BitVec 64 := BitVec.ofNat 64 (w % 2 ^ nbits)
  let n := litNeed (engOf word) (field 32 8 word).toNat
  match decode word (List.replicate n 0) with
  | .ok d => some d.instr
  | .error _ => none

end Sys2Proof
end

