-- ==== Sys2Proof/Machine/Nodes.lean ====
section
/-!
DEFINITION. The nodes of a running task graph (R320, R321): edges, done counts, skipping and failing, and the part
of a kernel's end that its graph sees.
-/

namespace Sys2Proof.Machine

open Sys2Proof

/-- A field of a list of words. -/
def wordField (ws : List Word) (i lo w : Nat) : Nat := ((ws.getD i 0).toNat >>> lo) % 2 ^ w

/-! ## Nodes and edges (R320) -/

def Node.typ (n : Node) : Nat := wordField n.words 0 60 4
def Node.nsucc (n : Node) : Nat := wordField n.words 0 57 3
def Node.npred (n : Node) : Nat := wordField n.words 0 36 12

/-- Successor slot `i`: whether it is a BACK edge, and its node. -/
def Node.succ (n : Node) (i : Nat) : Bool × Nat :=
  (wordField n.words 1 (16 * i + 15) 1 == 1, wordField n.words 1 (16 * i) 12)

def Node.succs (n : Node) : List (Bool × Nat) := (List.range n.nsucc).map n.succ

/-- The successors over edges that are not BACK. -/
def Node.forward (n : Node) : List Nat := (n.succs.filter fun e => !e.1).map (·.2)

def Graph.node (g : Graph) (i : Nat) : Node := SMap.get { words := [] } g.nodes i

def Graph.upd (g : Graph) (i : Nat) (f : Node → Node) : Graph :=
  { g with nodes := SMap.ins g.nodes i (f (g.node i)) }

/-- One more predecessor of the node is done. -/
def Graph.credit (g : Graph) (i : Nat) : Graph := g.upd i fun n => { n with count := n.count + 1 }

/-- Every predecessor of the node is skipped. -/
def Graph.allSkipped (g : Graph) (i : Nat) : Bool :=
  g.nodes.all fun e => !e.2.forward.contains i || e.2.st == .skipped

/-- Skip nodes and what their skipping skips; a sink is never skipped, and a node that has begun is left alone
(R321).  Structural on fuel: every step takes one node off the list. -/
def Graph.skip : Nat → List Nat → Graph → Graph
  | 0, _, g => g
  | _, [], g => g
  | fuel + 1, i :: is, g =>
    let n := g.node i
    if n.st = .idle ∧ n.typ ≠ 5 then
      let g := n.forward.foldl Graph.credit (g.upd i fun n => { n with st := .skipped, again := false })
      Graph.skip fuel (n.forward.filter g.allSkipped ++ is) g
    else Graph.skip fuel is g

/-- Skip with fuel for every node and edge. -/
def Graph.skipAll (g : Graph) (is : List Nat) : Graph := g.skip (is.length + 4 * g.nodes.length + 1) is

/-- The graph has left the launch queue, and the node is ready and has not acted: its predecessors are done, or a BACK edge or a while has readied it. -/
def Graph.ready (g : Graph) (i : Nat) : Bool :=
  let n := g.node i
  !g.queued && n.st == .idle && (n.again || n.count ≥ n.npred)

/-- No node starts that is not ready yet. -/
def Graph.halted (g : Graph) : Bool := g.failed.isSome || g.cancelled

/-- An edge is taken: its node counts one more predecessor done, and a BACK edge makes its while ready again (R321). -/
def Graph.pass (g : Graph) (e : Bool × Nat) : Graph :=
  if e.1 then (if g.halted then g else g.upd e.2 fun m => { m with st := .idle, again := true })
  else g.credit e.2

/-- The node is done: its edges are taken (R321). -/
def Graph.done (g : Graph) (i : Nat) : Graph :=
  let n := g.node i
  n.succs.foldl Graph.pass (g.upd i fun n => { n with st := .done })

/-- Every node but the sink that is not ready is skipped, a while whose body runs among them; `all`: the ready ones
too. -/
def Graph.drop (g : Graph) (all : Bool) : Graph :=
  let waits := fun (n : Node) => n.typ == 3 && n.st == .running
  let ws := (g.nodes.filter fun e => waits e.2).map (·.1)
  let idle := (g.nodes.map (·.1)).filter fun i => all || !g.ready i
  let wake := fun (e : Nat × Node) => (e.1, if waits e.2 then { e.2 with st := .idle } else e.2)
  let g := { g with nodes := g.nodes.map wake }
  g.skipAll (ws ++ idle)

/-- Node `i` fails, with its context or zero, and the graph with it (R321). -/
def Graph.fail (g : Graph) (i ctx : Nat) : Graph :=
  if g.halted then g.done i
  else ({ g.upd i (fun n => { n with st := .done }) with failed := some (i, ctx) }.drop false).done i

/-! ## Kernels and their graphs -/

def Die.updGraph (d : Die) (n : Nat) (f : Graph → Graph) : Die :=
  { d with graphs := updFirst (·.seq = n) f d.graphs }

/-- The graph of a kernel sees its end. -/
def Die.nodeEnds (d : Die) (z : Kernel) (f : Nat → Graph → Graph) : Die :=
  match z.node with
  | none => d
  | some (g, i) => d.updGraph g (f i)

/-- Kernels that have not RETIRED become FAILED, and their graphs fail (R315, R321). -/
def Die.failKernels (p : Kernel → Bool) (d : Die) : Die :=
  let hit := fun (z : Kernel) => p z && z.st ≠ .retired && z.st ≠ .failed
  let gone := d.kernels.filter hit
  let d := { d with kernels := d.kernels.map fun z => if hit z then { z with st := .failed } else z }
  gone.foldl (fun d z => d.nodeEnds z fun i g => g.fail i (wordField z.words 0 48 12)) d

/-- A kernel RETIRES, and its node is done. -/
def Die.retireKernel (n : Nat) (d : Die) : Die :=
  let gone := d.kernels.filter (·.seq = n)
  let d := { d with kernels := d.kernels.map fun z => if z.seq = n then { z with st := .retired, held := [] } else z }
  gone.foldl (fun d z => d.nodeEnds z fun i g => g.done i) d

/-- The nodes of the kernels of context `k` that have ended keep its tenant, in whose turns their graph's transfers are served
(R323). -/
def Die.keepTenant (k tenant : Nat) (d : Die) : Die :=
  (d.kernels.filter fun z => (z.st == .retired || z.st == .failed) && wordField z.words 0 48 12 == k).foldl
    (fun d z => d.nodeEnds z fun i g => g.upd i fun n => { n with tenant := n.tenant.or (some tenant) }) d

end Sys2Proof.Machine
end

