-- ==== Sys2Proof/Machine/Ops.lean ====
section
/-!
DEFINITION. The named operations over the state: places, memory by atoms, registers, semaphores, the
engine queues, raising a fault, and taking an exception and returning from it (R222 to R228).
-/

namespace Sys2Proof.Machine

open Sys2Proof

/-- What a meaning answers. -/
abbrev Res := Host.Outcome State Fault Refusal

/-! ## Places -/

/-- Chair `ch` of the package (R7). -/
def State.chair (s : State) (ch : Nat) : Chair := SMap.get {} s.chairs ch

def State.setChair (s : State) (ch : Nat) (x : Chair) : State :=
  { s with chairs := SMap.ins s.chairs ch x }

def State.updChair (s : State) (ch : Nat) (f : Chair → Chair) : State :=
  s.setChair ch (f (s.chair ch))

def Chair.core (x : Chair) (c : Nat) : Core := SMap.get {} x.cores c

def Chair.setCore (x : Chair) (c : Nat) (y : Core) : Chair :=
  { x with cores := SMap.ins x.cores c y }

/-- Core `c` of chair `ch`. -/
def State.core (s : State) (ch c : Nat) : Core := (s.chair ch).core c

def State.setCore (s : State) (ch c : Nat) (y : Core) : State :=
  s.setChair ch ((s.chair ch).setCore c y)

def State.updCore (s : State) (ch c : Nat) (f : Core → Core) : State :=
  s.setCore ch c (f (s.core ch c))

/-- The chair the running word acts in. -/
def State.here (s : State) : Chair := s.chair s.act.chair

def State.setHere (s : State) (x : Chair) : State := s.setChair s.act.chair x

/-- The gaffer the running word belongs to. -/
def State.gf (s : State) : Gaffer := s.here.gf

def State.setGf (s : State) (g : Gaffer) : State :=
  s.setChair s.act.chair { s.here with gf := g }

/-- The core the running word belongs to. -/
def State.me (s : State) : Core := s.core s.act.chair s.act.core

def State.setMe (s : State) (y : Core) : State := s.setCore s.act.chair s.act.core y

def State.ctx (s : State) (k : Nat) : Ctx := SMap.get {} s.ctxs k

def State.setCtx (s : State) (k : Nat) (x : Ctx) : State := { s with ctxs := SMap.ins s.ctxs k x }

def State.updCtx (s : State) (k : Nat) (f : Ctx → Ctx) : State := s.setCtx k (f (s.ctx k))

def State.die (s : State) (d : Nat) : Die := SMap.get {} s.dies d

def State.setDie (s : State) (d : Nat) (x : Die) : State := { s with dies := SMap.ins s.dies d x }

def State.updDie (s : State) (d : Nat) (f : Die → Die) : State := s.setDie d (f (s.die d))

/-- The die of a chair's package index (R7). -/
def dieOf (ch : Nat) : Nat := ch / 32

/-- A core's package index (R7). -/
def coreIndex (ch c : Nat) : Nat := ch * 16 + c

/-- The context a chair runs, by ID. -/
def State.ctxOf (s : State) (ch : Nat) : Nat := (s.chair ch).ctx.getD 0

/-- A fresh free choice: the value, and the state with the counter advanced.
DESIGN CHOICE (assumption 4). -/
def State.choose (s : State) : Nat × State := (Config.freeNat s.tick, { s with tick := s.tick + 1 })

/-- A chair of no context: its tenant and its own cycle counter stay (R14, R323). -/
def Chair.bare (x : Chair) : Chair := { tenant := x.tenant, clock := x.clock }

/-! ## Bytes and atoms -/

/-- The little-endian number of a list of bytes (R1). -/
def leNat : List Byte → Nat
  | [] => 0
  | b :: bs => b.toNat + 256 * leNat bs

/-- The `n` bytes of a number, least significant first (R1). -/
def leBytes : Nat → Nat → List Byte
  | 0, _ => []
  | n + 1, v => BitVec.ofNat 8 v :: leBytes n (v / 256)

/-- The state of an atom, by atom number. -/
def Space.atom (m : Space) (i : Nat) : AtomState := SMap.get .vacant m.atoms i

/-- The state of the atom that holds an address. -/
def Space.atomAt (m : Space) (a : Nat) : AtomState := m.atom (a / 32)

/-- What the byte at an address holds: an atom that holds no datum reads as zero (R158).
DESIGN CHOICE (assumption 12). -/
def Space.byte (m : Space) (a : Nat) : Byte :=
  match m.atomAt a with
  | .vacant | .poison => 0
  | .home | .replica => SMap.get 0 m.bytes a

/-- Store one byte, keeping the canonical form. -/
def Space.setByte (m : Space) (a : Nat) (b : Byte) : Space :=
  { m with bytes := SMap.put 0 m.bytes a b }

/-- Store bytes at rising addresses. -/
def Space.setBytes (m : Space) (a : Nat) : List Byte → Space
  | [] => m
  | b :: bs => Space.setBytes (m.setByte a b) (a + 1) bs

/-- `n` bytes from an address. -/
def Space.getBytes (m : Space) (a n : Nat) : List Byte := (List.range n).map fun i => m.byte (a + i)

/-- Zero the bytes of an atom. -/
def Space.clearAtom (m : Space) (i : Nat) : Space := m.setBytes (32 * i) (List.replicate 32 0)

/-- Give an atom a state and 32 bytes; an atom that holds no datum holds zero bytes (R158). -/
def Space.putAtom (m : Space) (i : Nat) (st : AtomState) (bs : List Byte) : Space :=
  let m := m.clearAtom i
  let m := if st = .vacant ∨ st = .poison then m else m.setBytes (32 * i) (bs.take 32)
  { m with atoms := SMap.put .vacant m.atoms i st }

/-- Make an atom VACANT (R159). -/
def Space.vacate (m : Space) (i : Nat) : Space := m.putAtom i .vacant []

/-- Make an atom POISON (R159). -/
def Space.toPoison (m : Space) (i : Nat) : Space :=
  { m.putAtom i .poison [] with errs := m.errs.filter (· ≠ i) }

/-- The 32 bytes of an atom. -/
def Space.atomBytes (m : Space) (i : Nat) : List Byte := m.getBytes (32 * i) 32

/-- An atom's stored bits hold an uncorrectable error (R217); a VACANT atom is never reported (R161). -/
def Space.bad (m : Space) (i : Nat) : Bool := m.errs.contains i && m.atom i ≠ .vacant

/-- An atom is POISON, or holds an uncorrectable error (R235). -/
def Space.damaged (m : Space) (i : Nat) : Bool := m.atom i == .poison || m.bad i

/-- An atom ready for a store: one that holds no datum has zero bytes (R116). -/
def Space.opened (m : Space) (i : Nat) : Space :=
  match m.atom i with
  | .vacant | .poison => m.clearAtom i
  | .home | .replica => m

/-- Write bytes that lie in one atom as a store does: a VACANT atom's other bytes are zero, and the atom
becomes HOME (R116). -/
def Space.storeIn (m : Space) (a : Nat) (bs : List Byte) : Space :=
  let m := (m.opened (a / 32)).setBytes a bs
  { m with atoms := SMap.put .vacant m.atoms (a / 32) .home }

/-- Write bytes one by one as a store does (R116). -/
def Space.store (m : Space) (a : Nat) : List Byte → Space
  | [] => m
  | b :: bs => Space.store (m.storeIn a [b]) (a + 1) bs

/-- The numbers of the atoms that `n` bytes from an address touch, in rising order. -/
def atomsOf (a n : Nat) : List Nat :=
  if n = 0 then [] else (List.range ((a + n - 1) / 32 - a / 32 + 1)).map fun i => a / 32 + i

/-- The device writes bytes into memory, as a store does where an atom is HOME or VACANT; an atom with an uncorrectable
error becomes POISON, and a POISON or REPLICA one stays as it is (R10, R159, R217).
DESIGN CHOICE (assumption 11). -/
def Space.device (m : Space) (a : Nat) : List Byte → Space
  | [] => m
  | b :: bs =>
    let m := if m.bad (a / 32) then m.toPoison (a / 32)
      else match m.atomAt a with
        | .vacant | .home => m.storeIn a [b]
        | .poison | .replica => m
    Space.device m (a + 1) bs

/-- A 64-bit word of memory, little-endian. -/
def Space.word (m : Space) (a : Nat) : Word := BitVec.ofNat 64 (leNat (m.getBytes a 8))

/-- The device writes a 64-bit word of a table: a VACANT atom becomes HOME, and a POISON or REPLICA one stays as it is.
DESIGN CHOICE (assumption 11). -/
def Space.setWord (m : Space) (a : Nat) (w : Word) : Space :=
  match m.atomAt a with
  | .vacant => m.storeIn a (leBytes 8 w.toNat)
  | .poison | .replica => m
  | .home => m.setBytes a (leBytes 8 w.toNat)

/-! ## Links (R294) -/

def State.link (s : State) (l : Nat) : Link := SMap.get {} s.links l

def State.setLink (s : State) (l : Nat) (x : Link) : State := { s with links := SMap.ins s.links l x }

/-- The direction whose sender is side `dir`. -/
def Link.side (x : Link) (dir : Nat) : LinkDir := if dir = 0 then x.fwd else x.back

def Link.setSide (x : Link) (dir : Nat) (d : LinkDir) : Link := if dir = 0 then { x with fwd := d } else { x with back := d }

/-- A link carries flits. -/
def Link.moves (x : Link) : Bool := x.st == .up || x.st == .retry

/-- The link of a die to the hub carries traffic. -/
def State.hubUp (s : State) (d : Nat) : Bool := (s.link (Config.hubBase + d)).moves

/-- Traffic between two dies has a way: they are one, or their bridge carries it, or it passes through the hub (R8).
DESIGN CHOICE (assumption 59). -/
def State.joined (s : State) (d e : Nat) : Bool :=
  d == e || (s.hubUp d && s.hubUp e) ||
    Config.bridges.zipIdx.any fun b => (b.1 == (d, e) || b.1 == (e, d)) && (s.link b.2).moves

/-- The hub has a way to a place: by the link of its home die, or by the port that maps it (R9). -/
def State.hubReaches (s : State) (pa : Nat) : Bool :=
  if inStack pa then s.hubUp (homeDie pa) else (s.link (Config.hostPort pa)).moves

/-- A die has a way to a place in memory: to its home die, or through the hub to the port that maps it (R8, R9). -/
def State.reaches (s : State) (d pa : Nat) : Bool :=
  if inStack pa then s.joined d (homeDie pa) else s.hubUp d && s.hubReaches pa

/-! ## Gang mode (R262, R263) -/

/-- The die and pseudo-channel of a stack address (R262). -/
def chanOf (pa : Nat) : Nat × Nat := (pa / Config.stackBytes, pa % Config.stackBytes / 2 ^ 14 % 192)

def State.chan (s : State) (c : Nat × Nat) : PChan := SMap.get {} (s.die c.1).chans c.2

def State.setChan (s : State) (c : Nat × Nat) (x : PChan) : State :=
  s.updDie c.1 fun y => { y with chans := SMap.put {} y.chans c.2 x }

/-- The address lies in a pseudo-channel that works as a gang: every access but the gang's own waits (R263). -/
def State.ganged (s : State) (pa : Nat) : Bool := inStack pa && (s.chan (chanOf pa)).gang.isSome

/-- Some of `n` bytes lie in a ganged pseudo-channel. -/
def State.gangedIn (s : State) (pa n : Nat) : Bool :=
  s.ganged (pa + n - 1) || (List.range (n / 2 ^ 14 + 1)).any fun i => s.ganged (pa + 2 ^ 14 * i)

/-! ## The event log and context errors -/

/-- A field of a context's descriptor (R221). -/
def Ctx.desc1 (x : Ctx) (i lo w : Nat) : Nat := ((x.desc.getD i 0).toNat >>> lo) % 2 ^ w

/-- The 64-byte entries that stand in the ring of a context's event log (R238). -/
def Ctx.ring (x : Ctx) (m : Space) : List (List Byte) :=
  (List.range (x.desc1 5 52 12 * 64)).map fun i => m.getBytes (x.desc1 5 0 52 + 64 * i) 64

/-- The entries of the log that system software supplies to a context under REPLAY (R355). -/
def Ctx.supplied (x : Ctx) (m : Space) : List (List Byte) := x.script.getD (x.ring m)

/-- Under REPLAY the supplied log is kept before an entry of the context's own goes over it (R355). -/
def Ctx.keepScript (x : Ctx) (m : Space) : Ctx := if x.desc1 1 54 1 = 1 then { x with script := some (x.supplied m) } else x

/-- Append a 64-byte entry to a context's event log; a full log drops it and counts it (R238). -/
def logNow (k : Nat) (bs : List Byte) (s : State) : State :=
  let x := (s.ctx k).keepScript s.mem
  let n := x.desc1 5 52 12 * 64
  if x.logW - x.logR ≥ n then s.setCtx k { x with logOver := x.logOver + 1 }
  else
    let a := x.desc1 5 0 52 + 64 * (x.logW % n)
    { s.setCtx k { x with logW := x.logW + 1 } with
      mem := s.mem.device a ((bs ++ List.replicate 64 0).take 64) }

/-- The next place of a context's event log lies in a pseudo-channel that works as a gang (R263). -/
def logGanged (k : Nat) (s : State) : Bool :=
  let x := s.ctx k
  s.ganged (x.desc1 5 0 52 + 64 * (x.logW % (x.desc1 5 52 12 * 64)))

/-- An entry for a context's event log: it is written at once, or it waits behind a gang and those that wait (R238, R263). -/
def logEntry (k : Nat) (bs : List Byte) (s : State) : State :=
  if (s.ctx k).logHeld ≠ [] ∨ logGanged k s then s.updCtx k fun x => { x with logHeld := x.logHeld ++ [bs] }
  else logNow k bs s

/-- Write a context's entries that wait, in order, up to one that lies behind a gang. -/
def writeHeld (k : Nat) : List (List Byte) → State → State
  | [], s => s.updCtx k fun x => { x with logHeld := [] }
  | b :: bs, s => if logGanged k s then s.updCtx k fun x => { x with logHeld := b :: bs } else writeHeld k bs (logNow k b s)

/-- When a pseudo-channel is NORMAL again, the log entries that waited for it are written (R263). -/
def flushLogs (s : State) : State :=
  s.ctxs.foldl (fun s e => if e.2.logHeld = [] then s else writeHeld e.1 e.2.logHeld s) s

/-- A provenance tag as a word (R24). -/
def Prov.word (p : Prov) : Word := p.kind ++ p.gpc ++ p.esn ++ p.soff ++ (0#0)

/-- A type 3 entry: reason, provenance, address (R223, R238). -/
def ctxErrorEntry (reason : Nat) (p : Prov) (va : Word) : List Byte :=
  [3, BitVec.ofNat 8 reason] ++ List.replicate 6 0 ++ leBytes 8 p.word.toNat ++ leBytes 8 va.toNat

/-- Fail the kernels of a context: each becomes FAILED (R315). -/
def failKernel (k : Nat) (s : State) : State :=
  { s with dies := s.dies.map fun e => (e.1, e.2.failKernels fun z => wordField z.words 0 48 12 == k) }

/-- A context becomes DEAD at once: every chair of it stops, nothing is replayed, and an entry goes to its
log, of a DEAD context too, which keeps its first reason (R220, R223).  A FREE context is unchanged. -/
def contextError (k reason : Nat) (p : Prov) (va : Word) (s : State) : State :=
  let x := s.ctx k
  if x.st = .free then s
  else
    let s := s.setCtx k { x with st := .dead, reason := if x.st = .dead then x.reason else reason }
    let s := { s with chairs := s.chairs.map fun e =>
      if e.2.ctx = some k ∧ e.2.st ≠ .idle then (e.1, { e.2 with st := .exited, halt := none, gfault := none })
      else e }
    failKernel k (logEntry k (ctxErrorEntry reason p va) s)

/-! ## Faults -/

/-- Ask for the chair's halt in the present cycle, unless one is asked for already; a fault overtakes a hard
pre-emption that still waits (R224, R230).
DEDUCED (assumption 16). -/
def Chair.askHalt (x : Chair) (hard : Bool) : Chair :=
  match x.halt with
  | none => { x with halt := some { cycle := x.cycle, hard := hard } }
  | some h => if h.hard && !hard then { x with halt := some { cycle := x.cycle } } else x

/-- The gaffer still owes the delay-slot word that a hard pre-emption waits for, or has issued it in this
cycle (R230). -/
def Chair.owesSlot (x : Chair) : Bool := x.gf.ds || x.gf.issued == some x.cycle

/-- The chair's words may issue and raise a fault: it runs, and no cause arose in an earlier cycle (R224); a
hard pre-emption lets the cores run on until a pending delay-slot word has completed (R230). -/
def Chair.open_ (x : Chair) : Bool :=
  x.st == .run && (match x.halt with
    | none => true
    | some h => h.cycle == x.cycle || (h.hard && x.owesSlot))

/-- Record a level C fault in a core; of two in one core the taking or fetch (engine 0) and then the lower
engine stands (R224).  In a chair that is frozen nothing is recorded, and the work stays for replay. -/
def recordC (ch c : Nat) (r : Rec) (s : State) : State :=
  let x := s.chair ch
  if x.open_ = false then s
  else
    let y := x.core c
    let keep : Bool := match y.rec_ with | some q => decide (q.eng ≤ r.eng) | none => false
    let x := if keep then x else x.setCore c { y with rec_ := some r }
    s.setChair ch (x.askHalt false)

/-- The record of a fault of a word on its way: its provenance, the word and its literals (R225). -/
def Sig.record (g : Sig) (code eng : Nat) : Rec :=
  { code := code, prov := g.prov, w := g.w, lits := g.lits, eng := eng, sender := g.sender }

/-- The level C fault of the running word; it takes no effect and stays where it is (R222). -/
def raiseC (code : Nat) (s : State) : State :=
  recordC s.act.chair s.act.core
    { code := code, prov := s.act.prov, w := s.act.w, lits := s.act.lits, eng := s.act.eng } s

/-! ## Semaphores -/

/-- The amount a WCNT or SCNT code names (R15). -/
def amount (c : BitVec 2) : Nat := 2 ^ c.toNat

/-- The value of a semaphore; sem0 is 0 (R103). -/
def Core.semv (y : Core) (k : Nat) : Nat := if k = 0 then 0 else SMap.get 0 y.sem k

def Core.setSem (y : Core) (k v : Nat) : Core :=
  if k = 0 then y else { y with sem := SMap.put 0 y.sem k v }

/-- An addition belongs to the next cycle: a wait on the semaphore has passed in this one, and additions come before
waits (R105); or it would overflow in a frozen chair, where no fault may arise before the restart (R224). -/
def addLater (ch c k amt : Nat) (s : State) : Bool :=
  let x := s.chair ch
  let y := x.core c
  (x.st == .run && SMap.get 0 y.took k == x.cycle + 1) || (!x.open_ && y.semv k + amt > 0xFFFF)

/-- Add to a semaphore of a core.  An addition above 0xFFFF leaves 0xFFFF and is a level C
semaphore-overflow fault with the provenance of the signalling word (R106).
DEDUCED (assumption 64). -/
def addSem (ch c k amt : Nat) (g : Sig) (eng : Nat) (s : State) : State :=
  if k = 0 ∨ amt = 0 then s
  else if addLater ch c k amt s then s.updCore ch c fun y => { y with later := y.later ++ [(k, amt, g, eng)] }
  else
    let y := s.core ch c
    let v := y.semv k + amt
    let now := (s.chair ch).cycle
    let old := SMap.get (0, 0) y.adds k
    let sum := if old.1 = now then old.2 + amt else amt
    let y := { y.setSem k (Nat.min v 0xFFFF) with adds := SMap.put (0, 0) y.adds k (now, sum) }
    let s := s.setCore ch c y
    if v > 0xFFFF then recordC ch c { g.record 0x29 eng with sem := k } s else s

/-- The additions that were put off to this cycle (R105, R224). -/
def addPutOff (ch c : Nat) (s : State) : State :=
  let l := (s.core ch c).later
  if l.isEmpty then s
  else l.foldl (fun s a => addSem ch c a.1 a.2.1 a.2.2.1 a.2.2.2 s) (s.updCore ch c fun y => { y with later := [] })

/-- Add a signal clause (R16). -/
def addSig (ch c : Nat) (g : Sig) (eng : Nat) (s : State) : State :=
  addSem ch c g.sem.toNat g.amt g eng s

/-- The signal clause of the running word. -/
def State.sig (s : State) : Sig :=
  { sem := s.act.clause.ssem, amt := if s.act.clause.ssem = 0 then 0 else amount s.act.clause.scnt,
    prov := s.act.prov, lis := s.act.lis, w := s.act.w, lits := s.act.lits }

/-- Take an amount from a semaphore. -/
def Core.takeSem (y : Core) (k amt cycle : Nat) : Core :=
  { y.setSem k (y.semv k - amt) with took := SMap.put 0 y.took k (cycle + 1) }

/-! ## Promise counters, the chair wait and level G faults (R61, R71, R83 to R85) -/

/-- P for semaphore `k` of core `c`; sem0 has none (R83). -/
def Gaffer.promise (g : Gaffer) (c k : Nat) : Nat := if k = 0 then 0 else SMap.get 0 g.prom (256 * c + k)

def Gaffer.setPromise (g : Gaffer) (c k v : Nat) : Gaffer :=
  if k = 0 then g else { g with prom := SMap.put 0 g.prom (256 * c + k) v }

/-- The span of a core that is away at emission (R61). -/
def Gaffer.openBreak (g : Gaffer) (c : Nat) : Option Break :=
  g.breaks.find? fun b => b.core == c && b.joinEsn.isNone

/-- The attached cores that are not EXITED. -/
def Chair.live (x : Chair) : List Nat := (List.range 16).filter fun c => (x.core c).phase ≠ .exited

/-- A core has taken the DETACH of the span that is open for it, or one emitted within that span (R61, R85). -/
def Gaffer.tookBreak (g : Gaffer) (c : Nat) (b : Break) : Bool :=
  b.taken || g.shadows.any fun z => z.core == c && z.taken && z.joinEsn.isNone

/-- The counter of a core that a chair wait checks (R85). -/
def Chair.waitCounter (x : Chair) (k c : Nat) : Nat :=
  match x.gf.openBreak c with
  | none => x.gf.promise c k
  | some b =>
    if x.gf.tookBreak c b then Nat.min (SMap.get 0 b.counters k) (SMap.get 0 (x.core c).sp k)
    else SMap.get 0 b.counters k

/-- The span that is open for core `c`, whose DETACH it has taken (R61, R85). -/
def Gaffer.tookOpen (g : Gaffer) (c : Nat) : Bool := (g.openBreak c).any (g.tookBreak c)

/-- Change the semaphore of a core that is not EXITED, and every counter that a chair wait on it reads; Pin changes by a
function of its own. -/
def Chair.adjust (x : Chair) (k : Nat) (f pin : Nat → Nat) (c : Nat) : Chair :=
  let y := x.core c
  let y := y.setSem k (f (y.semv k))
  match x.gf.openBreak c with
  | none => { (x.setCore c y) with gf := x.gf.setPromise c k (f (x.gf.promise c k)) }
  | some b =>
    let y := if x.gf.tookBreak c b then
        { y with pin := SMap.put 0 y.pin k (pin (SMap.get 0 y.pin k)),
                 sp := SMap.put 0 y.sp k (f (SMap.get 0 y.sp k)) }
      else y
    let put := fun (z : Break) => { z with counters := SMap.put 0 z.counters k (f (SMap.get 0 z.counters k)) }
    let bs := updFirst (fun z => z.core == c && z.joinEsn.isNone) put x.gf.breaks
    { (x.setCore c y) with gf := { x.gf with breaks := bs } }

/-- Lower what a chair wait takes in every core that is not EXITED, and note where a Pin holds less, which is then zero
(R17, R85).
DEDUCED (assumption 27). -/
def Chair.chairTake (x : Chair) (k n : Nat) : Chair :=
  if k = 0 then x
  else
    let lacks := fun (c : Nat) => n - SMap.get 0 (x.core c).pin k
    let short := (x.live.filter fun c => x.gf.tookOpen c && lacks c ≠ 0).map fun c => (c, lacks c)
    let x := x.live.foldl (fun x c => x.adjust k (· - n) (· - n) c) x
    { x with gf := { x.gf with short := short } }

/-- Give back what a chair wait took (R71). -/
def Chair.chairGive (x : Chair) (k n : Nat) : Chair :=
  let up := fun (n v : Nat) => Nat.min (v + n) 0xFFFF
  if k = 0 then x else x.live.foldl (fun x c => x.adjust k (up n) (up (n - SMap.get 0 x.gf.short c)) c) x

/-- A level G fault: the gaffer stops at the word, which has no effect; a chair wait that it has passed is
given back (R71). -/
def raiseG (cause : Nat) (s : State) (code : BitVec 20 := 0) : State :=
  let x := s.here
  let cl := clauseOf (SMap.get 0 x.gf.isram x.gf.pc.toNat)
  let x := if x.gf.waited then x.chairGive cl.wsem.toNat (amount cl.wcnt) else x
  s.setHere ({ x with gfault := some (cause, code), gf := { x.gf with waited := false, waitOn := none } }.askHalt false)

/-! ## Gaffer registers and program flow -/

/-- Read a gaffer register: g0 reads zero (R68). -/
def Gaffer.reg (g : Gaffer) (r : BitVec 6) : Word := if r = 0 then 0 else SMap.get 0 g.g r.toNat

/-- Write a gaffer register: a write to g0 is discarded (R68). -/
def Gaffer.setReg (g : Gaffer) (r : BitVec 6) (v : Word) : Gaffer :=
  if r = 0 then g else { g with g := SMap.put 0 g.g r.toNat v }

def Gaffer.level (g : Gaffer) (lv : Nat) : Level := SMap.get {} g.levels lv

def Gaffer.setLevel (g : Gaffer) (lv : Nat) (l : Level) : Gaffer :=
  { g with levels := SMap.put {} g.levels lv l }

/-- The PC after a word index, `none` past the end of instruction SRAM (R72). -/
def pcSucc (pc : BitVec 13) : Option (BitVec 13) := if pc.toNat = 8191 then none else some (pc + 1)

/-- A core is away from the ring in state (R59, R67). -/
def CorePhase.away : CorePhase → Bool
  | .leaving | .detached | .joining => true
  | _ => false

/-- Some literal has been emitted and its word has not. -/
def Gaffer.litPending (g : Gaffer) : Bool := g.emitted.any fun p => p.2.1 ≠ 0

/-- A soft pre-emption may be taken: one is requested, no core is away, no halt comes first in this cycle, and no literal
of the gaffer's or emitted for an engine waits for its word (R19, R67, R233).
DEDUCED (assumption 38). -/
def Chair.softReady (x : Chair) : Bool :=
  x.req && x.halt.isNone && x.gf.lits.isEmpty && !x.gf.litPending && (List.range 16).all fun c => !(x.core c).phase.away

/-- Restart the yield-budget count; an expiry in the same cycle is void (R91, R232, R233). -/
def Chair.restartBudget (x : Chair) : Chair :=
  { x with
    budget := 0,
    halt := match x.halt with
      | some h => if h.hard && h.cycle == x.cycle then none else some h
      | none => none }

/-- A LOOPP boundary or a YIELD takes a pending request here: the chair runs, no soft save drains a level yet, and the
word stands in no delay slot (R67, R79, R230). -/
def Chair.softPoint (x : Chair) : Bool := x.st == .run && x.gf.drain.isNone && !x.gf.ds && x.softReady

/-- The drain of a soft save, where it is that of level `lv` (R79). -/
def Gaffer.drains (g : Gaffer) (lv : Nat) : Option (Nat × Nat) :=
  g.drain.bind fun d => if d.1 = lv then some d.2 else none

/-- The end of a pass of the innermost level, after its last word is fetched (R78), with the soft point of
a LOOPP, at the end of its last pass too (R79).  `none`: control would pass the end of instruction SRAM.
DEDUCED (assumption 70). -/
def Chair.passEnd (x : Chair) (lv : Nat) : Option Chair :=
  let g := x.gf
  let l := g.level lv
  let x := if l.pre then x.restartBudget else x
  let next := Nat.min (l.k + 1) l.n
  let take : Bool := l.pre && x.softPoint
  let l := if take then { l with n := next } else l
  let drain := if take then some (lv, l.n0, next) else g.drain
  let mine : Option (Nat × Nat) := if take then some (l.n0, next) else g.drains lv
  let fin : Bool := l.k + 1 ≥ l.n + l.s1 || (mine.isSome && next = l.i0 && l.n = l.i0)
  if fin then
    match mine with
    | some (n0, i0) =>
      some { x with gf := { g.setLevel lv l with
        drain := none, save := some (some (n0, i0)), waited := true, depth := lv, pc := l.start - 1 } }
    | none =>
      (pcSucc l.last).map fun pc => { x with gf := { g.setLevel lv l with depth := lv, pc := pc } }
  else
    some { x with gf := { g.setLevel lv { l with k := l.k + 1 } with drain := drain, pc := l.start } }

/-- The innermost active level whose body holds a word index (R78). -/
def Gaffer.levelAt (g : Gaffer) (pc : BitVec 13) : Option Nat :=
  (List.range g.depth).reverse.find? fun lv =>
    (g.level lv).start.toNat ≤ pc.toNat && pc.toNat ≤ (g.level lv).last.toNat

/-- Go on from the word at PC: the ends of the passes that end there, innermost first, from the level below the
argument, or the next word (R78). -/
def Chair.fallThrough (x : Chair) : Nat → Option Chair
  | 0 => (pcSucc x.gf.pc).map fun pc => { x with gf := { x.gf with pc := pc } }
  | lv + 1 =>
    let l := x.gf.level lv
    if x.gf.pc = l.last then
      match x.passEnd lv with
      | none => none
      | some y =>
        -- the level has ended, and the same word may end the level outside it
        if y.gf.depth = lv ∧ y.gf.save.isNone ∧ 0 < lv ∧ (y.gf.level (lv - 1)).last = l.last then
          ({ y with gf := { y.gf with pc := l.last } }).fallThrough lv
        else some y
    else (pcSucc x.gf.pc).map fun pc => { x with gf := { x.gf with pc := pc } }

/-- Where control goes after the word at PC, with a pending request: a taken branch's target after its delay slot
(R72), past the end of a level that LBRK leaves (R78), or on.  LBRK runs no pass end of an outer level that ends with the
level it leaves, and drops the drain of a soft save of that level.
DEDUCED (assumptions 24 and 70). -/
def Chair.flow (x : Chair) : Option Chair :=
  let g := x.gf
  let here := (g.levelAt g.pc).elim 0 (· + 1)
  if g.ds then
    let g' := { g with ds := false, taken := false, leave := none, dt := 0 }
    match g.leave with
    | some lv => (pcSucc (g.level lv).last).map fun pc =>
        { x with gf := { g' with depth := lv, pc := pc, drain := g'.drain.filter fun d => d.1 < lv } }
    | none =>
      if g.taken then some { x with gf := { g' with pc := g.dt } }
      else { x with gf := g' }.fallThrough here
  else x.fallThrough here

/-- A request has been taken at a soft point: `y` keeps where the gaffer stands without it, in `z` (R79, R233). -/
def Chair.takenAt (y z : Chair) : Chair :=
  { y with gf := { y.gf with
    untaken := some { at_ := y.cycle, pc := z.gf.pc, levels := z.gf.levels, depth := z.gf.depth } } }

/-- A pass boundary has taken a request: a soft save drains a level, or waits. -/
def Gaffer.tookSoft (g h : Gaffer) : Bool := g.drain.isNone && g.save.isNone && (h.drain.isSome || h.save.isSome)

/-- Where control goes after the word at PC has executed (R72, R78, R79). -/
def Chair.advance (x : Chair) : Option Chair :=
  x.flow.map fun y =>
    if x.gf.tookSoft y.gf then y.takenAt (({ x with req := false } : Chair).flow.getD x) else y

/-- The gaffer has issued its word: its literals and its chair wait are spent (R19, R69). -/
def Gaffer.spent (g : Gaffer) (cycle : Nat) : Gaffer :=
  { g with lits := [], waited := false, waitOn := none, issued := some cycle }

/-- Finish the gaffer's word and go on (R69, R72). -/
def gafDone (s : State) : State :=
  let x := s.here
  let x := { x with gf := x.gf.spent x.cycle }
  s.setHere (x.advance.getD x)

/-- Finish a gaffer word that writes register `d`, whose result lands after `lat` cycles (R69). -/
def gafResult (d : BitVec 6) (v : Word) (lat : Nat) (s : State) : State :=
  let g := s.gf
  let g := { g.setReg d v with
    ready := if d = 0 then g.ready else SMap.put 0 g.ready d.toNat (s.here.cycle + lat) }
  gafDone (s.setGf g)

/-- The innermost active level's body holds a word index (R77). -/
def Gaffer.inBody (g : Gaffer) (pc : BitVec 13) : Bool :=
  if g.depth = 0 then true
  else
    let l := g.level (g.depth - 1)
    l.start.toNat ≤ pc.toNat && pc.toNat ≤ l.last.toNat

/-- The word at PC, of stage `st`, takes effect in this pass of the level that it belongs to; outside every body it does
(R78). -/
def Gaffer.stageOn (g : Gaffer) (st : Nat) : Bool :=
  match g.levelAt g.pc with
  | none => true
  | some lv =>
    let l := g.level lv
    l.i0 + st ≤ l.k && l.k - st < l.n

/-- Finish a branch: one delay slot follows, and then the target if it is taken (R72).  A taken branch's
target outside instruction SRAM, or outside the innermost body, is a control-target fault (R72, R77). -/
def gafBranch (taken : Bool) (target : Int) (link : Option (BitVec 6)) (s : State) : State :=
  let g := s.gf
  let t : BitVec 13 := BitVec.ofInt 13 target
  if taken && (target < 0 || target > 8191 || !g.inBody t) then raiseG 0x0A s
  else
    let g := match link with
      | none => g
      | some d =>
        { g.setReg d (BitVec.ofNat 64 (g.pc.toNat + 2)) with
          ready := if d = 0 then g.ready else SMap.put 0 g.ready d.toNat (s.here.cycle + 1) }
    let g := { g.spent s.here.cycle with
      ds := true, taken := taken, dt := if taken then t else 0,
      leave := none, pc := g.pc + 1 }
    s.setGf g

/-! ## A-side and X-side registers -/

/-- Read an A-side register: a0 reads zero (R112). -/
def ASide.reg (y : ASide) (r : BitVec 5) : Word := if r = 0 then 0 else SMap.get 0 y.a r.toNat

/-- Write an A-side register: a write to a0 is discarded (R112). -/
def ASide.setReg (y : ASide) (r : BitVec 5) (v : Word) : ASide :=
  if r = 0 then y else { y with a := SMap.put 0 y.a r.toNat v }

def ASide.gen (y : ASide) (g : BitVec 4) : AGen := SMap.get {} y.ag g.toNat

def ASide.setGen (y : ASide) (g : BitVec 4) (x : AGen) : ASide :=
  { y with ag := SMap.put {} y.ag g.toNat x }

/-- Read a scalar register: s0 reads zero (R134). -/
def XSide.sreg (y : XSide) (r : BitVec 6) : Word := if r = 0 then 0 else SMap.get 0 y.s r.toNat

def XSide.setS (y : XSide) (r : BitVec 6) (v : Word) : XSide :=
  if r = 0 then y else { y with s := SMap.put 0 y.s r.toNat v }

def XSide.vreg (y : XSide) (r : BitVec 9) : Vec := SMap.get 0 y.v r.toNat

def XSide.setV (y : XSide) (r : BitVec 9) (v : Vec) : XSide := { y with v := SMap.put 0 y.v r.toNat v }

/-- Read a predicate: p0 reads all ones (R134). -/
def XSide.preg (y : XSide) (r : BitVec 5) : BitVec 32 :=
  if r = 0 then BitVec.allOnes 32 else SMap.get 0 y.p r.toNat

def XSide.setP (y : XSide) (r : BitVec 5) (v : BitVec 32) : XSide :=
  if r = 0 then y else { y with p := SMap.put 0 y.p r.toNat v }

/-! ## Engine queues -/

def Core.queue (y : Core) (e : Nat) : List QWord := SMap.get [] y.queues e

def Core.setQueue (y : Core) (e : Nat) (q : List QWord) : Core :=
  { y with queues := SMap.put [] y.queues e q }

/-- The unit at the head of a queue: its literals, its word, and what follows (R19). -/
def headUnit : List QWord → Option (List (BitVec 32) × QWord × List QWord)
  | [] => none
  | q :: qs =>
    if isLit q.w then (headUnit qs).map fun r => (field 0 32 q.w :: r.1, r.2.1, r.2.2)
    else some ([], q, qs)

/-! ## Entries of this cycle (R94) -/

/-- The keys under which a core counts the entries pushed in a cycle: an engine's word queue has the engine's own. -/
def keySq (q : Nat) : Nat := 8 + q
def keyXa : Nat := 10
def keyAx : Nat := 11
def keyPo : Nat := 12
def keyFmt : Nat := 13
def keyLane : Nat := 14
def keyInbox : Nat := 15

/-- `n` entries have been pushed into a queue in this cycle: they can be popped from the next one on (R94). -/
def Core.pushNote (y : Core) (key n cycle : Nat) : Core :=
  let old := SMap.get (0, 0) y.pushed key
  { y with pushed := SMap.put (0, 0) y.pushed key (cycle, if old.1 = cycle then old.2 + n else n) }

/-- How many of a queue's `len` entries may be popped in this cycle: those that stood there at its start (R94). -/
def Core.ripe (y : Core) (key len cycle : Nat) : Nat :=
  let p := SMap.get (0, 0) y.pushed key
  if p.1 = cycle then len - p.2 else len

/-- The unit at the head of an engine's queue stood there at the start of this cycle (R94). -/
def Core.unitRipe (y : Core) (e cycle : Nat) : Bool :=
  match headUnit (y.queue e) with
  | some (_, _, rest) => (y.queue e).length - rest.length ≤ y.ripe e (y.queue e).length cycle
  | none => false

/-- Take the unit at the head of an engine's queue away: the engine has started it. -/
def Core.retire (y : Core) (e cycle : Nat) : Core :=
  let y := match headUnit (y.queue e) with
    | some (_, _, rest) => y.setQueue e rest
    | none => y
  { y with waited := SMap.put false y.waited e false, since := SMap.del y.since e,
           issued := SMap.ins y.issued e cycle, f := if e = 6 then { y.f with cap := none } else y.f }

/-- The running word leaves its queue (R13). -/
def retire (s : State) : State := s.setMe (s.me.retire s.act.eng s.here.cycle)

/-- The running word leaves its queue and its signal clause is added at once. -/
def retireSig (s : State) : State :=
  addSig s.act.chair s.act.core s.sig s.act.eng (retire s)

/-- The number a new pending word of the core takes. -/
def State.fresh (s : State) : Nat × State := (s.tick, { s with tick := s.tick + 1 })

/-! ## Counters of the fabric interfaces (R297) -/

/-- A fabric interface: a core's port, or a stack's. -/
def stackPort (pa : Nat) : Nat := 4096 + (if inStack pa then homeDie pa else 0)

/-- The key of a job's counter pairs at an interface. -/
def pairKey (job port : Nat) : Nat := 8192 * job + port

def Pair.inject (n : Nat) (pkg : Bool) (p : Pair) : Pair :=
  let n := BitVec.ofNat 64 n
  { p with pi := if pkg then p.pi + n else p.pi, si := p.si + n }

def Pair.consume (n : Nat) (pkg : Bool) (p : Pair) : Pair :=
  let n := BitVec.ofNat 64 n
  { p with pc := if pkg then p.pc + n else p.pc, sc := p.sc + n }

/-- Change a job's counters at an interface. -/
def count (job port : Nat) (f : Pair → Pair) (s : State) : State :=
  let k := pairKey job port
  { s with pairs := SMap.put {} s.pairs k (f (SMap.get {} s.pairs k)) }

/-- The packet is held at core `c` of a chair of index `idx` of context `k`: another package has turned its barrier
operation away, and its word waits for replay (R299). -/
def Pkt.heldBy (p : Pkt) (k idx c : Nat) : Bool := p.code == 9 && p.ctx == k && p.score == 16 * idx + c

/-- The restart sends the barrier operations that wait for replay, and counts them as injected (R297, R299). -/
def sendHeld (ch : Nat) (s : State) : State :=
  let x := s.chair ch
  let k := s.ctxOf ch
  let mine := fun (p : Pkt) => (List.range 16).any fun c => p.heldBy k x.idx c
  let s := (s.net.filter mine).foldl (fun s p => count p.job (coreIndex ch (p.score % 16)) (Pair.inject 1 p.pkg) s) s
  { s with net := s.net.map fun p => if mine p then { p with code := 0 } else p }

/-! ## Taking an exception, and returning from it (R224 to R228) -/

/-- The cores that hold a level C record, as a mask (R227). -/
def Chair.recCores (x : Chair) : Nat :=
  (List.range 16).foldl (fun m c => if (x.core c).rec_.isSome then m + 2 ^ c else m) 0

/-- The lowest core that holds a record. -/
def Chair.lowestRec (x : Chair) : Nat :=
  ((List.range 16).filter fun c => (x.core c).rec_.isSome).headD 0

/-- A holder of the furnace lapses at a freeze (R189). -/
def Core.lapse (y : Core) : Core :=
  match y.m.lease with
  | .holding r => { y with m := { y.m with lease := .lapsed r } }
  | _ => y

/-- Landing cycles are kept relative to the freeze cycle F, and counted again from the restart cycle
(R225, R228). -/
def Core.rebase (y : Core) (f t : Nat) : Core :=
  { y with x := { y.x with fly := y.x.fly.map fun r => { r with at_ := r.at_ - f + t } },
           a := { y.a with
             late := y.a.late.map fun r => { r with at_ := r.at_ - f + t },
             dq := y.a.dq.map fun q => (q.1, q.2.map fun e => { e with at_ := e.at_ - f + t }) } }

/-- Apply a function to all sixteen cores of a chair. -/
def Chair.mapCores (x : Chair) (f : Nat → Core → Core) : Chair :=
  (List.range 16).foldl (fun x c => x.setCore c (f c (x.core c))) x

/-- Whether a context's HMASK routes a cause to the handler (R221, R222, R226). -/
def Ctx.routes (x : Ctx) (cause : Nat) : Bool := x.desc1 2 cause 1 == 1

/-- Enter handler mode: g56 to g63 are saved in the frame and stay in the registers, FSEL names the lowest
core with a record, and the gaffer goes to HENTRY with no loop active, so that lc and li read 0 there (R226, R227).
DEDUCED (assumption 70). -/
def Chair.enterHandler (x : Chair) (hentry : BitVec 13) : Chair :=
  { x with
    frame := { x.frame with
      handler := true, fsel := x.lowestRec,
      savedG := (List.range 8).map fun i => (56 + i, SMap.get 0 x.gf.g (56 + i)) },
    gf := { x.gf with
      pc := hentry, ds := false, dt := 0, taken := false, leave := none, lits := [],
      waited := false, waitOn := none, quiet := none, depth := 0, levels := [],
      exited := false, save := none, resume := none, drain := none } }

/-- Where the save block of the chair of index `n` begins (R234). -/
def Ctx.block (x : Ctx) (n : Nat) : Nat := x.desc1 4 0 52 + n * 0x4200000

/-- A fault that is not routed: the context becomes FAULTED, and a fault notice with the cause, the chair and
its save block goes to the log (R220, R238). -/
def faultNotice (ch : Nat) (s : State) : State :=
  let x := s.chair ch
  let k := s.ctxOf ch
  let blk := (s.ctx k).block x.idx
  logEntry k ([4, BitVec.ofNat 8 x.frame.cause] ++ leBytes 2 ch ++ leBytes 4 0 ++ leBytes 8 blk)
    (s.updCtx k fun y => { y with st := .faulted })

/-- Route the frame's cause (R226): to the handler where HMASK says so, else the context is FAULTED.  In
handler mode a level G fault is never routed.
DEDUCED (assumption 47). -/
def routeCause (ch : Nat) (s : State) : State :=
  let x := s.chair ch
  let c := s.ctx (s.ctxOf ch)
  if x.frame.hnest = false ∧ c.routes x.frame.cause then
    s.setChair ch (x.enterHandler (BitVec.ofNat 13 (c.desc1 3 0 13)))
  else faultNotice ch s

/-- Where the word at PC begins as a unit, and the literals that lie elsewhere: its LITs stand just before it, unless
the end of a loop's pass parts them (R19).
DEDUCED (assumption 27). -/
def Gaffer.unitStart (g : Gaffer) : BitVec 13 × List (BitVec 32) :=
  let n := g.lits.length
  let p := g.pc.toNat - n
  let near : Bool := n ≤ g.pc.toNat && (List.range n).all (fun i => isLit (SMap.get 0 g.isram (p + i))) &&
    (g.depth == 0 || (g.level (g.depth - 1)).start.toNat ≤ p)
  if near then (BitVec.ofNat 13 p, []) else (g.pc, g.lits)

/-- The gaffer of the chair's program has executed EXIT, also while a handler runs (R67, R226). -/
def Chair.hasExited (x : Chair) : Bool :=
  x.gf.exited || (x.st == .halted && (x.frame.held.getD x.frame.cont).exited)

/-- A request that a soft point has taken in the very cycle of a fault is taken back: the fault comes first, and the
request waits for the first soft point after RESUME (R233). -/
def Gaffer.untake (g : Gaffer) (f : Nat) : Gaffer :=
  match g.untaken with
  | some u =>
    if u.at_ + 1 = f then
      { g with pc := u.pc, levels := u.levels, depth := u.depth, ds := false, taken := false, leave := none, dt := 0,
               drain := none, save := none, resume := none, waited := false }
    else g
  | none => g

/-- The frame a chair's halt closes: cause, continuation, freeze cycle (R225).  A hard pre-emption of a handler
leaves the frame that the handler serves as it is, with the place where the handler goes on (R230, R232).
DEDUCED (assumption 70). -/
def Chair.closeFrame (x : Chair) (f : Nat) (hard : Bool) : Chair :=
  let g := if hard ∨ x.gfault.isSome then x.gf else x.gf.untake f
  -- a level G fault, or a word whose chair wait has passed, is named itself; any other halt falls before its unit
  let unit := if x.gfault.isSome ∨ g.waited then (g.pc, g.lits) else g.unitStart
  let cont : Cont := {
    pc := unit.1, lits := unit.2, ds := g.ds, dt := g.dt, taken := g.taken, leave := g.leave, short := g.short,
    trap := x.gfault.any fun q => q.1 == 9, waited := g.waited, exited := g.exited,
    resume := match g.save with
      | some (some p) => some p
      | _ => g.resume,
    drain := g.drain }
  let recs := x.recCores ≠ 0
  let lowest := ((x.core x.lowestRec).rec_.map fun r => r.code).getD 0
  let nest := x.frame.handler
  -- a fault in handler mode leaves what the frame keeps of the program as it is
  let at_ := if nest then x.frame.cycle else f
  let lv := if nest then (x.frame.levels, x.frame.depth) else (g.levels, g.depth)
  let kept := if nest then some (x.frame.held.getD x.frame.cont) else none
  let fr : Frame := match x.gfault with
    | some (cause, code) =>
      { levelC := false, cause := cause, trapCode := code, gword := SMap.get 0 g.isram g.pc.toNat,
        gprov := { kind := 2, gpc := g.pc, esn := g.head },
        cycle := at_, hnest := nest, both := recs, cont := cont, held := kept, levels := lv.1, depth := lv.2 }
    | none =>
      { levelC := true, cause := lowest, cycle := at_, cont := cont, held := kept, levels := lv.1,
        depth := lv.2 }
  let fr := { fr with
    hscratch := x.frame.hscratch, hard := hard, counter := if nest then x.frame.counter else x.clock,
    savedG := if nest then x.frame.savedG
      else (List.range 8).map fun i => (56 + i, SMap.get 0 x.gf.g (56 + i)) }
  let fr := if nest ∧ hard then { x.frame with handler := false, hard := true, inner := some cont } else fr
  let x := { x with
    st := .halted, halt := none, gfault := none, frame := fr,
    gf := { g with lits := [], waitOn := none, save := none, resume := none, drain := none } }
  x.mapCores fun _ y => y.lapse

/-- The gang is core `c`'s of chair `ch`. -/
def Gang.of (g : Gang) (ch c : Nat) : Bool := g.ch == ch && g.core == c

/-- The gang that core `c` of chair `ch` of context `k` owns: the pseudo-channel's, or the one a frame keeps for it
(R263). -/
def PChan.mine (x : PChan) (k ch c : Nat) : Option Gang :=
  (x.gang.filter fun g => g.of ch c).or ((x.kept.find? fun q => q.1 == k && q.2.of ch c).map (·.2))

/-- Change the gang that the core owns. -/
def PChan.setMine (x : PChan) (k ch c : Nat) (g : Gang) : PChan :=
  if x.gang.any fun h => h.of ch c then { x with gang := some g }
  else { x with kept := x.kept.map fun q => if q.1 == k && q.2.of ch c then (k, g) else q }

/-- A frame of context `k` no longer keeps a gang for the core. -/
def PChan.unkeep (x : PChan) (k ch c : Nat) : PChan :=
  { x with kept := x.kept.filter fun q => !(q.1 == k && q.2.of ch c) }

/-- A frame of context `k` keeps a gang. -/
def PChan.keep (x : PChan) (k : Nat) (g : Gang) : PChan :=
  let x := x.unkeep k g.ch g.core
  { x with kept := (k, g) :: x.kept }

/-- The ganged pseudo-channels of a context go back to NORMAL at a halt or a save, and the frame keeps their
accumulators and gang buffers (R263). -/
def dropGangs (k : Nat) (s : State) : State :=
  flushLogs { s with dies := s.dies.map fun e =>
      (e.1, { e.2 with chans := e.2.chans.map fun p =>
        match p.2.gang with
        | some g => if (s.chair g.ch).ctx = some k then (p.1, { p.2.keep k g with gang := none }) else p
        | none => p }) }

/-- When a chair goes on, its ganged pseudo-channels, and those of the chairs of its context that run, are GANG again
as the frame kept them (R263).
DEDUCED (assumption 48). -/
def regang (ch : Nat) (s : State) : State :=
  { s with dies := s.dies.map fun e =>
      (e.1, { e.2 with chans := e.2.chans.map fun p =>
        let k := s.ctxOf ch
        let back := fun (q : Nat × Gang) =>
          let x := s.chair q.2.ch
          q.1 == k && (q.2.ch == ch || (x.ctx == some k && x.st == .run))
        match p.2.kept.find? back, p.2.gang with
        | some (_, g), none => (p.1, { p.2.unkeep k g.ch g.core with gang := some g })
        | _, _ => p }) }

/-- Let leaves' pages go (R166). -/
def releaseLeaves (ls : List Nat) (s : State) : State :=
  ls.foldl (fun s l =>
    let p := SMap.get {} s.pages l
    { s with pages := SMap.ins s.pages l { p with holds := p.holds - 1 } }) s

/-- A freeze stops every transfer command of the chair that is moving, at its atom boundary; one that is probing stays
as it is (R166, R179). -/
def stopTransfers (ch : Nat) (s : State) : State :=
  let x := s.chair ch
  let going := fun (k : XCmd) => k.st == .moving
  let held := (List.range 16).flatMap fun c => (x.core c).t.xq.flatMap fun q =>
    (q.2.cmds.filter going).flatMap (·.held)
  let stop := fun (k : XCmd) => if going k then { k with st := .stopped, cause := some .freeze, held := [] } else k
  let s := releaseLeaves held s
  s.setChair ch (x.mapCores fun _ y =>
    { y with t := { y.t with xq := y.t.xq.map fun q => (q.1, { q.2 with cmds := q.2.cmds.map stop }) } })

/-- Halt a chair (R224): the freeze cycle is the cycle after the cause, the holder of a furnace lapses, the
frame closes, the context is FROZEN, and the cause is routed.  A hard pre-emption is never routed. -/
def chairHaltNow (ch : Nat) (s : State) : State :=
  let x := s.chair ch
  match x.halt with
  | none => s
  | some h =>
    let hard := h.hard && x.gfault.isNone && (x.recCores = 0 || x.frame.handler)
    let k := s.ctxOf ch
    let f := if hard then Nat.max (h.cycle + 1) x.cycle else h.cycle + 1
    let s := stopTransfers ch (dropGangs k (s.setChair ch (x.closeFrame f hard)))
    if (s.ctx k).st = .dead then s
    else
      let s := s.updCtx k fun y => { y with st := if y.st = .running then .frozen else y.st }
      if hard then s else routeCause ch s

/-- Take the literals at the tail of a queue away. -/
def dropTailLits (q : List QWord) : List QWord := (q.reverse.dropWhile fun x => isLit x.w).reverse

/-- The page that command `id` of the near-memory port holds, where the engine is that port (R264). -/
def NSide.leavesOf (n : NSide) (eng id : Nat) : List Nat :=
  if eng = 5 then (n.pend.filter (·.id = id)).filterMap fun p =>
    match p.op with
    | .bmac _ _ _ _ leaf => some leaf
    | _ => none
  else []

/-- Undo the issue of an access that is dropped (R116, R228): its reserved entries leave their data queue, the
entries it popped go back to the front, and its generator's position goes back if no later word has changed it.
DEDUCED (assumption 29). -/
def ASide.unissue (a : ASide) (p : APend) : ASide :=
  let dq := (List.range 4).foldl (fun m q => SMap.put [] m q ((SMap.get [] m q).filter (·.id ≠ p.id))) a.dq
  let sq := match p.took.sq with
    | some (q, es) => SMap.put [] a.sq q (es ++ SMap.get [] a.sq q)
    | none => a.sq
  let a := { a with pend := a.pend.filter (·.id ≠ p.id), dq := dq, sq := sq }
  match p.took.gen with
  | some (g, old, new) => if (a.gen g).pos = new then a.setGen g { a.gen g with pos := old } else a
  | none => a

/-- Core `c` will never take the DETACH of ESN `d`: no wait looks for it any more.  The span that it opened goes on until
its marker is emitted, since the order of emissions alone decides it (R61, R65, R228). -/
def Gaffer.unbreak (g : Gaffer) (c : Nat) (d : BitVec 28) : Gaffer :=
  let drop := fun (b : Break) => if b.core == c && b.d == d && !b.taken then { b with dropped := true } else b
  { g with breaks := g.breaks.map drop, shadows := g.shadows.map drop }

/-- The fill or the eviction of a dropped word ends where it stands and counts as complete (R125, R228): the entry
after it, and the signals that are owed.
DESIGN CHOICE (assumption 31). -/
def Tag.cutShort (t : Tag) (cycle : Nat) : Tag × List Sig :=
  match t.st, t.next with
  | .filling, _ => ({ t with st := .valid, sigs := [], moved := 0 }, t.sigs)
  | .evicting, some (x, g) =>
    let owed := t.back.isEmpty
    ({ st := .filling, block := x, touched := cycle, sigs := if owed then [] else [g], leaf := t.nextLeaf },
      if owed then [g] else t.back)
  | .evicting, none => ({}, t.back)
  | _, _ => (t, [])

/-- What the end of a hold without its ACCWB leaves: the tile as the words before it left it, or VACANT if release is
pending (R198, R228).
DESIGN CHOICE (assumption 78). -/
def Tile.unhold (t : Tile) : Tile :=
  if t.st = .held then (if t.pendingRel then {} else { t with st := t.under }) else t

/-- A started word is dropped; the tiles that it holds are held no longer. -/
def MSide.drop (m : MSide) (id : Nat) : MSide :=
  let held := (m.pend.filter (·.id = id)).flatMap fun p => match p.op with
    | .accwb _ _ _ _ _ _ held => held
    | _ => []
  { m with
    pend := m.pend.filter (·.id ≠ id),
    tiles := held.foldl (fun ts t => SMap.put {} ts t (SMap.get {} ts t).unhold) m.tiles }

/-- Drop the recorded faulting word of a core: its wait clause counts as passed and its signal is added
(R228).  A word still in its queue leaves it; an issued one leaves its engine. -/
def dropFaulting (ch c : Nat) (s : State) : State :=
  let y := s.core ch c
  match y.rec_ with
  | none => s
  | some r =>
    if r.code = 0x29 ∨ (r.code = 0x28 ∧ r.eng = 0) then s
    else
      let cl := clauseOf r.w
      let sig : Sig := { sem := cl.ssem, amt := if cl.ssem = 0 then 0 else amount cl.scnt, prov := r.prov, w := r.w, lits := r.lits }
      match r.pid, r.tagKey with
      | none, none =>
        if r.eng = 0 then
          -- a word that the core had not passed to a queue; its literals go with it
          let e := engOf r.w
          let y := { y with queues := SMap.put [] y.queues e (dropTailLits (y.queue e)) }
          let spent := { y with buf := none, waited := SMap.put false y.waited 8 false, since := SMap.del y.since 8 }
          let s := s.setCore ch c (match y.phase, y.buf with
            | .drafting, _ => { y with pos := y.pos + 1 }
            | _, some _ => { spent with spc := y.spc + 8 }
            | _, none => { y with spc := y.spc + 8 })
          let s := if y.phase = .drafting then s.updChair ch fun x => { x with gf := x.gf.unbreak c y.pos } else s
          addSig ch c sig 0 s
        else
          -- the condition that a dropped BQPUSH has evaluated goes with it (R100)
          let y := if r.eng = 1 then { y with a := { y.a with bq := none } } else y
          addSig ch c sig r.eng (s.setCore ch c (y.retire r.eng (s.chair ch).cycle))
      | none, some k =>
        let t := SMap.get {} y.a.tags k
        let (t', gs) := t.cutShort (s.chair ch).cycle
        let s := s.setCore ch c { y with a := { y.a with tags := SMap.put {} y.a.tags k t' } }
        -- an eviction that ends lets its block's page go
        let s := if t.st = .evicting then releaseLeaves t.leaf.toList s else s
        gs.foldl (fun s g => addSig ch c g 1 s) s
      | some i, _ =>
        let y0 := y
        let y := match r.eng with
          | 1 =>
            { y with a := (y.a.pend.find? (·.id = i)).elim y.a fun p => y.a.unissue p }
          | 3 => { y with m := y.m.drop i }
          | 4 =>
            if i ≥ Armed.firstPid then
              { y with t := { y.t with armed := y.t.armed.filter fun a => Armed.firstPid + a.off ≠ i } }
            else
              let q := SMap.get {} y.t.xq i
              { y with t := { y.t with xq := SMap.put {} y.t.xq i { q with cmds := q.cmds.drop 1 } } }
          | 5 =>
            { y with n := { y.n with
              pend := y.n.pend.filter (·.id ≠ i),
              fifo := updFirst (·.id = i) (fun e => { e with result := some 0 }) y.n.fifo } }
          | _ =>
            -- a BARW of another word, registered meanwhile, stays
            let barw := y.f.barw.filter fun l => l.remote ≠ some i
            { y with f := { y.f with pend := y.f.pend.filter (·.id ≠ i), barw := barw } }
        -- a barrier operation that another package has turned away is not sent again
        let s := if r.eng = 6 then { s with net := s.net.filter fun p => !(p.fid == i && p.heldBy (s.ctxOf ch) (s.chair ch).idx c) } else s
        let s := releaseLeaves (y0.n.leavesOf r.eng i) s
        addSig ch c sig r.eng (s.setCore ch c y)

/-- The core's record names issued word `id` of engine `e`: it waits for the restart (R224, R228). -/
def Core.recorded (y : Core) (e id : Nat) : Bool :=
  match y.rec_ with
  | some r => r.eng == e && r.pid == some id
  | none => false

/-- Forget the records of a chair, so that its words may start again; a FAB or near-memory word that faulted
reads its registers anew. -/
def Chair.clearRecs (x : Chair) : Chair := x.mapCores fun _ y =>
  { y with rec_ := none,
           f := if y.rec_.any (·.eng == 6) then { y.f with cap := none } else y.f,
           n := if y.rec_.any (·.eng == 5) then { y.n with cap := none } else y.n,
           a := { y.a with pend := y.a.pend.map fun p => { p with stuck := false } },
           t := { y.t with xq := y.t.xq.map fun e =>
             (e.1, { e.2 with cmds := e.2.cmds.map fun k => if k.st = .stopped then { k with st := .probing, cause := none } else k }) } }

/-- g56 to g63 as the frame holds them (R226, R228). -/
def restoreG (fr : Frame) (g : SMap Word) : SMap Word :=
  fr.savedG.foldl (fun m (e : Nat × Word) => SMap.put 0 m e.1 e.2) g

/-- Put the gaffer back to its continuation (R228): after a TRAP at the end word of a loop body the level stays
active, and a TRAP at word 8,191 is executed again.
DEDUCED (assumption 70). -/
def Gaffer.continueAs (g : Gaffer) (k : Cont) (levels : SMap Level) (depth : Nat) : Gaffer :=
  let pc := if k.trap ∧ k.ds = false then (pcSucc k.pc).getD k.pc else k.pc
  { g with pc := pc, ds := k.ds, dt := k.dt, taken := k.taken, leave := k.leave, levels := levels,
           depth := depth, lits := if pc = k.pc then k.lits else [], waited := k.waited, short := k.short, quiet := none, issued := none,
           exited := k.exited, save := none, resume := k.resume, drain := k.drain }

/-- The restart of a halted chair at RESUME or at a resume by system software (R228): with `drop`, the
recorded faulting words are dropped; results in flight land relative to the restart cycle; the budget counts
again from zero (R232). -/
def restartChair (ch : Nat) (drop : Bool) (s : State) : State :=
  let s := if drop then (List.range 16).foldl (fun s c => dropFaulting ch c s) s else s
  let x := s.chair ch
  let t0 := x.cycle + 1
  let x := (x.mapCores fun _ y => y.rebase x.frame.cycle t0).clearRecs
  let k := x.frame.held.getD x.frame.cont
  let g := { x.gf with g := restoreG x.frame x.gf.g }
  let x := { x with
    st := .run, cycle := t0, budget := 0, halt := none, gfault := none,
    gf := g.continueAs k x.frame.levels x.frame.depth,
    frame := { hscratch := x.frame.hscratch } }
  let s := sendHeld ch (regang ch (s.setChair ch x))
  s.updCtx (s.ctxOf ch) fun y => { y with st := if y.st = .frozen then .running else y.st }

/-- A handler that a hard pre-emption has halted goes on where it stood, in handler mode (R226, R230, R232).
DEDUCED (assumption 70). -/
def Chair.resumeHandler (x : Chair) (k : Cont) : Chair :=
  { x with
    cycle := x.cycle + 1, budget := 0, halt := none, gfault := none,
    gf := x.gf.continueAs k x.gf.levels x.gf.depth,
    frame := { x.frame with handler := true, hard := false, inner := none } }

/-- RESUME's effect on a halted chair (R228).  After a level G cause with level C records, the continuation
waits in the frame and the chair halts again with the level C records. -/
def resumeChair (ch : Nat) (s : State) : State :=
  let x := s.chair ch
  let fr := x.frame
  match fr.inner with
  | some k =>
    let s := s.updCtx (s.ctxOf ch) fun y => { y with st := if y.st = .running then .frozen else y.st }
    s.setChair ch (x.resumeHandler k)
  | none =>
  if fr.levelC = false ∧ fr.both then
    let x := { x with
      gf := { x.gf with g := restoreG fr x.gf.g },
      frame := { fr with
        levelC := true, both := false, held := some (fr.held.getD fr.cont), mode := false,
        cause := ((x.core x.lowestRec).rec_.map fun r => r.code).getD 0, trapCode := 0, gword := 0,
        handler := false, hnest := false } }
    let s := s.updCtx (s.ctxOf ch) fun y => { y with st := if y.st = .running then .frozen else y.st }
    routeCause ch (s.setChair ch x)
  else restartChair ch fr.mode s

end Sys2Proof.Machine
end

