-- ==== Sys2Proof/Machine/Pages.lean ====
section
/-!
DEFINITION. Translation (R204 to R207), the state of pages (R208), counted accesses and moves (R210, R211),
pins (R126, R209), and arena pages (R266).
-/

namespace Sys2Proof.Machine

open Sys2Proof

/-! ## Page-table entries (R205) -/

def pteX (p : Word) : Bool := p.getLsbD 63
def pteNarrow (p : Word) : Bool := p.getLsbD 62
def ptePlace (p : Word) : Bool := p.getLsbD 61
def pteSettled (p : Word) : Bool := p.getLsbD 60
def pteTier (p : Word) : Nat := (field 58 2 p).toNat
def ptePfn (p : Word) : Nat := (field 12 40 p).toNat
def pteInfl (p : Word) : Bool := p.getLsbD 7
def pteLeaf (p : Word) : Bool := p.getLsbD 8
def ptePS (p : Word) : Nat := (field 3 2 p).toNat
def pteW (p : Word) : Bool := p.getLsbD 2
def pteR (p : Word) : Bool := p.getLsbD 1
def pteV (p : Word) : Bool := p.getLsbD 0

/-- Set or clear one bit of an entry. -/
def pteBit (p : Word) (i : Nat) (b : Bool) : Word :=
  if b then p ||| (1#64 <<< i) else p &&& ~~~(1#64 <<< i)

/-- Give an entry a tier and a page frame (R205). -/
def pteMove (p : Word) (tier pfn : Nat) : Word :=
  field 60 4 p ++ BitVec.ofNat 2 tier ++ field 52 6 p ++ BitVec.ofNat 40 pfn ++ field 0 12 p

/-- The virtual size of a page by its PS (R204). -/
def psBytes (ps : Nat) : Nat :=
  match ps with
  | 0 => 0x1000 | 1 => 0x10000 | 2 => 0x200000 | _ => 0x40000000

/-- A translation: the leaf's address and value, and the page's virtual range. -/
structure Tr where
  leaf : Nat
  pte : Word
  base : Word
  size : Nat
  deriving DecidableEq, Repr, Inhabited

def Tr.physSize (t : Tr) : Nat := if pteNarrow t.pte then t.size / 2 else t.size

/-- The physical address of a virtual address of the page (R56, R205). -/
def Tr.pa (t : Tr) (va : Word) : Nat :=
  let o := (va - t.base).toNat
  ptePfn t.pte * 4096 + (if pteNarrow t.pte then o / 2 else o)

/-- A leaf that R205 admits at a level.
DEDUCED (assumption 25). -/
def leafOk (p : Word) (level : Nat) : Bool :=
  let ps := ptePS p
  let phys := if pteNarrow p then psBytes ps / 2 else psBytes ps
  let a := ptePfn p * 4096
  let place : Bool := match pteTier p with
    | 0 => inStack a && inStack (a + phys - 1)
    | 1 => inHost a && inHost (a + phys - 1)
    | 2 => field 43 9 p == 0
    | _ => false
  pteV p && field 52 6 p == 0 && field 9 3 p == 0 && pteTier p != 3 &&
    (match level with | 0 => ps ≤ 1 | 1 => ps == 2 | 2 => ps == 3 | _ => false) &&
    !(pteX p && pteW p) && a % phys == 0 && place && !(pteNarrow p && (ps == 0 || pteX p))

/-- A table entry: LEAF = 0 and nothing but V and the next table's address (R205). -/
def tableOk (p : Word) : Bool :=
  pteV p && !pteLeaf p && field 52 12 p == 0 && field 1 11 p == 0

/-- Walk the levels that remain, from the table at `tbl` (R204). -/
def walkFrom (m : Space) (va : Word) : Nat → Nat → Option Tr
  | 0, tbl =>
    let i := (field 12 9 va).toNat
    let first := tbl + 8 * (i / 16 * 16)
    let p := m.word first
    if pteLeaf p && ptePS p == 1 && leafOk p 0 then
      some { leaf := first, pte := p, base := va &&& ~~~0xFFFF#64, size := 0x10000 }
    else
      let a := tbl + 8 * i
      let p := m.word a
      if pteLeaf p && ptePS p == 0 && leafOk p 0 then
        some { leaf := a, pte := p, base := va &&& ~~~0xFFF#64, size := 0x1000 }
      else none
  | l + 1, tbl =>
    let a := tbl + 8 * ((va >>> (12 + 9 * (l + 1))).toNat % 512)
    let p := m.word a
    if pteLeaf p then
      if leafOk p (l + 1) then
        let n := psBytes (ptePS p)
        some { leaf := a, pte := p, base := va &&& ~~~(BitVec.ofNat 64 (n - 1)), size := n }
      else none
    else if tableOk p then walkFrom m va l (ptePfn p * 4096)
    else none

/-- The walk from a context's root; a non-canonical address has no translation (R115, R204).
DESIGN CHOICE (assumption 10). -/
def walk (s : State) (k : Nat) (va : Word) : Option Tr :=
  if canonical va then walkFrom s.mem va 4 ((s.ctx k).desc1 0 12 40 * 4096) else none

/-- An entry that the walk of an address reads lies in a pseudo-channel that works as a gang (R263). -/
def walkGanged (s : State) (va : Word) : Nat → Nat → Bool
  | 0, tbl => s.ganged tbl
  | l + 1, tbl =>
    let p := s.mem.word (tbl + 8 * ((va >>> (12 + 9 * (l + 1))).toNat % 512))
    s.ganged tbl || (!pteLeaf p && tableOk p && walkGanged s va l (ptePfn p * 4096))

/-- The root of a context's tables (R221). -/
def State.root (s : State) (k : Nat) : Nat := (s.ctx k).desc1 0 12 40 * 4096

/-- The walk of an address waits: a table that it reads lies in a ganged pseudo-channel (R263). -/
def walkWaits (s : State) (k : Nat) (va : Word) : Bool := walkGanged s va 4 (s.root k)

/-- The entries of a table that are not zero. -/
def usedEntries (m : Space) (tbl : Nat) : List Nat :=
  ((m.bytes.filter fun e => tbl ≤ e.1 && e.1 < tbl + 4096).map fun e => (e.1 - tbl) / 8).eraseDups

/-- The tables under one of a level, itself among them (R204). -/
def subTables (m : Space) : Nat → Nat → List Nat
  | 0, tbl => [tbl]
  | l + 1, tbl => tbl :: (usedEntries m tbl).flatMap fun i =>
      let p := m.word (tbl + 8 * i)
      if !pteLeaf p && tableOk p then subTables m l (ptePfn p * 4096) else []

/-- The leaves under a table of a level that begins at a virtual address (R204). -/
def subLeaves (m : Space) : Nat → Nat → Word → List Tr
  | 0, tbl, base => (usedEntries m tbl).filterMap fun i =>
      (walkFrom m (base + BitVec.ofNat 64 (4096 * i)) 0 tbl).filter fun t => t.leaf == tbl + 8 * i
  | l + 1, tbl, base => (usedEntries m tbl).flatMap fun i =>
      let va := base + BitVec.ofNat 64 (i * 2 ^ (12 + 9 * (l + 1)))
      let p := m.word (tbl + 8 * i)
      if pteLeaf p then (walkFrom m va (l + 1) tbl).toList
      else if tableOk p then subLeaves m l (ptePfn p * 4096) va
      else []

/-- The leaves of a context. -/
def leavesOf (s : State) (k : Nat) : List Tr :=
  (subLeaves s.mem 4 (s.root k) 0).map fun t => { t with base := (field 0 57 t.base).signExtend 64 }

/-- The leaves of every context, each with its context. -/
def allLeaves (s : State) : List (Nat × Tr) :=
  (s.ctxs.filter fun e => e.2.st ≠ .free).flatMap fun e => (leavesOf s e.1).map fun t => (e.1, t)

/-! ## Page records -/

/-- The page moves, or is asked for. -/
def PageState.flying : PageState → Bool
  | .migrating | .arriving | .departing => true
  | .resident | .deep => false

/-- A page's record fits its leaf: a page of the deep tier is DEEP or ARRIVING, and no other is; the leaf of a page in flight
has INFL set; and a page with PLACE = 0 is not moved out of its place (R208, R209).  One that does not is of an earlier page. -/
def Page.fits (p : Page) (pte : Word) : Bool :=
  (pteTier pte == 2) == (p.st == .deep || p.st == .arriving) && (!p.st.flying || pteInfl pte) &&
    (ptePlace pte || (p.st != .migrating && p.st != .departing))

/-- The record of a page; one that nothing has touched is DEEP or RESIDENT by its leaf (R208). -/
def State.page (s : State) (t : Tr) : Page :=
  let new : Page := { st := if pteTier t.pte = 2 then .deep else .resident, va := t.base }
  let p := SMap.get new s.pages t.leaf
  if p.fits t.pte then p else new

def State.setPage (s : State) (leaf : Nat) (p : Page) : State := { s with pages := SMap.ins s.pages leaf p }

/-- Drop every TLB entry of a leaf, in every core (R207). -/
def dropTlb (leaf : Nat) (s : State) : State :=
  { s with chairs := s.chairs.map fun e =>
      (e.1, { e.2 with cores := e.2.cores.map fun c =>
        (c.1, { c.2 with a := { c.2.a with tlb := c.2.a.tlb.filter (·.leaf ≠ leaf) } }) }) }

/-- Rewrite a leaf and invalidate its TLB entries (R207). -/
def setLeaf (leaf : Nat) (p : Word) (s : State) : State :=
  dropTlb leaf { s with mem := s.mem.setWord leaf p }

/-- Set A, and D for a write, in a leaf (R205, R207). -/
def markLeaf (leaf : Nat) (write : Bool) (s : State) : State :=
  let p := pteBit (s.mem.word leaf) 6 true
  { s with mem := s.mem.setWord leaf (if write then pteBit p 5 true else p) }

/-- Translate through the core's TLB; a miss walks, and the entry it fills takes a free place or a freely
chosen victim's (R113, R207). -/
def translate (ch c : Nat) (va : Word) (s : State) : Option Tr × State :=
  let y := s.core ch c
  match y.a.tlb.find? fun e => e.va ≤ va && (va - e.va).toNat < e.size with
  | some e => (some { leaf := e.leaf, pte := e.pte, base := e.va, size := e.size }, s)
  | none =>
    match walk s (s.ctxOf ch) va with
    | none => (none, s)
    | some t =>
      let s := markLeaf t.leaf false s
      let e : TlbEntry := { va := t.base, leaf := t.leaf, pte := t.pte, size := t.size }
      if y.a.tlb.length < 2048 then
        (some t, s.updCore ch c fun y => { y with a := { y.a with tlb := e :: y.a.tlb } })
      else
        let (n, s) := s.choose
        (some t, s.updCore ch c fun y =>
          { y with a := { y.a with tlb := e :: y.a.tlb.eraseIdx (n % 2048) } })

/-! ## Pins (R126, R209) -/

/-- Two ranges of virtual addresses overlap. -/
def overlaps (a : Word) (n : Nat) (b : Word) (m : Nat) : Bool :=
  a.toNat < b.toNat + m && b.toNat < a.toNat + n

/-- A pin entry of a core of the chair covers part of the page (R126). -/
def Chair.pins (x : Chair) (base : Word) (size : Nat) : Bool :=
  x.cores.any fun c => c.2.a.pins.any fun p => overlaps p.1 p.2 base size

/-- A pin entry of a core of the context, in a chair or a save block, covers part of the page (R126). -/
def pinned (s : State) (k : Nat) (base : Word) (size : Nat) : Bool :=
  (s.chairs.any fun e => e.2.ctx == some k && e.2.pins base size) ||
    (s.ctx k).saved.any fun e => e.2.chair.pins base size

/-- Two ranges of addresses overlap. -/
def meets (a n b m : Nat) : Bool := a < b + m && b < a + n

/-- A pin of any context covers a page by its leaf, or by another leaf of its place (R126, R209). -/
def pinnedAt (s : State) (t : Tr) : Bool :=
  (allLeaves s).any fun e =>
    (e.2.leaf == t.leaf || (pteTier e.2.pte == pteTier t.pte &&
      meets (ptePfn e.2.pte * 4096) e.2.physSize (ptePfn t.pte * 4096) t.physSize)) && pinned s e.1 e.2.base e.2.size

/-- A frame of the page holds a table of a context's page table (R209).
DEDUCED (assumption 26). -/
def holdsTable (s : State) (pa n : Nat) : Bool :=
  s.ctxs.any fun e => e.2.st ≠ .free && (subTables s.mem 4 (s.root e.1)).any fun r => pa ≤ r && r < pa + n

/-! ## Frames -/

/-- The 4 KiB frames of `n` bytes from an address. -/
def framesOf (pa n : Nat) : List Nat := (List.range ((n + 4095) / 4096)).map fun i => pa / 4096 + i

/-- No atom of the range holds a datum. -/
def emptyIn (m : Space) (pa n : Nat) : Bool := m.atoms.all fun e => !(pa / 32 ≤ e.1 && e.1 < (pa + n) / 32)

/-- Part of the range is a 64 KiB frame of a die's arena pool (R266). -/
def inPool (s : State) (pa n : Nat) : Bool :=
  s.dies.any fun e => e.2.pool.any fun f => pa < f + 0x10000 && f < pa + n

/-- The frames of the range are free: none is owned or of an arena pool, and none holds a datum.
DESIGN CHOICE (assumption 51). -/
def framesFree (s : State) (pa n : Nat) : Bool :=
  ((framesOf pa n).all fun f => SMap.get 0 s.frames f == 0) && !inPool s pa n && emptyIn s.mem pa n

/-- A page in flight is to take part of a range, or a page has it: of the deep tier, or of the direct ones (R216). -/
def claimed (s : State) (deep : Bool) (pa n : Nat) : Bool :=
  (s.pages.any fun e =>
    let p := s.mem.word e.1
    let size := if pteNarrow p then psBytes (ptePS p) / 2 else psBytes (ptePS p)
    (e.2.st == (if deep then .departing else .migrating)) && e.2.fits p && meets pa n e.2.target size) ||
  (allLeaves s).any fun e => (pteTier e.2.pte == 2) == deep && meets pa n (ptePfn e.2.pte * 4096) e.2.physSize

/-- The 4 KiB frames of a stack that are owned, hold a datum, are of an arena pool, or are a page's. -/
def usedFrames (s : State) (d : Nat) : List Nat :=
  let owned : List Nat := s.frames.map fun (e : Nat × Nat) => e.1
  let full : List Nat := s.mem.atoms.map fun (e : Nat × AtomState) => e.1 / 128
  let pool : List Nat := s.dies.flatMap fun (e : Nat × Die) => e.2.pool.flatMap fun f => framesOf f 0x10000
  let mapped : List Nat := (allLeaves s).flatMap fun (e : Nat × Tr) =>
    if pteTier e.2.pte = 0 then framesOf (ptePfn e.2.pte * 4096) e.2.physSize else []
  ((owned ++ full ++ pool ++ mapped).filter fun f => homeDie (f * 4096) == d).eraseDups

/-- The free 4 KiB frames of a stack. -/
def freeFrames (s : State) (d : Nat) : Nat := Config.stackBytes / 4096 - (usedFrames s d).length

/-- The free frames at which the demotions of a stack stop: its high mark (R210, R353). -/
def Die.high (d : Die) : Nat := (field 32 32 d.flow).toNat

/-- The demotions of every stack whose free frames have reached its high mark are over (R210). -/
def restDemotions (s : State) : State :=
  (List.range 8).foldl (fun s d =>
    if (s.die d).demoting && freeFrames s d ≥ (s.die d).high then s.updDie d fun x => { x with demoting := false } else s) s

/-- A frame of `n` bytes that a page may take. -/
def frameOk (s : State) (frame n : Nat) : Bool :=
  inStack frame && inStack (frame + n - 1) && frame % n == 0 && framesFree s frame n && !claimed s false frame n

/-- The first of `fuel` frames of a die's stack, from the `i`-th on, that a page may take. -/
def seekFrame (s : State) (d n : Nat) : Nat → Nat → Option Nat
  | 0, _ => none
  | fuel + 1, i =>
    let a := d * Config.stackBytes + i * n
    if frameOk s a n then some a else seekFrame s d n fuel (i + 1)

/-- A free frame of `n` bytes of a die's stack; none where the stack is full (R210). -/
def freeFrame (s : State) (d n : Nat) : Option Nat := seekFrame s d n (Config.stackBytes / n) 0

/-- The owner tag of a stack atom's frame (R218). -/
def frameOwner (s : State) (pa : Nat) : Option Nat :=
  match SMap.get 0 s.frames (pa / 4096) with
  | 0 => none
  | k + 1 => some k

/-- The owner of a stack atom: its frame's tag, or else the first context whose tables map it (R218).
DESIGN CHOICE (assumption 58). -/
def ownerAt (s : State) (pa : Nat) : Option Nat :=
  (frameOwner s pa).or
    (((allLeaves s).find? fun e => pteTier e.2.pte ≠ 2 && meets pa 1 (ptePfn e.2.pte * 4096) e.2.physSize).map (·.1))

/-- Give the frames of a range an owner tag (0: none) (R218). -/
def ownFrames (pa n owner : Nat) (s : State) : State :=
  { s with frames := (framesOf pa n).foldl (fun m f => SMap.put 0 m f owner) s.frames }

/-- The entries of a map with keys in [lo, lo + n), moved so as to begin at `dest`, put into another map. -/
def movedInto {α : Type} [DecidableEq α] (d : α) (src dst : SMap α) (lo n dest : Nat) : SMap α :=
  let kept := dst.filter fun e => !(dest ≤ e.1 && e.1 < dest + n)
  (src.filter fun e => lo ≤ e.1 && e.1 < lo + n).foldl (fun m e => SMap.put d m (e.1 - lo + dest) e.2) kept

/-- The owner tag that a page's new frames get (R218): its context's, or none. -/
def Page.tag (p : Page) : Nat := (p.ctx.map (· + 1)).getD 0

/-- Move the atoms of a range with their states from one space into another; the source becomes VACANT
(R208: a move carries each atom's state with its data). -/
def moveRange (src dst : Space) (lo n dest : Nat) : Space × Space :=
  let dst' : Space :=
    { bytes := movedInto 0 src.bytes dst.bytes lo n dest,
      atoms := movedInto .vacant src.atoms dst.atoms (lo / 32) (n / 32) (dest / 32),
      errs := dst.errs ++ (src.errs.filter fun i => lo / 32 ≤ i && i < (lo + n) / 32).map fun i =>
        i - lo / 32 + dest / 32 }
  let src' : Space :=
    { bytes := src.bytes.filter fun e => !(lo ≤ e.1 && e.1 < lo + n),
      atoms := src.atoms.filter fun e => !(lo / 32 ≤ e.1 && e.1 < (lo + n) / 32),
      errs := src.errs.filter fun i => !(lo / 32 ≤ i && i < (lo + n) / 32) }
  (src', dst')

/-- Make every atom of a range VACANT (R159). -/
def vacateRange (m : Space) (lo n : Nat) : Space := (moveRange m {} lo n 0).1

/-- Move a range within one space. -/
def moveWithin (m : Space) (lo n dest : Nat) : Space :=
  let (src, out) := moveRange m {} lo n 0
  (moveRange out src 0 n dest).2

/-! ## Moves of the derailleur -/

/-- Spend one unit of a page's budget; the last one sets SETTLED (R211). -/
def spend (leaf : Nat) (p : Page) (s : State) : Page × State :=
  let p := { p with used := p.used + 1 }
  (p, if p.used ≥ 4 then { s with mem := s.mem.setWord leaf (pteBit (s.mem.word leaf) 60 true) } else s)

/-- Start a move of a page: INFL is set (R208, R210). -/
def startMove (leaf : Nat) (st : PageState) (target : Nat) (p : Page) (s : State) : State :=
  let s := setLeaf leaf (pteBit (s.mem.word leaf) 7 true) s
  s.setPage leaf { p with st := st, target := target }

/-- The derailleur may start a move of the page (R209, R210). -/
def movable (s : State) (t : Tr) (p : Page) : Bool :=
  p.st == .resident && ptePlace t.pte && !pteSettled t.pte && pteTier t.pte == 0 && p.used < 4 &&
    p.holds == 0 && !(p.ctx.any fun k => pinned s k t.base t.size) && !pinnedAt s t &&
    !holdsTable s (ptePfn t.pte * 4096) t.physSize

/-- The end of an epoch (R210): the counts of the dies restart, and a page that one other die dominates
migrates to a free frame of that die's stack: to `frame` where it is one. -/
def endEpoch (t : Tr) (frame : Nat) (s : State) : State :=
  let p := s.page t
  let home := homeDie (ptePfn t.pte * 4096)
  let dom := (List.range 8).find? fun d => d ≠ home && SMap.get 0 p.dies d ≥ 3072
  let q := { p with epoch := 0, dies := [] }
  match dom with
  | none => s.setPage t.leaf q
  | some d =>
    let target := if homeDie frame == d && frameOk s frame t.physSize then some frame else freeFrame s d t.physSize
    match (if movable s t p then target else none) with
    | some frame =>
      let (q, s) := spend t.leaf q s
      startMove t.leaf .migrating frame q (ownFrames frame t.physSize (p.tag) s)
    | none => s.setPage t.leaf q

/-- The end of a window (R211): SETTLED is cleared, the budget returns, the counts are zero. -/
def endWindow (leaf : Nat) (p : Page) (s : State) : State :=
  let w := s.mem.word leaf
  let s := if pteSettled w then setLeaf leaf (pteBit w 60 false) s else s
  s.setPage leaf { p with window := 0, epoch := 0, dies := [], used := 0 }

/-- Count one access of a page by a die (R210).  An epoch or a window that is full ends first, if its end
has not been taken as a step of its own; one whose leaf lies in a ganged pseudo-channel waits (R263). -/
def countPage (t : Tr) (k die : Nat) (s : State) : State :=
  let p := s.page t
  let s := if p.epoch ≥ 4096 && !s.ganged t.leaf then
      let (n, s) := s.choose
      endEpoch t (n * t.physSize) s
    else s
  let p := s.page t
  let s := if p.window ≥ 65536 && !s.ganged t.leaf then endWindow t.leaf p s else s
  let p := s.page t
  s.setPage t.leaf { p with
    ctx := some (p.ctx.getD k), va := if p.ctx.isNone then t.base else p.va, window := p.window + 1, epoch := p.epoch + 1,
    dies := SMap.put 0 p.dies die (SMap.get 0 p.dies die + 1) }

/-- A departing page that is accessed, pinned or probed is RESIDENT again (R208). -/
def undepart (t : Tr) (s : State) : State :=
  let p := s.page t
  if p.st = .departing then
    (setLeaf t.leaf (pteBit (s.mem.word t.leaf) 7 false) s).setPage t.leaf { p with st := .resident }
  else s

/-- Ask for the arrival of a deep page (R208, R210). -/
def demand (t : Tr) (k die : Nat) (s : State) : State :=
  let p := s.page t
  if p.st = .deep then
    startMove t.leaf .arriving 0 { p with ctx := some (p.ctx.getD k), va := if p.ctx.isNone then t.base else p.va, asker := die } s
  else s

/-! ## Accesses -/

/-- Why an access has no translation it may use. -/
inductive AErr where
  /-- no valid translation -/
  | none
  /-- a forbidden access -/
  | perm
  /-- a NARROW page misused (R56) -/
  | narrow
  /-- the page is in the deep tier -/
  | deep
  /-- the page is arriving -/
  | arriving
  /-- the page is migrating, or a table entry that the access needs lies in a ganged pseudo-channel, or the tenant has no turn
  at the page's home, or no link leads there: the access waits -/
  | migrating
  deriving DecidableEq, Repr, Inhabited

/-- The permissions an access needs. -/
structure Need where
  r : Bool := false
  w : Bool := false
  x : Bool := false
  /-- the write only vacates, and so does not make the page dirty (R205) -/
  vac : Bool := false
  deriving DecidableEq, Repr, Inhabited

def Need.ok (n : Need) (p : Word) : Bool := (!n.r || pteR p) && (!n.w || pteW p) && (!n.x || pteX p)

/-- The NEED bits of a page record (R214). -/
def Need.bits (n : Need) : BitVec 3 :=
  BitVec.ofBool n.x ++ BitVec.ofBool n.w ++ BitVec.ofBool n.r

/-- An access waits for a ganged pseudo-channel that holds a table entry it would read, or its leaf where it would
change the leaf (R263). -/
def tablesWait (ch c : Nat) (va : Word) (n : Need) (s : State) : Bool :=
  match (s.core ch c).a.tlb.find? fun e => e.va ≤ va && (va - e.va).toNat < e.size with
  | some e => s.ganged e.leaf &&
      (n.w || (s.page { leaf := e.leaf, pte := e.pte, base := e.va, size := e.size }).st != .resident)
  | none => walkWaits s (s.ctxOf ch) va

/-- An address holds a word of a stream segment that the loader has sealed (R333). -/
def Ctx.seals (c : Ctx) (va : Word) : Bool := c.sealed.any fun g => g.1 ≤ va && (va - g.1).toNat + 8 ≤ g.2.length

/-- The word at an address is the one that the loader has measured there (R333). -/
def Ctx.measured (c : Ctx) (va w : Word) : Bool := c.sealed.any fun g =>
  g.1 ≤ va && ((g.2.drop (va - g.1).toNat).take 8) == leBytes 8 w.toNat

/-- A record that does not fit its leaf goes. -/
def refit (t : Tr) (s : State) : State :=
  match s.pages.find? fun e => e.1 == t.leaf with
  | some e => if e.2.fits t.pte then s else { s with pages := SMap.del s.pages t.leaf }
  | none => s

/-- The stack port of an address's home die has a turn for the context's tenant: without one the port serves no request of
it (R323).
DESIGN CHOICE (assumption 75). -/
def State.served (s : State) (k pa : Nat) : Bool :=
  !inStack pa || (s.die (homeDie pa)).stackSlots.any fun e => e.2 == (s.ctx k).desc1 1 58 6 + 1

/-- Translate one address of an access and judge the page (R115, R208); a word is fetched only where the loader has
sealed it (R333). -/
def access (ch c : Nat) (va : Word) (n : Need) (s : State) : Except AErr Tr × State :=
  if tablesWait ch c va n s then (.error .migrating, s)
  else
  let (t?, s) := translate ch c va s
  match t? with
  | none => (.error .none, s)
  | some t =>
    if n.ok t.pte = false ∨ (n.x && !(s.ctx (s.ctxOf ch)).seals va) then (.error .perm, s)
    else
      let s := undepart t (refit t s)
      match (s.page t).st with
      | .migrating => (.error .migrating, s)
      | .arriving => (.error .arriving, s)
      | .deep => (.error .deep, s)
      | _ =>
        if s.served (s.ctxOf ch) (t.pa va) = false ∨ s.reaches (dieOf ch) (t.pa va) = false then (.error .migrating, s)
        else (.ok t, if n.w && !n.vac then markLeaf t.leaf true s else s)

/-- The pages that `n` bytes from an address overlap, each with the address at which it is met, in rising
order; the first page that fails stops the list.  Structural on fuel: one page needs one unit. -/
def rangePages (ch c : Nat) (n : Need) : Nat → Word → Nat → State → (List Tr × Option (AErr × Word)) × State
  | 0, _, _, s => (([], none), s)
  | fuel + 1, va, len, s =>
    if len = 0 then (([], none), s)
    else
      match access ch c va n s with
      | (.error e, s) => (([], some (e, va)), s)
      | (.ok t, s) =>
        let step := t.size - (va - t.base).toNat
        if len ≤ step then (([t], none), s)
        else
          let ((ts, e), s) := rangePages ch c n fuel (va + BitVec.ofNat 64 step) (len - step) s
          ((t :: ts, e), s)

/-- Every page of a range (at most one page for every 4 KiB, and one more). -/
def rangeAccess (ch c : Nat) (n : Need) (va : Word) (len : Nat) (s : State) :
    (List Tr × Option (AErr × Word)) × State :=
  rangePages ch c n (len / 4096 + 2) va len s

/-! ## Arena pages (R265, R266) -/

/-- The address lies in a registered arena of the context. -/
def inArena (s : State) (k : Nat) (va : Word) : Bool :=
  (s.ctx k).arenas.any fun a => a.base ≤ va && (va - a.base).toNat < a.len

/-- Take a frame for a die: its own pool, or after borrowing a batch of 64 from a bridged die, lowest first,
or any die, lowest first (R266). -/
def takeFrame (d : Nat) (s : State) : Option (Nat × State) :=
  match (s.die d).pool with
  | f :: fs => some (f, s.updDie d fun y => { y with pool := fs })
  | [] =>
    let order := bridged d ++ (List.range 8).filter (fun e => e ≠ d && !(bridged d).contains e)
    match order.find? fun e => (s.die e).pool.length ≥ 64 with
    | none => none
    | some e =>
      let batch := (s.die e).pool.take 64
      let s := s.updDie e fun y => { y with pool := y.pool.drop 64 }
      match batch with
      | [] => none
      | f :: fs => some (f, s.updDie d fun y => { y with pool := fs })

/-- The address of the first level-0 entry of a 64 KiB page, where its level-0 table exists (R204). -/
def leafSlot (s : State) (k : Nat) (va : Word) : Option Nat :=
  let go := fun (t : Option Nat) (l : Nat) =>
    match t with
    | none => none
    | some a =>
      let p := s.mem.word (a + 8 * ((va >>> (12 + 9 * l)).toNat % 512))
      if tableOk p then some (ptePfn p * 4096) else none
  match [4, 3, 2, 1].foldl go (some ((s.ctx k).desc1 0 12 40 * 4096)) with
  | none => none
  | some tbl => some (tbl + 8 * ((field 12 9 va).toNat / 16 * 16))

/-- Back an unbacked arena page at a probe point (R266); `none` where no pool can lend, or the level-0 table
is missing. -/
def backArena (ch : Nat) (va : Word) (s : State) : Option State :=
  let k := s.ctxOf ch
  if inArena s k va = false then none
  else
    match leafSlot s k va, takeFrame (dieOf ch) s with
    | some a, some (f, s) =>
      let p : Word := BitVec.ofNat 64 (f / 4096 * 4096 + 0x100 + 0x08 + 0x04 + 0x02 + 0x01)
      let s := { s with mem := (vacateRange s.mem f 0x10000).setWord a p }
      let s := { s with pages := SMap.del s.pages a }
      some (dropTlb a (ownFrames f 0x10000 (k + 1) s))
    | _, _ => none

/-- The backing of an unbacked arena page waits: the frame that it would take lies in a ganged pseudo-channel (R263). -/
def backWaits (ch : Nat) (va : Word) (s : State) : Bool :=
  inArena s (s.ctxOf ch) va && (takeFrame (dieOf ch) s).any fun f => s.gangedIn f.1 0x10000

/-- The page fault reason of an access error (R214). -/
def AErr.reason : AErr → Nat
  | .none => 1 | .perm => 2 | .narrow => 2 | .deep => 3 | .arriving => 4 | .migrating => 0

/-- A probe of a range (R213): every page translated and permitted, unbacked arena pages backed, and a deep
page's arrival started with its fault.  Structural on fuel. -/
def probePages (ch c : Nat) (n : Need) : Nat → Word → Nat → State → (List Tr × Option (AErr × Word)) × State
  | 0, _, _, s => (([], none), s)
  | fuel + 1, va, len, s =>
    if len = 0 then (([], none), s)
    else if tablesWait ch c va n s then (([], some (.migrating, va)), s)
    else if (walk s (s.ctxOf ch) va).isNone && backWaits ch va s then (([], some (.migrating, va)), s)
    else
      let s := match walk s (s.ctxOf ch) va with
        | none => (backArena ch va s).getD s
        | some _ => s
      match access ch c va n s with
      | (.error .deep, s) =>
        match translate ch c va s with
        | (some t, s) => (([], some (.deep, va)), demand t (s.ctxOf ch) (dieOf ch) s)
        | (none, s) => (([], some (.deep, va)), s)
      | (.error e, s) => (([], some (e, va)), s)
      | (.ok t, s) =>
        let step := t.size - (va - t.base).toNat
        if len ≤ step then (([t], none), s)
        else
          let ((ts, e), s) := probePages ch c n fuel (va + BitVec.ofNat 64 step) (len - step) s
          ((t :: ts, e), s)

def probeRange (ch c : Nat) (n : Need) (va : Word) (len : Nat) (s : State) :
    (List Tr × Option (AErr × Word)) × State :=
  probePages ch c n (len / 4096 + 2) va len s

/-- Hold pages against moves, or let them go (R124, R166, R209). -/
def holdPages (ts : List Tr) (on : Bool) (s : State) : State :=
  ts.foldl (fun s t =>
    let p := s.page t
    s.setPage t.leaf { p with holds := if on then p.holds + 1 else p.holds - 1 }) s

/-- Count one access of each page (R210). -/
def countPages (ts : List Tr) (ch : Nat) (s : State) : State :=
  ts.foldl (fun s t => countPage t (s.ctxOf ch) (dieOf ch) s) s

/-- The level C page fault of the running word (R213, R214). -/
def pageFault (point : Nat) (n : Need) (e : AErr) (va : Word) (base : Word) (rem : Nat) (s : State)
    (pid : Option Nat := none) (sig : Option Sig := none) (eng : Option Nat := none) : State :=
  recordC s.act.chair s.act.core
    { (sig.getD s.sig).record 0x19 (eng.getD s.act.eng) with
      pid := pid,
      page := some { point := point, need := n.bits, reason := e.reason,
                     va := ((walk s (s.ctxOf s.act.chair) va).map (·.base)).getD (va &&& ~~~0xFFF#64),
                     base := base, rem := rem, lis := (sig.getD s.sig).lis } } s

end Sys2Proof.Machine
end

