-- ==== Sys2Proof/Machine/Operands.lean ====
section
/-!
DEFINITION. The operand forms at run time: immediates, masks, generators' addresses, data-queue elements,
and the registers a word reads and writes for the interlocks of R69 and R113.
-/

namespace Sys2Proof.Machine

open Sys2Proof

/-- A 20-bit immediate, sign-extended (R75). -/
def sext20 (i : BitVec 20) : Word := i.signExtend 64

/-- The cores an emission's mask selects: m = 0 is every attached core, else bits 15:0 of g_m (R21, R80). -/
def Gaffer.mask (g : Gaffer) (m : BitVec 6) : BitVec 16 :=
  if m = 0 then BitVec.allOnes 16 else field 0 16 (g.reg m)

/-- The numbers of the cores in a mask, lowest first. -/
def maskCores (m : BitVec 16) : List Nat := (List.range 16).filter fun c => m.getLsbD c

/-- A 22-bit displacement, sign-extended (R121). -/
def sext22 (i : BitVec 22) : Word := i.signExtend 64

/-- The address a generator gives at a position (R117). -/
def AGen.addr (g : AGen) (i : Nat) : Word := g.base + BitVec.ofNat 64 i * g.stride

/-- A position is at or past the generator's limit (R117). -/
def AGen.past (g : AGen) (i : Nat) : Bool := g.lim.toNat ≠ 0 && i ≥ g.lim.toNat

/-- 32-bit lane n of a 1,024-bit register or entry (R136). -/
def lane32 (v : Vec) (n : Nat) : BitVec 32 := v.extractLsb' (32 * n) 32

/-- The bytes of a 1,024-bit entry, lowest address first (R119). -/
def vecBytes (v : Vec) : List Byte := leBytes 128 v.toNat

/-- A 1,024-bit entry from bytes; missing bytes are zero (R95). -/
def bytesVec (bs : List Byte) : Vec := BitVec.ofNat 1024 (leNat bs)

/-- Gaffer registers `lo` to `hi`. -/
def gafBank (lo hi : Nat) : List (BitVec 6) := (List.range (hi + 1 - lo)).map fun i => BitVec.ofNat 6 (lo + i)

/-- The gaffer registers a word reads, and the ones it writes (R69). -/
def gafUses : Instr → List (BitVec 6) × List (BitVec 6)
  | .add d a b | .sub d a b | .mul d a b | .mulh d a b | .mulhu d a b | .div d a b | .divu d a b
  | .rem d a b | .and d a b | .or d a b | .xor d a b | .shl d a b | .shr d a b | .sar d a b
  | .min d a b | .max d a b | .minu d a b | .maxu d a b | .seq d a b | .slt d a b | .sltu d a b => ([a, b], [d])
  | .bfx d a _ _ | .clz d a | .popc d a => ([a], [d])
  | .bfi d a _ _ => ([a, d], [d])
  | .addi d a _ | .andi d a _ | .ori d a _ | .xori d a _ | .slti d a _ | .ldl d a _ | .ldlw d a _ => ([a], [d])
  | .shli d a _ | .shri d a _ | .sari d a _ => ([a], [d])
  | .lui d _ => ([], [d])
  | .stl d a _ | .stlw d a _ => ([a, d], [])
  | .beq a b _ | .bne a b _ | .blt a b _ | .bge a b _ | .bltu a b _ | .bgeu a b _ => ([a, b], [])
  | .jal l _ => ([], [l])
  | .jalr d a _ => ([a], [d])
  | .loop _ a _ | .loopp _ a _ | .lbrk _ a => ([a], [])
  | .emit m _ => ([m], [])
  | .emitp m a | .emitt m a _ _ | .fmt m a | .expect m a _ => ([m, a], [])
  | .joinw a | .chairw a _ => ([a], [])
  | .detq d _ | .step d | .semrd d _ | .csrr d _ => ([], [d])
  | .gpop d a _ | .gpopn d a => ([a], [d])
  | .grab d => ([], [d, d + 1])
  | .csrw a _ | .fselWrite a => ([a], [])
  | .savectx a _ => (a :: gafBank 1 55, [])
  | .restctx a _ => ([a], gafBank 1 55)
  | .resume => ([], gafBank 56 63)
  | _ => ([], [])

/-- The gaffer's word may issue: every register it reads or writes has landed (R69). -/
def Gaffer.landed (g : Gaffer) (cycle : Nat) (i : Instr) : Bool :=
  let u := gafUses i
  (u.1 ++ u.2).all fun r => r == 0 || SMap.get 0 g.ready r.toNat ≤ cycle

/-- The A-side registers a BQPUSH or BQSKIP condition reads (R99). -/
def condRegs : Cond → List (BitVec 5)
  | .nz a | .z a => [a]
  | _ => []

/-- The A-side registers an A-side word reads, and the ones it writes (R113). -/
def accUses : Instr → List (BitVec 5) × List (BitVec 5)
  | .lds d a _ => ([a], [d])
  | .sts d a _ => ([a, d], [])
  | .ldsq _ a _ => ([a], [])
  | .aadd d a b | .asub d a b | .amul d a b _ | .ashl d a b | .ashr d a b _ | .aand d a b | .aor d a b
  | .amin d a b _ | .amax d a b _ | .aslt d a b _ => ([a, b], [d])
  | .aaddi d a _ => ([a], [d])
  | .agset _ a b c => ([a, b, c], [])
  | .agsetB _ a | .agnext _ a | .agnextW _ a | .agpos _ a => ([a], [])
  | .agrd a _ _ => ([], [a])
  | .bqpush c | .bqskip c _ => (condRegs c, [])
  | .probe d a => ([a], [d])
  | .pevict a => ([a], [])
  | .rprobe d a b | .rprobeWait d a b => ([a, b], [d])
  | .runpin a b => ([a, b], [])
  | .atadd d a b _ | .atfadd d a b _ | .atmin d a b _ | .atmax d a b _ | .atxch d a b _ | .ator d a b _
  | .atand d a b _ => ([a, b], [d])
  | .atcas d a b c _ => ([a, b, c], [d])
  | .hgive _ a => ([a], [])
  | .hquery d _ => ([], [d])
  | .watch _ a b _ => ([a, b], [])
  | _ => ([], [])

/-- An A-side register has a result on its way. -/
def ASide.busy (y : ASide) (r : BitVec 5) : Bool :=
  r ≠ 0 && (y.pend.any (fun p => p.dst == .reg r) || y.late.any fun l => l.d == r)

/-- The A-side's word may issue: every earlier write to a register it reads or writes has landed (R113). -/
def ASide.landed (y : ASide) (i : Instr) : Bool :=
  let u := accUses i
  (u.1 ++ u.2).all fun r => !y.busy r

/-! ## Work in progress (R67, R87, R97, R109) -/

/-- A probe tag entry that a fill or an eviction is at work on (R125). -/
def Tag.busy (t : Tag) : Bool := t.st == .filling || t.st == .evicting

/-- A PROBE of the entry is in progress: its fill, or the eviction before it (R98). -/
def Tag.probing (t : Tag) : Bool := t.st == .filling || t.next.isSome

/-- Every A-side word that has issued is done, with its results landed. -/
def ASide.still (a : ASide) : Bool := a.pend.isEmpty && a.late.isEmpty && a.tags.all fun e => !e.2.busy

/-- Nothing of the core is in progress outside its queues: no access, transfer, furnace command, armed arrival
word, FAB word or exposed result.  A near-memory command is complete at its acceptance (R109). -/
def Core.engineStill (y : Core) : Bool :=
  y.a.still && y.x.fly.isEmpty && y.m.pend.isEmpty && (y.t.xq.all fun e => e.2.cmds.isEmpty) &&
    y.t.armed.isEmpty && (y.n.pend.all fun p => p.accepted) && y.f.pend.isEmpty && y.f.barw.isNone &&
    y.later.isEmpty

/-- Every engine queue of the core is empty and every word has completed. -/
def Core.still (y : Core) : Bool := (y.queues.all fun q => q.2.isEmpty) && y.engineStill && y.buf.isNone

end Sys2Proof.Machine
end

