-- ==== Sys2Proof/Machine/Gaffer.lean ====
section
/-!
DEFINITION. The gaffer's arithmetic, memory, branch and loop words (R72 to R78), and its literal.
-/

namespace Sys2Proof.Machine

open Sys2Proof

/-- A G3 word: g_d from g_a and g_b, landing after `lat` cycles (R69, R74). -/
def gaf3 (f : Word → Word → Word) (lat : Nat) (d a b : BitVec 6) (s : State) : State :=
  gafResult d (f (s.gf.reg a) (s.gf.reg b)) lat s

/-- A word of one source (R74, R75). -/
def gaf2 (f : Word → Word) (d a : BitVec 6) (s : State) : State :=
  gafResult d (f (s.gf.reg a)) 1 s

/-- One or zero. -/
def bit1 (c : Bool) : Word := if c then 1 else 0

/-- The signed quotient rounded toward zero, with the corners of R74. -/
def divS (a b : Word) : Word := if b = 0 then BitVec.allOnes 64 else a.sdiv b

/-- The unsigned quotient (R74). -/
def divU (a b : Word) : Word := if b = 0 then BitVec.allOnes 64 else a.udiv b

/-- The signed remainder with the sign of the dividend (R74). -/
def remS (a b : Word) : Word := if b = 0 then a else a.srem b

/-- The high half of the signed product (R74). -/
def mulHS (a b : Word) : Word := BitVec.ofInt 64 (a.toInt * b.toInt / 2 ^ 64)

/-- The high half of the unsigned product (R74). -/
def mulHU (a b : Word) : Word := BitVec.ofNat 64 (a.toNat * b.toNat / 2 ^ 64)

def minS (a b : Word) : Word := if a.slt b then a else b
def maxS (a b : Word) : Word := if a.slt b then b else a
def minU (a b : Word) : Word := if a.ult b then a else b
def maxU (a b : Word) : Word := if a.ult b then b else a

/-- A mask of `w` ones. -/
def onesW (w : Nat) : Word := BitVec.ofNat 64 (2 ^ w - 1)

/-- g_a[pos + w − 1 : pos], zero-extended (R74). -/
def bfxV (a : Word) (pos w : Nat) : Word := (a >>> pos) &&& onesW w

/-- g_d with bits pos + w − 1 : pos replaced by g_a[w − 1 : 0] (R74). -/
def bfiV (d a : Word) (pos w : Nat) : Word :=
  (d &&& ~~~(onesW w <<< pos)) ||| ((a &&& onesW w) <<< pos)

/-- Leading zeros, 64 for zero (R74). -/
def clzV (a : Word) : Word :=
  BitVec.ofNat 64 (64 - (if a = 0 then 0 else Nat.log2 a.toNat + 1))

/-- Ones (R74). -/
def popcV (a : Word) : Word :=
  BitVec.ofNat 64 (((List.range 64).filter fun i => a.getLsbD i).length)

def execNop (s : State) : Res := .next (gafDone s)
def execAdd (d a b : BitVec 6) (s : State) : Res := .next (gaf3 (· + ·) 1 d a b s)
def execSub (d a b : BitVec 6) (s : State) : Res := .next (gaf3 (· - ·) 1 d a b s)
def execMul (d a b : BitVec 6) (s : State) : Res := .next (gaf3 (· * ·) 3 d a b s)
def execMulh (d a b : BitVec 6) (s : State) : Res := .next (gaf3 mulHS 3 d a b s)
def execMulhu (d a b : BitVec 6) (s : State) : Res := .next (gaf3 mulHU 3 d a b s)
def execDiv (d a b : BitVec 6) (s : State) : Res := .next (gaf3 divS 24 d a b s)
def execDivu (d a b : BitVec 6) (s : State) : Res := .next (gaf3 divU 24 d a b s)
def execRem (d a b : BitVec 6) (s : State) : Res := .next (gaf3 remS 24 d a b s)
def execAnd (d a b : BitVec 6) (s : State) : Res := .next (gaf3 (· &&& ·) 1 d a b s)
def execOr (d a b : BitVec 6) (s : State) : Res := .next (gaf3 (· ||| ·) 1 d a b s)
def execXor (d a b : BitVec 6) (s : State) : Res := .next (gaf3 (· ^^^ ·) 1 d a b s)
def execShl (d a b : BitVec 6) (s : State) : Res :=
  .next (gaf3 (fun x y => x <<< (y.toNat % 64)) 1 d a b s)
def execShr (d a b : BitVec 6) (s : State) : Res :=
  .next (gaf3 (fun x y => x >>> (y.toNat % 64)) 1 d a b s)
def execSar (d a b : BitVec 6) (s : State) : Res :=
  .next (gaf3 (fun x y => x.sshiftRight (y.toNat % 64)) 1 d a b s)
def execMin (d a b : BitVec 6) (s : State) : Res := .next (gaf3 minS 1 d a b s)
def execMax (d a b : BitVec 6) (s : State) : Res := .next (gaf3 maxS 1 d a b s)
def execMinu (d a b : BitVec 6) (s : State) : Res := .next (gaf3 minU 1 d a b s)
def execMaxu (d a b : BitVec 6) (s : State) : Res := .next (gaf3 maxU 1 d a b s)
def execSeq (d a b : BitVec 6) (s : State) : Res := .next (gaf3 (fun x y => bit1 (x == y)) 1 d a b s)
def execSlt (d a b : BitVec 6) (s : State) : Res := .next (gaf3 (fun x y => bit1 (x.slt y)) 1 d a b s)
def execSltu (d a b : BitVec 6) (s : State) : Res := .next (gaf3 (fun x y => bit1 (x.ult y)) 1 d a b s)
def execBfx (d a pos wm1 : BitVec 6) (s : State) : Res :=
  .next (gaf2 (fun x => bfxV x pos.toNat (wm1.toNat + 1)) d a s)
def execBfi (d a pos wm1 : BitVec 6) (s : State) : Res :=
  .next (gafResult d (bfiV (s.gf.reg d) (s.gf.reg a) pos.toNat (wm1.toNat + 1)) 1 s)
def execClz (d a : BitVec 6) (s : State) : Res := .next (gaf2 clzV d a s)
def execPopc (d a : BitVec 6) (s : State) : Res := .next (gaf2 popcV d a s)
def execAddi (d a : BitVec 6) (imm : BitVec 20) (s : State) : Res :=
  .next (gaf2 (· + sext20 imm) d a s)
def execAndi (d a : BitVec 6) (imm : BitVec 20) (s : State) : Res :=
  .next (gaf2 (· &&& imm.setWidth 64) d a s)
def execOri (d a : BitVec 6) (imm : BitVec 20) (s : State) : Res :=
  .next (gaf2 (· ||| imm.setWidth 64) d a s)
def execXori (d a : BitVec 6) (imm : BitVec 20) (s : State) : Res :=
  .next (gaf2 (· ^^^ imm.setWidth 64) d a s)
def execShli (d a sh : BitVec 6) (s : State) : Res := .next (gaf2 (· <<< sh.toNat) d a s)
def execShri (d a sh : BitVec 6) (s : State) : Res := .next (gaf2 (· >>> sh.toNat) d a s)
def execSari (d a sh : BitVec 6) (s : State) : Res := .next (gaf2 (·.sshiftRight sh.toNat) d a s)
def execSlti (d a : BitVec 6) (imm : BitVec 20) (s : State) : Res :=
  .next (gaf2 (fun x => bit1 (x.slt (sext20 imm))) d a s)
def execLui (d : BitVec 6) (imm : BitVec 20) (s : State) : Res :=
  .next (gafResult d (sext20 imm <<< 12) 1 s)

/-! ## Data SRAM (R76) -/

/-- The byte address of a data SRAM access, where it lies in 0x0000 to 0xFFFF and is aligned.  The register is read as an
unsigned number, and the sum does not wrap.
DEDUCED (assumption 76). -/
def dsramAddr (base : Word) (imm : BitVec 20) (n : Nat) : Option Nat :=
  let a : Int := base.toNat + imm.toInt
  if 0 ≤ a ∧ a + n ≤ 0x10000 ∧ a % n = 0 then some a.toNat else none

/-- `n` bytes of data SRAM, little-endian. -/
def Gaffer.sram (g : Gaffer) (a n : Nat) : Nat :=
  leNat ((List.range n).map fun i => SMap.get 0 g.dsram (a + i))

/-- Store `n` bytes of a value into data SRAM. -/
def Gaffer.setSram (g : Gaffer) (a n v : Nat) : Gaffer :=
  { g with dsram := (List.range n).foldl (fun m i => SMap.put 0 m (a + i) ((leBytes n v).getD i 0)) g.dsram }

/-- A load from data SRAM; a bad address is a local-access fault (R76). -/
def gafLoad (n : Nat) (ext : Nat → Word) (d a : BitVec 6) (imm : BitVec 20) (s : State) : State :=
  match dsramAddr (s.gf.reg a) imm n with
  | some p => gafResult d (ext (s.gf.sram p n)) 1 s
  | none => raiseG 0x06 s

/-- A store to data SRAM of the low `n` bytes of g_d (R76). -/
def gafStore (n : Nat) (d a : BitVec 6) (imm : BitVec 20) (s : State) : State :=
  match dsramAddr (s.gf.reg a) imm n with
  | some p => gafDone (s.setGf (s.gf.setSram p n (s.gf.reg d).toNat))
  | none => raiseG 0x06 s

def execLdl (d a : BitVec 6) (imm : BitVec 20) (s : State) : Res :=
  .next (gafLoad 8 (BitVec.ofNat 64) d a imm s)
def execStl (d a : BitVec 6) (imm : BitVec 20) (s : State) : Res := .next (gafStore 8 d a imm s)
def execLdlw (d a : BitVec 6) (imm : BitVec 20) (s : State) : Res :=
  .next (gafLoad 4 (fun v => (BitVec.ofNat 32 v).signExtend 64) d a imm s)
def execStlw (d a : BitVec 6) (imm : BitVec 20) (s : State) : Res := .next (gafStore 4 d a imm s)

/-! ## Branches and jumps (R72) -/

/-- A conditional branch to PC + off20. -/
def gafCond (f : Word → Word → Bool) (a b : BitVec 6) (off : BitVec 20) (s : State) : State :=
  gafBranch (f (s.gf.reg a) (s.gf.reg b)) (s.gf.pc.toNat + off.toInt) none s

def execBeq (a b : BitVec 6) (off : BitVec 20) (s : State) : Res := .next (gafCond (· == ·) a b off s)
def execBne (a b : BitVec 6) (off : BitVec 20) (s : State) : Res := .next (gafCond (· != ·) a b off s)
def execBlt (a b : BitVec 6) (off : BitVec 20) (s : State) : Res :=
  .next (gafCond (fun x y => x.slt y) a b off s)
def execBge (a b : BitVec 6) (off : BitVec 20) (s : State) : Res :=
  .next (gafCond (fun x y => !x.slt y) a b off s)
def execBltu (a b : BitVec 6) (off : BitVec 20) (s : State) : Res :=
  .next (gafCond (fun x y => x.ult y) a b off s)
def execBgeu (a b : BitVec 6) (off : BitVec 20) (s : State) : Res :=
  .next (gafCond (fun x y => !x.ult y) a b off s)
def execJal (l : BitVec 6) (off : BitVec 20) (s : State) : Res :=
  .next (gafBranch true (s.gf.pc.toNat + off.toInt) (some l) s)
def execJalr (d a : BitVec 6) (imm : BitVec 20) (s : State) : Res :=
  .next (gafBranch true (s.gf.reg a + sext20 imm).toNat (some d) s)

/-! ## Hardware loops (R77 to R79) -/

/-- The body PC + 1 to `last` lies wholly inside every active body (R77). -/
def Gaffer.nests (g : Gaffer) (last : Nat) : Bool :=
  (List.range g.depth).all fun lv =>
    (g.level lv).start.toNat ≤ g.pc.toNat + 1 && last ≤ (g.level lv).last.toNat

/-- A LOOP word that has executed: its level is active at pass i0, or with N = 0 control is at the word after the end. -/
def Chair.enterLoop (x : Chair) (pre : Bool) (lv last n i0 : Nat) : Option Chair :=
  let g := { x.gf.spent x.cycle with resume := none }
  if n = 0 then (pcSucc (BitVec.ofNat 13 last)).map fun pc => { x with gf := { g with pc := pc } }
  else
    let l : Level := { n := n, k := i0, i0 := i0, start := x.gf.pc + 1, last := BitVec.ofNat 13 last,
                       s1 := 0, pre := pre, n0 := n }
    some { x with gf := { g.setLevel lv l with depth := lv + 1, pc := x.gf.pc + 1 } }

/-- LOOP and LOOPP.  On resume from a soft save N and i0 come from the frame, and g_a is not read (R78,
R79); a chair wait of the word that has passed before the save is not waited on again.  A LOOPP is itself a soft point
before pass i0, and restarts the yield budget.  With N = 0 control goes to the word after the end, also where an outer
body ends there too.
DEDUCED (assumptions 24 and 70). -/
def gafLoop (pre : Bool) (lv : BitVec 2) (a : BitVec 6) (off : BitVec 20) (s : State) : State :=
  let x := if pre then s.here.restartBudget else s.here
  let g := x.gf
  let last := g.pc.toNat + off.toNat
  let resumed := g.resume
  if lv.toNat ≠ g.depth ∨ last > 8191 ∨ g.nests last = false then raiseG 0x01 s
  else if resumed = none ∧ (g.reg a).toNat > 0xFFFFFFFF then raiseG 0x01 s
  else
    let (n, i0) := resumed.getD ((g.reg a).toNat, 0)
    match x.enterLoop pre lv.toNat last n i0 with
    | none => raiseG 0x0A s
    | some z =>
      if pre && x.softPoint then
        s.setHere (({ x with gf := { g.spent x.cycle with
          waited := g.waited, resume := none, save := some (some (n, Nat.min i0 n)) } } : Chair).takenAt z)
      else s.setHere z

def execLoop (lv : BitVec 2) (a : BitVec 6) (off : BitVec 20) (s : State) : Res :=
  .next (gafLoop false lv a off s)
def execLoopp (lv : BitVec 2) (a : BitVec 6) (off : BitVec 20) (s : State) : Res :=
  .next (gafLoop true lv a off s)

/-- LBRK has one delay slot, and then leaves its level where g_a is nonzero (R78). -/
def gafLbrk (lv : BitVec 2) (a : BitVec 6) (s : State) : State :=
  let g := s.gf
  if lv.toNat ≥ g.depth then raiseG 0x01 s
  else
    s.setGf { g.spent s.here.cycle with
      ds := true, taken := false, dt := 0,
      leave := if g.reg a ≠ 0 then some lv.toNat else none, pc := g.pc + 1 }

def execLbrk (lv : BitVec 2) (a : BitVec 6) (s : State) : Res := .next (gafLbrk lv a s)

/-- A gaffer LIT waits for its word (R19). -/
def gafLit (v : BitVec 32) (s : State) : State :=
  let g := s.gf
  let lits := g.lits ++ [v]
  if lits.length > 2 then raiseG 0x01 s
  else
    let x := s.here
    let x := { x with gf := { x.gf.spent x.cycle with lits := lits } }
    s.setHere (x.advance.getD x)

/-- LIT (R19).  A gaffer LIT waits for its word; an engine's LIT stays in its queue with the word it serves,
so running one alone has no effect. -/
def execLit (eng : BitVec 4) (v : BitVec 32) (s : State) : Res :=
  .next (if eng = 0 then gafLit v s else s)

end Sys2Proof.Machine
end

