-- ==== Sys2Proof/Machine/Flags.lean ====
section
/-!
DEFINITION. The flag bits of FLAGS (R43), and raising them.
-/

namespace Sys2Proof.Machine

open Sys2Proof

/-- A set of flags, numbered as R43 numbers FLAGS. -/
abbrev Fl := BitVec 9

def flNV : Fl := 0x001
def flDZ : Fl := 0x002
def flOF : Fl := 0x004
def flUF : Fl := 0x008
def flNX : Fl := 0x010
def flFZ : Fl := 0x020
def flSAT : Fl := 0x040
def flNR : Fl := 0x080
def flCN : Fl := 0x100

/-- A flag where a condition holds. -/
def flIf (c : Bool) (f : Fl) : Fl := if c then f else 0

/-- Flags are sticky: raising them sets bits and clears none (R43). -/
def Core.raise (y : Core) (f : Fl) : Core := { y with x := { y.x with flags := y.x.flags ||| f } }

end Sys2Proof.Machine
end

