-- ==== Sys2Proof/Machine/Numbers.lean ====
section
/-!
DEFINITION. Number formats and arithmetic (R36 to R56): exact values, one rounding, the conversions, the
LNS6 code, ordered dither, and the correctly rounded functions of R144.

A finite value is held exactly, as a sign, a magnitude `m` and an exponent `e`: `m × 2^e`.
-/

namespace Sys2Proof.Machine

open Sys2Proof

/-- A floating-point format: exponent and fraction bits (R38). -/
structure FFmt where
  eb : Nat
  fb : Nat
  deriving DecidableEq, Repr, Inhabited

def fp32 : FFmt := ⟨8, 23⟩
def bf16 : FFmt := ⟨8, 7⟩
def fp16 : FFmt := ⟨5, 10⟩

namespace FFmt
def bias (f : FFmt) : Nat := 2 ^ (f.eb - 1) - 1
def width (f : FFmt) : Nat := 1 + f.eb + f.fb
/-- The default NaN (R39). -/
def nan (f : FFmt) : Nat := (2 ^ f.eb - 1) * 2 ^ f.fb + 2 ^ (f.fb - 1)
def inf (f : FFmt) (neg : Bool) : Nat := (if neg then 2 ^ (f.eb + f.fb) else 0) + (2 ^ f.eb - 1) * 2 ^ f.fb
def maxFin (f : FFmt) (neg : Bool) : Nat := f.inf neg - 1
def zero (f : FFmt) (neg : Bool) : Nat := if neg then 2 ^ (f.eb + f.fb) else 0
end FFmt

/-- A value of a floating-point format, or an exact finite value. -/
inductive FVal where
  | nan (signalling : Bool)
  | inf (neg : Bool)
  | fin (neg : Bool) (m : Nat) (e : Int)
  deriving DecidableEq, Repr, Inhabited

/-- The bits of a number below and at its leading one. -/
def bitLen (n : Nat) : Nat := if n = 0 then 0 else Nat.log2 n + 1

/-- Read a bit pattern (R38); subnormals are honoured (R40). -/
def unpack (f : FFmt) (x : Nat) : FVal :=
  let frac := x % 2 ^ f.fb
  let ex := x / 2 ^ f.fb % 2 ^ f.eb
  let neg := x / 2 ^ (f.eb + f.fb) % 2 == 1
  if ex = 2 ^ f.eb - 1 then
    if frac = 0 then .inf neg else .nan (frac < 2 ^ (f.fb - 1))
  else if ex = 0 then .fin neg frac (1 - (f.bias : Int) - f.fb)
  else .fin neg (2 ^ f.fb + frac) ((ex : Int) - f.bias - f.fb)

/-- A bit pattern is a subnormal of its format. -/
def isSubnormal (f : FFmt) (x : Nat) : Bool := x / 2 ^ f.fb % 2 ^ f.eb = 0 && x % 2 ^ f.fb ≠ 0

/-- The rounding modes (R41). -/
inductive RMode where
  | rne | rtz | rdn | rup
  /-- ordered dither with its value D (R53, R54) -/
  | dith (d : Nat)
  deriving DecidableEq, Repr, Inhabited

/-- The mode a code 0 to 3 names (R41). -/
def RMode.ofCode (c : Nat) : RMode :=
  match c with
  | 1 => .rtz | 2 => .rdn | 3 => .rup | _ => .rne

/-- Whether the magnitude `kept + rem / 2^sh` (plus something smaller than one unit of `rem` when `sticky`)
rounds up (R41, R54). -/
def roundsUp (mode : RMode) (neg : Bool) (kept rem sh : Nat) (sticky : Bool) : Bool :=
  let inexact := rem ≠ 0 || sticky
  match mode with
  | .rne =>
    if sh = 0 then false
    else rem > 2 ^ (sh - 1) || (rem == 2 ^ (sh - 1) && (sticky || kept % 2 == 1))
  | .rtz => false
  | .rdn => neg && inexact
  | .rup => !neg && inexact
  | .dith d =>
    if sh ≥ 10 then rem + d * 2 ^ (sh - 10) ≥ 2 ^ sh else rem + d / 2 ^ (10 - sh) ≥ 2 ^ sh

/-- Split `m × 2^e` at the exponent `q`: the part kept, the part discarded, and how many bits that is. -/
def splitAt' (m : Nat) (e q : Int) : Nat × Nat × Nat :=
  if q ≤ e then (m * 2 ^ (e - q).toNat, 0, 0)
  else
    let sh := (q - e).toNat
    (m / 2 ^ sh, m % 2 ^ sh, sh)

/-- An overflowed result (R42). -/
def overflowed (f : FFmt) (mode : RMode) (neg : Bool) : Nat :=
  match mode with
  | .rtz => f.maxFin neg
  | .rdn => if neg then f.inf true else f.maxFin false
  | .rup => if neg then f.maxFin true else f.inf false
  | _ => f.inf neg

/-- Round an exact magnitude to a format once, with its flags (R40 to R42).  `sticky`: the magnitude is
greater than `m × 2^e` by less than one unit of it.
DEDUCED (assumption 13). -/
def roundTo (f : FFmt) (mode : RMode) (neg : Bool) (m : Nat) (e : Int) (sticky : Bool := false) : Nat × Fl :=
  if m = 0 ∧ sticky = false then (f.zero neg, 0)
  else
    let top : Int := e + bitLen m - 1
    let emin : Int := 1 - (f.bias : Int)
    let q : Int := (if top < emin then emin else top) - f.fb
    let (kept, rem, sh) := splitAt' m e q
    let inexact := rem ≠ 0 || sticky
    let kept := if roundsUp mode neg kept rem sh sticky then kept + 1 else kept
    let (kept, q) := if kept = 2 ^ (f.fb + 1) then (2 ^ f.fb, q + 1) else (kept, q)
    if kept < 2 ^ f.fb then
      (f.zero neg + kept, if inexact then flUF ||| flNX else 0)
    else
      let ex : Int := q + f.fb + f.bias
      if ex ≥ 2 ^ f.eb - 1 then (overflowed f mode neg, flOF ||| flNX)
      else (f.zero neg + ex.toNat * 2 ^ f.fb + (kept - 2 ^ f.fb), flIf inexact flNX)

/-- An exact finite value as a signed multiple of `2^e`. -/
def signed (neg : Bool) (m : Nat) : Int := if neg then -(m : Int) else m

/-- The exact sum of two finite values. -/
def addFin (n1 : Bool) (m1 : Nat) (e1 : Int) (n2 : Bool) (m2 : Nat) (e2 : Int) : Int × Int :=
  let e := if e1 ≤ e2 then e1 else e2
  (signed n1 m1 * 2 ^ (e1 - e).toNat + signed n2 m2 * 2 ^ (e2 - e).toNat, e)

/-- The sign of an exact zero sum: that of two like zeros, else +0, or −0 under RDN. -/
def zeroSum (mode : RMode) (n1 n2 : Bool) : Bool := if n1 = n2 then n1 else mode == .rdn

/-- Round a signed exact value; an exact zero takes the sign given. -/
def roundSigned (f : FFmt) (mode : RMode) (v : Int) (e : Int) (zneg : Bool) : Nat × Fl :=
  if v = 0 then (f.zero zneg, 0) else roundTo f mode (v < 0) v.natAbs e

/-- Round a value of any kind; a NaN is the default NaN (R39). -/
def roundVal (f : FFmt) (mode : RMode) : FVal → Nat × Fl
  | .nan s => (f.nan, flIf s flNV)
  | .inf n => (f.inf n, 0)
  | .fin n m e => roundTo f mode n m e

def FVal.snan : FVal → Bool
  | .nan s => s
  | _ => false

def FVal.isNan : FVal → Bool
  | .nan _ => true
  | _ => false

def FVal.neg : FVal → FVal
  | .nan s => .nan s
  | .inf n => .inf (!n)
  | .fin n m e => .fin (!n) m e

/-- a + b, rounded (R144). -/
def fAdd (f : FFmt) (mode : RMode) (a b : FVal) : Nat × Fl :=
  match a, b with
  | .nan s, y => (f.nan, flIf (s || y.snan) flNV)
  | _, .nan s => (f.nan, flIf s flNV)
  | .inf n, .inf k => if n = k then (f.inf n, 0) else (f.nan, flNV)
  | .inf n, _ => (f.inf n, 0)
  | _, .inf n => (f.inf n, 0)
  | .fin n1 m1 e1, .fin n2 m2 e2 =>
    let (v, e) := addFin n1 m1 e1 n2 m2 e2
    roundSigned f mode v e (zeroSum mode n1 n2)

/-- a × b, rounded (R144). -/
def fMul (f : FFmt) (mode : RMode) (a b : FVal) : Nat × Fl :=
  match a, b with
  | .nan s, y => (f.nan, flIf (s || y.snan) flNV)
  | _, .nan s => (f.nan, flIf s flNV)
  | .inf n, .inf k => (f.inf (n != k), 0)
  | .inf n, .fin k m _ => if m = 0 then (f.nan, flNV) else (f.inf (n != k), 0)
  | .fin k m _, .inf n => if m = 0 then (f.nan, flNV) else (f.inf (n != k), 0)
  | .fin n1 m1 e1, .fin n2 m2 e2 => roundTo f mode (n1 != n2) (m1 * m2) (e1 + e2)

/-- a × b + d with one rounding; ∞ × 0 is invalid whatever d is (R144). -/
def fFma (f : FFmt) (mode : RMode) (a b d : FVal) : Nat × Fl :=
  let invalid := match a, b with
    | .inf _, .fin _ 0 _ => true
    | .fin _ 0 _, .inf _ => true
    | _, _ => false
  if invalid then (f.nan, flNV)
  else if a.isNan || b.isNan || d.isNan then (f.nan, flIf (a.snan || b.snan || d.snan) flNV)
  else
    match a, b, d with
    | .fin n1 m1 e1, .fin n2 m2 e2, .fin n3 m3 e3 =>
      let (v, e) := addFin (n1 != n2) (m1 * m2) (e1 + e2) n3 m3 e3
      roundSigned f mode v e (zeroSum mode (n1 != n2) n3)
    | .fin .., .fin .., .inf n => (f.inf n, 0)
    | .inf n, .inf k, .inf j => if (n != k) = j then (f.inf j, 0) else (f.nan, flNV)
    | .inf n, .inf k, _ => (f.inf (n != k), 0)
    | .inf n, .fin k _ _, .inf j => if (n != k) = j then (f.inf j, 0) else (f.nan, flNV)
    | .inf n, .fin k _ _, _ => (f.inf (n != k), 0)
    | .fin k _ _, .inf n, .inf j => if (n != k) = j then (f.inf j, 0) else (f.nan, flNV)
    | .fin k _ _, .inf n, _ => (f.inf (n != k), 0)
    | _, _, _ => (f.nan, 0)

/-- Numeric order of two values that are numbers; −0 equals +0. -/
def FVal.cmp (a b : FVal) : Ordering :=
  match a, b with
  | .inf n, .inf k => if n = k then .eq else if n then .lt else .gt
  | .inf n, _ => if n then .lt else .gt
  | _, .inf n => if n then .gt else .lt
  | .fin n1 m1 e1, .fin n2 m2 e2 =>
    let (v, _) := addFin n1 m1 e1 (!n2) m2 e2
    if v < 0 then .lt else if v = 0 then .eq else .gt
  | _, _ => .eq

def FVal.sign : FVal → Bool
  | .nan _ => false
  | .inf n => n
  | .fin n _ _ => n

/-- The lesser, or the greater, of two bit patterns (R145). -/
def fMinMax (f : FFmt) (greater : Bool) (a b : Nat) : Nat × Fl :=
  let x := unpack f a
  let y := unpack f b
  let fl := flIf (x.snan || y.snan) flNV
  if x.isNan && y.isNan then (f.nan, fl)
  else if x.isNan then (b, fl)
  else if y.isNan then (a, fl)
  else
    let less : Bool := match x.cmp y with
      | .lt => true
      | .gt => false
      | .eq => x.sign && !y.sign
    (if less = greater then b else a, fl)

/-- The greatest r with r × r ≤ n, below 2^bits. -/
def isqrt (n : Nat) : Nat → Nat → Nat
  | 0, acc => acc
  | b + 1, acc => if (acc + 2 ^ b) * (acc + 2 ^ b) ≤ n then isqrt n b (acc + 2 ^ b) else isqrt n b acc

/-- 1/a, correctly rounded (R144, R145). -/
def fRcp (f : FFmt) (mode : RMode) (a : FVal) : Nat × Fl :=
  match a with
  | .nan s => (f.nan, flIf s flNV)
  | .inf n => (f.zero n, 0)
  | .fin n 0 _ => (f.inf n, flDZ)
  | .fin n m e =>
    let k := bitLen m + 60
    roundTo f mode n (2 ^ k / m) (-(k : Int) - e) (2 ^ k % m ≠ 0)

/-- 1/√a, correctly rounded (R144, R145). -/
def fRsq (f : FFmt) (mode : RMode) (a : FVal) : Nat × Fl :=
  match a with
  | .nan s => (f.nan, flIf s flNV)
  | .inf n => if n then (f.nan, flNV) else (f.zero false, 0)
  | .fin n 0 _ => (f.inf n, flDZ)
  | .fin true _ _ => (f.nan, flNV)
  | .fin false m e =>
    let odd := e % 2 ≠ 0
    let m := if odd then 2 * m else m
    let e := if odd then e - 1 else e
    let k := bitLen m + 60
    let r := isqrt (2 ^ (2 * k) / m) (k + 1) 0
    roundTo f mode false r (-(k : Int) - e / 2) (r * r * m ≠ 2 ^ (2 * k))

/-- 2^F for a fraction F of `n` bits `bits`, as a multiple of 2^-160: the product of the roots
2^(1/2), 2^(1/4), ... that F's bits name. -/
def exp2Frac (bits : Nat) : Nat → Nat → Nat → Nat
  | 0, _, acc => acc
  | n + 1, root, acc =>
    let root := isqrt (root * 2 ^ 160) 162 0
    let acc := if bits / 2 ^ n % 2 = 1 then acc * root / 2 ^ 160 else acc
    exp2Frac bits n root acc

/-- 2^a, correctly rounded (R144, R145). -/
def fExp2 (f : FFmt) (mode : RMode) (a : FVal) : Nat × Fl :=
  match a with
  | .nan s => (f.nan, flIf s flNV)
  | .inf n => if n then (f.zero false, 0) else (f.inf false, 0)
  | .fin _ 0 _ => roundTo f mode false 1 0
  | .fin n m e =>
    let top : Int := e + bitLen m - 1
    if top ≥ 12 then
      if n then roundTo f mode false 1 (-5000) true else roundTo f mode false 1 5000 true
    else if top < -40 then
      if n then roundTo f mode false (2 ^ 60 - 1) (-60) true else roundTo f mode false (2 ^ 60) (-60) true
    else
      let b : Nat := (-e).toNat
      let v : Int := if e ≥ 0 then signed n (m * 2 ^ e.toNat) else signed n m
      let i : Int := v / 2 ^ b
      let fr : Nat := (v % 2 ^ b).toNat
      if fr = 0 then roundTo f mode false 1 i
      else roundTo f mode false (exp2Frac fr b (2 * 2 ^ 160) (2 ^ 160)) (i - 160) true

/-- `n` binary digits of log2 of x / 2^255, for x in [2^255, 2^256). -/
def log2Digits : Nat → Nat → Nat → Nat
  | 0, _, acc => acc
  | n + 1, x, acc =>
    let y := x * x / 2 ^ 255
    if y ≥ 2 ^ 256 then log2Digits n (y / 2) (2 * acc + 1) else log2Digits n y (2 * acc)

/-- log2 a, correctly rounded (R144, R145). -/
def fLog2 (f : FFmt) (mode : RMode) (a : FVal) : Nat × Fl :=
  match a with
  | .nan s => (f.nan, flIf s flNV)
  | .inf n => if n then (f.nan, flNV) else (f.inf false, 0)
  | .fin _ 0 _ => (f.inf true, flDZ)
  | .fin true _ _ => (f.nan, flNV)
  | .fin false m e =>
    let l := bitLen m
    let ex : Int := e + l - 1
    if m = 2 ^ (l - 1) then roundSigned f mode ex 0 false
    else
      let d := log2Digits 110 (m * 2 ^ (256 - l)) 0
      let v : Int := ex * 2 ^ 110 + d
      if v < 0 then roundTo f mode true (v.natAbs - 1) (-110) true
      else roundTo f mode false v.natAbs (-110) true

/-- a / b for finite or infinite values, rounded RNE (R260). -/
def fDiv (f : FFmt) (mode : RMode) (a b : FVal) : Nat × Fl :=
  match a, b with
  | .nan s, y => (f.nan, flIf (s || y.snan) flNV)
  | _, .nan s => (f.nan, flIf s flNV)
  | .inf _, .inf _ => (f.nan, flNV)
  | .inf n, .fin k _ _ => (f.inf (n != k), 0)
  | .fin n _ _, .inf k => (f.zero (n != k), 0)
  | .fin n m1 e1, .fin k m2 e2 =>
    if m2 = 0 then (if m1 = 0 then (f.nan, flNV) else (f.inf (n != k), flDZ))
    else
      let s := bitLen m2 + 60
      roundTo f mode (n != k) (m1 * 2 ^ s / m2) (e1 - e2 - s) (m1 * 2 ^ s % m2 ≠ 0)

/-- √a, rounded (R260). -/
def fSqrt (f : FFmt) (mode : RMode) (a : FVal) : Nat × Fl :=
  match a with
  | .nan s => (f.nan, flIf s flNV)
  | .inf n => if n then (f.nan, flNV) else (f.inf false, 0)
  | .fin n 0 _ => (f.zero n, 0)
  | .fin true _ _ => (f.nan, flNV)
  | .fin false m e =>
    let odd := e % 2 ≠ 0
    let m := if odd then 2 * m else m
    let e := if odd then e - 1 else e
    let r := isqrt (m * 2 ^ 80) (bitLen m + 42) 0
    roundTo f mode false r (e / 2 - 40) (r * r ≠ m * 2 ^ 80)

/-- Sum a list of values exactly: whether a NaN, a signalling NaN, +∞, −∞ was there, and the exact sum. -/
structure ExactSum where
  nan : Bool := false
  snan : Bool := false
  pinf : Bool := false
  ninf : Bool := false
  v : Int := 0
  e : Int := 0
  deriving DecidableEq, Repr, Inhabited

def ExactSum.add (s : ExactSum) : FVal → ExactSum
  | .nan g => { s with nan := true, snan := s.snan || g }
  | .inf n => if n then { s with ninf := true } else { s with pinf := true }
  | .fin n m e =>
    let e' := if s.e ≤ e then s.e else e
    { s with v := s.v * 2 ^ (s.e - e').toNat + signed n m * 2 ^ (e - e').toNat, e := e' }

/-- Round an exact sum once; an exact zero takes the sign given (R51, R153). -/
def ExactSum.round (s : ExactSum) (f : FFmt) (mode : RMode) (zneg : Bool) : Nat × Fl :=
  if s.nan then (f.nan, flIf s.snan flNV)
  else if s.pinf && s.ninf then (f.nan, flNV)
  else if s.pinf then (f.inf false, 0)
  else if s.ninf then (f.inf true, 0)
  else roundSigned f mode s.v s.e zneg

/-- The exact product of two values, for a group sum (R51); `none`: ∞ × 0. -/
def mulExact (a b : FVal) : Option FVal :=
  match a, b with
  | .nan s, y => some (.nan (s || y.snan))
  | _, .nan s => some (.nan s)
  | .inf n, .inf k => some (.inf (n != k))
  | .inf n, .fin k m _ => if m = 0 then none else some (.inf (n != k))
  | .fin k m _, .inf n => if m = 0 then none else some (.inf (n != k))
  | .fin n1 m1 e1, .fin n2 m2 e2 => some (.fin (n1 != n2) (m1 * m2) (e1 + e2))

/-- Round an exact value to an integer (R42): the integer, and whether a nonzero part was discarded. -/
def toInt (mode : RMode) (neg : Bool) (m : Nat) (e : Int) : Int × Bool :=
  let (kept, rem, sh) := splitAt' m e 0
  let kept := if roundsUp mode neg kept rem sh false then kept + 1 else kept
  (signed neg kept, rem ≠ 0)

/-- Clamp an integer to a range; whether it was clamped. -/
def clampTo (lo hi v : Int) : Int × Bool := if v < lo then (lo, true) else if v > hi then (hi, true) else (v, false)

/-- A floating value to an integer format's range (R42): NaN to 0 with NV, out of range with NV, else NX. -/
def fToInt (mode : RMode) (lo hi : Int) (a : FVal) : Int × Fl :=
  match a with
  | .nan _ => (0, flNV)
  | .inf n => (if n then lo else hi, flNV)
  | .fin n m e =>
    let (v, nx) := toInt mode n m e
    let (w, cl) := clampTo lo hi v
    (w, if cl then flNV else flIf nx flNX)

/-- Ordered dither D(i, j) (R53). -/
def dither (i j p : Nat) : Nat :=
  let i' := (i + p) % 32
  let j' := (j + 7 * p) % 32
  let x := i' ^^^ j'
  let y := i'
  (List.range 5).foldl (fun d n =>
    d + (x / 2 ^ n % 2) * 2 ^ (9 - 2 * n) + (y / 2 ^ n % 2) * 2 ^ (9 - (2 * n + 1))) 0

/-! ## LNS6 (R45 to R49) -/

/-- The RNE thresholds of R48. -/
def lnsTH : List Nat := [0x8B95C2, 0xA5FED7, 0xC5672A, 0xEAC0C7]

/-- The quarter points of R48. -/
def lnsQ : List Nat := [0x800000, 0x9837F0, 0xB504F4, 0xD744FC, 0x1000000]

/-- The code of a nonzero exact value under block scale E (R48), with its flags.  M is m × 2^23 / 2^sh, and
every comparison is made on it exactly. -/
def lnsCode (mode : RMode) (neg : Bool) (m : Nat) (e : Int) (scale : Nat) : Nat × Fl :=
  let sh := bitLen m - 1
  let x : Int := e - ((scale : Int) - 127) + sh
  let big := m * 2 ^ 23
  let ge := fun (t : Nat) => decide (big ≥ t * 2 ^ sh)
  let q := fun (c : Nat) => lnsQ.getD c 0
  let low : Nat := if ge (q 3) then 3 else if ge (q 2) then 2 else if ge (q 1) then 1 else 0
  let c : Nat := match mode with
    | .rne => (lnsTH.filter ge).length
    | .rtz => low
    | .rup => if big ≠ q low * 2 ^ sh ∧ neg = false then low + 1 else low
    | .rdn => if big ≠ q low * 2 ^ sh ∧ neg then low + 1 else low
    | .dith d =>
      let w := q (low + 1) - q low
      if (big - q low * 2 ^ sh) * 1024 + d * w * 2 ^ sh ≥ 1024 * w * 2 ^ sh then low + 1 else low
  let code : Int := 4 * x + c + 16
  let s := if neg then 32 else 0
  let exact := big = 0x800000 * 2 ^ sh && c = 0
  if code ≥ 32 then (s + 31, flOF ||| flNX)
  else if code ≤ 0 then (0, flUF ||| flNX)
  else (s + code.toNat, flIf (!exact) flNX)

/-- Convert a value to LNS6 under block scale E (R48, R49). -/
def toLns (mode : RMode) (scale : Nat) (a : FVal) : Nat × Fl :=
  let nr := flIf (scale == 255) flNR
  match a with
  | .nan _ => (32, flNV ||| nr)
  | .inf _ => (32, flNV ||| nr)
  | .fin neg m e =>
    if scale = 255 then (32, flNR)
    else if m = 0 then (0, 0)
    else lnsCode mode neg m e scale

/-- The magnitudes 2^(f/4) of R50, in units of 2^-22. -/
def lnsT : List Nat := [0x400000, 0x4C1BF8, 0x5A827A, 0x6BA27E]

/-- The product of two LNS6 codes in units of 2^-30 (R50); `none` for a NaR. -/
def lnsProduct (a b : Nat) : Option Int :=
  if a = 32 ∨ b = 32 then none
  else
    let ea := a % 32
    let eb := b % 32
    if ea = 0 ∨ eb = 0 then some 0
    else
      let l : Int := (ea : Int) - 16 + ((eb : Int) - 16)
      let q := l / 4
      let f := (l % 4).toNat
      let p : Nat := lnsT.getD f 0 * 2 ^ (q + 8).toNat
      some (if (a / 32 != b / 32) then -(p : Int) else p)

/-- An INT32 bit pattern as an integer. -/
def int32 (x : Nat) : Int := (BitVec.ofNat 32 x).toInt

/-- The group result of one element of a tile from LNS6 operands (R50). -/
def lnsGroup (ea eb : Nat) (ps : List (Nat × Nat)) : Nat × Fl :=
  let prods := ps.map fun p => lnsProduct p.1 p.2
  if ea = 255 ∨ eb = 255 ∨ prods.any (·.isNone) then (fp32.nan, flNR)
  else
    let s : Int := prods.foldl (fun s p => s + p.getD 0) 0
    roundSigned fp32 .rne s (-30 + ((ea : Int) - 127) + ((eb : Int) - 127)) false

/-- The group result from BF16 or FP16 operands (R51).  `ftz`: the furnace reads a subnormal as zero of its
sign and raises FZ (R40); the bank dot units honour subnormals (R264). -/
def fGroup (f : FFmt) (ftz : Bool) (ps : List (Nat × Nat)) : Nat × Fl :=
  let rd := fun (x : Nat) => if ftz && isSubnormal f x then FVal.fin (x / 2 ^ (f.eb + f.fb) % 2 == 1) 0 0 else unpack f x
  let fz := flIf (ftz && ps.any fun p => isSubnormal f p.1 || isSubnormal f p.2) flFZ
  let prods := ps.map fun p => mulExact (rd p.1) (rd p.2)
  let anyNan := ps.any fun p => (rd p.1).isNan || (rd p.2).isNan
  let sn := ps.any fun p => (rd p.1).snan || (rd p.2).snan
  if anyNan then
    (fp32.nan, fz ||| flIf (sn || prods.any (·.isNone)) flNV)
  else if prods.any (·.isNone) then (fp32.nan, fz ||| flNV)
  else
    let s := prods.foldl (fun (s : ExactSum) p => s.add (p.getD (.fin false 0 0))) {}
    let (r, fl) := s.round fp32 .rne false
    (r, fz ||| fl)

/-- The group sum of INT8 operands, exact (R51). -/
def iGroup (ps : List (Nat × Nat)) : Int :=
  ps.foldl (fun s p => s + (BitVec.ofNat 8 p.1).toInt * (BitVec.ofNat 8 p.2).toInt) 0

/-! ## NARROW (R55) -/

/-- Narrow an FP32 bit pattern to BF16 (R55). -/
def narrow (x : Nat) : Nat :=
  match unpack fp32 x with
  | .nan _ => (x / 65536) ||| 0x40
  | .inf _ => x / 65536
  | .fin n m e => (roundTo bf16 .rne n m e).1

/-- Widen a BF16 bit pattern to FP32 (R55). -/
def widen (x : Nat) : Nat := x % 65536 * 65536

end Sys2Proof.Machine
end

