-- ==== Sys2Proof/Machine/Atoms.lean ====
section
/-!
DEFINITION. Atoms where they lie, the events of R159 on them, loss records (R180), handle regions (R130, R165)
and the arithmetic of a NARROW page (R55, R56).
-/

namespace Sys2Proof.Machine

open Sys2Proof

/-- Where an atom lies: in stack or host memory at a physical address, or in a core's scratchpad. -/
inductive Loc where
  | mem (pa : Nat) | sp (ch c off : Nat)
  deriving DecidableEq, Repr, Inhabited

def Loc.index : Loc → Nat
  | .mem pa => pa / 32
  | .sp _ _ off => off / 32

def State.space (s : State) : Loc → Space
  | .mem _ => s.mem
  | .sp ch c _ => (s.core ch c).spad

def State.updSpace (s : State) (f : Space → Space) : Loc → State
  | .mem _ => { s with mem := f s.mem }
  | .sp ch c _ => s.updCore ch c fun y => { y with spad := f y.spad }

/-- The state of the atom at a place. -/
def State.atomOf (s : State) (l : Loc) : AtomState := (s.space l).atom l.index

/-- The atom's stored bits hold an uncorrectable error. -/
def State.badAt (s : State) (l : Loc) : Bool := (s.space l).bad l.index

def State.bytesAt (s : State) (l : Loc) : List Byte := (s.space l).atomBytes l.index

/-- The atom at a place waits for its pseudo-channel to be NORMAL (R263). -/
def State.held (s : State) : Loc → Bool
  | .mem pa => s.ganged pa
  | .sp .. => false

/-- Give the atom at a place a state and bytes; its check bits are written anew. -/
def State.putLoc (s : State) (l : Loc) (st : AtomState) (bs : List Byte) : State :=
  s.updSpace (fun m => { m.putAtom l.index st bs with errs := m.errs.filter (· ≠ l.index) }) l

/-- A place as a loss record reports it: an address, or bit 63, the core's package index and the offset. -/
def Loc.report : Loc → Nat
  | .mem pa => pa
  | .sp ch c off => 2 ^ 63 + coreIndex ch c * 2 ^ 32 + off

/-- A loss record (R180): provenance, the atom whose datum was lost, the atom left POISON, and the queue, which is 0 where no
execution queue made the loss.
DESIGN CHOICE (assumption 33). -/
def lossRecord (k : Nat) (p : Prov) (lost poisoned : Nat) (xq : Nat) (s : State) : State :=
  logEntry k ([1, 1, 0, BitVec.ofNat 8 xq] ++ leBytes 4 0 ++ leBytes 8 p.word.toNat ++ leBytes 8 lost ++
    leBytes 8 poisoned) s

/-! ## The rows of R159 that move data -/

/-- Why an atom's event stops a command. -/
inductive MErr where
  /-- a level C poison error -/
  | poison
  /-- a level C atom-state fault -/
  | state
  /-- a context error with its reason (R223) -/
  | ctx (reason : Nat)
  /-- the atom lies in a ganged pseudo-channel, and the pair waits (R263) -/
  | wait
  deriving DecidableEq, Repr, Inhabited

/-- The outcome of one atom event. -/
structure MRes where
  s : State
  err : Option MErr := none
  vac : Bool := false
  loss : Option (Nat × Nat) := none

/-- One pair of a transfer: the atoms read, the atoms written, and what the bytes become on the way.  A pair
has one atom on each side, but for a NARROW page's (R56), whose one atom stands for two. -/
structure Pair2 where
  srcs : List Loc
  dsts : List Loc
  conv : List Byte → List Byte := id

/-- Put bytes into atoms in order, all in one state. -/
def putAll (st : AtomState) : List Loc → List Byte → State → State
  | [], _, s => s
  | l :: ls, bs, s => putAll st ls (bs.drop 32) (s.putLoc l st (bs.take 32))

/-- One pair of MOVE or DUP, as one event (R159, R160, R168, R180).  Where the two atoms of a NARROW pair are in
different states, a VACANT one gives zero bytes, and the written atom is a REPLICA if either is; where one of them is
lost, the pair is lost as a whole: a MOVE leaves its sources VACANT and its destinations POISON, a DUP makes each lost
source POISON, and one loss record names the first lost source and the first destination.
DESIGN CHOICE (assumption 32). -/
def movePair (dup : Bool) (p : Pair2) (s : State) : MRes :=
  let sts := p.srcs.map s.atomOf
  let bad := p.srcs.filter s.badAt
  if p.dsts.any s.badAt then
    { s := (p.dsts.filter s.badAt).foldl (fun s d => s.putLoc d .poison []) s, err := some .poison }
  else if p.dsts.any fun d => s.atomOf d == .replica then { s := s, err := some (.ctx 2) }
  else if p.dsts.any fun d => s.atomOf d == .poison then { s := s, err := some .poison }
  else if sts.contains .poison then { s := s, err := some .poison }
  else
    let report := fun (x : Loc) => (x.report, if dup then x.report else ((p.dsts.head?).map Loc.report).getD 0)
    if bad ≠ [] then
      let s' := if dup then bad.foldl (fun s d => s.putLoc d .poison []) s
        else p.srcs.foldl (fun s d => s.putLoc d .vacant [])
          (p.dsts.foldl (fun s d => s.putLoc d .poison []) s)
      { s := s', loss := bad.head?.map report }
    else
      let vac := sts.contains .vacant
      if sts.all (· == .vacant) then { s := putAll .vacant p.dsts [] s, vac := true }
      else
        let bs := p.conv (p.srcs.flatMap s.bytesAt)
        let st : AtomState := if dup || sts.contains .replica then .replica else .home
        let s' := if dup then s else p.srcs.foldl (fun s d => s.putLoc d .vacant []) s
        { s := putAll st p.dsts bs s', vac := vac }

/-- One atom of XFILL with the bytes it gets (R173). -/
def fillAtom (bs : List Byte) (d : Loc) (s : State) : MRes :=
  if s.badAt d then { s := s.putLoc d .poison [], err := some .poison }
  else match s.atomOf d with
    | .replica => { s := s, err := some (.ctx 2) }
    | .poison => { s := s, err := some .poison }
    | _ => { s := s.putLoc d .home bs }

/-- One atom of DROP (R169). -/
def dropAtom (d : Loc) (s : State) : MRes :=
  match s.atomOf d with
  | .home => { s := s, err := some .state }
  | _ => { s := s.putLoc d .vacant [] }

/-- Give an atom a state; its bits and its errors stay. -/
def Space.restate (m : Space) (i : Nat) (st : AtomState) : Space := { m with atoms := SMap.put .vacant m.atoms i st }

/-- One pair of PROMOTE: the replica and the lost home; no data moves (R170). -/
def promotePair (p : Pair2) (s : State) : MRes :=
  if (p.srcs.all fun r => s.atomOf r == .replica) && p.dsts.all fun o => s.atomOf o == .poison then
    let s' := p.srcs.foldl (fun s r => s.updSpace (fun m => m.restate r.index .home) r) s
    { s := p.dsts.foldl (fun s o => s.putLoc o .vacant []) s' }
  else { s := s, err := some .state }

/-! ## NARROW pages (R55, R56) -/

/-- Cut a list of bytes into words of `n` bytes. -/
def chunksOf (n : Nat) (bs : List Byte) : List (List Byte) :=
  (List.range ((bs.length + n - 1) / n)).map fun i => (bs.drop (n * i)).take n

/-- Bytes of BF16 elements as the FP32 elements they load as. -/
def widenBytes (bs : List Byte) : List Byte := (chunksOf 2 bs).flatMap fun e => leBytes 4 (widen (leNat e))

/-- Bytes of FP32 elements as the BF16 elements a NARROW page holds. -/
def narrowBytes (bs : List Byte) : List Byte := (chunksOf 4 bs).flatMap fun e => leBytes 2 (narrow (leNat e))

/-! ## Waiters on barrier words (R279, R284, R286) -/

/-- Where what waits at a word of a page on the deep tier is kept, beyond every physical address.
DEDUCED (assumption 45). -/
def deepPlace (a : Nat) : Nat := 2 ^ 60 + a

/-- The space that holds a barrier word, and the word's address there: a word whose page has gone to the deep tier keeps
its atom (R208, R286). -/
def State.wordSpace (s : State) (pa : Nat) : Space × Nat :=
  if pa < deepPlace 0 then (s.mem, pa) else (s.deep, pa - deepPlace 0)

/-- The 16 bytes of a barrier word (R279). -/
def State.barWord (s : State) (pa : Nat) : BitVec 128 :=
  BitVec.ofNat 128 (leNat ((s.wordSpace pa).1.getBytes (s.wordSpace pa).2 16))

/-- The state of a barrier word's atom. -/
def State.wordAtom (s : State) (pa : Nat) : AtomState := (s.wordSpace pa).1.atomAt (s.wordSpace pa).2

def bwGen (w : BitVec 128) : Nat := (field 32 32 w).toNat

/-- The word's GEN differs from G0. -/
def State.genMoved (s : State) (pa g0 : Nat) : Bool :=
  (pa < Config.physTop || deepPlace 0 ≤ pa) && s.wordAtom pa ≠ .poison && bwGen (s.barWord pa) ≠ g0

/-- A registered BARW or link sees an event of its word. -/
def Link1.see (s : State) (l : Link1) : Link1 :=
  if l.remote = none ∧ s.genMoved l.pa l.g0 then { l with passed := true } else l

def FSide.see (s : State) (f : FSide) : FSide :=
  { f with links := f.links.map (Link1.see s), barw := f.barw.map (Link1.see s) }

/-- A barrier packet of another package that has registered at its word, G0 in LEN and the word's place in ARG,
sees an event of the word. -/
def Pkt.see (s : State) (p : Pkt) : Pkt :=
  if p.ty = .barrier ∧ p.code = 1 ∧ s.genMoved p.arg.toNat p.len then { p with code := 2 } else p

/-- Everything registered at a barrier word sees an event of it (R284, R286). -/
def seeWords (s : State) : State :=
  let chairs := s.chairs.map fun e => (e.1, { e.2 with cores := e.2.cores.map fun c =>
    (c.1, { c.2 with f := FSide.see s c.2.f }) })
  { s with chairs := chairs, net := s.net.map (Pkt.see s) }

/-! ## Handle regions -/

def Chair.handle (x : Chair) (h : BitVec 6) : Handle := SMap.get {} x.handles h.toNat

def Chair.setHandle (x : Chair) (h : BitVec 6) (v : Handle) : Chair :=
  { x with handles := SMap.put {} x.handles h.toNat v }

/-- A handle's region meets `n` bytes at an offset of a core's scratchpad. -/
def Handle.meets (h : Handle) (home off n : Nat) : Bool :=
  h.st ≠ .free && h.home == home && off < (h.base + h.len) * 32 && h.base * 32 < off + n

/-- `n` bytes at an offset lie wholly in the handle's region. -/
def Handle.holds (h : Handle) (off n : Nat) : Bool := h.base * 32 ≤ off && off + n ≤ (h.base + h.len) * 32

/-- A core may use `n` bytes of its own scratchpad: what lies in a region, it holds (R165). -/
def Chair.ownOk (x : Chair) (c off n : Nat) : Bool :=
  x.handles.all fun e => !e.2.meets c off n || e.2.st == .held c

/-- `n` bytes meet some handle's region. -/
def Chair.inRegion (x : Chair) (c off n : Nat) : Bool := x.handles.any fun e => e.2.meets c off n

/-- The probe-cache region's first byte and length, while it is enabled (R123). -/
def ASide.region (a : ASide) : Option (Nat × Nat) :=
  if a.pcfg.getLsbD 11 then
    some ((field 0 8 a.pcfg).toNat * 2048, 2 ^ (field 8 3 a.pcfg).toNat * 8192)
  else none

/-- `n` bytes meet the enabled probe-cache region. -/
def ASide.meetsRegion (a : ASide) (off n : Nat) : Bool :=
  match a.region with
  | none => false
  | some (b, l) => off < b + l && b < off + n

end Sys2Proof.Machine
end

