-- ==== Sys2Proof/Machine/Aside.lean ====
section
/-!
DEFINITION. The A-side's words (R112 to R133) and the steps that end its accesses.

An access issues in one step and is performed in another, whole, at its home; what may not overtake what is
`APend.blocks` (R128, R129, R271).
-/

namespace Sys2Proof.Machine

open Sys2Proof

/-! ## Running an A-side word -/

def State.aside (s : State) : ASide := s.me.a

def State.setAside (s : State) (a : ASide) : State := s.setMe { s.me with a := a }

/-- The word is done at issue: it leaves its queue and its signal is added (R113, R118, R122). -/
def aDone (a : ASide) (s : State) : State := retireSig (s.setAside a)

/-- A word that writes a_d at issue. -/
def aResult (d : BitVec 5) (v : Word) (s : State) : State := aDone (s.aside.setReg d v) s

def aArith (f : Word → Word → Word) (d a b : BitVec 5) (s : State) : Res :=
  .next (aResult d (f (s.aside.reg a) (s.aside.reg b)) s)

/-! ## Address arithmetic (R122) -/

def execAadd (d a b : BitVec 5) (s : State) : Res := aArith (· + ·) d a b s
def execAsub (d a b : BitVec 5) (s : State) : Res := aArith (· - ·) d a b s
def execAmul (d a b : BitVec 5) (mode : BitVec 2) (s : State) : Res :=
  aArith (match mode.toNat with | 0 => (· * ·) | 1 => mulHS | _ => mulHU) d a b s
def execAshl (d a b : BitVec 5) (s : State) : Res := aArith (fun x y => x <<< (y.toNat % 64)) d a b s
def execAshr (d a b : BitVec 5) (mode : BitVec 1) (s : State) : Res :=
  aArith (fun x y => if mode = 0 then x >>> (y.toNat % 64) else x.sshiftRight (y.toNat % 64)) d a b s
def execAand (d a b : BitVec 5) (s : State) : Res := aArith (· &&& ·) d a b s
def execAor (d a b : BitVec 5) (s : State) : Res := aArith (· ||| ·) d a b s
def execAmin (d a b : BitVec 5) (mode : BitVec 1) (s : State) : Res :=
  aArith (if mode = 0 then minS else minU) d a b s
def execAmax (d a b : BitVec 5) (mode : BitVec 1) (s : State) : Res :=
  aArith (if mode = 0 then maxS else maxU) d a b s
def execAslt (d a b : BitVec 5) (mode : BitVec 1) (s : State) : Res :=
  aArith (fun x y => bit1 (if mode = 0 then x.slt y else x.ult y)) d a b s

/-- AADDI's addend (R122). -/
def AImm.val : AImm → Word
  | .imm i => sext22 i
  | .lit1 l => l.signExtend 64
  | .lit2 l => l

def execAaddi (d a : BitVec 5) (x : AImm) (s : State) : Res :=
  .next (aResult d (s.aside.reg a + Sys2Proof.Machine.AImm.val x) s)

/-! ## Address generators (R118) -/

/-- Change a generator; the word signals at issue. -/
def aGen (g : BitVec 4) (f : AGen → AGen) (s : State) : Res :=
  .next (aDone (s.aside.setGen g (f (s.aside.gen g))) s)

def execAgset (g : BitVec 4) (a b c : BitVec 5) (s : State) : Res :=
  aGen g (fun _ => { base := s.aside.reg a, stride := s.aside.reg b, pos := 0,
                     lim := field 0 32 (s.aside.reg c) }) s
def execAgsetB (g : BitVec 4) (a : BitVec 5) (s : State) : Res :=
  aGen g (fun x => { x with base := s.aside.reg a }) s
def execAgnext (g : BitVec 4) (a : BitVec 5) (s : State) : Res :=
  aGen g (fun x => { x with pos := BitVec.ofNat 32 (x.pos.toNat + (s.aside.reg a).toNat) }) s
/-- AGNEXT.W: a_a is read as unsigned (R118).
DEDUCED (assumption 71). -/
def execAgnextW (g : BitVec 4) (a : BitVec 5) (s : State) : Res :=
  aGen g (fun x =>
    let p := x.pos.toNat + (s.aside.reg a).toNat
    { x with pos := BitVec.ofNat 32 (if x.lim = 0 then p else p % x.lim.toNat) }) s
def execAgpos (g : BitVec 4) (a : BitVec 5) (s : State) : Res :=
  aGen g (fun x => { x with pos := field 0 32 (s.aside.reg a) }) s
def execAgrd (a : BitVec 5) (g : BitVec 4) (sel : BitVec 2) (s : State) : Res :=
  let x := s.aside.gen g
  .next (aResult a (match sel.toNat with
    | 0 => x.base | 1 => x.stride | 2 => x.pos.setWidth 64 | _ => x.lim.setWidth 64) s)

/-! ## Branch outcomes (R99 to R101) -/

/-- What a condition of R99 gives: its value and the A-side with the entry popped; a wait; or an outcome
underflow. -/
inductive CondRes where
  | val (t : Bool) (a : ASide) | wait | underflow
  deriving DecidableEq, Repr, Inhabited

def evalCond (c : Cond) (a : ASide) : CondRes :=
  match c with
  | .xa1 => match a.xa with
    | [] => .wait
    | b :: bs => .val b { a with xa := bs }
  | .xa0 => match a.xa with
    | [] => .wait
    | b :: bs => .val (!b) { a with xa := bs }
  | .nz r => .val (a.reg r ≠ 0) a
  | .z r => .val (a.reg r = 0) a
  | .vs => if a.still then .val a.v a else .wait
  | .vc => if a.still then .val (!a.v) a else .wait
  | .hit => match a.po with
    | b :: bs => .val b { a with po := bs }
    | [] => if a.tags.any fun t => t.2.probing then .wait else .underflow

/-- A condition that pops the X-to-A queue finds an entry that it may pop in this cycle (R94). -/
def condRipe (c : Cond) (s : State) : Bool :=
  match c with
  | .xa1 | .xa0 => 0 < s.me.ripe keyXa s.aside.xa.length s.here.cycle
  | _ => true

/-- A condition in this cycle. -/
def condNow (c : Cond) (s : State) : CondRes := if condRipe c s then evalCond c s.aside else .wait

/-- Push an outcome into the A-to-X queue, and end the BQPUSH (R100). -/
def bqPush (t : Bool) (a : ASide) (s : State) : State :=
  let s := aDone { a with ax := a.ax ++ [t], bq := none } s
  s.setMe (s.me.pushNote keyAx 1 s.here.cycle)

/-- BQPUSH: the condition is evaluated first, and then the push waits for room (R100). -/
def execBqpush (c : Cond) (s : State) : Res :=
  let a := s.aside
  let room : Bool := a.ax.length < Config.outcomeQueue
  .next (match a.bq with
    | some t => if room then bqPush t a s else s
    | none => match condNow c s with
      | .wait => s
      | .underflow => raiseC 0x26 s
      | .val t a => if room then bqPush t a s else s.setAside { a with bq := some t })

def execBqskip (c : Cond) (n : BitVec 8) (s : State) : Res :=
  .next (match condNow c s with
    | .wait => s
    | .underflow => raiseC 0x26 s
    | .val t a => aDone { a with skip := if t then a.skip + n.toNat else a.skip } s)

/-- The word at the A-side head while a skip count stands: it leaves with its signal and nothing else (R101). -/
def skipWord (s : State) : State :=
  let a := s.aside
  retireSig (s.setAside { a with skip := a.skip - 1 })

/-! ## The pieces of an access (R115, R116) -/

/-- Part of an access that lies in one atom: its virtual address, its place in memory, its bytes there, and
whether its page is NARROW. -/
structure Piece where
  va : Word
  pa : Nat
  len : Nat
  narrow : Bool
  deriving DecidableEq, Repr, Inhabited

def Piece.atom (p : Piece) : Nat := p.pa / 32

/-- The parts of a range that lie in one atom each, in rising order. -/
def atomParts (va : Word) (n : Nat) : List (Word × Nat) :=
  let o := va.toNat % 32
  (List.range ((o + n + 31) / 32)).map fun i =>
    let lo := if i = 0 then 0 else 32 * i - o
    (va + BitVec.ofNat 64 lo, Nat.min n (32 * (i + 1) - o) - lo)

/-- Translate the parts of an access one by one; the first that fails ends it (R115). -/
def resolveParts (ch c : Nat) (need : Need) : List (Word × Nat) → State →
    (Except (AErr × Word) (List (Piece × Tr))) × State
  | [], s => (.ok [], s)
  | (va, n) :: ps, s =>
    match access ch c va need s with
    | (.error e, s) => (.error (e, va), s)
    | (.ok t, s) =>
      let p : Piece := { va := va, pa := t.pa va, len := if pteNarrow t.pte then n / 2 else n,
                         narrow := pteNarrow t.pte }
      match resolveParts ch c need ps s with
      | (.error e, s) => (.error e, s)
      | (.ok ps, s) => (.ok ((p, t) :: ps), s)

/-- Resolve the ranges of an access.  A NARROW page admits accesses of 4 bytes only (R56). -/
def resolve (ch c : Nat) (need : Need) (segs : List (Word × Nat)) (s : State) :
    (Except (AErr × Word) (List (Piece × Tr))) × State :=
  let parts := segs.flatMap fun g => atomParts g.1 g.2
  match resolveParts ch c need parts s with
  | (.error e, s) => (.error e, s)
  | (.ok ps, s) =>
    match ps.find? fun p => p.1.narrow && segs.any fun g => g.2 ≠ 4 with
    | some p => (.error (.narrow, p.1.va), s)
    | none => (.ok ps, s)

/-- Why the atoms of an access stop it: a poison error (an uncorrectable one makes its atom POISON), or a
context error for a REPLICA that would be written or vacated (R116). -/
inductive AtomErr where
  | poison (bad : List Nat) | replica (va : Word)
  deriving DecidableEq, Repr, Inhabited

/-- The check of an access's atoms; where it meets both, the poison error comes first.
DEDUCED (assumption 71). -/
def checkAtoms (m : Space) (writes : Bool) (ps : List Piece) : Option AtomErr :=
  if ps.any fun p => m.atom p.atom == .poison || m.bad p.atom then
    some (.poison ((ps.filter fun p => m.bad p.atom).map Piece.atom))
  else if writes then (ps.find? fun p => m.atom p.atom == .replica).map fun p => .replica p.va
  else none

/-- The bytes of the pieces, in order; a NARROW element reads as FP32 (R55). -/
def readPieces (m : Space) (ps : List Piece) : List Byte :=
  ps.flatMap fun p =>
    let bs := m.getBytes p.pa p.len
    if p.narrow then widenBytes bs else bs

/-- Write bytes over the pieces, in order (R116). -/
def writePieces : List Piece → List Byte → Space → Space
  | [], _, m => m
  | p :: ps, bs, m =>
    if p.narrow then writePieces ps (bs.drop (2 * p.len)) (m.storeIn p.pa (narrowBytes (bs.take (2 * p.len))))
    else writePieces ps (bs.drop p.len) (m.storeIn p.pa (bs.take p.len))

/-- Make the atoms of the pieces VACANT. -/
def vacatePieces (ps : List Piece) (m : Space) : Space := ps.foldl (fun m p => m.vacate p.atom) m

/-- The vacant report of a word that reads at issue (R116). -/
def vacantReport (m : Space) (ps : List Piece) (a : ASide) : ASide :=
  match ps.find? fun p => m.atom p.atom == .vacant with
  | some p => if a.v then a else { a with v := true, vacr := p.va, vacId := none }
  | none => a

/-- The vacant report of access `id`: of the accesses that report while V is set by one of them, the one that issued
first stands (R116, R186).
DEDUCED (assumption 29). -/
def vacantReportOf (id : Nat) (m : Space) (ps : List Piece) (a : ASide) : ASide :=
  match ps.find? fun p => m.atom p.atom == .vacant with
  | some p =>
    if !a.v || a.vacId.any (id < ·) then { a with v := true, vacr := p.va, vacId := some id } else a
  | none => a

/-! ## Issuing an access -/

def AOp.reads : AOp → Bool
  | .store | .fence | .rel | .acq => false
  | _ => true

def AOp.writes : AOp → Bool
  | .load | .fence | .rel | .acq => false
  | _ => true

def AOp.atomic (o : AOp) : Bool := o.reads && o.writes

/-- The permissions an access needs (R115). -/
def APend.need (p : APend) : Need := { r := p.op.reads, w := p.op.writes || p.mv, vac := p.mv }

/-- A watch slot matches bytes of an access (R133). -/
def Watch.hits (w : Watch) (reads writes : Bool) (g : Word × Nat) : Bool :=
  ((w.kind.getLsbD 1 && reads) || (w.kind.getLsbD 0 && writes)) && overlaps w.base w.len g.1 g.2

/-- Append a debug event for every watch slot of a core that an access matches: one for each slot and word, with the
slot's own kind and the first address in the slot's range of the first segment that meets it (R133, R238).
DESIGN CHOICE (assumption 33). -/
def watchMatch (ch c : Nat) (reads writes : Bool) (segs : List (Word × Nat)) (p : Prov) (s : State) : State :=
  (List.range 4).foldl (fun s n =>
    let w := SMap.get {} (s.core ch c).a.watch n
    match segs.find? fun g => w.hits reads writes g with
    | none => s
    | some g =>
      let va := if w.base.toNat ≤ g.1.toNat then g.1 else w.base
      logEntry (s.ctxOf ch) ([2, BitVec.ofNat 8 n, w.kind.setWidth 8] ++ leBytes 5 0 ++
        leBytes 8 p.word.toNat ++ leBytes 8 va.toNat) s) s

/-- One translation of each page met, in order. -/
def distinctPages : List Tr → List Tr
  | [] => []
  | t :: ts => t :: (distinctPages ts).filter fun u => u.leaf ≠ t.leaf

/-- The error is a context error, and no wait (R115). -/
def AErr.ends : AErr → Bool
  | .deep | .arriving | .migrating => false
  | _ => true

/-- What an access error does to the access: a context error, or a wait (R115). -/
def accessFails (ch c : Nat) (e : AErr × Word) (p : Prov) (s : State) : State :=
  match e.1 with
  | .deep =>
    match translate ch c e.2 s with
    | (some t, s) => demand t (s.ctxOf ch) (dieOf ch) s
    | (none, s) => s
  | .arriving => s
  | .migrating => s
  | .narrow => contextError (s.ctxOf ch) 3 p e.2 s
  | _ => contextError (s.ctxOf ch) 1 p e.2 s

/-- The error of the atoms of a word that reads or writes memory at issue, where nothing has happened yet. -/
def atomsFail (e : AtomErr) (s : State) : State :=
  match e with
  | .poison bad => raiseC 0x1A { s with mem := bad.foldl (fun m i => m.toPoison i) s.mem }
  | .replica va => contextError (s.ctxOf s.act.chair) 2 s.act.prov va s

/-- Issue an access: its pages are translated and counted, and it is pending from now on; `f` does to the A-side
what issue itself does.  Its atoms are met when it is performed.
DEDUCED (assumption 29).  To a watch slot a .MV load is a read and a write.  DESIGN CHOICE (assumption 33). -/
def issueAccess (p : APend) (f : Nat → ASide → ASide) (s : State) : State :=
  let ch := s.act.chair
  let c := s.act.core
  match resolve ch c p.need p.segs s with
  | (.error e, s) => accessFails ch c e s.act.prov s
  | (.ok ps, s) =>
    let s := countPages (distinctPages (ps.map (·.2))) ch s
    let s := watchMatch ch c p.op.reads p.need.w p.segs s.act.prov s
    let (id, s) := s.fresh
    let p := { p with id := id, sig := s.sig, n := s.act.n, at_ := s.here.cycle + 1 }
    let a := f id s.aside
    retire (s.setAside { a with pend := a.pend ++ [p] })

/-! ## Data-queue words (R119, R120) -/

def ASide.dqs (a : ASide) (q : Nat) : List DqEntry := SMap.get [] a.dq q
def ASide.sqs (a : ASide) (q : Nat) : List Vec := SMap.get [] a.sq q

/-- The address of entry e, and how far p moves: LDQ and STQ use one position, LDQS and STQS one per entry, past
2^32 - 1 too.
DEDUCED (assumption 71). -/
def dqSegs (g : AGen) (n : Nat) (strided : Bool) : List (Word × Nat) :=
  (List.range n).map fun e =>
    if strided then (g.addr (g.pos.toNat + e), 128) else (g.addr g.pos.toNat + BitVec.ofNat 64 (128 * e), 128)

/-- A position that the word uses is at or past the limit (R117). -/
def dqPast (g : AGen) (n : Nat) (strided : Bool) : Bool :=
  g.past g.pos.toNat || (strided && g.past (g.pos.toNat + n - 1))

def AGen.advance (g : AGen) (n : Nat) : AGen := { g with pos := BitVec.ofNat 32 (g.pos.toNat + n) }

/-- What a data-queue word takes of generator `ag` at issue, where it moves on by n. -/
def AGen.taken (g : AGen) (ag : BitVec 4) (n : Nat) : Option (BitVec 4 × BitVec 32 × BitVec 32) :=
  some (ag, g.pos, (g.advance n).pos)

/-- Reserve `n` entries of a data queue (R95). -/
def ASide.reserve (a : ASide) (q id n : Nat) : ASide :=
  { a with dq := SMap.put [] a.dq q (a.dqs q ++ List.replicate n { id := id }) }

/-- LDQ and LDQS; the limit of R117 comes before the alignment of R119.
DEDUCED (assumption 71). -/
def aLdq (strided mv : Bool) (q : BitVec 2) (ag cnt : BitVec 4) (s : State) : State :=
  let a := s.aside
  let g := a.gen ag
  let n := cnt.toNat + 1
  let segs := dqSegs g n strided
  let m := if strided then n else 1
  if (a.dqs q.toNat).length + n > Config.dataQueue then s
  else if dqPast g n strided then raiseC 0x20 s
  else if segs.any fun x => x.1.toNat % 32 ≠ 0 then raiseC 0x1F s
  else
    issueAccess { id := 0, op := .load, segs := segs, mv := mv, took := { gen := g.taken ag m } } (fun id a =>
      (a.reserve q.toNat id n).setGen ag (g.advance m)) s

/-- The destination of a data-queue load is known by the number its entries were reserved under. -/
def execLdq (q : BitVec 2) (ag cnt : BitVec 4) (s : State) : Res := .next (aLdq false false q ag cnt s)
def execLdqMv (q : BitVec 2) (ag cnt : BitVec 4) (s : State) : Res := .next (aLdq false true q ag cnt s)
def execLdqs (q : BitVec 2) (ag cnt : BitVec 4) (s : State) : Res := .next (aLdq true false q ag cnt s)
def execLdqsMv (q : BitVec 2) (ag cnt : BitVec 4) (s : State) : Res := .next (aLdq true true q ag cnt s)

/-- The elements an LDQG gathers, as positions, in the order it uses them (R120). -/
def gatherIdx (size1 : Bool) (es : List Vec) : List (BitVec 32) :=
  es.flatMap fun e => (List.range (if size1 then 4 else 32)).map fun i => lane32 e i

/-- LDQG. -/
def aLdqg (mv size1 : Bool) (q : BitVec 2) (ag cnt : BitVec 4) (sq : BitVec 1) (s : State) : State :=
  let a := s.aside
  let g := a.gen ag
  let n := cnt.toNat + 1
  let es := a.sqs sq.toNat
  let w := if size1 then 32 else 4
  if (a.dqs q.toNat).length + n > Config.dataQueue ∨
      s.me.ripe (keySq sq.toNat) es.length s.here.cycle < n then s
  else
    let idx := gatherIdx size1 (es.take n)
    let segs := idx.map fun i => (g.base + i.signExtend 64 * g.stride, w)
    if idx.any fun i => g.past i.toNat then raiseC 0x20 s
    else if segs.any fun x => x.1.toNat % w ≠ 0 then raiseC 0x1F s
    else
      issueAccess { id := 0, op := .load, segs := segs, mv := mv,
                    took := { sq := some (sq.toNat, es.take n) } } (fun id a =>
        let a := a.reserve q.toNat id n
        { a with sq := SMap.put [] a.sq sq.toNat (es.drop n) }) s

def execLdqg (q : BitVec 2) (ag cnt : BitVec 4) (sq size : BitVec 1) (s : State) : Res :=
  .next (aLdqg false (size == 1) q ag cnt sq s)
def execLdqgMv (q : BitVec 2) (ag cnt : BitVec 4) (sq : BitVec 1) (s : State) : Res :=
  .next (aLdqg true true q ag cnt sq s)

/-- STQ and STQS. -/
def aStq (strided : Bool) (q : BitVec 1) (ag cnt : BitVec 4) (s : State) : State :=
  let a := s.aside
  let g := a.gen ag
  let n := cnt.toNat + 1
  let es := a.sqs q.toNat
  let segs := dqSegs g n strided
  let m := if strided then n else 1
  if s.me.ripe (keySq q.toNat) es.length s.here.cycle < n then s
  else if dqPast g n strided then raiseC 0x20 s
  else if segs.any fun x => x.1.toNat % 32 ≠ 0 then raiseC 0x1F s
  else
    issueAccess { id := 0, op := .store, segs := segs, data := (es.take n).flatMap vecBytes,
                  took := { gen := g.taken ag m, sq := some (q.toNat, es.take n) } } (fun _ a =>
      ({ a with sq := SMap.put [] a.sq q.toNat (es.drop n) }).setGen ag (g.advance m)) s

def execStq (q : BitVec 1) (ag cnt : BitVec 4) (s : State) : Res := .next (aStq false q ag cnt s)
def execStqs (q : BitVec 1) (ag cnt : BitVec 4) (s : State) : Res := .next (aStq true q ag cnt s)

/-! ## Scalar loads and stores (R121) -/

def execLds (d a : BitVec 5) (imm : BitVec 22) (s : State) : Res :=
  let va := s.aside.reg a + sext22 imm
  .next (if va.toNat % 8 ≠ 0 then raiseC 0x1F s
    else issueAccess { id := 0, op := .load, segs := [(va, 8)], dst := .reg d } (fun _ a => a) s)

def execSts (d a : BitVec 5) (imm : BitVec 22) (s : State) : Res :=
  let va := s.aside.reg a + sext22 imm
  .next (if va.toNat % 8 ≠ 0 then raiseC 0x1F s
    else issueAccess { id := 0, op := .store, segs := [(va, 8)],
                       data := leBytes 8 (s.aside.reg d).toNat } (fun _ a => a) s)

def execLdsq (q : BitVec 2) (a : BitVec 5) (imm : BitVec 22) (s : State) : Res :=
  let va := s.aside.reg a + sext22 imm
  .next (if (s.aside.dqs q.toNat).length ≥ Config.dataQueue then s
    else if va.toNat % 8 ≠ 0 then raiseC 0x1F s
    else issueAccess { id := 0, op := .load, segs := [(va, 8)] }
      (fun id a => a.reserve q.toNat id 1) s)

/-! ## Atomics (R127) -/

/-- Issue an atomic on `n` bytes; its operands are captured. -/
def aAtomic (op : AOp) (n : Nat) (d a : BitVec 5) (ops : List Word) (sc : Scope) (s : State) : Res :=
  let va := s.aside.reg a
  .next (if va.toNat % n ≠ 0 then raiseC 0x21 s
    else issueAccess { id := 0, op := op, segs := [(va, n)], dst := .reg d, sc := sc,
                       data := ops.flatMap fun w => leBytes 8 w.toNat } (fun _ a => a) s)

def execAtadd (d a b : BitVec 5) (sc : Scope) (s : State) : Res := aAtomic .atadd 8 d a [s.aside.reg b] sc s
def execAtfadd (d a b : BitVec 5) (sc : Scope) (s : State) : Res := aAtomic .atfadd 4 d a [s.aside.reg b] sc s
def execAtmin (d a b : BitVec 5) (sc : Scope) (s : State) : Res := aAtomic .atmin 8 d a [s.aside.reg b] sc s
def execAtmax (d a b : BitVec 5) (sc : Scope) (s : State) : Res := aAtomic .atmax 8 d a [s.aside.reg b] sc s
def execAtxch (d a b : BitVec 5) (sc : Scope) (s : State) : Res := aAtomic .atxch 8 d a [s.aside.reg b] sc s
def execAtcas (d a b c : BitVec 5) (sc : Scope) (s : State) : Res :=
  aAtomic .atcas 8 d a [s.aside.reg b, s.aside.reg c] sc s
def execAtor (d a b : BitVec 5) (sc : Scope) (s : State) : Res := aAtomic .ator 8 d a [s.aside.reg b] sc s
def execAtand (d a b : BitVec 5) (sc : Scope) (s : State) : Res := aAtomic .atand 8 d a [s.aside.reg b] sc s

/-- The new value of an atomic (R127). -/
def atomicNew (op : AOp) (old : Word) (b c : Word) : Word :=
  match op with
  | .atadd => old + b
  | .atfadd => BitVec.ofNat 64 (fAdd fp32 .rne (unpack fp32 (old.toNat % 2 ^ 32)) (unpack fp32 (b.toNat % 2 ^ 32))).1
  | .atmin => minS old b
  | .atmax => maxS old b
  | .atxch => b
  | .atcas => if old = c then b else old
  | .ator => old ||| b
  | .atand => old &&& b
  | _ => old

/-! ## Fences (R128) -/

/-- Issue an ordering word: it is pending until what it orders is done. -/
def aFence (op : AOp) (sc : Scope) (s : State) : Res :=
  let (id, s) := s.fresh
  let a := s.aside
  .next (retire (s.setAside { a with pend := a.pend ++ [{ id := id, op := op, sc := sc, sig := s.sig, n := s.act.n }] }))

def execFence (sc : Scope) (s : State) : Res := aFence .fence sc s
def execRel (sc : Scope) (s : State) : Res := aFence .rel sc s
def execAcq (sc : Scope) (s : State) : Res := aFence .acq sc s

/-! ## Performing an access (R116, R128, R129, R271) -/

/-- The places of a segment of an access, which is no longer than a page: its part in each of its pages; a NARROW page
holds half as many bytes (R55, R115). -/
def placesOf (s : State) (k : Nat) (x : Word × Nat) : List (Nat × Nat) :=
  let n := Nat.min x.2 (4096 - x.1.toNat % 4096)
  let parts := if n < x.2 then [(x.1, n), (x.1 + BitVec.ofNat 64 n, x.2 - n)] else [x]
  parts.filterMap fun p => (walk s k p.1).map fun t => (t.pa p.1, if pteNarrow t.pte then (p.2 + 1) / 2 else p.2)

/-- Two accesses overlap in bytes, by virtual address or at one place. -/
def segsMeet (s : State) (k : Nat) (xs ys : List (Word × Nat)) : Bool :=
  (xs.any fun x => ys.any fun y => overlaps x.1 x.2 y.1 y.2) ||
    (let us := ys.flatMap (placesOf s k)
     (xs.flatMap (placesOf s k)).any fun p => us.any fun u => p.1 < u.1 + u.2 && u.1 < p.1 + p.2)

/-- The earlier access or ordering word `q` holds back the later `p`.
DEDUCED (assumption 30). -/
def APend.blocks (s : State) (k : Nat) (q p : APend) : Bool :=
  match q.op, p.op with
  | .fence, _ => true
  | _, .fence => true
  | .acq, _ => true
  | .rel, .rel => true
  | .rel, o => o.writes
  | _, .rel => true
  | o, .acq => o.reads
  | o, o' => o.atomic || o'.atomic || (o.writes && o'.writes) || segsMeet s k q.segs p.segs

/-- No earlier access holds back the pending access of a number. -/
def APend.clear (s : State) (k : Nat) (id : Nat) : List APend → Bool
  | [] => true
  | q :: qs =>
    if q.id = id then true
    else !(match qs.find? (·.id = id) with | some p => q.blocks s k p | none => false) && APend.clear s k id qs

/-- Fill the reserved entries of a number, in order, from the bytes loaded (R95). -/
def fillEntries (id per cycle : Nat) : List DqEntry → List Byte → List DqEntry
  | [], _ => []
  | e :: es, bs =>
    if e.id = id then
      { e with data := some (bytesVec (bs.take per)), at_ := cycle + 1 } :: fillEntries id per cycle es (bs.drop per)
    else e :: fillEntries id per cycle es bs

/-- Fill a load's entries in whichever data queue holds them: they can be popped from the next cycle on (R94). -/
def ASide.fill (a : ASide) (id : Nat) (bs : List Byte) (cycle : Nat) : ASide :=
  { a with dq := a.dq.map fun q =>
    let n := (q.2.filter (·.id = id)).length
    (q.1, if n = 0 then q.2 else fillEntries id (bs.length / n) cycle q.2 bs) }

/-- The end of a pending access: it leaves, and its signal is added. -/
def endAccess (ch c : Nat) (p : APend) (s : State) : State :=
  let y := s.core ch c
  addSig ch c p.sig 1 (s.setCore ch c { y with a := { y.a with pend := y.a.pend.filter (·.id ≠ p.id) } })

/-- An issued access gives its issue back (R116). -/
def giveBack (ch c : Nat) (p : APend) (s : State) : State :=
  s.updCore ch c fun y => { y with a := y.a.unissue p }

/-- An issued access waits for the restart of its frozen chair (R224). -/
def stickA (ch c id : Nat) (s : State) : State :=
  s.updCore ch c fun y =>
    { y with a := { y.a with pend := updFirst (·.id = id) (fun p => { p with stuck := true }) y.a.pend } }

/-- An error of the atoms of an issued access: it takes no effect, and its word waits for replay (R116, R224); a
context error changes no register and no queue entry (R186).
DEDUCED (assumption 29). -/
def pendFails (ch c : Nat) (p : APend) (e : AtomErr) (s : State) : State :=
  match e with
  | .poison bad =>
    let s := { s with mem := bad.foldl (fun m i => m.toPoison i) s.mem }
    if (s.chair ch).open_ then recordC ch c { p.sig.record 0x1A 1 with pid := some p.id } s else stickA ch c p.id s
  | .replica va => contextError (s.ctxOf ch) 2 p.sig.prov va (giveBack ch c p s)

/-- The end of a pending access whose value the frame keeps: its signal is added when the value lands (R224, R225). -/
def endCaptured (ch c : Nat) (p : APend) (s : State) : State :=
  s.updCore ch c fun y =>
    { y with a := { y.a with pend := y.a.pend.filter (·.id ≠ p.id) },
             later := if p.sig.amt = 0 then y.later else y.later ++ [(p.sig.sem.toNat, p.sig.amt, p.sig, 1)] }

/-- Data loaded comes to its register or its queue entries.  In a chair that is frozen it is captured: it lands at the end of
the restart cycle, as a result in flight with one cycle to go (R225, R228). -/
def ASide.land (a : ASide) (p : APend) (bs : List Byte) (cycle : Nat) (frozen : Bool) : ASide :=
  let v : Word := BitVec.ofNat 64 (leNat bs)
  match p.dst with
  | .reg d => if frozen then { a with late := a.late ++ [{ d := d, at_ := cycle + 1, v := v }] } else a.setReg d v
  | .none => a.fill p.id bs cycle

/-- Perform a pending load or atomic whole, and land its result. -/
def performLoad (ch c : Nat) (p : APend) (ps : List Piece) (s : State) : State :=
  let bs := readPieces s.mem ps
  let a := vacantReportOf p.id s.mem ps (s.core ch c).a
  let old : Word := BitVec.ofNat 64 (leNat bs)
  let arg := fun i => BitVec.ofNat 64 (leNat ((p.data.drop (8 * i)).take 8))
  let m := if p.op.atomic then
      writePieces ps (leBytes bs.length (atomicNew p.op old (arg 0) (arg 1)).toNat) s.mem
    else if p.mv then vacatePieces ps s.mem else s.mem
  let frozen := !(s.chair ch).open_
  let a := a.land p bs (s.chair ch).cycle frozen
  let s := { s with mem := m }.updCore ch c fun y => { y with a := a }
  if frozen then endCaptured ch c p s else endAccess ch c p s

/-- What the chair's words have begun may go on: no frame of the chair is closed (R224).
DEDUCED (assumption 40). -/
def Chair.alive (x : Chair) : Bool := x.st == .run

/-- Perform pending access `k` if nothing holds it back (R129); it takes a cycle at least (R113), and every observer sees
it from then on.
DESIGN CHOICE (assumption 5).  DEDUCED (assumption 9). -/
def performA (ch c k : Nat) (s : State) : State :=
  let y := s.core ch c
  match y.a.pend.find? (·.id = k) with
  | none => s
  | some p =>
    if (s.chair ch).alive = false ∨ y.recorded 1 k ∨ p.stuck ∨ (s.chair ch).cycle < p.at_ then s
    else if APend.clear s (s.ctxOf ch) k y.a.pend = false then s
    else if p.op.reads = false && p.op.writes = false then endAccess ch c p s
    else
      match resolve ch c p.need p.segs s with
      | (.error e, s) => accessFails ch c e p.sig.prov (if e.1.ends then giveBack ch c p s else s)
      | (.ok ps, s) =>
        let ps := ps.map (·.1)
        if ps.any fun q => s.ganged q.pa then s
        else match checkAtoms s.mem p.need.w ps with
        | some e => pendFails ch c p e s
        | none =>
          if p.op.reads then seeWords (performLoad ch c p ps s)
          else seeWords (endAccess ch c p { s with mem := writePieces ps p.data s.mem })

/-- A pending access has left the A-side and can still complete: nothing holds it back, it has met no fault, none of its
channels is ganged, its tenant has a turn at each home, and links lead there (R8, R224, R263, R323). -/
def leftAside (ch c : Nat) (p : APend) (s : State) : Bool :=
  let y := s.core ch c
  let k := s.ctxOf ch
  !p.stuck && !y.recorded 1 p.id && APend.clear s k p.id y.a.pend &&
    !((p.segs.flatMap fun g => atomParts g.1 g.2).any fun g => (walk s k g.1).any fun t =>
      s.ganged (t.pa g.1) || !s.served k (t.pa g.1) || !s.reaches (dieOf ch) (t.pa g.1))

/-- LOAD_DATA_RETURN: pending load or atomic `k` is performed and its data lands (R113, R116). -/
def execLoadDataReturn (ch c k : Nat) (s : State) : Res :=
  .next (match (s.core ch c).a.pend.find? (·.id = k) with
    | some p => if p.op.reads then performA ch c k s else s
    | none => s)

/-- STORE_PERFORMED: pending store `k`, or ordering word, is performed (R119, R128, R271). -/
def execStorePerformed (ch c k : Nat) (s : State) : Res :=
  .next (match (s.core ch c).a.pend.find? (·.id = k) with
    | some p => if p.op.reads then s else performA ch c k s
    | none => s)

/-! ## The probe cache (R123 to R125) -/

/-- The tag entry of way `w` of set `st`. -/
def ASide.tag (a : ASide) (st w : Nat) : Tag := SMap.get {} a.tags (4 * st + w)

def ASide.setTag (a : ASide) (st w : Nat) (t : Tag) : ASide := { a with tags := SMap.put {} a.tags (4 * st + w) t }

/-- The set of a block (R123). -/
def ASide.setOf (a : ASide) (x : Word) : Nat := x.toNat / 2048 % 2 ^ (field 8 3 a.pcfg).toNat

/-- The slot's first byte in the scratchpad (R123). -/
def ASide.slot (a : ASide) (st w : Nat) : Nat := (field 0 8 a.pcfg).toNat * 2048 + (4 * st + w) * 2048

/-- The way of a set that holds a block in one of some states. -/
def ASide.wayOf (a : ASide) (st : Nat) (x : Word) (f : TagState → Bool) : Option Nat :=
  (List.range 4).find? fun w => let t := a.tag st w; t.block == x && f t.st

/-- The way a miss takes: the lowest INVALID one, else the VALID one touched longest ago (R124). -/
def ASide.victim (a : ASide) (st : Nat) : Option Nat :=
  match (List.range 4).find? fun w => (a.tag st w).st == .invalid with
  | some w => some w
  | none =>
    let vs := (List.range 4).filter fun w => (a.tag st w).st == .valid
    vs.foldl (fun b w => match b with
      | none => some w
      | some v => if (a.tag st w).touched < (a.tag st v).touched then some w else some v) none

/-- The page of a block may not move from the PROBE until its eviction completes (R124, R209): its leaf, and the state. -/
def holdBlock (ch c : Nat) (x : Word) (s : State) : Option Nat × State :=
  match translate ch c x s with
  | (some t, s) => (some t.leaf, holdPages [t] true s)
  | (none, s) => (none, s)

/-- Give PROBE's two results: the slot offset and the outcome (R124). -/
def probeResult (d : BitVec 5) (off : Nat) (hit : Bool) (s : State) : State :=
  let a := s.aside.setReg d (BitVec.ofNat 64 off)
  s.setAside { a with po := a.po ++ [hit] }

/-- A PROBE miss takes way `w` of set `st` for block `x`; the entry counts as touched in the cycle in which it takes the
block.
DESIGN CHOICE (assumption 31). -/
def probeMiss (d : BitVec 5) (x : Word) (st w : Nat) (s : State) : State :=
  let a := s.aside
  let off := a.slot st w
  let ch := s.act.chair
  let c := s.act.core
  let now := s.here.cycle
  if s.here.ownOk c off 2048 = false then raiseC 0x18 s
  else
    let t := a.tag st w
    let g := s.sig
    let (leaf, s) := holdBlock ch c x s
    let t' : Tag := if t.st = .valid then { t with st := .evicting, next := some (x, g), nextLeaf := leaf, moved := 0 }
      else { st := .filling, block := x, touched := now, sigs := [g], leaf := leaf }
    retire (probeResult d off false (s.setAside (s.aside.setTag st w t')))

/-- PROBE (R124). -/
def aProbe (d r : BitVec 5) (s : State) : State :=
  let a := s.aside
  let x := a.reg r &&& ~~~0x7FF#64
  let st := a.setOf x
  let ch := s.act.chair
  let c := s.act.core
  let now := s.here.cycle
  let full := a.po.length ≥ Config.outcomeQueue
  if a.pcfg.getLsbD 11 = false then raiseC 0x22 s
  else
    match a.wayOf st x fun t => t == .valid || t == .filling with
    | some w =>
      if full then raiseC 0x25 s
      else
        let t := a.tag st w
        let s := s.setAside (a.setTag st w { t with
                                                     touched := now,
                                                     sigs := if t.st = .filling then t.sigs ++ [s.sig] else t.sigs })
        let s := probeResult d (a.slot st w) true s
        if t.st = .filling then retire s else retireSig s
    | none =>
      if (List.range 4).any (fun w => ((a.tag st w).block == x && (a.tag st w).st == .evicting) ||
          (a.tag st w).next.any fun n => n.1 == x) then s
      else
        match probeRange ch c { r := true, w := true } x 2048 s with
        | ((_, some (.migrating, _)), s) => s
        | ((_, some e), s) => pageFault 1 { r := true, w := true } e.1 e.2 x 2048 s
        | ((ts, none), s) =>
          if ts.any fun t => pteNarrow t.pte then contextError (s.ctxOf ch) 3 s.act.prov x s
          else
            match a.victim st with
            | none => s
            | some w => if full then raiseC 0x25 s else probeMiss d x st w (countPages ts ch s)

def execProbe (d a : BitVec 5) (s : State) : Res := .next (aProbe d a s)

/-- The slot of a tag entry is the core's own to move atoms in and out of (R130). -/
def slotOwn (ch c key : Nat) (s : State) : Bool :=
  let a := (s.core ch c).a
  (s.chair ch).ownOk c (a.slot (key / 4) (key % 4)) 2048

/-- PEVICT (R124); a block that waits for its way is waited for.
DESIGN CHOICE (assumption 31). -/
def aPevict (r : BitVec 5) (s : State) : State :=
  let a := s.aside
  let x := a.reg r &&& ~~~0x7FF#64
  let st := a.setOf x
  if a.pcfg.getLsbD 11 = false then raiseC 0x22 s
  else
    match a.wayOf st x fun t => t ≠ .invalid with
    | none =>
      if (List.range 4).any fun w => (a.tag st w).next.any fun n => n.1 == x then s else retireSig s
    | some w =>
      let t := a.tag st w
      if t.st = .filling then s
      else if slotOwn s.act.chair s.act.core (4 * st + w) s = false then raiseC 0x18 s
      else
        retire (s.setAside (a.setTag st w
          { t with st := .evicting, back := t.back ++ [s.sig], moved := if t.st = .valid then 0 else t.moved }))

def execPevict (a : BitVec 5) (s : State) : Res := .next (aPevict a s)

/-- Move atoms pair by pair, by the MOVE rows; the first error stops it, and loss records are made: the state, how many
pairs have moved, and the error (R124, R180). -/
def moveAll (k : Nat) (p : Prov) : List Pair2 → State → State × Nat × Option MErr
  | [], s => (s, 0, none)
  | x :: xs, s =>
    let r := movePair false x s
    match r.err with
    | some e => (r.s, 0, some e)
    | none =>
      let s := match r.loss with
        | some (l, q) => lossRecord k p l q 0 r.s
        | none => r.s
      let (s, n, e) := moveAll k p xs s
      (s, n + 1, e)

/-- The pairs of a block and its slot: memory first. -/
def blockPairs (ch c pa off : Nat) (fill : Bool) : List Pair2 :=
  (List.range 64).map fun i =>
    if fill then { srcs := [.mem (pa + 32 * i)], dsts := [.sp ch c (off + 32 * i)] }
    else { srcs := [.sp ch c (off + 32 * i)], dsts := [.mem (pa + 32 * i)] }

/-- The word whose fill or eviction it is: a PROBE of the block, a PEVICT, or the PROBE that waits for the way. -/
def Tag.word (t : Tag) : Sig := (t.sigs ++ t.back ++ (t.next.map (·.2)).toList).headD {}

/-- The error of a fill or an eviction; the entry stays as it is, with what has moved, for replay (R179).
DESIGN CHOICE (assumption 31). -/
def tagFails (ch c st w n code : Nat) (t : Tag) (e : Option MErr) (s : State) : State :=
  let g := t.word
  let s := s.updCore ch c fun y => { y with a := y.a.setTag st w { t with moved := t.moved + n } }
  match e with
  | some (.ctx r) => contextError (s.ctxOf ch) r g.prov t.block s
  | _ => recordC ch c { g.record code 1 with tagKey := some (4 * st + w) } s

/-- The core's record names the tag entry of a key. -/
def Core.tagRecorded (y : Core) (k : Nat) : Bool :=
  match y.rec_ with
  | some r => r.tagKey == some k
  | none => false

/-- The `n` atoms of a block that a fill or an eviction has moved, from the entry's count on, are accesses of this A-side: a
fill reads and vacates their bytes in memory, an eviction writes them (R124, R133).
DESIGN CHOICE (assumption 33). -/
def blockWatch (ch c : Nat) (t : Tag) (n : Nat) (s : State) : State :=
  if n = 0 then s
  else watchMatch ch c (t.st == .filling) true [(t.block + BitVec.ofNat 64 (32 * t.moved), 32 * n)] t.word.prov s

/-- The atoms of a block may not be moved now: a table entry that its translation needs, or the block, lies in a ganged
pseudo-channel (R263); or no link leads to it (R8, R9). -/
def blockWaits (ch c : Nat) (x : Word) (s : State) : Bool :=
  tablesWait ch c x { r := true } s ||
    ((translate ch c x s).1.any fun t => s.gangedIn (t.pa x) 2048 || !s.reaches (dieOf ch) (t.pa x))

/-- PROBE_FILL_COMPLETE: the entry's block has moved into its slot (R124, R125). -/
def execProbeFillComplete (ch c st w : Nat) (s : State) : Res :=
  let t := (s.core ch c).a.tag st w
  .next (if t.st ≠ .filling ∨ (s.chair ch).alive = false ∨ (s.core ch c).tagRecorded (4 * st + w) ∨
      blockWaits ch c t.block s then s
    else
      match translate ch c t.block s with
      | (none, s) => s
      | (some tr, s) =>
        if slotOwn ch c (4 * st + w) s = false then tagFails ch c st w 0 0x18 t none s
        else
        let off := (s.core ch c).a.slot st w
        match moveAll (s.ctxOf ch) t.word.prov ((blockPairs ch c (tr.pa t.block) off true).drop t.moved) s with
        | (s, n, some e) => tagFails ch c st w n 0x1A t (some e) (seeWords (blockWatch ch c t n s))
        | (s, n, none) =>
          let s := seeWords (blockWatch ch c t n s)
          let y := s.core ch c
          let s := s.setCore ch c { y with a := y.a.setTag st w { t with st := .valid, sigs := [], moved := 0 } }
          t.sigs.foldl (fun s g => addSig ch c g 1 s) s)

/-- PROBE_EVICTION_COMPLETE: the slot's block is back in memory (R124, R125). -/
def execProbeEvictionComplete (ch c st w : Nat) (s : State) : Res :=
  let t := (s.core ch c).a.tag st w
  .next (if t.st ≠ .evicting ∨ (s.chair ch).alive = false ∨ (s.core ch c).tagRecorded (4 * st + w) ∨
      blockWaits ch c t.block s then s
    else
      match translate ch c t.block s with
      | (none, s) => s
      | (some tr, s) =>
        if slotOwn ch c (4 * st + w) s = false then tagFails ch c st w 0 0x18 t none s
        else
        let off := (s.core ch c).a.slot st w
        match moveAll (s.ctxOf ch) t.word.prov ((blockPairs ch c (tr.pa t.block) off false).drop t.moved) s with
        | (s, n, some e) => tagFails ch c st w n 0x1A t (some e) (seeWords (blockWatch ch c t n s))
        | (s, n, none) =>
          let s := releaseLeaves t.leaf.toList (countPages [tr] ch (seeWords (blockWatch ch c t n s)))
          let y := s.core ch c
          let t' : Tag := match t.next with
            | some (x, g) => { st := .filling, block := x, touched := (s.chair ch).cycle, sigs := [g], leaf := t.nextLeaf }
            | none => {}
          let s := s.setCore ch c { y with a := y.a.setTag st w t' }
          t.back.foldl (fun s g => addSig ch c g 1 s) s)

/-! ## Range probes and pins (R126, R215) -/

/-- The range of RPROBE or RUNPIN is one that R126 admits. -/
def rangeOk (a b : Word) : Bool :=
  1 ≤ b.toNat && b.toNat ≤ 2 ^ 30 && canonical a && canonical (a + b - 1) && a.toNat + b.toNat ≤ 2 ^ 64

/-- RPROBE and RPROBE.WAIT.
DEDUCED (assumption 69). -/
def aRprobe (wait : Bool) (d ra rb : BitVec 5) (s : State) : State :=
  let a := s.aside
  let base := a.reg ra
  let len := a.reg rb
  let ch := s.act.chair
  let c := s.act.core
  if a.still = false then s
  else if rangeOk base len = false then raiseC 0x23 s
  else
    match probeRange ch c { r := true } base len.toNat s with
    | ((_, some (.migrating, _)), s) => s
    | ((_, some e), s) =>
      if wait && (e.1 == .deep || e.1 == .arriving) then aResult d 1 s
      else
        let done := (e.2 - base).toNat
        pageFault 0 { r := true } e.1 e.2 e.2 (len.toNat - done) s
    | ((_, none), s) =>
      let a := s.aside
      if a.pins.length ≥ 16 then raiseC 0x24 s
      else aDone ({ a with pins := a.pins ++ [(base, len.toNat)] }.setReg d 0) s

def execRprobe (d a b : BitVec 5) (s : State) : Res := .next (aRprobe false d a b s)
def execRprobeWait (d a b : BitVec 5) (s : State) : Res := .next (aRprobe true d a b s)

def execRunpin (ra rb : BitVec 5) (s : State) : Res :=
  let a := s.aside
  let base := a.reg ra
  let len := a.reg rb
  .next (if rangeOk base len = false then raiseC 0x23 s
    else
      aDone { a with pins := a.pins.filter fun p =>
        !(base.toNat ≤ p.1.toNat && p.1.toNat + p.2 ≤ base.toNat + len.toNat) } s)

/-! ## Handles (R130, R131) and watch slots (R132) -/

/-- Every word of the core taken before number `n` has completed (R109, R131). -/
def Core.stillBefore (y : Core) (n eng : Nat) : Bool :=
  (y.queues.all fun q => q.1 == eng || q.2.all fun x => x.n ≥ n) && y.engineStill

def execHgive (h : BitVec 6) (a : BitVec 5) (s : State) : Res :=
  let c := s.act.core
  let x := s.here
  let v := x.handle h
  let t := (s.aside.reg a).toNat
  .next (if s.me.stillBefore s.act.n 1 = false then s
    else if v.st ≠ .held c ∨ t > 15 ∨ (x.core t).phase = .exited then raiseC 0x18 s
    else if t = c then retireSig s
    else retireSig (s.setHere (x.setHandle h { v with st := .offered c t })))

def execHtake (h : BitVec 6) (s : State) : Res :=
  let x := s.here
  let v := x.handle h
  .next (match v.st with
    | .offered _ t =>
      if t = s.act.core then retireSig (s.setHere (x.setHandle h { v with st := .held t })) else s
    | _ => s)

/-- The descriptor HQUERY gives (R131). -/
def Handle.word (h : Handle) : Word :=
  let body := h.home * 2 ^ 50 + h.len * 2 ^ 14 + h.base
  match h.st with
  | .free => 0
  | .held c => BitVec.ofNat 64 (2 ^ 62 + c * 2 ^ 58 + body)
  | .offered c t => BitVec.ofNat 64 (2 ^ 63 + c * 2 ^ 58 + t * 2 ^ 54 + body)

def execHquery (d : BitVec 5) (h : BitVec 6) (s : State) : Res :=
  .next (aResult d (s.here.handle h).word s)

def execWatch (n : BitVec 2) (a b : BitVec 5) (kind : BitVec 2) (s : State) : Res :=
  let y := s.aside
  let len := (y.reg b).toNat
  .next (if kind = 0 then aDone { y with watch := SMap.put {} y.watch n.toNat {} } s
    else if len = 0 ∨ len > 2 ^ 30 then raiseC 0x23 s
    else aDone { y with watch := SMap.put {} y.watch n.toNat { kind := kind, base := y.reg a, len := len } } s)

end Sys2Proof.Machine
end

