-- ==== Sys2Proof/Machine/Replay.lean ====
section
/-!
DEFINITION. Record and replay (R354, R355): the type 6 entries of the event log, and the order they give a
chair's inputs.
-/

namespace Sys2Proof.Machine

open Sys2Proof

/-- The kinds of a type 6 entry (R354). -/
def rrGrant : Nat := 1
def rrArrival : Nat := 2
def rrGrab : Nat := 3
def rrCondition : Nat := 4
def rrHostWrite : Nat := 5

/-- A type 6 entry: kind, chair, entry number within the chair, value (R354). -/
def rrEntry (kind ch seq : Nat) (value : List Byte) : List Byte :=
  [6, 0, BitVec.ofNat 8 kind, 0] ++ leBytes 4 ch ++ leBytes 8 seq ++ (value ++ List.replicate 48 0).take 48

/-- Record one input of a chair, where the context is under RECORD (R354). -/
def recordInput (k ch kind : Nat) (value : List Byte) (s : State) : State :=
  let x := s.ctx k
  if x.desc1 1 55 1 = 1 then
    let seq := SMap.get 0 x.rr ch
    logEntry k (rrEntry kind ch seq value) (s.setCtx k { x with rr := SMap.put 0 x.rr ch (seq + 1) })
  else s

/-- The entries of a chair in the supplied log, as entry number, kind and value. -/
def replayEntries (k ch : Nat) (s : State) : List (Nat × Nat × List Byte) :=
  ((s.ctx k).supplied s.mem).filterMap fun e =>
    if e.getD 0 0 = 6 ∧ leNat ((e.drop 4).take 4) = ch then
      some (leNat ((e.drop 8).take 8), (e.getD 2 0).toNat, e.drop 16)
    else none

/-- What replay says of an input that is ready: it goes on, with the value of its entry; it waits until its
entry is next; or it is a divergence (R355). -/
inductive Gate where
  | go (value : Option (List Byte)) | wait | diverge
  deriving DecidableEq, Repr, Inhabited

/-- Judge an input of a kind whose source satisfies `src` against the chair's next entry (R355). -/
def replayGate (k ch kind : Nat) (src : List Byte → Bool) (s : State) : Gate :=
  let x := s.ctx k
  if x.desc1 1 54 1 = 0 then .go none
  else
    let n := SMap.get 0 x.rr ch
    let es := replayEntries k ch s
    let hit := fun (e : Nat × Nat × List Byte) => e.2.1 == kind && src e.2.2
    match es.find? fun e => e.1 == n with
    | none => .go none
    | some e =>
      if hit e then .go (some e.2.2)
      else if es.any fun e => e.1 > n && hit e then .wait
      else .diverge

/-- An input of a chair, under RECORD and REPLAY: `f` performs it, given the entry's value if there is one. -/
def input (k ch kind : Nat) (src : List Byte → Bool) (f : Option (List Byte) → State → State) (s : State) :
    State :=
  match replayGate k ch kind src s with
  | .wait => s
  | .diverge =>
    let d := dieOf ch
    contextError k 10 {} 0 (s.updDie d fun y => { y with rrDiv := BitVec.ofNat 32 k })
  | .go none => f none s
  | .go (some v) =>
    let s := s.updCtx k fun x => { x with rr := SMap.put 0 x.rr ch (SMap.get 0 x.rr ch + 1) }
    f (some v) (s.updDie (dieOf ch) fun y => { y with rrNrec := y.rrNrec + 1 })

end Sys2Proof.Machine
end

