-- ==== Sys2Proof/Machine/Kernels.lean ====
section
/-!
DEFINITION. Launch records, kernels and their chairs (R314 to R319), as the gaffer's words and the dispatcher
share them.
-/

namespace Sys2Proof.Machine

open Sys2Proof

/-- A field of a launch record (R314). -/
def Kernel.fld (k : Kernel) (i lo w : Nat) : Nat := ((k.words.getD i 0).toNat >>> lo) % 2 ^ w

def Kernel.ctxId (k : Kernel) : Nat := k.fld 0 48 12
def Kernel.minDie (k : Kernel) : Nat := k.fld 0 44 4
def Kernel.maxDie (k : Kernel) : Nat := k.fld 0 40 4
def Kernel.chairs (k : Kernel) : Nat := k.fld 0 34 5 + 1
def Kernel.argLen (k : Kernel) : Nat := k.fld 0 16 18
def Kernel.arg (k : Kernel) : Nat := k.fld 1 0 64
def Kernel.rbase (k : Kernel) : Nat := k.fld 2 0 64
def Kernel.rcount (k : Kernel) : Nat := k.fld 3 0 64
def Kernel.minChunk (k : Kernel) : Nat := k.fld 4 32 32
def Kernel.nstream (k : Kernel) : Nat := k.fld 4 0 4
def Kernel.streams (k : Kernel) : Nat := k.fld 5 0 64

/-- The group of the chair of an index: the number of its die in the order in which the dies joined (R318). -/
def Kernel.group (k : Kernel) (idx : Nat) : Nat := idx / k.chairs

/-- The groups of the launch that have not left. -/
def Kernel.groups (k : Kernel) : List Nat := (List.range k.dies.length).filter fun g => !k.left.contains g

/-- The kernel a die holds under a launch sequence number. -/
def Die.kernel (d : Die) (n : Nat) : Option Kernel := d.kernels.find? (·.seq = n)

def Die.updKernel (d : Die) (n : Nat) (f : Kernel → Kernel) : Die :=
  { d with kernels := updFirst (·.seq = n) f d.kernels }

/-- The kernel a context runs, with its lead die. -/
def State.kernelOf (s : State) (k : Nat) : Option (Nat × Kernel) :=
  match (s.ctx k).kernel with
  | none => none
  | some (d, n) => ((s.die d).kernel n).map fun x => (d, x)

def State.updKernel (s : State) (d n : Nat) (f : Kernel → Kernel) : State :=
  s.updDie d fun y => y.updKernel n f

/-- The free chairs of a tenant on a die, lowest first (R318, R323). -/
def freeChairs (s : State) (d tenant : Nat) : List Nat :=
  ((List.range 32).map (32 * d + ·)).filter fun ch =>
    (s.chair ch).tenant == some tenant && (s.chair ch).ctx.isNone

/-- Insert a number into a rising list. -/
def insNat (n : Nat) : List Nat → List Nat
  | [] => [n]
  | x :: xs => if n ≤ x then n :: x :: xs else x :: insNat n xs

/-- Choose `n` of a list freely; the choice in rising order (R318). -/
def pick : Nat → List Nat → State → List Nat × State
  | 0, _, s => ([], s)
  | n + 1, l, s =>
    let (r, s) := s.choose
    let i := r % l.length
    match l[i]? with
    | none => ([], s)
    | some x =>
      let (ys, s) := pick n (l.eraseIdx i) s
      (insNat x ys, s)

/-- Data SRAM with the argument block from byte 0 (R68, R315). -/
def argSram (bs : List Byte) : List Host.Cell :=
  (List.range bs.length).foldl (fun m i => SMap.put 0 m i (bs.getD i 0)) []

/-- A chair as it stands when a context is loaded onto it (R68, R112, R134, R187, R299). -/
def Chair.loaded (x : Chair) (k idx : Nat) (c : Ctx) : Chair :=
  { x.bare with
    ctx := some k, idx := idx,
    gf := { pc := c.entry, isram := c.code },
    cores := if c.rank = 0 then [] else (List.range 16).map fun i =>
      (i, { f := { frank := BitVec.ofNat 10 c.rank } }) }

/-- Grant a chair to a context under an index (R220, R318). -/
def grantChair (k ch idx : Nat) (s : State) : State :=
  let c := s.ctx k
  (s.updChair ch fun x => x.loaded k idx c).setCtx k { c with chairs := c.chairs ++ [ch] }

/-- Grant chairs with rising indices from `idx`. -/
def grantChairs (k : Nat) : Nat → List Nat → State → State
  | _, [], s => s
  | idx, ch :: chs, s => grantChairs k (idx + 1) chs (grantChair k ch idx s)

/-- Start a granted chair with the argument block in its data SRAM (R315, R318). -/
def startChair (ch : Nat) (args : List Byte) (s : State) : State :=
  s.updChair ch fun x => { x with st := .run, gf := { x.gf with dsram := argSram args } }

/-- A chair of a launch counts as active: it has started, has not executed EXIT, and has not received 0 from
STEP (R319). -/
def Chair.active (x : Chair) : Bool := x.started && !x.hasExited && !x.withdrawn

/-- Active chairs of a context, those in save blocks included. -/
def activeChairs (s : State) (k : Nat) : Nat :=
  (s.chairs.filter fun e => e.2.ctx == some k && e.2.active).length +
    ((s.ctx k).saved.filter fun e => e.2.chair.active).length

/-- The chunk of R90. -/
def grabCount (remaining minChunk active : Nat) : Nat :=
  Nat.min remaining (Nat.max minChunk ((remaining + 2 * active - 1) / (2 * active)))

/-- A chair of the launch has executed EXIT (R318). -/
def anyExited (s : State) (k : Nat) : Bool :=
  !(s.ctx k).gone.isEmpty || s.chairs.any fun e => e.2.ctx == some k && e.2.hasExited

/-- A die joins a launch at a STEP, where R318 lets one join. -/
def addDie (k : Nat) (s : State) : State :=
  match s.kernelOf k with
  | none => s
  | some (d, z) =>
    let t := (s.ctx k).desc1 1 58 6
    let ok := (List.range 8).filter fun e => !z.dies.contains e && (freeChairs s e t).length ≥ z.chairs
    if z.groups.length < z.maxDie ∧ z.rcount ≠ 0 ∧ z.given < z.rcount ∧ anyExited s k = false ∧ ok ≠ [] then
      let (es, s) := pick 1 ok s
      let e := es.headD 0
      let (chs, s) := pick z.chairs (freeChairs s e t) s
      let c := s.ctx k
      let s := grantChairs k (c.chairs.length + c.saved.length) chs s
      let args := s.mem.getBytes z.arg z.argLen
      let s := chs.foldl (fun s ch => startChair ch args s) s
      s.updKernel d z.seq fun z => { z with dies := z.dies ++ [e] }
    else s

end Sys2Proof.Machine
end

