-- ==== Sys2Proof/Machine/Emit.lean ====
section
/-!
DEFINITION. The gaffer's words that reach its cores, its launch and its frame: emission (R80 to R86), the join
(R65), the chair words (R87, R88), work, steps and quiet (R89 to R91, R307), and the system words (R92, R227 to
R229).
-/

namespace Sys2Proof.Machine

open Sys2Proof

/-! ## Ring room (R58) -/

/-- The effective position of a core; `none` where it is not counted (R58). -/
def Chair.effPos (x : Chair) (c : Nat) : Option (BitVec 28) :=
  let y := x.core c
  match y.phase with
  | .drafting => some y.pos
  | .exited => none
  | _ =>
    match (x.gf.breaks ++ x.gf.shadows).find? fun b => b.core == c && b.d == y.d with
    | some { joinEsn := some j, .. } => some (j + 1)
    | _ => some x.gf.head

/-- The ring has room for one more slot (R58). -/
def Chair.ringRoom (x : Chair) : Bool :=
  (List.range 16).all fun c => match x.effPos c with
    | some p => (x.gf.head - p).toNat < 256
    | none => true

/-- Bits 15:0 of li0 to li3, as a ring slot keeps them (R68, R214). -/
def Gaffer.lis (g : Gaffer) : List Nat := (List.range 4).map fun i => (g.level i).k % 2 ^ 16

/-- Mark the format entries that head has left behind by 2^27 or more (R81). -/
def Core.ageFormats (h : BitVec 28) (y : Core) : Core :=
  if y.m.fmtq.isEmpty then y
  else { y with m := { y.m with fmtq := y.m.fmtq.map fun e =>
    if (h - e.stamp).toNat ≥ 2 ^ 27 then { e with old := true } else e } }

/-- Put an item into the next ring slot, which takes the next ESN (R25, R57). -/
def Chair.place (x : Chair) (it : SlotItem) (cores : BitVec 16) : Chair :=
  let g := x.gf
  let e := g.head
  let sl : Slot := { item := it, esn := e, cores := cores, gpc := g.pc, lis := g.lis }
  let x := { x with
    ring := SMap.put {} x.ring (e.toNat % 256) sl,
    gf := { g with head := e + 1 } }
  x.mapCores fun _ y => y.ageFormats (e + 1)

/-! ## Forward waits (R84) -/

/-- What the emission of a word does to the counters of one core: the new counters, or the cause of a level G
fault: 2 for a forward wait, 3 for an illegal emit (R84). -/
def Gaffer.promote (g : Gaffer) (w : Word) (c : Nat) : Except Nat Gaffer :=
  let cl := clauseOf w
  let k := (field 24 8 w).toNat
  let v := (field 0 16 w).toNat
  let sys := fun (o : BitVec 8) => engOf w == 7 && field 32 8 w == o
  let ws := cl.wsem.toNat
  let ss := cl.ssem.toNat
  let wa := if ws = 0 then 0 else amount cl.wcnt
  if wa > g.promise c ws then .error 2
  else if sys 0x0A && k ≠ 0 && v > g.promise c k - (if ws = k then wa else 0) then .error 2
  else
    let g := g.setPromise c ws (g.promise c ws - wa)
    let g := if sys 0x08 then g.setPromise c k v else g
    let p := if sys 0x09 && k ≠ 0 then g.promise c k + v else 0
    let g := if sys 0x09 then g.setPromise c k (g.promise c k + v) else g
    let g := if sys 0x0A then g.setPromise c k (g.promise c k - v) else g
    let q := if ss = 0 then 0 else g.promise c ss + amount cl.scnt
    if p > 0xFFFF ∨ q > 0xFFFF then .error 3
    else .ok (g.setPromise c ss q)

/-- The check of R84 over every selected core; nothing changes unless every core passes. -/
def Gaffer.promoteAll (g : Gaffer) (w : Word) : List Nat → Except Nat Gaffer
  | [] => .ok g
  | c :: cs => match g.promote w c with
    | .error e => .error e
    | .ok g => g.promoteAll w cs

/-- The selected cores that R84 counts: neither EXITED nor away at emission. -/
def Chair.counted (x : Chair) (mask : BitVec 16) : List Nat :=
  (maskCores mask).filter fun c => (x.core c).phase ≠ .exited && (x.gf.openBreak c).isNone

/-! ## Literals at emission (R20) -/

/-- The word is a DETACH. -/
def isDetach (w : Word) : Bool := engOf w == 7 && field 32 8 w == 0x00#8

/-- The emission of a word under a mask makes a literal mismatch. -/
def Gaffer.litBad (g : Gaffer) (w : Word) (mask : BitVec 16) : Bool :=
  let e := engOf w
  let (n, m) := SMap.get (0, 0) g.emitted e
  (isLit w && field 44 20 w ≠ 0) || !litAdmits w n || (n ≠ 0 && m ≠ mask) ||
    (isDetach w && g.emitted.any fun p => p.1 ≠ 7 && p.2.1 ≠ 0)

/-- The literals pending after a word is emitted. -/
def Gaffer.noteLit (g : Gaffer) (w : Word) (mask : BitVec 16) : Gaffer :=
  let e := engOf w
  let (n, _) := SMap.get (0, 0) g.emitted e
  { g with emitted := SMap.put (0, 0) g.emitted e (if isLit w then (n + 1, mask) else (0, 0)) }

/-! ## Emission (R35, R80) -/

/-- The records that a DETACH leaves for the cores it selects while they are away at emission: their counters stand as
they were recorded there (R61).  No span of their own begins.
DEDUCED (assumption 35). -/
def Chair.shadowBreaks (x : Chair) (w : Word) (mask : BitVec 16) (esn : BitVec 28) : List Break :=
  (maskCores mask).filterMap fun c => (x.gf.openBreak c).map fun b =>
    { core := c, tag := field 24 8 w, d := esn, gpc := x.gf.pc, lis := x.gf.lis, counters := b.counters }

/-- The spans a DETACH begins: one for every core it selects that is not away at emission, EXITED ones too, with its
counters (R61). -/
def Chair.beginBreaks (x : Chair) (w : Word) (mask : BitVec 16) (esn : BitVec 28) : List Break :=
  ((maskCores mask).filter fun c => (x.gf.openBreak c).isNone).map fun c =>
    { core := c, tag := field 24 8 w, d := esn, gpc := x.gf.pc, lis := x.gf.lis,
      counters := (List.range 256).foldl (fun m k => SMap.put 0 m k (x.gf.promise c k)) [] }

/-- Emit a word under a mask: the ENG check, the literal check, the forward-wait check, the wait for room, and
then the slot (R35). -/
def emitWord (w : Word) (mask : BitVec 16) (s : State) : State :=
  let x := s.here
  let g := x.gf
  if engOf w = 0 ∨ engOf w > 7 then raiseG 0x03 s
  else if g.litBad w mask then raiseG 0x03 s
  else
    let cores := x.counted mask
    match g.promoteAll w cores with
    | .error e => raiseG e s
    | .ok g' =>
      if x.ringRoom = false then s
      else
        let x := { x with gf := g'.noteLit w mask }
        let bs := if isDetach w then x.beginBreaks w mask g.head else []
        let zs := if isDetach w then x.shadowBreaks w mask g.head else []
        let x := x.place (.word w) mask
        gafDone (s.setHere { x with gf := { x.gf with breaks := x.gf.breaks ++ bs, shadows := x.gf.shadows ++ zs } })

/-- EMITT's word: the template with its operand spliced (R26). -/
def splice (t : Word) (v : Word) (sh : BitVec 5) : Word :=
  field 32 32 t ++ (field 0 32 t ||| (field 0 32 v <<< sh.toNat))

def execEmit (m : BitVec 6) (l : BitVec 64) (s : State) : Res := .next (emitWord l (s.gf.mask m) s)
def execEmitp (m a : BitVec 6) (s : State) : Res := .next (emitWord (s.gf.reg a) (s.gf.mask m) s)
def execEmitt (m a : BitVec 6) (sh : BitVec 5) (l : BitVec 64) (s : State) : Res :=
  .next (emitWord (splice l (s.gf.reg a) sh) (s.gf.mask m) s)

/-- A word that pops a format word (R93). -/
def popsFormat (w : Word) : Bool :=
  engOf w == 3 && (field 32 8 w == 0x02#8 || field 32 8 w == 0x03#8 || field 32 8 w == 0x09#8 ||
    field 32 8 w == 0x0D#8)

/-- A core whose full format queue gets no room while FMT waits: it holds no word that pops a format, and only a later
emission could bring one, or it has EXITED and takes none (R81).
DEDUCED (assumption 21). -/
def Chair.fmtStuck (x : Chair) (c : Nat) : Bool :=
  let y := x.core c
  y.m.fmtq.length ≥ Config.formatQueue && (y.phase == .exited || (y.phase == .drafting && y.pos == x.gf.head)) &&
    !(y.queue 3).any fun q => popsFormat q.w

/-- FMT (R81). -/
def gafFmt (m a : BitVec 6) (s : State) : State :=
  let x := s.here
  let g := x.gf
  let cores := maskCores (g.mask m)
  if cores.any fun c => (g.openBreak c).isSome then raiseG 0x03 s
  else if cores.any fun c => x.fmtStuck c then raiseG 0x03 s
  else if cores.any fun c => (x.core c).m.fmtq.length ≥ Config.formatQueue then s
  else
    let e : FmtEntry := { val := g.reg a, stamp := g.head }
    gafDone (s.setHere (cores.foldl (fun x c =>
      let y := (x.core c).pushNote keyFmt 1 x.cycle
      x.setCore c { y with m := { y.m with fmtq := y.m.fmtq ++ [e] } }) x))

def execFmt (m a : BitVec 6) (s : State) : Res := .next (gafFmt m a s)

/-- The counter that EXPECT raises for a core (R81). -/
def Gaffer.expected (g : Gaffer) (c k : Nat) : Nat :=
  match g.openBreak c with
  | none => g.promise c k
  | some b => SMap.get 0 b.counters k

/-- Raise the counter that EXPECT raises for a core (R81). -/
def Gaffer.expect (g : Gaffer) (c k v : Nat) : Gaffer :=
  match g.openBreak c with
  | none => g.setPromise c k (g.promise c k + v)
  | some _ =>
    let put := fun (z : Break) => { z with counters := SMap.put 0 z.counters k (SMap.get 0 z.counters k + v) }
    { g with breaks := updFirst (fun z => z.core == c && z.joinEsn.isNone) put g.breaks }

/-- EXPECT (R81, R82). -/
def gafExpect (m a : BitVec 6) (k : BitVec 8) (s : State) : State :=
  let x := s.here
  let g := x.gf
  let v := (g.reg a).toNat
  let cores := maskCores (g.mask m)
  if v > 0xFFFF then raiseG 0x01 s
  else if cores.any fun c => g.expected c k.toNat + v > 0xFFFF then raiseG 0x03 s
  else gafDone (s.setGf (cores.foldl (fun g c => g.expect c k.toNat v) g))

def execExpect (m a : BitVec 6) (k : BitVec 8) (s : State) : Res := .next (gafExpect m a k s)

/-! ## The join (R65) -/

/-- The marker of tag `t` at ESN `j` matches every DETACH of that tag whose marker has not come; it ends the open span of
every core that waits for it, and the gaffer goes on from the recorded counters (R60, R61). -/
def Gaffer.endBreaks (g : Gaffer) (t : BitVec 8) (j : BitVec 28) : Gaffer :=
  let mine := fun (b : Break) => b.tag == t && b.joinEsn.isNone
  let g := (g.breaks.filter mine).foldl (fun g b =>
    (List.range 256).foldl (fun g k => g.setPromise b.core k (SMap.get 0 b.counters k)) g) g
  let ended := fun (b : Break) => if mine b then { b with joinEsn := some j } else b
  let asStood := fun (z : Break) => match g.breaks.find? fun b => mine b && b.core == z.core with
    | some b => { z with counters := b.counters }
    | none => z
  { g with breaks := g.breaks.map ended, shadows := g.shadows.map fun z => ended (asStood z) }

/-- JOINPT (R65). -/
def gafJoinpt (t : BitVec 8) (s : State) : State :=
  let x := s.here
  if x.gf.litPending then raiseG 0x03 s
  else if x.ringRoom = false then s
  else
    let j := x.gf.head
    let x := x.place (.joinpt t) 0
    gafDone (s.setHere { x with gf := x.gf.endBreaks t j })

def execJoinpt (t : BitVec 8) (s : State) : Res := .next (gafJoinpt t s)

/-- A named core is away at emission and not EXITED: a wait on it could never end (R65, R87). -/
def Chair.neverArrives (x : Chair) (c : Nat) : Bool :=
  (x.core c).phase ≠ .exited && (x.gf.openBreak c).isSome

/-- A named core has arrived: it is not away, and no DETACH stands ahead that it will take (R65). -/
def Chair.arrived (x : Chair) (c : Nat) : Bool :=
  let y := x.core c
  y.phase == .exited ||
    (!y.phase.away && !((x.gf.breaks ++ x.gf.shadows).any fun b => b.core == c && !b.taken && !b.dropped))

/-- JOINW (R65). -/
def gafJoinw (a : BitVec 6) (s : State) : State :=
  let x := s.here
  let cores := maskCores (field 0 16 (x.gf.reg a))
  if cores.any x.neverArrives then raiseG 0x07 s
  else if cores.all x.arrived then gafDone s
  else s

def execJoinw (a : BitVec 6) (s : State) : Res := .next (gafJoinw a s)

/-! ## Chair words (R87, R88) -/

/-- The cores in a state, as a mask. -/
def Chair.phaseMask (x : Chair) (f : CorePhase → Bool) : Word :=
  (List.range 16).foldl (fun (m : Word) c => if f (x.core c).phase then m ||| (1#64 <<< c) else m) 0

/-- DETQ (R87). -/
def gafDetq (d : BitVec 6) (sel : BitVec 2) (s : State) : State :=
  let f : CorePhase → Bool := match sel.toNat with
    | 0 => CorePhase.away
    | 1 => (· == .exited)
    | _ => (· == .drafting)
  gafResult d (s.here.phaseMask f) 1 s

def execDetq (d : BitVec 6) (sel : BitVec 2) (s : State) : Res := .next (gafDetq d sel s)

/-- The condition of CHAIRW over some cores (R87). -/
def Chair.gathered (x : Chair) (mode1 : Bool) (cores : List Nat) : Bool :=
  cores.all fun c =>
    let y := x.core c
    y.phase == .exited || (y.phase == .drafting && y.pos == x.gf.head && (!mode1 || y.still))

/-- Wait as CHAIRW over some cores, and then go on (R87, R89). -/
def chairWait (mode1 : Bool) (cores : List Nat) (go : State → State) (s : State) : State :=
  let x := s.here
  if cores.any x.neverArrives then raiseG 0x07 s
  else if x.gathered mode1 cores then go s
  else s

def execChairw (a : BitVec 6) (mode : BitVec 1) (s : State) : Res :=
  let cores := if a = 0 then List.range 16 else maskCores (field 0 16 (s.gf.reg a))
  .next (chairWait (mode == 1) cores gafDone s)

/-- The reductions of GPOP (R88). -/
def reduceOp (op : BitVec 3) : List Word → Word :=
  match op.toNat with
  | 0 => List.foldl (· + ·) 0
  | 1 => List.foldl minS (BitVec.ofNat 64 (2 ^ 63 - 1))
  | 2 => List.foldl maxS (BitVec.ofNat 64 (2 ^ 63))
  | 3 => List.foldl (· ||| ·) 0
  | _ => fun l => bit1 (l.any (· ≠ 0))

/-- Pop one entry from each core's lane, and go on with them; wait while one has none that this cycle may pop; a wait
on an EXITED core is a return-queue wait fault (R88, R94). -/
def popLanes (cores : List Nat) (go : List Word → State → State) (s : State) : State :=
  let x := s.here
  if cores.any fun c => (x.core c).x.lane.isEmpty && (x.core c).phase == .exited then raiseG 0x08 s
  else if cores.any fun c => (x.core c).ripe keyLane (x.core c).x.lane.length x.cycle = 0 then s
  else
    let vs := cores.map fun c => (x.core c).x.lane.headD 0
    go vs (s.setHere (cores.foldl (fun x c =>
      let y := x.core c
      x.setCore c { y with x := { y.x with lane := y.x.lane.drop 1 } }) x))

def execGpop (d a : BitVec 6) (op : BitVec 3) (s : State) : Res :=
  let cores := if a = 0 then s.here.live else maskCores (field 0 16 (s.gf.reg a))
  .next (popLanes cores (fun vs s => gafResult d (reduceOp op vs) 1 s) s)

def execGpopn (d a : BitVec 6) (s : State) : Res :=
  .next (popLanes [(field 0 4 (s.gf.reg a)).toNat] (fun vs s => gafResult d (vs.headD 0) 1 s) s)

/-! ## Work, steps and quiet (R89 to R91, R307) -/

/-- GRAB's two results (R90). -/
def grabResult (d : BitVec 6) (first count : Nat) (s : State) : State :=
  let g := s.gf.setReg d (BitVec.ofNat 64 first)
  let g := { g with ready := SMap.put 0 g.ready d.toNat (s.here.cycle + 1) }
  gafResult (d + 1) (BitVec.ofNat 64 count) 1 (s.setGf g)

/-- GRAB (R90, R319, R354, R355). -/
def gafGrab (d : BitVec 6) (s : State) : State :=
  let ch := s.act.chair
  let k := s.ctxOf ch
  match s.kernelOf k with
  | none => raiseG 0x05 s
  | some (ld, z) =>
    if d = 0 ∨ d = 63 ∨ z.rcount = 0 then raiseG 0x05 s
    else
      input k ch rrGrab (fun _ => true) (fun v s =>
        match v with
        | some v => grabResult d (leNat (v.take 8)) (leNat ((v.drop 8).take 8)) s
        | none =>
          let n := if s.here.withdrawn then 0
            else grabCount (z.rcount - z.given) z.minChunk (activeChairs s k)
          let first := z.rbase + z.given
          let s := s.updKernel ld z.seq fun z => { z with given := z.given + n }
          let s := recordInput k ch rrGrab (leBytes 8 first ++ leBytes 8 n) s
          grabResult d first n s) s

def execGrab (d : BitVec 6) (s : State) : Res := .next (gafGrab d s)

/-- STEP's result: 0 where the chair's group is marked for withdrawal, else 1, and a die may join (R89, R318, R325). -/
def stepResult (d : BitVec 6) (s : State) : State :=
  let ch := s.act.chair
  let k := s.ctxOf ch
  let marked : Bool := match s.kernelOf k with
    | some (_, z) => z.marked == some (z.group s.here.idx)
    | none => false
  if s.here.withdrawn || marked then
    gafResult d 0 1 (s.updChair ch fun x => { x with withdrawn := true })
  else gafResult d 1 1 (addDie k s)

def execStep (d : BitVec 6) (s : State) : Res :=
  .next (chairWait true (List.range 16) (stepResult d) s)

/-- YIELD: the budget restarts; outside every active loop it is a soft point, at which the gaffer waits as CHAIRW and
goes on once the context is saved (R91). -/
def gafYield (s : State) : State :=
  let x := s.here.restartBudget
  if x.gf.depth = 0 ∧ x.softPoint then
    let z := { x with gf := x.gf.spent x.cycle }
    s.setHere (({ x with gf := { x.gf with save := some none, waitOn := none, issued := some x.cycle } } : Chair).takenAt
      (z.advance.getD z))
  else gafDone (s.setHere x)

def execYield (s : State) : Res := .next (gafYield s)

/-- EXIT (R20, R60, R67, R231).  In handler mode it stops the handler, and the chair is halted until its yield budget
expires.
DEDUCED (assumptions 20 and 70). -/
def gafExit (s : State) : State :=
  let x := s.here
  let lost := (List.range 16).filter fun c =>
    (x.core c).phase == .joining && !((x.gf.breaks ++ x.gf.shadows).any fun b =>
      b.core == c && b.d == (x.core c).d && b.joinEsn.isSome)
  if x.gf.litPending then raiseG 0x03 s
  else if lost ≠ [] then
    lost.foldl (fun s c => recordC s.act.chair c { code := 0x11 } s) s
  else
    s.setHere { x with req := false, gf := { x.gf.spent x.cycle with exited := true } }

def execExit (s : State) : Res := .next (gafExit s)

/-- The least of a list; 0 for none. -/
def leastNat : List Nat → Nat
  | [] => 0
  | x :: xs => xs.foldl Nat.min x

def execSemrd (d : BitVec 6) (k : BitVec 8) (s : State) : Res :=
  .next (gafResult d (BitVec.ofNat 64 (leastNat (s.here.live.map fun c => (s.here.core c).semv k.toNat))) 1 s)

/-- WQUIET: wait for the FAB words, register with the root, and go on when a wave proves quiet (R307). -/
def gafWquiet (sc : BitVec 3) (s : State) : State :=
  let x := s.here
  match x.gf.quiet with
  | some q => if q.done then gafDone (s.setGf { s.gf with quiet := none }) else s
  | none =>
    let ready := (List.range 16).all fun c =>
      let y := x.core c
      y.phase ≠ .drafting || (y.pos == x.gf.head && (y.queue 6).isEmpty)
    if ready then s.setGf { s.gf with quiet := some { sc := sc.toNat, wave := s.waveNum } } else s

def execWquiet (sc : BitVec 3) (s : State) : Res := .next (gafWquiet sc s)

/-! ## CSRs (R70, R227) -/

/-- The record FSEL selects. -/
def Chair.selected (x : Chair) : Option Rec := (x.core x.frame.fsel).rec_

/-- FCAUSE (R227). -/
def Chair.fcause (x : Chair) : Nat :=
  let f := x.frame
  let others := if f.levelC then x.recCores - (if x.selected.isSome then 2 ^ f.fsel else 0) else x.recCores
  f.trapCode.toNat * 2 ^ 20 + (if f.hnest then 2 ^ 11 else 0) + (if f.cont.ds then 2 ^ 10 else 0) +
    (if others ≠ 0 then 2 ^ 9 else 0) + (if f.levelC then 2 ^ 8 else 0) +
    (if f.levelC then (x.selected.map (·.code)).getD 0 else f.cause)

/-- FPROV: the selected record's, or for a level G fault the gaffer word's (R24, R227). -/
def Chair.fprov (x : Chair) : Word :=
  if x.frame.levelC then (x.selected.map (·.prov.word)).getD 0
  else x.frame.gprov.word

/-- The page-fault records of the frame (R214): those of several cores with one provenance, point and range are one record,
and CORES has a bit for each of the cores. -/
def Chair.pageRecords (x : Chair) : List (BitVec 16 × Rec) :=
  x.cores.foldl (fun l c =>
    match c.2.rec_ with
    | some r =>
      match r.page with
      | some q =>
        let mask : BitVec 16 := 1#16 <<< c.1
        let same := fun (e : BitVec 16 × Rec) =>
          e.2.prov == r.prov && e.2.page.any fun p => p.point == q.point && p.base == q.base && p.rem == q.rem
        if l.any same then l.map fun e => if same e then (e.1 ||| mask, e.2) else e else l ++ [(mask, r)]
      | none => l
    | none => l) []

/-- li of a level: the low 32 bits of its pass index (R68).
DEDUCED (assumption 24). -/
def Gaffer.li (g : Gaffer) (lv : Nat) : Word := BitVec.ofNat 64 ((g.level lv).k % 2 ^ 32)

/-- The value of a gaffer CSR (R70, R227); outside handler mode the frame's read as zero. -/
def gafCsr (s : State) (csr : Nat) : Word :=
  let x := s.here
  let g := x.gf
  let k := s.ctxOf s.act.chair
  let inH := fun (w : Word) => if x.frame.handler then w else 0
  let c := x.frame.cont
  match csr with
  | 0x001 => BitVec.ofNat 64 s.act.chair
  | 0x002 => BitVec.ofNat 64 k
  | 0x003 => BitVec.ofNat 64 ((s.ctx k).desc1 1 0 44 - x.budget)
  | 0x00A => x.frame.hscratch
  | 0x020 => BitVec.ofNat 64 (g.level 0).n
  | 0x021 => BitVec.ofNat 64 (g.level 1).n
  | 0x022 => BitVec.ofNat 64 (g.level 2).n
  | 0x023 => BitVec.ofNat 64 (g.level 3).n
  | 0x024 => g.li 0
  | 0x025 => g.li 1
  | 0x026 => g.li 2
  | 0x027 => g.li 3
  | 0x028 => g.head.setWidth 64
  | 0x029 => BitVec.ofNat 64 x.clock
  | 0x040 => inH (BitVec.ofNat 64 x.fcause)
  | 0x041 => inH (BitVec.ofNat 64 (c.dt.toNat * 2 ^ 16 + c.pc.toNat))
  | 0x042 => inH x.fprov
  | 0x043 => inH (BitVec.ofNat 64 x.recCores)
  | 0x044 => inH (if x.frame.levelC then (x.selected.map (·.w)).getD 0 else x.frame.gword)
  | 0x045 => inH (BitVec.ofNat 64 x.frame.fsel)
  | _ => 0

def execCsrr (d : BitVec 6) (csr : BitVec 12) (s : State) : Res :=
  .next (gafResult d (gafCsr s csr.toNat) 1 s)

/-- CSRW: HSCRATCH is the one CSR it writes besides FSEL, which has a row of its own; a write to any other is an
illegal gaffer instruction (R70, R227). -/
def gafCsrw (a : BitVec 6) (csr : BitVec 12) (s : State) : State :=
  let x := s.here
  if csr = 0x00A then gafDone (s.setHere { x with frame := { x.frame with hscratch := x.gf.reg a } })
  else raiseG 0x01 s

def execCsrw (a : BitVec 6) (csr : BitVec 12) (s : State) : Res := .next (gafCsrw a csr s)

/-- A CSRW of FSEL; outside handler mode it is ignored (R227). -/
def execFselWrite (a : BitVec 6) (s : State) : Res :=
  let x := s.here
  .next (gafDone (if x.frame.handler then
    s.setHere { x with frame := { x.frame with fsel := (field 0 4 (x.gf.reg a)).toNat } } else s))

/-! ## Traps and the handler's words (R92, R228, R229) -/

def execTrap (k : BitVec 20) (s : State) : Res := .next (raiseG 0x09 s k)

/-- A handler-only word outside handler mode is an illegal gaffer instruction (R92). -/
def handlerOnly (f : State → State) (s : State) : State :=
  if s.here.frame.handler then f s else raiseG 0x01 s

def execResume (s : State) : Res := .next (handlerOnly (fun s => resumeChair s.act.chair s) s)

def execReinject (k : BitVec 1) (s : State) : Res :=
  .next (handlerOnly (fun s =>
    let x := s.here
    gafDone (if x.recCores = 0 then s else s.setHere { x with frame := { x.frame with mode := k == 1 } })) s)

/-- The gaffer image of R229, as words from offset 0. -/
def Chair.image (x : Chair) : List Word :=
  let f := x.frame
  let regs := (List.range 64).map fun i =>
    if i < 56 then x.gf.reg (BitVec.ofNat 6 i) else SMap.get 0 f.savedG i
  let lv := fun i => SMap.get ({} : Level) f.levels i
  let c := f.cont
  regs ++ [BitVec.ofNat 64 (c.pc.toNat + (if c.ds then 2 ^ 16 else 0) + c.dt.toNat * 2 ^ 32),
    BitVec.ofNat 64 f.depth] ++
    ((List.range 4).map fun i => BitVec.ofNat 64 ((lv i).n + (lv i).k * 2 ^ 32)) ++
    ((List.range 4).map fun i =>
      BitVec.ofNat 64 ((lv i).start.toNat + (lv i).last.toNat * 2 ^ 16 + (lv i).s1 * 2 ^ 32))

/-- The image is one that RESTCTX admits (R229). -/
def imageOk (ws : List Word) : Bool :=
  let w := fun i => ws.getD i 0
  field 13 3 (w 64) == 0 && field 17 15 (w 64) == 0 && field 45 19 (w 64) == 0 &&
    field 3 61 (w 65) == 0 && (field 0 3 (w 65)).toNat ≤ 4 &&
    ((w 64).getLsbD 16 || field 32 13 (w 64) == 0) &&
    (List.range 4).all fun i =>
      field 13 3 (w (70 + i)) == 0 && field 29 3 (w (70 + i)) == 0 && field 34 30 (w (70 + i)) == 0

/-- Take an image into the registers and the frame (R229).  DS = 1 with a DT takes the branch to it; DS = 1 with
DT zero keeps the frame's own pending branch; an image with another PC ends what stood at the old one.  What the image
does not say of a level (LOOP or LOOPP, i0, the N it began with) stays as the frame has it.
DEDUCED (assumption 70). -/
def Chair.takeImage (x : Chair) (ws : List Word) : Chair :=
  let w := fun i => ws.getD i 0
  let g := (List.range 55).foldl (fun (g : Gaffer) i => g.setReg (BitVec.ofNat 6 (i + 1)) (w (i + 1))) x.gf
  let f := x.frame
  let c := f.cont
  let ds := (w 64).getLsbD 16
  let dt := field 32 13 (w 64)
  let keep := ds && dt == 0 && c.ds
  let c' : Cont := { c with
    pc := field 0 13 (w 64), ds := ds, dt := dt,
    taken := ds && (dt ≠ 0 || (keep && c.taken)),
    leave := if keep then c.leave else none,
    lits := if field 0 13 (w 64) = c.pc then c.lits else [],
    waited := c.waited && field 0 13 (w 64) == c.pc,
    exited := c.exited && field 0 13 (w 64) == c.pc,
    resume := if field 0 13 (w 64) = c.pc then c.resume else none,
    drain := c.drain.filter fun d => d.1 < (field 0 3 (w 65)).toNat }
  let lv := fun (m : SMap Level) i =>
    let l := SMap.get ({} : Level) m i
    SMap.put {} m i { l with
      n := (field 0 32 (w (66 + i))).toNat, k := (field 32 32 (w (66 + i))).toNat,
      start := field 0 13 (w (70 + i)), last := field 16 13 (w (70 + i)),
      s1 := (field 32 2 (w (70 + i))).toNat }
  { x with
    gf := g,
    frame := { f with
      cont := c', depth := (field 0 3 (w 65)).toNat,
      levels := (List.range 4).foldl lv f.levels,
      savedG := (List.range 8).map fun i => (56 + i, w (56 + i)) } }

/-- Where an image lies, if it lies wholly in data SRAM and is 8-aligned (R229). -/
def imageAddr (base : Word) (k : BitVec 20) : Option Nat :=
  let a := base.toNat + k.toNat
  if a % 8 = 0 ∧ a + 0x250 ≤ 0x10000 then some a else none

def gafSavectx (a : BitVec 6) (k : BitVec 20) (s : State) : State :=
  let x := s.here
  match imageAddr (x.gf.reg a) k with
  | none => raiseG 0x06 s
  | some p =>
    let ws := x.image
    gafDone (s.setGf ((List.range ws.length).foldl (fun (g : Gaffer) i =>
      g.setSram (p + 8 * i) 8 (ws.getD i 0).toNat) x.gf))

def gafRestctx (a : BitVec 6) (k : BitVec 20) (s : State) : State :=
  let x := s.here
  match imageAddr (x.gf.reg a) k with
  | none => raiseG 0x06 s
  | some p =>
    let ws := (List.range 74).map fun i => BitVec.ofNat 64 (x.gf.sram (p + 8 * i) 8)
    if imageOk ws then gafDone (s.setHere (x.takeImage ws)) else raiseG 0x01 s

def execSavectx (a : BitVec 6) (k : BitVec 20) (s : State) : Res := .next (handlerOnly (gafSavectx a k) s)
def execRestctx (a : BitVec 6) (k : BitVec 20) (s : State) : Res := .next (handlerOnly (gafRestctx a k) s)

end Sys2Proof.Machine
end

