-- ==== Sys2Proof/Machine/Barrier.lean ====
section
/-!
DEFINITION. Barrier words (R279 to R282), arrival words (R177, R178), and what a delivered atom counts toward.
-/

namespace Sys2Proof.Machine

open Sys2Proof

/-! ## Barrier words -/

/-- Write the 16 bytes of a barrier word, wherever its page lies. -/
def State.setBarWord (s : State) (pa : Nat) (w : BitVec 128) : State :=
  if pa < deepPlace 0 then { s with mem := s.mem.storeIn pa (leBytes 16 w.toNat) }
  else { s with deep := s.deep.storeIn (pa - deepPlace 0) (leBytes 16 w.toNat) }

def bwTarget (w : BitVec 128) : Nat := (field 96 32 w).toNat
def bwCount (w : BitVec 128) : Nat := (field 64 32 w).toNat
def bwPhase (w : BitVec 128) : Bool := w.getLsbD 31
def bwBytes (w : BitVec 128) : Bool := w.getLsbD 30
def bwScope (w : BitVec 128) : Nat := (field 27 3 w).toNat
def bwCore (w : BitVec 128) : Nat := (field 20 4 w).toNat
def bwChair (w : BitVec 128) : Nat := (field 12 8 w).toNat
def bwHandle (w : BitVec 128) : BitVec 6 := field 0 6 w

/-- TARGET is not zero, SCOPE is a scope, and the reserved bits are zero (R280). -/
def bwValid (w : BitVec 128) : Bool :=
  bwTarget w ≠ 0 && bwScope w ≤ 4 && field 24 3 w == 0 && field 6 6 w == 0

/-- The word after an arrival of `a` (R281). -/
def bwArrive (a : Nat) (w : BitVec 128) : BitVec 128 :=
  if bwCount w + a ≥ bwTarget w then
    field 96 32 w ++ (0 : BitVec 32) ++ (field 32 32 w + 1) ++ BitVec.ofBool (!bwPhase w) ++ field 0 31 w
  else field 96 32 w ++ BitVec.ofNat 32 (bwCount w + a) ++ field 0 64 w

/-- An arrival at a barrier word, as one event at its home (R281). -/
def arriveAt (pa a : Nat) (s : State) : State :=
  seeWords (s.setBarWord pa (bwArrive a (s.barWord pa)))

/-- A barrier word's atom holds an uncorrectable error. -/
def State.wordBad (s : State) (pa : Nat) : Bool := (s.wordSpace pa).1.bad ((s.wordSpace pa).2 / 32)

/-- A barrier word whose atom holds an uncorrectable error becomes POISON when it is read or written (R159). -/
def State.settleWord (s : State) (pa : Nat) : State :=
  let i := (s.wordSpace pa).2 / 32
  if s.wordBad pa = false then s
  else if pa < deepPlace 0 then { s with mem := s.mem.toPoison i } else { s with deep := s.deep.toPoison i }

/-- Put packets into the fabric, numbered in order. -/
def sendAll (ps : List Pkt) (s : State) : State :=
  ps.foldl (fun s p => { s with net := s.net ++ [{ p with num := s.pktNum, order := s.pktNum }],
                                pktNum := s.pktNum + 1 }) s

/-- A word that is bound to handle `h` of chair `named`, and that a counted atom reaches as it stands (R282). -/
def bwBound (w : BitVec 128) (h : BitVec 6) (named : Nat) : Bool :=
  bwValid w && bwBytes w && bwHandle w == h && bwChair w == named

/-- A counted atom goes to the bound word of another package as a barrier operation, from the port of core `home` (R282,
R297, R299).
DEDUCED (assumption 45). -/
def sendCounted (b : Binding) (home : Nat) (r : Nat) (va : Word) (s : State) : State :=
  let x := s.ctx b.ctx
  let p : Pkt := { num := 0, ty := .barrier, job := x.job, ctx := b.ctx, srank := x.rank, drank := r,
                   score := 16 * (s.chair b.ch).idx + home, sc := .system, chair := b.ch, die := dieOf b.ch,
                   pos := some (dieOf b.ch), addr := va, bar := .counted b.h b.named }
  sendAll [p] (count p.job (coreIndex b.ch home) (Pair.inject 1 p.pkg) s)

/-- An atom counted in the scratchpad of core `home` arrives at a bound word, or ends the binding (R282). -/
def arriveBound (home : Nat) (b : Binding) (s : State) : State :=
  match b.far with
  | some (r, va) => sendCounted b home r va s
  | none =>
    let s := s.settleWord b.pa
    if bwBound (s.barWord b.pa) b.h b.named && s.wordAtom b.pa == .home then arriveAt b.pa 32 s
    else { s with binds := s.binds.filter (· ≠ b) }

/-! ## Arrival words (R177, R178) -/

/-- Change the 16 bytes of an arrival word. -/
def setArrival (ch c off : Nat) (target count gen low : Nat) (s : State) : State :=
  s.updCore ch c fun y =>
    { y with spad := y.spad.storeIn off (leBytes 4 low ++ leBytes 4 gen ++ leBytes 4 count ++ leBytes 4 target) }

/-- A 4-byte field of a core's scratchpad. -/
def spadNat (s : State) (ch c off : Nat) : Nat := leNat ((s.core ch c).spad.getBytes off 4)

/-- The name that a fault record gives an armed arrival word, beyond those of the execution queues. -/
def Armed.pid (a : Armed) : Nat := Armed.firstPid + a.off

/-- One delivered atom counts toward an armed arrival word.  The count is a write of the word's atom: one that is lost or
POISON raises a poison error of the ARRIVE, and a REPLICA one a context error (R159, R181).
DESIGN CHOICE (assumption 28). -/
def arriveArmed (ch c : Nat) (a : Armed) (s : State) : State :=
  let l : Loc := .sp ch c a.off
  if s.badAt l ∨ s.atomOf l = .poison then
    recordC ch c { a.sig.record 0x1A 4 with pid := some a.pid } (s.putLoc l .poison [])
  else if s.atomOf l = .replica then contextError (s.ctxOf ch) 2 a.sig.prov 0 s
  else
  let target := spadNat s ch c (a.off + 12)
  let count := spadNat s ch c (a.off + 8) + 32
  let gen := spadNat s ch c (a.off + 4)
  if count ≥ target then
    let s := setArrival ch c a.off target 0 ((gen + 1) % 2 ^ 32) a.h.toNat s
    let y := s.core ch c
    addSig ch c a.sig 4 (s.setCore ch c { y with t := { y.t with armed := y.t.armed.filter (· ≠ a) } })
  else setArrival ch c a.off target count gen (2 ^ 31 + a.h.toNat) s

/-- The bindings of a handle of a chair. -/
def bindsOf (s : State) (ch : Nat) (h : BitVec 6) : List Binding :=
  s.binds.filter fun b => b.ctx == s.ctxOf ch && b.ch == ch && b.h == h

/-- The handles whose region holds the atom at an offset of core `home`'s scratchpad; a FREE handle has no region (R130,
R178). -/
def Chair.covering (x : Chair) (home off : Nat) : List (BitVec 6) :=
  (x.handles.filter fun e => e.2.st ≠ .free && e.2.home == home && e.2.holds off 32).map fun e => BitVec.ofNat 6 e.1

/-- Every armed arrival word and every bound barrier word of a handle counts 32 bytes (R178, R282). -/
def countHandle (ch home : Nat) (s : State) (h : BitVec 6) : State :=
  let s := (List.range 16).foldl (fun s c =>
    ((s.core ch c).t.armed.filter fun a => a.h == h).foldl (fun s a => arriveArmed ch c a s) s) s
  (bindsOf s ch h).foldl (fun s b => arriveBound home b s) s

/-- An atom has been written at an offset of core `home`'s scratchpad: it counts for the handle whose region it lies in, as
the handle stands (R178, R282). -/
def countAtom (ch home off : Nat) (s : State) : State :=
  ((s.chair ch).covering home off).foldl (countHandle ch home) s

/-- An atom at an offset would count at a bound word in a ganged pseudo-channel: it waits (R263). -/
def countWaits (s : State) (ch home off : Nat) : Bool :=
  ((s.chair ch).covering home off).any fun h => (bindsOf s ch h).any fun b => b.far.isNone && s.ganged b.pa

end Sys2Proof.Machine
end

