-- ==== Sys2Proof/Machine/Xfer.lean ====
section
/-!
DEFINITION. The transfer engine (R162 to R184): its words, the start of a command, the move of one pair, and
its end.
-/

namespace Sys2Proof.Machine

open Sys2Proof

def State.tside (s : State) : TSide := s.me.t

def State.setTside (s : State) (t : TSide) : State := s.setMe { s.me with t := t }

def TSide.queue (t : TSide) (q : Nat) : XQueue := SMap.get {} t.xq q

def TSide.setQueue (t : TSide) (q : Nat) (x : XQueue) : TSide := { t with xq := SMap.put {} t.xq q x }

/-! ## Operands (R163, R167) -/

/-- A memory operand: the address, the generator it advances, and whether its position is at or past the limit. -/
def xaddr (a : ASide) : XAddr → Word × Option (BitVec 4) × Bool
  | .reg r => (a.reg r, none, false)
  | .gen g => ((a.gen g).addr (a.gen g).pos.toNat, some g, (a.gen g).past (a.gen g).pos.toNat)

/-- The operands of a command over a tile: the side read, the side written. -/
def tileOpnd (k : XKind) (a : ASide) (t : XTile) (len : Nat) : XOpnd :=
  match t with
  | .toSp h spo an =>
    let (va, g, bad) := xaddr a an
    { kind := k, src := .mem va, dst := .sp h (32 * spo.toNat), len := len, gen := g, limitBad := bad }
  | .toMem an h spo =>
    let (va, g, bad) := xaddr a an
    { kind := k, src := .sp h (32 * spo.toNat), dst := .mem va, len := len, gen := g, limitBad := bad }
  | .memMem ad an =>
    let (va, g, bad) := xaddr a an
    { kind := k, src := .mem va, dst := .mem (a.reg ad), len := len, gen := g, limitBad := bad }

/-- The atoms of a shaped move by its descriptor (R171, R172). -/
def shapeAtoms (d : Word) (planes : Bool) : Nat :=
  (field 52 12 d).toNat * (field 40 12 d).toNat * (if planes then (field 32 8 d).toNat else 1)

/-- Capture the operands of a command word; `none` for a word that is no recordable command (R163, R174). -/
def capture (y : Core) : Instr → Option XOpnd
  | .move t _ len => some (tileOpnd .move y.a t len.toNat)
  | .movePull h spo _ len => some { kind := .pull, dst := .sp h (32 * spo.toNat), len := len.toNat }
  | .dup t _ len => some (tileOpnd .dup y.a t len.toNat)
  | .promote t _ len => some (tileOpnd .promote y.a t len.toNat)
  | .drop (.mem an) _ len =>
    let (va, g, bad) := xaddr y.a an
    some { kind := .drop, src := .mem va, len := len.toNat, gen := g, limitBad := bad }
  | .drop (.sp h spo) _ len => some { kind := .drop, src := .sp h (32 * spo.toNat), len := len.toNat }
  | .move2d t _ slot =>
    let d := SMap.get 0 y.t.shapes slot.toNat
    some { tileOpnd .move y.a t (32 * shapeAtoms d false) with shape := some d }
  | .move3d t _ slot =>
    let d := SMap.get 0 y.t.shapes slot.toNat
    some { tileOpnd .move y.a t (32 * shapeAtoms d true) with shape := some d, planes := true }
  | .xfill an val _ len =>
    let (va, g, bad) := xaddr y.a an
    some { kind := .fill val, dst := .mem va, len := len.toNat, gen := g, limitBad := bad }
  | _ => none

/-- Move a generator's position on, or back, by one (R163, R164). -/
def ASide.bump (a : ASide) (g : Option (BitVec 4)) (d : BitVec 32) : ASide :=
  match g with
  | none => a
  | some g => a.setGen g { a.gen g with pos := (a.gen g).pos + d }

/-- The operands with the position that their generator has. -/
def ASide.reads (a : ASide) (o : XOpnd) : XOpnd :=
  match o.gen with
  | none => o
  | some g => { o with pos := (a.gen g).pos }

/-- No later word has changed the position that a command's generator got from it (R163). -/
def ASide.unmoved (a : ASide) (o : XOpnd) : Bool := o.gen.any fun g => (a.gen g).pos == o.pos + 1

/-! ## Issue (R162, R174, R175) -/

/-- While a chain is being recorded, a word is recorded or is a chain fault; otherwise it runs (R174). -/
def xIssue (i : Instr) (recordable : Bool) (run : State → State) (s : State) : State :=
  let t := s.tside
  match t.record with
  | none => run s
  | some (ch, n) =>
    if recordable && s.act.clause == {} then
      let t := { t with
        chains := SMap.put [] t.chains ch.toNat (SMap.get [] t.chains ch.toNat ++ [i]),
        record := if n ≤ 1 then none else some (ch, n - 1) }
      retire (s.setTside t)
    else raiseC 0x1D (s.setTside { t with chains := SMap.put [] t.chains ch.toNat [], record := none })

/-- A command enters its execution queue, or waits while it is full; its generator advances (R162, R163). -/
def enqueue (xq : BitVec 2) (op : XOpnd) (s : State) : State :=
  let q := s.tside.queue xq.toNat
  if q.cmds.length ≥ 8 then s
  else if op.limitBad then raiseC 0x20 s
  else
    let y := s.me
    let y := { y with
      a := y.a.bump op.gen 1,
      t := y.t.setQueue xq.toNat { q with cmds := q.cmds ++ [{ op := y.a.reads op, sig := s.sig }] } }
    retire (s.setMe y)

/-- A command word (R162, R174). -/
def xCommand (i : Instr) (xq : BitVec 2) (s : State) : Res :=
  .next (xIssue i (xq == 0) (fun s => match capture s.me i with
    | some op => enqueue xq op s
    | none => s) s)

def execMove (t : XTile) (xq : BitVec 2) (len : BitVec 32) (s : State) : Res := xCommand (.move t xq len) xq s
def execMovePull (h : BitVec 6) (spo : BitVec 14) (xq : BitVec 2) (len : BitVec 32) (s : State) : Res :=
  xCommand (.movePull h spo xq len) xq s
def execDup (t : XTile) (xq : BitVec 2) (len : BitVec 32) (s : State) : Res := xCommand (.dup t xq len) xq s
def execDrop (e : XDrop) (xq : BitVec 2) (len : BitVec 32) (s : State) : Res := xCommand (.drop e xq len) xq s
def execPromote (t : XTile) (xq : BitVec 2) (len : BitVec 32) (s : State) : Res :=
  xCommand (.promote t xq len) xq s
def execMove2d (t : XTile) (xq : BitVec 2) (slot : BitVec 3) (s : State) : Res :=
  xCommand (.move2d t xq slot) xq s
def execMove3d (t : XTile) (xq : BitVec 2) (slot : BitVec 3) (s : State) : Res :=
  xCommand (.move3d t xq slot) xq s
def execXfill (an : XAddr) (val : BitVec 8) (xq : BitVec 2) (len : BitVec 32) (s : State) : Res :=
  xCommand (.xfill an val xq len) xq s

def execXshape (slot : BitVec 3) (desc : BitVec 64) (s : State) : Res :=
  .next (xIssue (.xshape slot desc) false (fun s =>
    let t := s.tside
    retireSig (s.setTside { t with shapes := SMap.put 0 t.shapes slot.toNat desc })) s)

def execChlink (chn : BitVec 4) (n : BitVec 6) (s : State) : Res :=
  .next (xIssue (.chlink chn n) false (fun s =>
    let t := s.tside
    retireSig (s.setTside { t with
      chains := SMap.put [] t.chains chn.toNat [],
      record := some (chn, n.toNat) })) s)

def execKick (chn : BitVec 4) (xq : BitVec 2) (s : State) : Res :=
  .next (xIssue (.kick chn xq) false (enqueue xq { kind := .kick chn }) s)

def execArrive (a : BitVec 5) (h : BitVec 6) (xq : BitVec 2) (target : BitVec 32) (s : State) : Res :=
  .next (xIssue (.arrive a h xq target) false (fun s =>
    enqueue xq { kind := .arrive target, src := .sp h (s.me.a.reg a).toNat } s) s)

/-- The bytes a command in progress has left. -/
def XCmd.left (k : XCmd) : Nat := (k.sub.getD k.op).len - 32 * k.next

/-- XCANCEL: the commands that are QUEUED, PROBING or MOVING are cancelled; one that has STOPPED stays (R166, R176). -/
def aXcancel (xq : BitVec 2) (s : State) : State :=
  let q := s.tside.queue xq.toNat
  let head := q.cmds.head?
  let going := head.any fun k => k.st == .moving || k.st == .probing
  let gone := q.cmds.filter (·.st ≠ .stopped)
  let s := releaseLeaves (gone.flatMap (·.held)) s
  let s := s.setTside (s.tside.setQueue xq.toNat { q with
    cmds := q.cmds.filter (·.st = .stopped), canc := gone.length, stop := going,
    rem := if going then (head.map XCmd.left).getD 0 else 0 })
  retireSig (gone.foldl (fun s k => addSig s.act.chair s.act.core k.sig 4 s) s)

def execXcancel (xq : BitVec 2) (s : State) : Res :=
  .next (xIssue (.xcancel xq) false (aXcancel xq) s)

/-- The status word of R176; REM has 32 bits, and of a shaped command of 2^32 bytes or more it holds the low ones.
DESIGN CHOICE (assumption 33). -/
def XQueue.status (q : XQueue) : Word :=
  BitVec.ofNat 64 (q.cmds.length * 2 ^ 60 + q.canc * 2 ^ 56 + (if q.vac then 2 ^ 55 else 0) +
    (if q.loss then 2 ^ 54 else 0) + (if q.stop then 2 ^ 53 else 0) + q.rem % 2 ^ 32)

def execXstat (a : BitVec 5) (xq : BitVec 2) (s : State) : Res :=
  .next (xIssue (.xstat a xq) false (fun s =>
    let y := s.me
    let q := y.t.queue xq.toNat
    retireSig (s.setMe { y with
      a := y.a.setReg a q.status,
      t := y.t.setQueue xq.toNat { q with vac := false, loss := false } })) s)

/-! ## The pairs of a command -/

/-- The memory address of pair `i` from address `va` (R168, R172). -/
def XOpnd.memAt (o : XOpnd) (va : Word) (i : Nat) : Word :=
  match o.shape with
  | none => va + BitVec.ofNat 64 (32 * i)
  | some d =>
    let rl := (field 52 12 d).toNat
    let rows := (field 40 12 d).toNat
    let q := i / (rows * rl)
    let r := i / rl % rows
    let c := i % rl
    va + BitVec.ofNat 64 (32 * (32 * q * (field 0 16 d).toNat + r * (field 16 16 d).toNat + c))

/-- The core whose scratchpad a side names: the handle's HOME; this core for the place a pull goes to. -/
def XOpnd.homeOf (x : Chair) (c : Nat) (o : XOpnd) (h : BitVec 6) (dst : Bool) : Nat :=
  let v := x.handle h
  if (dst && o.kind == .pull) || v.st == .free then c else v.home

/-- The side a pull reads: the region of its handle (R167). -/
def XOpnd.source (x : Chair) (o : XOpnd) : XSideLoc :=
  match o.kind, o.dst with
  | .pull, .sp h _ => .sp h (32 * (x.handle h).base)
  | _, _ => o.src

/-! ## Checks at the start (R164, R165, R166) -/

/-- The handle check of one scratchpad side (R165). -/
def sideOk (x : Chair) (c : Nat) (o : XOpnd) (dst : Bool) : XSideLoc → Bool
  | .sp h off =>
    let v := x.handle h
    match v.st with
    | .free =>
      dst && (match o.kind with | .move | .dup => true | _ => false) && !x.inRegion c off o.len
    | .held d =>
      d == c &&
        (if o.kind == .pull then
          !dst || (({ x with handles := SMap.put {} x.handles h.toNat {} }).inRegion c off o.len == false)
        else v.holds off o.len)
    | .offered .. => false
  | _ => true

/-- A shape descriptor that R171 admits, for the planes a move takes. -/
def shapeOk (d : Word) (planes : Bool) : Bool :=
  let rl := (field 52 12 d).toNat
  let rows := (field 40 12 d).toNat
  let n := (field 32 8 d).toNat
  let rs := (field 16 16 d).toNat
  rl ≠ 0 && rows ≠ 0 && rl ≤ rs &&
    (!planes || (n ≠ 0 && (n ≤ 1 || (rows - 1) * rs + rl ≤ (field 0 16 d).toNat * 32)))

/-- The limits of R164 on one side. -/
def sideLimit (x : Chair) (c : Nat) (o : XOpnd) (dst : Bool) : XSideLoc → Bool
  | .mem va => va.toNat % 32 == 0
  | .sp h off =>
    off % 32 == 0 && off + o.len ≤ Config.spadBytes &&
      !(x.core (o.homeOf x c h dst)).a.meetsRegion off o.len
  | .nowhere => true

/-- The source and the destination of a command do not overlap (R164). -/
def sidesApart (x : Chair) (c : Nat) (o : XOpnd) : Bool :=
  match o.source x, o.dst with
  | .mem a, .mem b => !overlaps a o.len b o.len
  | .sp h a, .sp k b =>
    o.homeOf x c h false ≠ o.homeOf x c k true || !(a < b + o.len && b < a + o.len)
  | _, _ => true

/-- The limits of R164 that need no translation. -/
def limitsOk (x : Chair) (c : Nat) (o : XOpnd) : Bool :=
  o.len % 32 == 0 && 32 ≤ o.len && (o.shape.isSome || o.len ≤ 0xFFFFFFE0) &&
    (match o.shape with | some d => shapeOk d o.planes | none => true) &&
    (match o.kind, o.dst with | .pull, .sp h _ => o.len == 32 * (x.handle h).len | _, _ => true) &&
    sideLimit x c o false (o.source x) && sideLimit x c o true o.dst && sidesApart x c o

/-- The permissions a memory side needs (R166). -/
def XOpnd.need (o : XOpnd) (dst : Bool) : Need :=
  match o.kind with
  | .dup => if dst then { w := true } else { r := true }
  | .drop => { w := true, vac := true }
  | .promote => { w := true, vac := true }
  | _ => if dst then { w := true } else { r := true, w := true, vac := true }

/-- The memory ranges of a side from pair `i` on: one, or one for each row (R172). -/
def XOpnd.ranges (o : XOpnd) (i : Nat) : XSideLoc → List (Word × Nat)
  | .mem va =>
    match o.shape with
    | none => [(o.memAt va i, o.len - 32 * i)]
    | some d =>
      let rl := (field 52 12 d).toNat
      let n := o.len / 32
      (List.range (n / rl)).filterMap fun r =>
        if (r + 1) * rl ≤ i then none
        else
          let lo := if r * rl < i then i else r * rl
          some (o.memAt va lo, 32 * ((r + 1) * rl - lo))
  | _ => []

/-- Probe ranges one after another (R166, R213). -/
def probeAll (ch c : Nat) (n : Need) : List (Word × Nat) → State → (List Tr × Option (AErr × Word)) × State
  | [], s => (([], none), s)
  | (va, len) :: rs, s =>
    match probeRange ch c n va len s with
    | ((ts, some e), s) => ((ts, some e), s)
    | ((ts, none), s) =>
      let ((us, e), s) := probeAll ch c n rs s
      ((ts ++ us, e), s)

/-- The NARROW limit of R164 on a memory side; R56 and R164 name the address and the length, and of a shaped move an odd ROWLEN
or RSTRIDE is refused too, since it would put a row in the middle of an atom of the page.
DESIGN CHOICE (assumption 32). -/
def narrowOk (o : XOpnd) (ts : List Tr) : XSideLoc → Bool
  | .mem va =>
    !(ts.any fun t => pteNarrow t.pte) ||
      (va.toNat % 64 == 0 && o.len % 64 == 0 &&
        (match o.shape with
         | some d => (field 52 12 d).toNat % 2 == 0 && (field 16 16 d).toNat % 2 == 0
         | none => true))
  | _ => true

/-! ## Starting a command -/

/-- Change the head command of an execution queue. -/
def updHead (ch c q : Nat) (f : XCmd → XCmd) (s : State) : State :=
  s.updCore ch c fun y =>
    let x := y.t.queue q
    match x.cmds with
    | [] => y
    | k :: ks => { y with t := y.t.setQueue q { x with cmds := f k :: ks } }

/-- Put the operands a command is at back into it. -/
def XCmd.withOp (k : XCmd) (o : XOpnd) : XCmd :=
  match k.sub with
  | some _ => { k with sub := some o }
  | none => { k with op := o }

/-- A level C fault of the command at the head of a queue: it stops, for replay (R166). -/
def xFault (ch c q code : Nat) (s : State) : State :=
  match ((s.core ch c).t.queue q).cmds.head? with
  | none => s
  | some k =>
    let s := releaseLeaves k.held s
    recordC ch c { k.sig.record code 4 with pid := some q }
      (updHead ch c q (fun k => { k with st := .stopped, cause := some (.fault code), held := [] }) s)

/-- A failed check: the generator's advance is taken back, where no later word has changed the position, and the command
stops (R164).
DEDUCED (assumption 19). -/
def xRefuse (ch c q code : Nat) (o : XOpnd) (s : State) : State :=
  let s := if !o.back && (s.core ch c).a.unmoved o then
      updHead ch c q (fun k => k.withOp { o with back := true })
        (s.updCore ch c fun y => { y with a := y.a.bump o.gen (-1) })
    else s
  xFault ch c q code s

/-- The command at the head of a queue is done: it leaves, and its signal is added; a chain goes on to its next
command (R174, R175). -/
def xFinish (ch c q : Nat) (s : State) : State :=
  let y := s.core ch c
  let x := y.t.queue q
  match x.cmds with
  | [] => s
  | k :: ks =>
    let more : Bool := match k.op.kind with
      | .kick chn => k.sub.isSome && k.chidx + 1 < (SMap.get [] y.t.chains chn.toNat).length
      | _ => false
    if more then
      updHead ch c q (fun k => { k with sub := none, chidx := k.chidx + 1, st := .probing, next := 0, held := [] }) s
    else addSig ch c k.sig 4 (s.setCore ch c { y with t := y.t.setQueue q { x with cmds := ks } })

/-- ARRIVE takes its turn (R177).
DESIGN CHOICE (assumption 28). -/
def startArrive (ch c q : Nat) (k : XCmd) (target : BitVec 32) (h : BitVec 6) (off : Nat) (s : State) : State :=
  let x := s.chair ch
  let y := x.core c
  let w := spadNat s ch c off
  if target = 0 ∨ off % 16 ≠ 0 ∨ off + 16 > Config.spadBytes ∨ x.inRegion c off 16 ∨ y.a.meetsRegion off 16 then
    xFault ch c q 0x1C s
  else if y.spad.atomAt off = .poison ∨ y.spad.bad (off / 32) then
    xFault ch c q 0x1A (s.setCore ch c { y with spad := y.spad.toPoison (off / 32) })
  else if y.spad.atomAt off = .replica then contextError (s.ctxOf ch) 2 k.sig.prov 0 s
  else if w / 2 ^ 31 % 2 = 1 then xFault ch c q 0x1E s
  else
    let gen := spadNat s ch c (off + 4)
    let s := setArrival ch c off target.toNat 0 gen (2 ^ 31 + h.toNat) s
    let y := s.core ch c
    let x := y.t.queue q
    s.setCore ch c { y with t := { y.t.setQueue q { x with cmds := x.cmds.drop 1 } with
      armed := y.t.armed ++ [{ off := off, h := h, sig := k.sig }] } }

/-- The checks and the probe of a command with its operands (R166); on success it is MOVING.  Its writes match the watch slots
here, once over the extent that it has left; DROP and PROMOTE write no byte, and the vacating of a source is no write (R133).
DESIGN CHOICE (assumption 33). -/
def startProbe (ch c q : Nat) (k : XCmd) (o : XOpnd) (s : State) : State :=
  let x := s.chair ch
  if o.limitBad then xFault ch c q 0x20 s
  else if !(sideOk x c o false (o.source x) && sideOk x c o true o.dst) then xRefuse ch c q 0x18 o s
  else if limitsOk x c o = false then xRefuse ch c q 0x1C o s
  else
    let probe := fun (dst : Bool) (l : XSideLoc) (s : State) => probeAll ch c (o.need dst) (o.ranges k.next l) s
    let fails := fun (dst : Bool) (l : XSideLoc) (e : AErr × Word) (s : State) =>
      if e.1 = .migrating then s
      else
        let base := match l with | .mem va => o.memAt va k.next | _ => 0
        let s := updHead ch c q (fun k => { k with st := .stopped, cause := some (.fault 0x19) }) s
        pageFault 2 (o.need dst) e.1 e.2 base (o.len - 32 * k.next) s (some q) (some k.sig) (some 4)
    match probe false o.src s with
    | ((_, some e), s) => fails false o.src e s
    | ((ts, none), s) =>
      match probe true o.dst s with
      | ((_, some e), s) => fails true o.dst e s
      | ((us, none), s) =>
        if !(narrowOk o ts o.src && narrowOk o us o.dst) then xRefuse ch c q 0x1C o s
        else
          let pages := distinctPages (ts ++ us)
          let s := countPages pages ch (holdPages pages true s)
          let segs := match o.dst with | .mem _ => o.ranges k.next o.dst | _ => []
          let s := match o.kind with
            | .drop | .promote => s
            | _ => watchMatch ch c false true segs k.sig.prov s
          -- a FREE destination handle takes the extent as its region
          let x := s.chair ch
          let x := match o.dst with
            | .sp h off =>
              if (x.handle h).st = .free then
                x.setHandle h { st := .held c, home := c, base := off / 32, len := o.len / 32 }
              else x
            | _ => x
          let s := s.setChair ch x
          let s := if o.back then s.updCore ch c fun y => { y with a := y.a.bump o.gen 1 } else s
          updHead ch c q (fun k => { k.withOp { o with back := false } with
            st := .moving, held := pages.map (·.leaf) }) s

/-- The chair's transfer engines may go on: it runs, and no fault of an earlier cycle stops it (R166, R224). -/
def xferRuns (ch : Nat) (s : State) : Bool := (s.chair ch).open_

/-- XFR_COMMAND_START: the head command of a queue that is not moving yet takes its turn (R166, R174, R177). -/
def execXfrCommandStart (ch c q : Nat) (s : State) : Res :=
  let s := { s with act := { chair := ch, core := c, eng := 4 } }
  let y := s.core ch c
  .next (if xferRuns ch s = false then s
    else match (y.t.queue q).cmds.head? with
    | none => s
    | some k =>
      if k.st ≠ .queued ∧ k.st ≠ .probing then s
      else match k.op.kind with
      | .arrive target =>
        match k.op.src with
        | .sp h off => startArrive ch c q k target h off s
        | _ => s
      | .kick chn =>
        if y.t.record.any fun r => r.1 == chn then xFault ch c q 0x1D s
        else
          match k.sub with
          | some o => startProbe ch c q { k with st := .probing } o s
          | none =>
            match (SMap.get [] y.t.chains chn.toNat)[k.chidx]? with
            | none => xFinish ch c q s
            | some i =>
              match capture y i with
              | none => xFinish ch c q s
              | some o =>
                -- the recorded command reads its registers and generators now (R163)
                let o := y.a.reads o
                let s := s.setCore ch c { y with a := y.a.bump (if o.limitBad then none else o.gen) 1 }
                let s := updHead ch c q (fun k => { k with sub := some o, st := .probing, next := 0 }) s
                startProbe ch c q { k with sub := some o, next := 0 } o s
      | _ => startProbe ch c q k k.op (updHead ch c q (fun k => { k with st := .probing }) s))

/-! ## Moving one pair (R160, R168 to R173) -/

/-- The atoms of a side at pair `i` over `w` pairs; a NARROW page's one atom stands for two pairs. -/
def sideLocs (ch c : Nat) (o : XOpnd) (dst : Bool) (l : XSideLoc) (i w : Nat) (s : State) : List Loc × State :=
  match l with
  | .nowhere => ([], s)
  | .sp h off =>
    let home := o.homeOf (s.chair ch) c h dst
    ((List.range w).map fun j => .sp ch home (off + 32 * (i + j)), s)
  | .mem va =>
    match translate ch c (o.memAt va i) s with
    | (none, s) => ([], s)
    | (some t, s) =>
      if pteNarrow t.pte then ([.mem (t.pa (o.memAt va i))], s)
      else if w ≤ 1 then ([.mem (t.pa (o.memAt va i))], s)
      else
        match translate ch c (o.memAt va (i + 1)) s with
        | (some u, s) => ([.mem (t.pa (o.memAt va i)), .mem (u.pa (o.memAt va (i + 1)))], s)
        | (none, s) => ([.mem (t.pa (o.memAt va i))], s)

/-- The page of a memory side at pair `i` is NARROW.
DESIGN CHOICE (assumption 32). -/
def sideNarrow (ch c : Nat) (o : XOpnd) (l : XSideLoc) (i : Nat) (s : State) : Bool :=
  match l with
  | .mem va => match (translate ch c (o.memAt va i) s).1 with
    | some t => pteNarrow t.pte
    | none => false
  | _ => false

/-- The translation of a memory side over `w` pairs from pair `i` on needs a table entry in a ganged pseudo-channel (R263). -/
def sideWaits (ch c : Nat) (o : XOpnd) (l : XSideLoc) (i w : Nat) (s : State) : Bool :=
  match l with
  | .mem va => (List.range w).any fun j => 32 * (i + j) < o.len && tablesWait ch c (o.memAt va (i + j)) { r := true } s
  | _ => false

/-- The scratchpad atoms of a command's destination that would count for a handle: a pull's never do (R178, R282). -/
def XOpnd.countedAt (o : XOpnd) (ds : List Loc) : List (Nat × Nat) :=
  match o.kind with
  | .pull | .drop | .promote => []
  | _ => ds.filterMap fun d => match d with
    | .sp _ home off => some (home, off)
    | .mem _ => none

/-- An atom of a pair waits: its pseudo-channel works as a gang, no link leads to it, or it would count at a bound word in a
ganged pseudo-channel (R8, R9, R263). -/
def pairWaits (ch : Nat) (o : XOpnd) (srcs dsts : List Loc) (s : State) : Bool :=
  (srcs ++ dsts).any (fun l => s.held l || (match l with
    | .mem pa => !s.reaches (dieOf ch) pa
    | .sp .. => false)) ||
    (o.countedAt dsts).any fun d => countWaits s ch d.1 d.2

/-- What a command does to one pair, and the scratchpad atoms that it writes and that count: PROMOTE and DROP have none, and a
DUP whose source is lost leaves its destination as it is (R178, R180). -/
def xPair (ch c : Nat) (o : XOpnd) (i w : Nat) (s : State) : MRes × List (Nat × Nat) :=
  let sn := sideNarrow ch c o (o.source (s.chair ch)) i s
  let dn := sideNarrow ch c o o.dst i s
  let (srcs, s) := sideLocs ch c o false (o.source (s.chair ch)) i w s
  let (dsts, s) := sideLocs ch c o true o.dst i w s
  let conv : List Byte → List Byte := match sn, dn with
    | true, true => fun bs => narrowBytes (widenBytes bs)
    | true, false => widenBytes
    | false, true => narrowBytes
    | false, false => id
  let p : Pair2 := { srcs := srcs, dsts := dsts, conv := conv }
  let lost := fun (l : XSideLoc) (ls : List Loc) => match l with
    | .mem _ => ls.isEmpty
    | _ => false
  let r := if lost o.src srcs || lost o.dst dsts then { s := s, err := some (.ctx 1) }
    else if pairWaits ch o srcs dsts s then { s := s, err := some .wait } else match o.kind with
    | .dup => movePair true p s
    | .fill v =>
      match dsts with
      | [] => { s := s }
      | d :: _ => fillAtom (if dn then narrowBytes (List.replicate 64 v) else List.replicate 32 v) d s
    | .drop =>
      match srcs with
      | [] => { s := s }
      | d :: _ => dropAtom d s
    | .promote => promotePair p s
    | _ => movePair false p s
  (r, match o.kind with
    | .dup => if r.loss.isSome then [] else o.countedAt dsts
    | _ => o.countedAt dsts)

/-- The head command of a queue does one pair, at an atom boundary (R166). -/
def xAtom (ch c q : Nat) (s : State) : State :=
  if xferRuns ch s = false then s
  else match ((s.core ch c).t.queue q).cmds.head? with
  | none => s
  | some k =>
    let o := k.sub.getD k.op
    if k.st ≠ .moving ∨ 32 * k.next ≥ o.len ∨ sideWaits ch c o (o.source (s.chair ch)) k.next 2 s ∨
        sideWaits ch c o o.dst k.next 2 s then s
    else
      let w := if sideNarrow ch c o (o.source (s.chair ch)) k.next s || sideNarrow ch c o o.dst k.next s then 2 else 1
      let (r, ns) := xPair ch c o k.next w s
      let s := r.s
      match r.err with
      | some .wait => s
      | some .poison => xFault ch c q 0x1A s
      | some .state => xFault ch c q 0x1B s
      | some (.ctx e) =>
        let va := match o.dst with | .mem a => o.memAt a k.next | _ => 0
        contextError (s.ctxOf ch) e k.sig.prov va
          (updHead ch c q (fun k => { k with st := .stopped, cause := some .context, held := [] }) (releaseLeaves k.held s))
      | none =>
        let s := match r.loss with
          | some (l, p) => lossRecord (s.ctxOf ch) k.sig.prov l p q s
          | none => s
        let s := s.updCore ch c fun y =>
          let x := y.t.queue q
          { y with t := y.t.setQueue q { x with vac := x.vac || r.vac, loss := x.loss || r.loss.isSome } }
        let s := ns.foldl (fun s d => countAtom ch d.1 d.2 s) s
        seeWords (updHead ch c q (fun k => { k with next := k.next + w }) s)

/-- The pairs that remain, at most `n`. -/
def xAtoms (ch c q : Nat) : Nat → State → State
  | 0, s => s
  | n + 1, s => xAtoms ch c q n (xAtom ch c q s)

/-- A handle whose region is all VACANT becomes FREE (R165). -/
def freeIfVacant (ch : Nat) (h : BitVec 6) (s : State) : State :=
  let x := s.chair ch
  let v := x.handle h
  if v.st ≠ .free ∧ ((List.range v.len).all fun i => (x.core v.home).spad.atom (v.base + i) == .vacant) then
    s.setChair ch (x.setHandle h {})
  else s

/-- The end of a command whose pairs are all done: its pages are let go, a source's handle may become FREE, and a
pulled region has its new place (R165, R167). -/
def xEnd (ch c q : Nat) (s : State) : State :=
  match ((s.core ch c).t.queue q).cmds.head? with
  | none => s
  | some k =>
    let o := k.sub.getD k.op
    if k.st ≠ .moving ∨ 32 * k.next < o.len then s
    else
      let s := releaseLeaves k.held s
      let s := match o.kind, o.src, o.dst with
        | .pull, _, .sp h off =>
          let x := s.chair ch
          s.setChair ch (x.setHandle h { x.handle h with base := off / 32, home := c })
        | .promote, _, .sp h _ => freeIfVacant ch h s
        | .move, .sp h _, _ => freeIfVacant ch h s
        | .dup, .sp h _, _ => freeIfVacant ch h s
        | .drop, .sp h _, _ => freeIfVacant ch h s
        | _, _, _ => s
      xFinish ch c q s

/-- XFR_COMMAND_COMPLETE: the head command of a queue does the pairs that remain and ends (R166, R175). -/
def execXfrCommandComplete (ch c q : Nat) (s : State) : Res :=
  let n := match ((s.core ch c).t.queue q).cmds.head? with
    | some k => (k.sub.getD k.op).len / 32
    | none => 0
  .next (if xferRuns ch s = false then s else xEnd ch c q (xAtoms ch c q n s))

end Sys2Proof.Machine
end

