-- ==== Sys2Proof/Machine/Xside.lean ====
section
/-!
DEFINITION. The X-side's words (R134 to R157), BQOUT (R102), and the landing of their results (R141).

A word reads its sources, and the old destination whose inactive lanes it keeps, in its issue cycle; its
result is computed then and is in flight until it lands.
-/

namespace Sys2Proof.Machine

open Sys2Proof

/-! ## Element types (R136, R138) -/

/-- The width of an element. -/
def VType.w : VType → Nat
  | .f32 | .i32 => 32
  | .bf16 | .f16 | .i16 => 16
  | .i8 | .u8 => 8

/-- The float format of a type, `none` for an integer kind. -/
def VType.fmt : VType → Option FFmt
  | .f32 => some fp32
  | .bf16 => some bf16
  | .f16 => some fp16
  | _ => none

/-- The code of a type (R36). -/
def VType.code : VType → Nat
  | .f32 => 0 | .bf16 => 1 | .f16 => 2 | .i8 => 4 | .u8 => 5 | .i16 => 6 | .i32 => 7

/-- The type a code names, where VSETT admits it (R136). -/
def VType.ofCode : Nat → Option VType
  | 0 => some .f32 | 1 => some .bf16 | 2 => some .f16 | 4 => some .i8 | 5 => some .u8 | 6 => some .i16
  | 7 => some .i32 | _ => none

/-- The elements of a register (R136). -/
def VType.count (t : VType) : Nat := 1024 / VType.w t

/-- An element is unsigned (R138). -/
def VType.uns (t : VType) : Bool := t == .u8

/-- The least and the greatest integer of a type; a float type reads as signed integers of its width. -/
def VType.lo (t : VType) : Int := if VType.uns t then 0 else -(2 ^ (VType.w t - 1) : Int)
def VType.hi (t : VType) : Int := if VType.uns t then 2 ^ VType.w t - 1 else 2 ^ (VType.w t - 1) - 1

/-- Element e of width w (R136). -/
def elem (v : Vec) (w e : Nat) : Nat := v.toNat / 2 ^ (w * e) % 2 ^ w

/-- A register from its elements of width w, lowest first. -/
def packElems (w : Nat) (xs : List Nat) : Nat := xs.foldr (fun x acc => x % 2 ^ w + 2 ^ w * acc) 0

def ofElems (w : Nat) (xs : List Nat) : Vec := BitVec.ofNat 1024 (packElems w xs)

/-- The bits of an integer in width w. -/
def wrapTo (w : Nat) (v : Int) : Nat := (v % 2 ^ w).toNat

/-- An element as the integer its kind reads (R138). -/
def VType.int (t : VType) (x : Nat) : Int :=
  if VType.uns t || x < 2 ^ (VType.w t - 1) then x else (x : Int) - 2 ^ VType.w t

/-- The lane of element e is active (R137). -/
def activeElem (p : BitVec 32) (w e : Nat) : Bool := p.getLsbD (w * e / 32)

/-- Compute every active element and keep the others; raise the flags of the active ones (R137). -/
def mapElems (w : Nat) (p : BitVec 32) (old : Vec) (f : Nat → Nat × Fl) : Vec × Fl :=
  let rs := (List.range (1024 / w)).map fun e => if activeElem p w e then f e else (elem old w e, 0)
  (ofElems w (rs.map (·.1)), rs.foldl (fun fl r => fl ||| r.2) 0)

/-- The active elements of a register, in order. -/
def activeElems (w : Nat) (p : BitVec 32) (v : Vec) : List Nat :=
  ((List.range (1024 / w)).filter fun e => activeElem p w e).map fun e => elem v w e

/-- Each predicate bit widened over its 32-bit lane. -/
def laneMask (p : BitVec 32) : Vec :=
  ofElems 32 ((List.range 32).map fun n => if p.getLsbD n then 2 ^ 32 - 1 else 0)

/-! ## Issuing a word (R139 to R141) -/

def State.xside (s : State) : XSide := s.me.x

def State.setX (s : State) (x : XSide) : State := s.setMe { s.me with x := x }

/-- The rounding mode FRM holds (R41). -/
def XSide.mode (x : XSide) : RMode := RMode.ofCode x.frm.toNat

/-- The word's pipe has issued in this cycle (R139). -/
def XSide.piped (x : XSide) (scalar : Bool) (cycle : Nat) : XSide :=
  if scalar then { x with scalarAt := some cycle } else { x with vectorAt := some cycle }

/-- Issue a word with a register result: it leaves its queue, and the result lands L cycles on (R140). -/
def vIssue (scalar : Bool) (lat : Nat) (r : Inflight) (s : State) : State :=
  let now := s.here.cycle
  let x := s.xside.piped scalar now
  retire (s.setX { x with fly := x.fly ++ [{ r with at_ := now + lat, sig := s.sig }] })

/-- Issue a word without a register result; its signal is added now (R141). -/
def vDone (scalar : Bool) (x : XSide) (s : State) : State :=
  retireSig (s.setX (x.piped scalar s.here.cycle))

/-- A scalar result. -/
def vScalar (scalar : Bool) (lat : Nat) (d : BitVec 6) (v : Word) (fl : Fl) (s : State) : Res :=
  .next (vIssue scalar lat { dest := .s d, val := v.setWidth 1024, flags := fl } s)

/-- A vector result. -/
def vVector (lat : Nat) (d : BitVec 9) (r : Vec × Fl) (s : State) : Res :=
  .next (vIssue false lat { dest := .v d, val := r.1, flags := r.2 } s)

/-- A predicate result. -/
def vPred (d : BitVec 5) (v : BitVec 32) (fl : Fl) (s : State) : Res :=
  .next (vIssue false 2 { dest := .p d, pval := v, flags := fl } s)

/-- A word that needs a float type: a vector-type fault under an integer one (R138). -/
def needFloat (s : State) (f : FFmt → Res) : Res :=
  match VType.fmt s.xside.vtype with
  | some m => f m
  | none => .next (raiseC 0x2A s)

/-! ## Landing (R141) -/

/-- Write a landed result; a write to s0 or p0 is discarded (R134). -/
def XSide.land (x : XSide) (r : Inflight) : XSide :=
  match r.dest with
  | .none => x
  | .s d => x.setS d (r.val.setWidth 64)
  | .v d => x.setV d r.val
  | .p d => x.setP d r.pval
  | .vvp d pd => ((x.setV d r.val).setV (d + 1) r.val2).setP pd r.pval
  | .vv d => (x.setV d r.val).setV (d + 1) r.val2

/-- The result that lands next: the earliest landing cycle, and of two in one cycle the earlier issued, so
that the later issued stands (R141). -/
def firstDue (cycle : Nat) (fly : List Inflight) : Option (Inflight × List Inflight) :=
  let due := fly.filter fun r => r.at_ ≤ cycle
  let t := due.foldl (fun t r => Nat.min t r.at_) cycle
  takeFirst (fun r => r.at_ == t) fly

/-- Land one result that is due: its register, its flags, its signal (R44, R141). -/
def landOne (ch c : Nat) (s : State) : State :=
  let y := s.core ch c
  match firstDue (s.chair ch).cycle y.x.fly with
  | none => s
  | some (r, rest) =>
    let x := { y.x.land r with fly := rest, flags := y.x.flags ||| r.flags }
    addSig ch c r.sig 2 (s.setCore ch c { y with x := x })

/-- RESULT_LANDING (R141). -/
def execResultLanding (ch c : Nat) (s : State) : Res :=
  .next (if (s.chair ch).st = .run then landOne ch c s else s)

/-- Land every result of a core that is due. -/
def landDue (ch c : Nat) : Nat → State → State
  | 0, s => s
  | n + 1, s =>
    if (s.core ch c).x.fly.any fun r => r.at_ ≤ (s.chair ch).cycle then landDue ch c n (landOne ch c s) else s

/-! ## Scalar words (R142) -/

def xS3 (f : Word → Word → Word) (d a b : BitVec 6) (s : State) : Res :=
  vScalar true 2 d (f (s.xside.sreg a) (s.xside.sreg b)) 0 s

def execSadd (d a b : BitVec 6) (s : State) : Res := xS3 (· + ·) d a b s
def execSsub (d a b : BitVec 6) (s : State) : Res := xS3 (· - ·) d a b s
def execSmul (d a b : BitVec 6) (s : State) : Res := xS3 (· * ·) d a b s
def execSand (d a b : BitVec 6) (s : State) : Res := xS3 (· &&& ·) d a b s
def execSor (d a b : BitVec 6) (s : State) : Res := xS3 (· ||| ·) d a b s
def execSxor (d a b : BitVec 6) (s : State) : Res := xS3 (· ^^^ ·) d a b s
def execSshl (d a b : BitVec 6) (s : State) : Res := xS3 (fun x y => x <<< (y.toNat % 64)) d a b s
def execSshr (d a b : BitVec 6) (s : State) : Res := xS3 (fun x y => x >>> (y.toNat % 64)) d a b s

/-- SFADD and SFMUL: FP32 in bits 31:0, zero-extended. -/
def xSf (f : FFmt → RMode → FVal → FVal → Nat × Fl) (d a b : BitVec 6) (s : State) : Res :=
  let x := s.xside
  let v := fun (r : BitVec 6) => unpack fp32 ((x.sreg r).toNat % 2 ^ 32)
  let r := f fp32 x.mode (v a) (v b)
  vScalar true 4 d (BitVec.ofNat 64 r.1) r.2 s

def execSfadd (d a b : BitVec 6) (s : State) : Res := xSf fAdd d a b s
def execSfmul (d a b : BitVec 6) (s : State) : Res := xSf fMul d a b s

def execSmov (d : BitVec 6) (v : SSrc) (s : State) : Res :=
  vScalar true 2 d (match v with | .reg a => s.xside.sreg a | .lit l => l.signExtend 64) 0 s

/-- Pop a load data queue: its head entry, once its data has arrived in an earlier cycle (R94, R95). -/
def popDq (q : Nat) (s : State) : Option (Vec × State) :=
  let a := s.aside
  match a.dqs q with
  | e :: es =>
    if e.at_ ≤ s.here.cycle then e.data.map fun v => (v, s.setAside { a with dq := SMap.put [] a.dq q es }) else none
  | [] => none

/-- Entries go into a queue of the running word's core in this cycle (R94). -/
def pushed (key : Nat) (s : State) : State := s.setMe (s.me.pushNote key 1 s.here.cycle)

/-- A pop is not exposed: no word that issues after it reads the old value, in its own cycle too (R140). -/
def execSpopq (d : BitVec 6) (q : BitVec 2) (s : State) : Res :=
  match popDq q.toNat s with
  | none => .next s
  | some (v, s) => vScalar true 1 d (v.setWidth 64) 0 (s.setX (s.xside.setS d (v.setWidth 64)))

def execSpushg (a : BitVec 6) (s : State) : Res :=
  let x := s.xside
  .next (if x.lane.length ≥ Config.laneDepth then s
    else vDone true { x with lane := x.lane ++ [x.sreg a] } (pushed keyLane s))

def execBqout (a : BitVec 6) (s : State) : Res :=
  let y := s.aside
  .next (if y.xa.length ≥ Config.outcomeQueue then s
    else vDone true s.xside (pushed keyXa (s.setAside { y with xa := y.xa ++ [s.xside.sreg a != 0] })))

/-- The lanes that wait in the deferral queue. -/
def XSide.deferred (x : XSide) : Nat := (x.defq.map fun b => b.lanes.length).sum

def execDqcnt (d : BitVec 6) (s : State) : Res :=
  let x := s.xside
  vScalar true 2 d (BitVec.ofNat 64 (x.deferred % 2 ^ 16 + 2 ^ 16 * (x.defq.length % 2 ^ 16))) 0 s

/-! ## Vector integer words (R143) -/

/-- An element-wise integer word: `f t a b` on the elements' bit patterns. -/
def xInt (f : VType → Nat → Nat → Nat × Fl) (p : BitVec 5) (d a b : BitVec 9) (s : State) : Res :=
  let x := s.xside
  let t := x.vtype
  let w := VType.w t
  vVector 2 d (mapElems w (x.preg p) (x.vreg d)
    fun e => f t (elem (x.vreg a) w e) (elem (x.vreg b) w e)) s

/-- A word whose result wraps: the exact integer from the two integers. -/
def wrapping (f : Int → Int → Int) (t : VType) (a b : Nat) : Nat × Fl :=
  (wrapTo (VType.w t) (f (VType.int t a) (VType.int t b)), 0)

/-- A word on bit patterns. -/
def bitwise (f : Nat → Nat → Nat) (_ : VType) (a b : Nat) : Nat × Fl := (f a b, 0)

/-- A shift by the low log2(w) bits of b. -/
def shifting (f : Nat → Nat → Nat → Nat) (t : VType) (a b : Nat) : Nat × Fl :=
  (f (VType.w t) a (b % VType.w t), 0)

def execVadd (p : BitVec 5) (d a b : BitVec 9) (s : State) : Res := xInt (wrapping (· + ·)) p d a b s
def execVsub (p : BitVec 5) (d a b : BitVec 9) (s : State) : Res := xInt (wrapping (· - ·)) p d a b s
def execVmul (p : BitVec 5) (d a b : BitVec 9) (s : State) : Res := xInt (wrapping (· * ·)) p d a b s
def execVmulh (p : BitVec 5) (d a b : BitVec 9) (s : State) : Res :=
  xInt (fun t => wrapping (fun x y => x * y / 2 ^ VType.w t) t) p d a b s
def execVmin (p : BitVec 5) (d a b : BitVec 9) (s : State) : Res :=
  xInt (wrapping fun x y => if x ≤ y then x else y) p d a b s
def execVmax (p : BitVec 5) (d a b : BitVec 9) (s : State) : Res :=
  xInt (wrapping fun x y => if x ≤ y then y else x) p d a b s
def execVabs (p : BitVec 5) (d a : BitVec 9) (s : State) : Res :=
  xInt (wrapping fun x _ => (x.natAbs : Int)) p d a 0 s
def execVneg (p : BitVec 5) (d a : BitVec 9) (s : State) : Res :=
  xInt (wrapping fun x _ => -x) p d a 0 s
def execVand (p : BitVec 5) (d a b : BitVec 9) (s : State) : Res := xInt (bitwise (· &&& ·)) p d a b s
def execVor (p : BitVec 5) (d a b : BitVec 9) (s : State) : Res := xInt (bitwise (· ||| ·)) p d a b s
def execVxor (p : BitVec 5) (d a b : BitVec 9) (s : State) : Res := xInt (bitwise (· ^^^ ·)) p d a b s
def execVnot (p : BitVec 5) (d a : BitVec 9) (s : State) : Res :=
  xInt (fun t a _ => (2 ^ VType.w t - 1 - a, 0)) p d a 0 s
def execVshl (p : BitVec 5) (d a b : BitVec 9) (s : State) : Res :=
  xInt (shifting fun w x k => x * 2 ^ k % 2 ^ w) p d a b s
def execVshr (p : BitVec 5) (d a b : BitVec 9) (s : State) : Res :=
  xInt (shifting fun _ x k => x / 2 ^ k) p d a b s
def execVsar (p : BitVec 5) (d a b : BitVec 9) (s : State) : Res :=
  xInt (shifting fun w x k => if x < 2 ^ (w - 1) then x / 2 ^ k else x / 2 ^ k + (2 ^ k - 1) * 2 ^ (w - k)) p d a b s

def execVadds (p : BitVec 5) (d a b : BitVec 9) (s : State) : Res :=
  xInt (fun t a b =>
    let r := clampTo (VType.lo t) (VType.hi t) (VType.int t a + VType.int t b)
    (wrapTo (VType.w t) r.1, flIf r.2 flSAT)) p d a b s

/-! ## Vector floating-point words (R144, R145) -/

/-- An element-wise float word: `f m mode a b old` on bit patterns. -/
def xFlt (lat : Nat) (f : FFmt → RMode → Nat → Nat → Nat → Nat × Fl) (p : BitVec 5) (d a b : BitVec 9)
    (s : State) : Res :=
  needFloat s fun m =>
    let x := s.xside
    let w := VType.w x.vtype
    vVector lat d (mapElems w (x.preg p) (x.vreg d) fun e =>
      f m x.mode (elem (x.vreg a) w e) (elem (x.vreg b) w e) (elem (x.vreg d) w e)) s

/-- A word of two operands, rounded. -/
def flt2 (f : FFmt → RMode → FVal → FVal → Nat × Fl) (m : FFmt) (r : RMode) (a b _d : Nat) : Nat × Fl :=
  f m r (unpack m a) (unpack m b)

/-- A word of one operand, rounded. -/
def flt1 (f : FFmt → RMode → FVal → Nat × Fl) (m : FFmt) (r : RMode) (a _b _d : Nat) : Nat × Fl :=
  f m r (unpack m a)

def execVfadd (p : BitVec 5) (d a b : BitVec 9) (s : State) : Res := xFlt 4 (flt2 fAdd) p d a b s
/-- a − b is a + (−b); the sign of a NaN does not matter (R39). -/
def execVfsub (p : BitVec 5) (d a b : BitVec 9) (s : State) : Res :=
  xFlt 4 (flt2 fun m r x y => fAdd m r x y.neg) p d a b s
def execVfmul (p : BitVec 5) (d a b : BitVec 9) (s : State) : Res := xFlt 4 (flt2 fMul) p d a b s
def execVfma (p : BitVec 5) (d a b : BitVec 9) (s : State) : Res :=
  xFlt 4 (fun m r x y z => fFma m r (unpack m x) (unpack m y) (unpack m z)) p d a b s
def execVfmin (p : BitVec 5) (d a b : BitVec 9) (s : State) : Res :=
  xFlt 4 (fun m _ x y _ => fMinMax m false x y) p d a b s
def execVfmax (p : BitVec 5) (d a b : BitVec 9) (s : State) : Res :=
  xFlt 4 (fun m _ x y _ => fMinMax m true x y) p d a b s

/-- The sign bit's place value. -/
def FFmt.signBit (m : FFmt) : Nat := 2 ^ (m.eb + m.fb)

def execVfabs (p : BitVec 5) (d a : BitVec 9) (s : State) : Res :=
  xFlt 2 (fun m _ x _ _ => (x % m.signBit, 0)) p d a 0 s
def execVfneg (p : BitVec 5) (d a : BitVec 9) (s : State) : Res :=
  xFlt 2 (fun m _ x _ _ => (if x < m.signBit then x + m.signBit else x - m.signBit, 0)) p d a 0 s
def execVrcp (p : BitVec 5) (d a : BitVec 9) (s : State) : Res := xFlt 8 (flt1 fRcp) p d a 0 s
def execVrsq (p : BitVec 5) (d a : BitVec 9) (s : State) : Res := xFlt 8 (flt1 fRsq) p d a 0 s
def execVexp2 (p : BitVec 5) (d a : BitVec 9) (s : State) : Res := xFlt 8 (flt1 fExp2) p d a 0 s
def execVlog2 (p : BitVec 5) (d a : BitVec 9) (s : State) : Res := xFlt 8 (flt1 fLog2) p d a 0 s

/-! ## Compares and predicate words (R146, R147) -/

/-- Write bit n of p_pd for each active lane n: whether the relation holds for every element of it. -/
def compareLanes (w : Nat) (p old : BitVec 32) (f : Nat → Bool × Fl) : BitVec 32 × Fl :=
  let k := 32 / w
  let lane := fun n => (List.range k).map fun i => f (n * k + i)
  let bit := fun n => if p.getLsbD n then (lane n).all (·.1) else old.getLsbD n
  let v := (List.range 32).foldr (fun n acc => 2 * acc + (if bit n then 1 else 0)) 0
  let fl := (List.range 32).foldl (fun fl n =>
    if p.getLsbD n then (lane n).foldl (fun fl r => fl ||| r.2) fl else fl) 0
  (BitVec.ofNat 32 v, fl)

def xCompare (p : BitVec 5) (pd : BitVec 5) (a b : BitVec 9) (f : Nat → Nat → Bool × Fl) (s : State) : Res :=
  let x := s.xside
  let w := VType.w x.vtype
  let r := compareLanes w (x.preg p) (x.preg pd) fun e => f (elem (x.vreg a) w e) (elem (x.vreg b) w e)
  vPred pd r.1 r.2 s

/-- An integer compare. -/
def xIcmp (f : Int → Int → Bool) (p pd : BitVec 5) (a b : BitVec 9) (s : State) : Res :=
  let t := s.xside.vtype
  xCompare p pd a b (fun x y => (f (VType.int t x) (VType.int t y), 0)) s

def execVceq (p pd : BitVec 5) (a b : BitVec 9) (s : State) : Res := xIcmp (fun x y => decide (x = y)) p pd a b s
def execVclt (p pd : BitVec 5) (a b : BitVec 9) (s : State) : Res := xIcmp (fun x y => decide (x < y)) p pd a b s
def execVcle (p pd : BitVec 5) (a b : BitVec 9) (s : State) : Res := xIcmp (fun x y => decide (x ≤ y)) p pd a b s

/-- A float compare; `quiet`: only a signalling NaN sets NV. -/
def xFcmp (quiet : Bool) (f : FVal → FVal → Bool) (p pd : BitVec 5) (a b : BitVec 9) (s : State) : Res :=
  needFloat s fun m =>
    xCompare p pd a b (fun x y =>
      let u := unpack m x
      let v := unpack m y
      (f u v, flIf (u.snan || v.snan || (!quiet && (u.isNan || v.isNan))) flNV)) s

/-- Neither is a NaN, and the order is one of those given. -/
def FVal.ordered (f : Ordering → Bool) (u v : FVal) : Bool := !u.isNan && !v.isNan && f (u.cmp v)

def execVfceq (p pd : BitVec 5) (a b : BitVec 9) (s : State) : Res :=
  xFcmp true (FVal.ordered (· == .eq)) p pd a b s
def execVfclt (p pd : BitVec 5) (a b : BitVec 9) (s : State) : Res :=
  xFcmp false (FVal.ordered (· == .lt)) p pd a b s
def execVfcle (p pd : BitVec 5) (a b : BitVec 9) (s : State) : Res :=
  xFcmp false (FVal.ordered (· != .gt)) p pd a b s
def execVfcun (p pd : BitVec 5) (a b : BitVec 9) (s : State) : Res :=
  xFcmp true (fun u v => u.isNan || v.isNan) p pd a b s

/-- A predicate word of two predicates. -/
def xP2 (f : BitVec 32 → BitVec 32 → BitVec 32) (pd pa pb : BitVec 5) (s : State) : Res :=
  vPred pd (f (s.xside.preg pa) (s.xside.preg pb)) 0 s

def execPand (pd pa pb : BitVec 5) (s : State) : Res := xP2 (· &&& ·) pd pa pb s
def execPor (pd pa pb : BitVec 5) (s : State) : Res := xP2 (· ||| ·) pd pa pb s
def execPxor (pd pa pb : BitVec 5) (s : State) : Res := xP2 (· ^^^ ·) pd pa pb s
def execPnot (pd pa : BitVec 5) (s : State) : Res := vPred pd (~~~ s.xside.preg pa) 0 s
def execPany (sd : BitVec 6) (pa : BitVec 5) (s : State) : Res :=
  vScalar false 2 sd (if s.xside.preg pa = 0 then 0 else 1) 0 s
def execPcnt (sd : BitVec 6) (pa : BitVec 5) (s : State) : Res :=
  let p := s.xside.preg pa
  vScalar false 2 sd (BitVec.ofNat 64 ((List.range 32).filter fun n => p.getLsbD n).length) 0 s

/-! ## Movement (R148, R149) -/

def execVpopq (p : BitVec 5) (d : BitVec 9) (q : BitVec 2) (s : State) : Res :=
  match popDq q.toNat s with
  | none => .next s
  | some (v, s) =>
    let x := s.xside
    let m := laneMask (x.preg p)
    let r := (v &&& m) ||| (x.vreg d &&& ~~~m)
    vVector 1 d (r, 0) (s.setX (x.setV d r))

def execVpushq (p : BitVec 5) (q : BitVec 1) (a : BitVec 9) (s : State) : Res :=
  let x := s.xside
  let y := s.aside
  let es := y.sqs q.toNat
  .next (if es.length ≥ Config.dataQueue then s
    else
      let y := { y with sq := SMap.put [] y.sq q.toNat (es ++ [x.vreg a &&& laneMask (x.preg p)]) }
      vDone false x (pushed (keySq q.toNat) (s.setAside y)))

def execVsel (p : BitVec 5) (d a b : BitVec 9) (s : State) : Res :=
  let x := s.xside
  let m := laneMask (x.preg p)
  vVector 2 d ((x.vreg a &&& m) ||| (x.vreg b &&& ~~~m), 0) s

/-- A movement word: the bit pattern of active element e. -/
def xMove (p : BitVec 5) (d : BitVec 9) (f : XSide → Nat → Nat → Nat) (s : State) : Res :=
  let x := s.xside
  let w := VType.w x.vtype
  vVector 2 d (mapElems w (x.preg p) (x.vreg d) fun e => (f x w e, 0)) s

def execVbcast (p : BitVec 5) (d : BitVec 9) (sa : BitVec 6) (s : State) : Res :=
  xMove p d (fun x w _ => (x.sreg sa).toNat % 2 ^ w) s
def execVperm (p : BitVec 5) (d a b : BitVec 9) (s : State) : Res :=
  xMove p d (fun x w e => elem (x.vreg a) w (elem (x.vreg b) w e % (1024 / w))) s
def execVrot (p : BitVec 5) (d a k : BitVec 9) (s : State) : Res :=
  xMove p d (fun x w e => elem (x.vreg a) w ((e + k.toNat) % (1024 / w))) s
def execVmov (p : BitVec 5) (d a : BitVec 9) (s : State) : Res :=
  xMove p d (fun x w e => elem (x.vreg a) w e) s

def execVext (sd : BitVec 6) (a k : BitVec 9) (s : State) : Res :=
  let x := s.xside
  let t := x.vtype
  let v := elem (x.vreg a) (VType.w t) (k.toNat % VType.count t)
  let signed : Bool := (VType.fmt t).isNone && !VType.uns t
  vScalar false 2 sd (BitVec.ofInt 64 (if signed then VType.int t v else (v : Int))) 0 s

def execVins (d : BitVec 9) (sa : BitVec 6) (k : BitVec 9) (s : State) : Res :=
  let x := s.xside
  let w := VType.w x.vtype
  vVector 2 d (mapElems w (BitVec.allOnes 32) (x.vreg d) fun e =>
    (if e = k.toNat % (1024 / w) then (x.sreg sa).toNat % 2 ^ w else elem (x.vreg d) w e, 0)) s

/-! ## Conversion (R150 to R152) -/

/-- One element from type t to type u under a rounding mode. -/
def convert (t u : VType) (mode : RMode) (x : Nat) : Nat × Fl :=
  match VType.fmt t, VType.fmt u with
  | some m, some n => roundVal n mode (unpack m x)
  | some m, none =>
    let r := fToInt mode (VType.lo u) (VType.hi u) (unpack m x)
    (wrapTo (VType.w u) r.1, r.2)
  | none, some n => roundSigned n mode (VType.int t x) 0 false
  | none, none =>
    let r := clampTo (VType.lo u) (VType.hi u) (VType.int t x)
    (wrapTo (VType.w u) r.1, flIf r.2 flSAT)

/-- The elements a conversion makes (R150). -/
def convCount (t u : VType) : Nat := 1024 / Nat.max (VType.w t) (VType.w u)

/-- The converted register: the bits above the elements are zero. -/
def convertAll (t u : VType) (mode : Nat → RMode) (v : Vec) : Vec × Fl :=
  let rs := (List.range (convCount t u)).map fun e => convert t u (mode e) (elem v (VType.w t) e)
  (ofElems (VType.w u) (rs.map (·.1)), rs.foldl (fun fl r => fl ||| r.2) 0)

def execVcvt (d a : BitVec 9) (u : VType) (s : State) : Res :=
  let x := s.xside
  vVector 3 d (convertAll x.vtype u (fun _ => x.mode) (x.vreg a)) s

/-- DROW after n elements: I advances by n / 32, and P by one each time I wraps (R151). -/
def drowNext (r : BitVec 10) (n : Nat) : BitVec 10 :=
  let i := (field 0 5 r).toNat + n / 32
  let p := (field 5 5 r).toNat + i / 32
  BitVec.ofNat 5 p ++ BitVec.ofNat 5 i

/-- The dither of element e (R151). -/
def drowDither (r : BitVec 10) (e : Nat) : RMode :=
  .dith (dither (((field 0 5 r).toNat + e / 32) % 32) (e % 32) (field 5 5 r).toNat)

def execVcvtd (d a : BitVec 9) (u : VType) (s : State) : Res :=
  needFloat s fun _ =>
    let x := s.xside
    let r := convertAll x.vtype u (drowDither x.drow) (x.vreg a)
    vVector 3 d r (s.setX { x with drow := drowNext x.drow (convCount x.vtype u) })

def execVpack (d a : BitVec 9) (h : BitVec 1) (s : State) : Res :=
  let x := s.xside
  let lo := (x.vreg a).setWidth 512
  let old := x.vreg d
  let v : Vec := if h = 0 then old.extractLsb' 512 512 ++ lo else lo ++ old.extractLsb' 0 512
  vVector 3 d (v, 0) s

def execVunpk (d a : BitVec 9) (h : BitVec 1) (s : State) : Res :=
  let v := s.xside.vreg a
  vVector 3 d (((if h = 0 then v.extractLsb' 0 512 else v.extractLsb' 512 512)).setWidth 1024, 0) s

/-! ## Reductions (R153) -/

def execVrsum (p : BitVec 5) (sd : BitVec 6) (a : BitVec 9) (s : State) : Res :=
  let x := s.xside
  let t := x.vtype
  let es := activeElems (VType.w t) (x.preg p) (x.vreg a)
  vScalar false 6 sd (BitVec.ofInt 64 (es.foldl (fun v e => v + VType.int t e) 0)) 0 s

/-- The greatest or least of float elements: R145 over the whole set (R153). -/
def fltExtreme (m : FFmt) (greater : Bool) (es : List Nat) : Nat × Fl :=
  let fl := flIf (es.any fun e => (unpack m e).snan) flNV
  match es.filter fun e => !(unpack m e).isNan with
  | [] => if es.isEmpty then (m.inf greater, 0) else (m.nan, fl)
  | e :: rest => (rest.foldl (fun v e => (fMinMax m greater v e).1) e, fl)

/-- The greatest or least of integers; the far end of the type where there is none. -/
def intExtreme (t : VType) (greater : Bool) (es : List Nat) : Int :=
  (es.map (VType.int t)).foldl (fun v e => if (v < e) = greater then e else v)
    (if greater then VType.lo t else VType.hi t)

def xExtreme (greater : Bool) (p : BitVec 5) (sd : BitVec 6) (a : BitVec 9) (s : State) : Res :=
  let x := s.xside
  let t := x.vtype
  let es := activeElems (VType.w t) (x.preg p) (x.vreg a)
  match VType.fmt t with
  | some m =>
    let r := fltExtreme m greater es
    vScalar false 6 sd (BitVec.ofNat 64 r.1) r.2 s
  | none => vScalar false 6 sd (BitVec.ofInt 64 (intExtreme t greater es)) 0 s

def execVrmax (p : BitVec 5) (sd : BitVec 6) (a : BitVec 9) (s : State) : Res := xExtreme true p sd a s
def execVrmin (p : BitVec 5) (sd : BitVec 6) (a : BitVec 9) (s : State) : Res := xExtreme false p sd a s

/-- The sign of a zero sum: that of zeros all of one sign, else −0 under RDN only (R153). -/
def zeroSign (m : FFmt) (mode : RMode) (es : List Nat) : Bool :=
  if !es.isEmpty && es.all fun e => e == m.zero true then true
  else if es.all fun e => e == m.zero false then false
  else mode == .rdn

def execVfrsum (p : BitVec 5) (sd : BitVec 6) (a : BitVec 9) (s : State) : Res :=
  needFloat s fun m =>
    let x := s.xside
    let es := activeElems (VType.w x.vtype) (x.preg p) (x.vreg a)
    let t := es.foldl (fun (t : ExactSum) e => t.add (unpack m e)) {}
    let r := t.round fp32 x.mode (zeroSign m x.mode es)
    -- infinities of both signs set NV beside a quiet NaN too (R153)
    vScalar false 6 sd (BitVec.ofNat 64 r.1) (r.2 ||| flIf (t.pinf && t.ninf) flNV) s

/-! ## Lane divergence (R154, R155) -/

def execDefer (p : BitVec 5) (a : BitVec 9) (tag : BitVec 8) (s : State) : Res :=
  let x := s.xside
  let q := x.preg p
  let ls := ((List.range 32).filter fun n => q.getLsbD n).map fun n => (n, lane32 (x.vreg a) n)
  .next (if ls.isEmpty then vDone false x s
    else if x.defq.length ≥ Config.deferBatches then raiseC 0x27 s
    else vDone false { x with defq := x.defq ++ [{ tag := tag, lanes := ls }] } s)

/-- Take up to k lanes from the head of the deferral queue: their values, their tags with lane numbers, and
what stays. -/
def drainLanes : Nat → List Batch → List (Nat × Nat) × List Batch
  | 0, q => ([], q)
  | _, [] => ([], [])
  | k + 1, b :: bs =>
    let one := b.lanes.map fun l => (l.2.toNat, b.tag.toNat * 256 + l.1)
    if b.lanes.length ≤ k + 1 then
      let r := drainLanes (k + 1 - b.lanes.length) bs
      (one ++ r.1, r.2)
    else (one.take (k + 1), { b with lanes := b.lanes.drop (k + 1) } :: bs)
termination_by structural _ q => q

def execDrain (d : BitVec 9) (pd : BitVec 5) (s : State) : Res :=
  let x := s.xside
  let r := drainLanes 32 x.defq
  let s := s.setX { x with defq := r.2 }
  .next (vIssue false 2
    { dest := .vvp d pd, val := ofElems 32 (r.1.map (·.1)), val2 := ofElems 32 (r.1.map (·.2)),
      pval := BitVec.ofNat 32 (2 ^ r.1.length - 1) } s)

/-! ## Compress (R157) -/

/-- The rank of an element's magnitude: a NaN above every number. -/
def VType.rank (t : VType) (x : Nat) : Nat :=
  match VType.fmt t with
  | some m => if (unpack m x).isNan then 2 ^ VType.w t else x % m.signBit
  | none => (VType.int t x).natAbs

/-- The n greatest of the ranks, by index; of equal ones the lower index first. -/
def selectTop (ranks : List Nat) (n : Nat) : List Nat :=
  let r := fun i => ranks.getD i 0
  (List.range ranks.length).filter fun i =>
    ((List.range ranks.length).filter fun j => r j > r i || (r j == r i && j < i)).length < n

/-- N:M compression of elements of width w: the selected elements, and their indices in their groups. -/
def compress (t : VType) (mode : Nat) (es : List Nat) : List (Nat × Nat) :=
  let n := 2 * 2 ^ mode
  let m := 2 * n
  (List.range (es.length / m)).flatMap fun g =>
    let grp := (es.drop (g * m)).take m
    (selectTop (grp.map (VType.rank t)) n).map fun r => (grp.getD r 0, r)

def execVcompnm (d a : BitVec 9) (mode : BitVec 2) (s : State) : Res :=
  let x := s.xside
  let t := x.vtype
  let w := VType.w t
  let rs := compress t mode.toNat ((List.range (VType.count t)).map fun e => elem (x.vreg a) w e)
  let nan : Bool := match VType.fmt t with
    | some m => rs.any fun r => (unpack m r.1).isNan
    | none => false
  .next (vIssue false 6
    { dest := .vv d, val := ofElems w (rs.map (·.1)), val2 := ofElems (mode.toNat + 2) (rs.map (·.2)),
      flags := flIf nan flCN } s)

def execVsett (t : VType) (s : State) : Res := .next (vDone false { s.xside with vtype := t } s)

end Sys2Proof.Machine
end

