-- ==== Sys2Proof/Machine/Matrix.lean ====
section
/-!
DEFINITION. The MXA words (R187 to R203): the lease, matrix pointers, format words, the furnace, the accumulator
tiles, ACCWB, and the steps that end them.

A furnace command reads its operands when it starts and lands when its cycles are done.  Words on one tile act on it
in issue order: a started word acts once the earlier ones on its tiles have.
-/

namespace Sys2Proof.Machine

open Sys2Proof

def State.mside (s : State) : MSide := s.me.m

def State.setM (s : State) (m : MSide) : State := s.setMe { s.me with m := m }

/-- A word that is done at issue (R202). -/
def mDone (m : MSide) (s : State) : Res := .next (retireSig (s.setM m))

/-! ## The lease (R189, R190) -/

/-- The quad of a core. -/
def quadOf (c : Nat) : Nat := c / 4

/-- A quad; its last holder is core 4q + 3 at first (R187). -/
def Chair.quad (x : Chair) (q : Nat) : Quad := SMap.get {} x.quads q

def Chair.setQuad (x : Chair) (q : Nat) (u : Quad) : Chair := { x with quads := SMap.put {} x.quads q u }

/-- A core waits for the furnace: WAITING or LAPSED. -/
def Lease.asks : Lease → Bool
  | .waiting _ | .lapsed _ => true
  | _ => false

def Lease.holds : Lease → Bool
  | .holding _ => true
  | _ => false

/-- The cores of a quad, by number. -/
def quadCores (q : Nat) : List Nat := (List.range 4).map fun i => 4 * q + i

/-- The holder lets the furnace go in the present cycle. -/
def freeFurnace (ch c : Nat) (s : State) : State :=
  s.updChair ch fun x => x.setQuad (quadOf c) { x.quad (quadOf c) with freeAt := x.cycle }

def execLease (n : BitVec 7) (s : State) : Res :=
  let m := s.mside
  .next (match m.lease with
    | .none => s.setM { m with lease := .waiting n.toNat }
    | .waiting _ => s
    | _ => raiseC 0x13 s)

/-- The furnace of a quad takes a new holder (R190). -/
def furnaceFree (x : Chair) (q : Nat) : Bool :=
  let u := x.quad q
  !((quadCores q).any fun c => (x.core c).m.lease.holds) && u.busy ≤ x.cycle && u.freeAt < x.cycle

/-- The first core of a quad that asks, in the order of R190. -/
def askFirst (x : Chair) (q : Nat) : Option Nat :=
  ((List.range 4).map fun i => 4 * q + ((x.quad q).last % 4 + 1 + i) % 4).find? fun c => (x.core c).m.lease.asks

/-- The core that the first grant of a quad from entry `n` on names. -/
def nextGrant (es : List (Nat × Nat × List Byte)) (n q : Nat) : Option Nat :=
  let g := es.filter fun e => e.1 ≥ n && e.2.1 == rrGrant && e.2.2.getD 0 0 == BitVec.ofNat 8 q
  (g.find? fun e => g.all fun d => e.1 ≤ d.1).map fun e => (e.2.2.getD 1 0).toNat

/-- The core of a quad that the next grant goes to, where one is due: under REPLAY the one that the log grants next,
whoever else asks (R190, R355). -/
def grantTo (ch q : Nat) (s : State) : Option Nat :=
  let x := s.chair ch
  let k := s.ctxOf ch
  if furnaceFree x q = false then none
  else if (s.ctx k).desc1 1 54 1 = 0 then askFirst x q
  else match nextGrant (replayEntries k ch s) (SMap.get 0 (s.ctx k).rr ch) q with
    | some c => if quadOf c = q ∧ (x.core c).m.lease.asks then some c else none
    | none => askFirst x q

/-- Give the furnace of a quad to a core; a waiting LEASE completes (R189). -/
def grantLease (ch q c : Nat) (s : State) : State :=
  let x := s.chair ch
  let x := x.setQuad q { x.quad q with last := c % 4 }
  let y := x.core c
  let hold := fun (n : Nat) =>
    { y with m := { y.m with lease := .holding n, idle := 0, startAt := some x.cycle } }
  match y.m.lease, headUnit (y.queue 3) with
  | .waiting n, some (_, w, _) =>
    let cl := clauseOf w.w
    let g : Sig := { sem := cl.ssem, amt := if cl.ssem = 0 then 0 else amount cl.scnt, prov := w.prov,
                     lis := w.lis, w := w.w }
    addSig ch c g 3 (s.setChair ch (x.setCore c ((hold n).retire 3 x.cycle)))
  | .lapsed r, _ => s.setChair ch (x.setCore c (hold r))
  | _, _ => s

/-- LEASE_GRANT: the furnace of quad q is granted (R189, R190, R354, R355). -/
def execLeaseGrant (ch q : Nat) (s : State) : Res :=
  let k := s.ctxOf ch
  .next (if (s.chair ch).st ≠ .run then s
    else match grantTo ch q s with
    | none => s
    | some c =>
      let v := [BitVec.ofNat 8 q, BitVec.ofNat 8 c]
      input k ch rrGrant (fun e => e.take 2 == v)
        (fun _ s => grantLease ch q c (recordInput k ch rrGrant v s)) s)

/-- A lapse is due: the holder's idle count has reached 256 (R189). -/
def lapseDue (x : Chair) (c : Nat) : Bool := (x.core c).m.lease.holds && (x.core c).m.idle ≥ 256

/-- LEASE_LAPSE (R189). -/
def execLeaseLapse (ch c : Nat) (s : State) : Res :=
  let x := s.chair ch
  .next (if x.st = .run ∧ lapseDue x c then
      freeFurnace ch c (s.setChair ch (x.setCore c ((x.core c).lapse)))
    else s)

/-- The idle count of a core at the end of a cycle (R189). -/
def Core.idleTick (x : Chair) (c : Nat) (y : Core) : Core :=
  let asked := (quadCores (quadOf c)).any fun d => d ≠ c && (x.core d).m.lease.asks
  if y.m.lease.holds && asked && y.m.startAt ≠ some x.cycle then
    { y with m := { y.m with idle := y.m.idle + 1 } }
  else if y.m.idle = 0 then y
  else { y with m := { y.m with idle := 0 } }

def execUnlease (s : State) : Res :=
  let m := s.mside
  match m.lease with
  | .holding _ => mDone { m with lease := .none } (freeFurnace s.act.chair s.act.core s)
  | .lapsed _ => mDone { m with lease := .none } s
  | _ => mDone m s

/-! ## Matrix pointers (R192) -/

def MSide.ptr (m : MSide) (i : BitVec 4) : Nat := (SMap.get 0 m.mp i.toNat).toNat

def MSide.setPtr (m : MSide) (i : BitVec 4) (v : BitVec 19) : MSide :=
  { m with mp := SMap.put 0 m.mp i.toNat v }

def execMset (mp : BitVec 4) (off : BitVec 19) (s : State) : Res := mDone (s.mside.setPtr mp off) s

def execMinc (mp : BitVec 4) (off : BitVec 19) (s : State) : Res :=
  let v : Int := s.mside.ptr mp + off.toInt
  if v < 0 ∨ v ≥ 0x50000 then .next (raiseC 0x15 s)
  else mDone (s.mside.setPtr mp (BitVec.ofInt 19 v)) s

/-! ## Format words (R81, R193 to R195) -/

/-- ESN e follows ESN d (R25). -/
def follows (e d : BitVec 28) : Bool := 1 ≤ (e - d).toNat && (e - d).toNat < 2 ^ 27

/-- The head entry that a word with ESN e may use (R81); `none`: format underflow. -/
def MSide.fmtHead (m : MSide) (e : BitVec 28) : Option Word :=
  match m.fmtq with
  | [] => none
  | f :: _ => if f.old || !follows f.stamp e then some f.val else none

def MSide.popFmt (m : MSide) : MSide := { m with fmtq := m.fmtq.drop 1 }

/-- The head of the format queue was pushed in this cycle: a pop stalls until the next (R94). -/
def State.fmtNew (s : State) : Bool :=
  let q := s.mside.fmtq
  !q.isEmpty && s.me.ripe keyFmt q.length s.here.cycle == 0

def fwKind (f : Word) : Bool := f.getLsbD 63
def fwFmt (f : Word) : Nat := (field 59 4 f).toNat
def fwB (f : Word) : Nat := (field 55 4 f).toNat
def fwSca (f : Word) : Nat := (field 19 19 f).toNat
def fwScb (f : Word) : Nat := (field 0 19 f).toNat
def fwRnd (f : Word) : Nat := (field 56 3 f).toNat
def fwPhase (f : Word) : Nat := (field 51 5 f).toNat
def fwScale (f : Word) : Nat := (field 43 8 f).toNat
def fwInt (f : Word) : Bool := f.getLsbD 42
def fwBias (f : Word) : Bool := f.getLsbD 41
def fwBreg (f : Word) : BitVec 9 := field 32 9 f

/-- An operand word that R195 admits. -/
def operandWordOk (f : Word) : Bool :=
  !fwKind f && field 38 17 f == 0 && 1 ≤ fwFmt f && fwFmt f ≤ 4 && fwB f == fwFmt f &&
    (fwFmt f == 3 || (fwSca f == 0 && fwScb f == 0)) && fwSca f < 0x50000 && fwScb f < 0x50000

/-- An output word that R195 admits; BREG is zero when BIAS = 0 (R194).
DEDUCED (assumption 15). -/
def outputWordOk (f : Word) : Bool :=
  fwKind f && [0, 1, 2, 3, 4, 6, 7].contains (fwFmt f) && fwRnd f ≤ 4 && field 0 32 f == 0 &&
    (fwBias f || fwBreg f == 0) && (fwScale f ≠ 255 || fwFmt f == 3)

def execFmtskip (s : State) : Res :=
  if s.fmtNew then .next s
  else match s.mside.fmtHead s.act.prov.esn with
  | none => .next (raiseC 0x16 s)
  | some _ => mDone s.mside.popFmt s

/-! ## Tiles (R198) -/

def MSide.tile (m : MSide) (t : Nat) : Tile := SMap.get {} m.tiles t

def MSide.setTile (m : MSide) (t : Nat) (v : Tile) : MSide := { m with tiles := SMap.put {} m.tiles t v }

/-- The tiles acc to acc + k. -/
def tileRange (acc : BitVec 9) (k : BitVec 5) : List Nat := (List.range (k.toNat + 1)).map (acc.toNat + ·)

/-- The tiles a started word names. -/
def MOp.tiles : MOp → List Nat
  | .mma acc .. => [acc.toNat]
  | .accz acc k | .accrd acc _ k _ | .accwr acc _ k _ | .accrel acc k | .accwb acc k .. => tileRange acc k
  | .accmv acc s k => tileRange acc k ++ tileRange s k
  | .lease => []

def MOp.isMma : MOp → Bool
  | .mma .. => true
  | _ => false

def MOp.isRel : MOp → Bool
  | .accrel .. => true
  | _ => false

/-- A started word names one of some tiles. -/
def MPend.on (p : MPend) (ts : List Nat) : Bool := p.op.tiles.any fun t => ts.contains t

/-- What a tile is apart from a hold. -/
def Tile.real (t : Tile) : TileState := if t.st = .held then t.under else t.st

/-- A tile as an earlier word than the one that holds it leaves it: a hold stays. -/
def Tile.become (t u : Tile) : Tile :=
  if t.st = .held then { u with st := .held, under := u.st, pendingRel := t.pendingRel } else u

/-- The states in which a word leaves tiles, from those in which it finds them (R198). -/
def MOp.leaves (op : MOp) (f : Nat → TileState) (t : Nat) : TileState :=
  let filled := if f t = .poison then TileState.poison else .home
  match op with
  | .mma acc .. => if t = acc.toNat then filled else f t
  | .accz acc k | .accwr acc _ k _ => if t ∈ tileRange acc k then filled else f t
  | .accrd acc _ k _ | .accrel acc k => if t ∈ tileRange acc k then .vacant else f t
  | .accmv acc s k =>
    if t ∈ tileRange acc k then f (s.toNat + (t - acc.toNat)) else if t ∈ tileRange s k then .vacant else f t
  | _ => f t

/-- The states of the tiles once every started word has acted (R188, R198). -/
def MSide.after (m : MSide) : Nat → TileState := m.pend.foldl (fun f p => p.op.leaves f) fun t => (m.tile t).real

/-- A tile's stored bits hold an error that an access finds (R198). -/
def Tile.bad (t : Tile) : Bool := t.err && (t.st == .home || t.st == .held)

/-- A tile as a loss record reports it: bits 63 and 62, the core's package index, and the tile's number. -/
def tileReport (ch c t : Nat) : Nat := 2 ^ 63 + 2 ^ 62 + coreIndex ch c * 2 ^ 32 + t

/-- An uncorrectable error has been found in a tile: it is POISON, and the owner gets a loss record (R198). -/
def poisonTile (ch c : Nat) (p : Prov) (t : Nat) (s : State) : State :=
  let s := s.updCore ch c fun y => { y with m := y.m.setTile t { st := .poison } }
  lossRecord (s.ctxOf ch) p (tileReport ch c t) (tileReport ch c t) 0 s

/-- Find the errors in some tiles. -/
def findTileErrors (ch c : Nat) (p : Prov) (ts : List Nat) (s : State) : State :=
  (ts.filter fun t => ((s.core ch c).m.tile t).bad).foldl (fun s t => poisonTile ch c p t s) s

/-- Some tile is POISON. -/
def anyPoison (m : MSide) (ts : List Nat) : Bool := ts.any fun t => (m.tile t).real == .poison

/-- The tiles that no started ACCREL is about to clear (R188, R198). -/
def MSide.kept (m : MSide) (ts : List Nat) : List Nat := ts.filter fun t => !m.pend.any fun p => p.op.isRel && p.on [t]

/-- Earlier started words than `id` name some tiles. -/
def pendBlocked (ts : List Nat) (id : Nat) : List MPend → Bool
  | [] => false
  | q :: qs => if q.id = id then false else q.on ts || pendBlocked ts id qs

/-- The bytes of a tile: element (i, j) at 128 i + 4 j (R187). -/
def Tile.bytes (t : Tile) : List Byte :=
  (List.range 1024).flatMap fun e => leBytes 4 (SMap.get 0 t.data e).toNat

/-- A HOME tile of bytes. -/
def tileOf (bs : List Byte) : Tile :=
  { st := .home,
    data := (chunksOf 4 (bs.take 4096)).zipIdx.foldl
      (fun m e => SMap.put 0 m e.2 (BitVec.ofNat 32 (leNat e.1))) [] }

/-! ## MMA and MMAT (R196, R197) -/

/-- The element width and the row bytes of an operand format (R196). -/
def opndW (f : Nat) : Nat := match f with | 3 => 6 | 4 => 8 | _ => 16
def opndRow (f : Nat) : Nat := 4 * opndW f
def opndBytes (f : Nat) : Nat := 32 * opndRow f

/-- Furnace cycles (R197). -/
def furnaceCycles (f : Nat) : Nat := match f with | 3 => 4 | 4 => 8 | _ => 16

/-- An operand lies in the scratchpad and in one bank group (R196). -/
def opndInRange (off n : Nat) : Bool := off + n ≤ 0x50000 && off / 0x14000 == (off + n - 1) / 0x14000

/-- Element e of row r of a block. -/
def blockElem (m : Space) (off f r e : Nat) : Nat :=
  leNat (m.getBytes (off + opndRow f * r) (opndRow f)) / 2 ^ (opndW f * e) % 2 ^ opndW f

/-- The group of element (i, j), with its flags (R50, R51): an FP32 pattern, or an INT32 one for INT8.
DEDUCED (assumption 14). -/
def mmaGroup (f ea eb : Nat) (ps : List (Nat × Nat)) : Nat × Fl :=
  match f with
  | 3 => lnsGroup ea eb ps
  | 4 => (wrapTo 32 (iGroup ps), 0)
  | 1 => fGroup bf16 true ps
  | _ => fGroup fp16 true ps

/-- All groups of a command. -/
def mmaGroups (m : Space) (f : Word) (t : Bool) (offA offB : Nat) : SMap (BitVec 32) × Fl :=
  let k := fwFmt f
  let ea := if k = 3 then (m.byte (fwSca f)).toNat else 127
  let eb := if k = 3 then (m.byte (fwScb f)).toNat else 127
  (List.range 1024).foldl (fun (acc : SMap (BitVec 32) × Fl) e =>
    let i := e / 32
    let j := e % 32
    let ps := (List.range 32).map fun n =>
      (if t then blockElem m offA k n i else blockElem m offA k i n, blockElem m offB k n j)
    let r := mmaGroup k ea eb ps
    (SMap.put 0 acc.1 e (BitVec.ofNat 32 r.1), acc.2 ||| r.2)) ([], 0)

/-- The extents an operand word and two pointers read, as offset and length (R196). -/
def mmaExtents (f : Word) (a b : Nat) : List (Nat × Nat) :=
  let n := opndBytes (fwFmt f)
  [(a, n), (b, n)] ++ if fwFmt f = 3 then [(fwSca f, 1), (fwScb f, 1)] else []

/-- Atoms of extents that are POISON or hold an error. -/
def extentsTrouble (m : Space) (es : List (Nat × Nat)) : Bool × List Nat :=
  let ats := es.flatMap fun e => atomsOf e.1 e.2
  (ats.any fun i => m.atom i == .poison || m.bad i, ats.filter fun i => m.bad i)

/-- Make atoms of a core's scratchpad POISON. -/
def poisonSpad (ch c : Nat) (is : List Nat) (s : State) : State :=
  s.updCore ch c fun y => { y with spad := is.foldl (fun m i => m.toPoison i) y.spad }

/-- The lease after a command starts: NONE with the last one (R189). -/
def Lease.spend : Lease → Lease
  | .holding r => if r ≤ 1 then .none else .holding (r - 1)
  | l => l

/-- MMA and MMAT: every check, then the start. -/
def aMma (t : Bool) (acc : BitVec 9) (ma mb : BitVec 4) (s : State) : State :=
  let m := s.mside
  let x := s.here
  let ch := s.act.chair
  let c := s.act.core
  let u := x.quad (quadOf c)
  match m.lease with
  | .none => raiseC 0x13 s
  | .waiting _ | .lapsed _ => s
  | .holding _ =>
    if (m.tile acc.toNat).st = .held then s
    else if x.cycle < u.busy ∨ s.fmtNew then s
    else match m.fmtHead s.act.prov.esn with
    | none => raiseC 0x16 s
    | some f =>
      let a := m.ptr ma
      let b := m.ptr mb
      let n := opndBytes (fwFmt f)
      let es := mmaExtents f a b
      if operandWordOk f = false then raiseC 0x17 s
      else if !(opndInRange a n && opndInRange b n) then raiseC 0x15 s
      else if a / 0x14000 = b / 0x14000 then raiseC 0x14 s
      else if (es.all fun e => x.ownOk c e.1 e.2) = false then raiseC 0x18 s
      else
        let s := findTileErrors ch c s.act.prov [acc.toNat] s
        if anyPoison s.mside (m.kept [acc.toNat]) then raiseC 0x1A s
        else
          let tr := extentsTrouble s.me.spad es
          if tr.1 then raiseC 0x1A (poisonSpad ch c tr.2 s)
          else
            let (g, fl) := mmaGroups s.me.spad f t a b
            let fin := x.cycle + furnaceCycles (fwFmt f)
            let l := m.lease.spend
            let (id, s) := s.fresh
            let p : MPend := { id := id, op := .mma acc g (fwFmt f == 4) fl fin, sig := s.sig }
            let m := s.mside.popFmt
            let s := s.setM { m with lease := l, idle := 0, startAt := some x.cycle, pend := m.pend ++ [p] }
            let s := s.updChair ch fun x =>
              x.setQuad (quadOf c) { u with busy := fin, freeAt := if l.holds then u.freeAt else x.cycle }
            retire s

def execMma (acc : BitVec 9) (ma mb : BitVec 4) (s : State) : Res := .next (aMma false acc ma mb s)
def execMmat (acc : BitVec 9) (ma mb : BitVec 4) (s : State) : Res := .next (aMma true acc ma mb s)

/-- A tile with a group added to every element (R50, R51). -/
def addGroup (t : Tile) (g : SMap (BitVec 32)) (int : Bool) : Tile × Fl :=
  let r := (List.range 1024).foldl (fun (acc : SMap (BitVec 32) × Fl) e =>
    let x := SMap.get 0 t.data e
    let y := SMap.get 0 g e
    if int then (SMap.put 0 acc.1 e (x + y), acc.2)
    else
      let z := fAdd fp32 .rne (unpack fp32 x.toNat) (unpack fp32 y.toNat)
      (SMap.put 0 acc.1 e (BitVec.ofNat 32 z.1), acc.2 ||| z.2)) ([], 0)
  ({ st := .home, data := r.1 }, r.2)

/-- Take a started word of a core away. -/
def dropPend (ch c id : Nat) (s : State) : State :=
  s.updCore ch c fun y => { y with m := { y.m with pend := y.m.pend.filter (·.id ≠ id) } }

/-- A started furnace command lands (R197, R202).  A tile that has become POISON stays so; a hold of a later ACCWB
stays too. -/
def landMma (ch c : Nat) (p : MPend) (s : State) : State :=
  match p.op with
  | .mma acc g int fl _ =>
    let y := s.core ch c
    let t := y.m.tile acc.toNat
    let r := if t.real = .poison then (t, 0) else
      let r := addGroup t g int
      (t.become { r.1 with err := t.err }, r.2)
    let y := { y with m := y.m.setTile acc.toNat r.1, x := { y.x with flags := y.x.flags ||| fl ||| r.2 } }
    addSig ch c p.sig 3 (dropPend ch c p.id (s.setCore ch c y))
  | _ => s

/-- The oldest furnace command of a core whose tile no earlier started word names. -/
def MSide.nextMma (m : MSide) : Option MPend :=
  m.pend.find? fun p => p.op.isMma && !pendBlocked p.op.tiles p.id m.pend

/-- A furnace command whose cycles are done can land (R188, R197). -/
def MSide.mmaDue (m : MSide) (cycle : Nat) : Bool :=
  m.nextMma.any fun p => match p.op with
    | .mma _ _ _ _ fin => fin ≤ cycle
    | _ => false

/-- FURNACE_COMMAND_COMPLETE: the oldest started command of a core that can land does, once its cycles are done
(R188, R197). -/
def execFurnaceCommandComplete (ch c : Nat) (s : State) : Res :=
  let x := s.chair ch
  .next (if x.st ≠ .run then s
    else match (x.core c).m.nextMma with
    | none => s
    | some p => match p.op with
      | .mma _ _ _ _ fin => if fin ≤ x.cycle then landMma ch c p s else s
      | _ => s)

/-- The started commands of a core drain into their tiles before a freeze (R189); one whose tile an unfinished earlier
word names keeps its group and lands after the restart.
DEDUCED (assumption 74). -/
def drainMma (ch c : Nat) (s : State) : State :=
  (s.core ch c).m.pend.foldl (fun s p =>
    let m := (s.core ch c).m
    if p.op.isMma && !pendBlocked p.op.tiles p.id m.pend then landMma ch c p s else s) s

/-! ## Tile words (R199) -/

/-- Start a word on tiles. -/
def startTiles (op : MOp) (s : State) : State :=
  let (id, s) := s.fresh
  let m := s.mside
  retire (s.setM { m with pend := m.pend ++ [{ id := id, op := op, sig := s.sig }] })

/-- A tile of a word is HELD (R188). -/
def tilesBusy (m : MSide) (ts : List Nat) : Bool := ts.any fun t => (m.tile t).st == .held

/-- Why a word on tiles stops. -/
inductive MFail where
  | code (n : Nat) | ctx (reason : Nat)
  deriving DecidableEq, Repr, Inhabited

/-- The scratchpad extent that ACCRD or ACCWR has left to move. -/
def MOp.extent : MOp → Option (Nat × Nat)
  | .accrd _ off k n | .accwr _ off k n => some (off + 32 * n, 4096 * (k.toNat + 1) - 32 * n)
  | _ => none

/-- The checks of a word on tiles `ts`, made before anything changes (R198, R199); errors found on the way make
their atom or tile POISON. -/
def tileChecks (ch c : Nat) (op : MOp) (ts : List Nat) (p : Prov) (s : State) : Option MFail × State :=
  let x := s.chair ch
  match op.extent with
  | none =>
    let s := findTileErrors ch c p ts s
    (if anyPoison (s.core ch c).m ts then some (.code 0x1A) else none, s)
  | some (off, n) =>
    if off + n > 0x50000 then (some (.code 0x15), s)
    else if x.ownOk c off n = false then (some (.code 0x18), s)
    else
      let tr := extentsTrouble (x.core c).spad [(off, n)]
      let s := poisonSpad ch c tr.2 (findTileErrors ch c p ts s)
      if tr.1 || anyPoison (s.core ch c).m ts then (some (.code 0x1A), s)
      else if (atomsOf off n).any fun i => (x.core c).spad.atom i == .replica then (some (.ctx 2), s)
      else (none, s)

/-- Issue a word on tiles. -/
def aTiles (op : MOp) (s : State) : Res :=
  .next (if tilesBusy s.mside op.tiles then s
    else match tileChecks s.act.chair s.act.core op (s.mside.kept op.tiles) s.act.prov s with
    | (some (.code n), s) => raiseC n s
    | (some (.ctx r), s) => contextError (s.ctxOf s.act.chair) r s.act.prov 0 s
    | (none, s) => startTiles op s)

def execAccz (acc : BitVec 9) (k : BitVec 5) (s : State) : Res := aTiles (.accz acc k) s
def execAccrd (acc : BitVec 9) (m : BitVec 4) (k : BitVec 5) (s : State) : Res :=
  aTiles (.accrd acc (s.mside.ptr m) k 0) s
def execAccwr (acc : BitVec 9) (m : BitVec 4) (k : BitVec 5) (s : State) : Res :=
  aTiles (.accwr acc (s.mside.ptr m) k 0) s
def execAccmv (acc t : BitVec 9) (k : BitVec 5) (s : State) : Res := aTiles (.accmv acc t k) s

/-- ACCREL: a HELD tile is marked at once; the others become VACANT when the word completes (R198). -/
def execAccrel (acc : BitVec 9) (k : BitVec 5) (s : State) : Res :=
  let m := (tileRange acc k).foldl (fun m t =>
    let v := m.tile t
    if v.st = .held then m.setTile t { v with pendingRel := true } else m) s.mside
  .next (startTiles (.accrel acc k) (s.setM m))

def execMwait (s : State) : Res :=
  if s.mside.pend.isEmpty then mDone s.mside s else .next s

/-! ## ACCWB (R200, R201) -/

/-- The bytes of an output row. -/
def outRow (f : Word) : Nat := if fwFmt f = 3 then 24 else 4 * ((VType.ofCode (fwFmt f)).elim 0 VType.w)

/-- The rounding mode of an output word at element (i, j) of its tile t (R53, R54). -/
def outMode (f : Word) (t i j : Nat) : RMode :=
  if fwRnd f = 4 then .dith (dither i j ((fwPhase f + t) % 32)) else RMode.ofCode (fwRnd f)

/-- The exact sum of two FP32 values; +∞ and −∞ give an invalid NaN. -/
def exactAdd (mode : RMode) (a b : FVal) : FVal × Fl :=
  match a, b with
  | .nan s, y => (.nan (s || y.snan), 0)
  | _, .nan s => (.nan s, 0)
  | .inf n, .inf k => if n = k then (.inf n, 0) else (.nan false, flNV)
  | .inf n, _ => (.inf n, 0)
  | _, .inf n => (.inf n, 0)
  | .fin n1 m1 e1, .fin n2 m2 e2 =>
    let (v, e) := addFin n1 m1 e1 n2 m2 e2
    (.fin (if v = 0 then zeroSum mode n1 n2 else v < 0) v.natAbs e, 0)

/-- Scale a value by 2^(127 − OSCALE), exactly. -/
def FVal.scale (a : FVal) (scale : Nat) : FVal :=
  match a with
  | .fin n m e => .fin n m (e + 127 - scale)
  | v => v

/-- An element of an FP32 tile with its bias, as the output word gives it. -/
def outFloat (f : Word) (mode : RMode) (x b : Nat) : Nat × Fl :=
  let (v, fl) := if fwBias f then exactAdd mode (unpack fp32 x) (unpack fp32 b) else (unpack fp32 x, 0)
  let r := if fwFmt f = 3 then toLns mode (fwScale f) v
    else match VType.ofCode (fwFmt f) with
      | none => (0, 0)
      | some u => match VType.fmt u with
        | some n => roundVal n mode (v.scale (fwScale f))
        | none =>
          let r := fToInt mode (VType.lo u) (VType.hi u) (v.scale (fwScale f))
          (wrapTo (VType.w u) r.1, r.2)
  (r.1, fl ||| r.2)

/-- An element of an INT32 tile with its bias. -/
def outInt (f : Word) (mode : RMode) (x b : Nat) : Nat × Fl :=
  let v : Int := int32 x + (if fwBias f then int32 b else 0)
  let e : Int := 127 - (fwScale f : Int)
  if fwFmt f = 3 then toLns mode (fwScale f) (.fin (v < 0) v.natAbs 0)
  else match VType.ofCode (fwFmt f) with
    | none => (0, 0)
    | some u => match VType.fmt u with
      | some n => roundSigned n mode v e false
      | none =>
        let r := toInt mode (v < 0) v.natAbs e
        let q := clampTo (VType.lo u) (VType.hi u) r.1
        (wrapTo (VType.w u) q.1, if q.2 then flSAT else flIf r.2 flNX)

/-- Row i of tile t: its bytes and its flags. -/
def outRowBytes (f : Word) (bias : Vec) (data : SMap (BitVec 32)) (t i : Nat) : List Byte × Fl :=
  let rs := (List.range 32).map fun j =>
    let x := (SMap.get 0 data (32 * i + j)).toNat
    let b := (lane32 bias j).toNat
    if fwInt f then outInt f (outMode f t i j) x b else outFloat f (outMode f t i j) x b
  let w := outRow f / 4
  (leBytes (outRow f) (packElems w (rs.map (·.1))), rs.foldl (fun fl r => fl ||| r.2) 0)

/-- Whether the destination is memory, and the address of each row in order (R200). -/
def outRows (m : MSide) (a : ASide) (f : Word) (dst : AccDst) (k : Nat) : Bool × List (Word × Nat) :=
  let b := outRow f
  let n := 32 * (k + 1)
  match dst with
  | .sp p => (false, (List.range n).map fun r => (BitVec.ofNat 64 (m.ptr p + b * r), b))
  | .mem r => (true, (List.range n).map fun i => (a.reg r + BitVec.ofNat 64 (b * i), b))
  | .gen g =>
    let x := a.gen g
    (true, (List.range n).map fun i => (x.addr (x.pos.toNat + i), b))

/-- ACCWB: the format word and the tiles are checked, the word is popped, the bias is read, a generator is
advanced, and the tiles that are HOME after the earlier words on them are HELD (R188, R198, R200, R201). -/
def execAccwb (acc : BitVec 9) (dst : AccDst) (k : BitVec 5) (s : State) : Res :=
  let m := s.mside
  let ts := tileRange acc k
  let n := 32 * (k.toNat + 1)
  .next (if tilesBusy m ts ∨ s.fmtNew then s
    else match m.fmtHead s.act.prov.esn with
    | none => raiseC 0x16 s
    | some f =>
      let past : Bool := match dst with
        | .gen g => let x := s.aside.gen g; x.past (x.pos.toNat + n - 1)
        | _ => false
      if outputWordOk f = false then raiseC 0x17 s
      else if past then raiseC 0x20 s
      else
        let s := findTileErrors s.act.chair s.act.core s.act.prov ts s
        if anyPoison s.mside (m.kept ts) then raiseC 0x1A s
        else
          let a := s.aside
          let (mem, rows) := outRows s.mside a f dst k.toNat
          let a := match dst with
            | .gen g => a.setGen g ((a.gen g).advance n)
            | _ => a
          let bias := if fwBias f then s.xside.vreg (fwBreg f) else 0
          let held := ts.filter fun t => s.mside.after t == .home
          let m := held.foldl (fun m t =>
            let v := m.tile t
            m.setTile t { v with st := .held, under := v.st }) s.mside.popFmt
          startTiles (.accwb acc k mem rows f bias held) ((s.setAside a).setM m))

/-- The end of the hold: each tile is HOME, or VACANT if release is pending (R198). -/
def endHold (ts : List Nat) (m : MSide) : MSide :=
  ts.foldl (fun m t =>
    let v := m.tile t
    if v.st = .held then m.setTile t (if v.pendingRel then {} else { v with st := .home }) else m) m

/-- The contiguous range of equal rows, or the rows themselves. -/
def rowRanges (rows : List (Word × Nat)) : List (Word × Nat) :=
  match rows with
  | [] => []
  | r :: _ =>
    if (rows.zipIdx.all fun (e : (Word × Nat) × Nat) => e.1.1 == r.1 + BitVec.ofNat 64 (r.2 * e.2)) then [(r.1, r.2 * rows.length)]
    else rows

/-- The store probe of ACCWB to memory (R200): the state with the pages counted and the pieces of the rows, or
the state with the fault, the error or the wait. -/
def probeRows (ch c : Nat) (p : MPend) (f : Word) (rows : List (Word × Nat)) (s : State) :
    Option (List Piece) × State :=
  let rs := rowRanges rows
  match probeAll ch c { w := true } rs s with
  | ((_, some (.migrating, _)), s) => (none, s)
  | ((_, some e), s) =>
    -- BASE and REM cover every row, and what lies between rows that stand apart (R214)
    let base := rs.foldl (fun a r => if r.1 < a then r.1 else a) (rs.headD (0, 0)).1
    let rem := rs.foldl (fun n r => Nat.max n ((r.1 - base).toNat + r.2)) 0
    (none, pageFault 3 { w := true } e.1 e.2 base rem s (some p.id) (some p.sig) (some 3))
  | ((ts, none), s) =>
    if rows.any fun r => r.1.toNat % 8 ≠ 0 then
      (none, recordC ch c { p.sig.record 0x1F 3 with pid := some p.id } s)
    else if (ts.any fun (t : Tr) => pteNarrow t.pte) && fwFmt f ≠ 0 then
      (none, contextError (s.ctxOf ch) 3 p.sig.prov (rs.headD (0, 0)).1 s)
    else match resolveParts ch c { w := true } (rows.flatMap fun r => atomParts r.1 r.2) s with
    | (.error _, s) => (none, s)
    | (.ok ps, s) =>
      let ps := ps.map (·.1)
      if ps.any fun q => s.ganged q.pa then (none, s)
      else match checkAtoms s.mem true ps with
      | some (.poison bad) =>
        (none, recordC ch c { p.sig.record 0x1A 3 with pid := some p.id }
          { s with mem := bad.foldl (fun m i => m.toPoison i) s.mem })
      | some (.replica va) => (none, contextError (s.ctxOf ch) 2 p.sig.prov va s)
      | none => (some ps, watchMatch ch c false true rows p.sig.prov (countPages (distinctPages ts) ch s))

/-- The store probe of ACCWB to the scratchpad (R200). -/
def probeSpad (ch c : Nat) (p : MPend) (rows : List (Word × Nat)) (s : State) : Bool × State :=
  let x := s.chair ch
  let off := (rows.headD (0, 0)).1.toNat
  let n := (rows.map (·.2)).sum
  let fail := fun (code : Nat) (s : State) =>
    (false, recordC ch c { p.sig.record code 3 with pid := some p.id } s)
  if off + n > 0x50000 then fail 0x15 s
  else if x.ownOk c off n = false then fail 0x18 s
  else
    let tr := extentsTrouble (x.core c).spad [(off, n)]
    if tr.1 then fail 0x1A (poisonSpad ch c tr.2 s)
    else if (atomsOf off n).any fun i => (x.core c).spad.atom i == .replica then
      (false, contextError (s.ctxOf ch) 2 p.sig.prov 0 s)
    else (true, s)

/-- ACCWB's store probe, and after it the end of the hold, the rows, the flags and the signal (R200, R202). -/
def finishAccwb (ch c : Nat) (p : MPend) (acc : BitVec 9) (k : BitVec 5) (mem : Bool)
    (rows : List (Word × Nat)) (f : Word) (bias : Vec) (held : List Nat) (s : State) : State :=
  let ts := tileRange acc k
  let s := findTileErrors ch c p.sig.prov ts s
  let m := (s.core ch c).m
  let out := ts.zipIdx.flatMap fun t =>
    (List.range 32).map fun i => outRowBytes f bias (m.tile t.1).data t.2 i
  let bytes := out.flatMap (·.1)
  let fl := out.foldl (fun (fl : Fl) r => fl ||| r.2) 0
  let fin := fun (s : State) =>
    let s := s.updCore ch c fun y => { y with m := endHold held y.m, x := { y.x with flags := y.x.flags ||| fl } }
    addSig ch c p.sig 3 (dropPend ch c p.id s)
  if anyPoison m ts then recordC ch c { p.sig.record 0x1A 3 with pid := some p.id } s
  else if mem then
    match probeRows ch c p f rows s with
    | (none, s) => s
    | (some ps, s) => fin (seeWords { s with mem := writePieces ps bytes s.mem })
  else
    match probeSpad ch c p rows s with
    | (false, s) => s
    | (true, s) =>
      let off := (rows.headD (0, 0)).1.toNat
      fin (s.updCore ch c fun y => { y with spad := y.spad.store off bytes })

/-! ## The end of a word on tiles (R202) -/

/-- Set a tile as a word on it that has its turn leaves it. -/
def MSide.putTile (m : MSide) (t : Nat) (v : Tile) : MSide := m.setTile t ((m.tile t).become v)

/-- The 32 bytes of atom `i` of a tile (R187, R199). -/
def Tile.atom (t : Tile) (i : Nat) : List Byte :=
  (List.range 8).flatMap fun e => leBytes 4 (SMap.get 0 t.data (8 * i + e)).toNat

/-- A tile that has taken the 32 bytes of its atom `i` is HOME (R199). -/
def Tile.takeAtom (t : Tile) (i : Nat) (bs : List Byte) : Tile :=
  { st := .home,
    data := (chunksOf 4 bs).zipIdx.foldl
      (fun m e => SMap.put 0 m (8 * i + e.2) (BitVec.ofNat 32 (leNat e.1))) t.data }

/-- A tile whose atom `i` has left: the datum has one home, so its elements read as zero (R10, R199). -/
def Tile.giveAtom (t : Tile) (i : Nat) : Tile :=
  { t with data := (List.range 8).foldl (fun m e => SMap.put 0 m (8 * i + e) 0) t.data }

/-- ACCRD or ACCWR moves its atom `i`: a tile is VACANT once its last one has left (R199). -/
def tileAtom (op : MOp) (y : Core) (i : Nat) : Core :=
  match op with
  | .accrd acc off _ _ =>
    let n := acc.toNat + i / 128
    let t := y.m.tile n
    { y with
      spad := y.spad.putAtom (off / 32 + i) (if t.real = .vacant then .vacant else .home) (t.atom (i % 128)),
      m := if i % 128 = 127 then y.m.putTile n {} else y.m.setTile n (t.giveAtom (i % 128)) }
  | .accwr acc off _ _ =>
    let n := acc.toNat + i / 128
    { y with
      m := y.m.putTile n ((y.m.tile n).takeAtom (i % 128) (y.spad.atomBytes (off / 32 + i))),
      spad := y.spad.vacate (off / 32 + i) }
  | _ => y

/-- What a checked word does, or has left to do, to the core's tiles and its scratchpad. -/
def tileEffect (op : MOp) (y : Core) : Core :=
  match op with
  | .accz acc k => { y with m := (tileRange acc k).foldl (fun m t => m.putTile t { st := .home }) y.m }
  | .accrel acc k => { y with m := (tileRange acc k).foldl (fun m t => m.putTile t {}) y.m }
  | .accmv acc s k =>
    { y with m := (List.range (k.toNat + 1)).foldl (fun m i =>
        let v := m.tile (s.toNat + i)
        let v : Tile := if v.real = .vacant then {} else { st := v.real, data := v.data, err := v.err }
        (m.putTile (acc.toNat + i) v).putTile (s.toNat + i) {}) y.m }
  | .accrd _ _ k n | .accwr _ _ k n =>
    ((List.range (128 * (k.toNat + 1) - n)).map (n + ·)).foldl (tileAtom op) y
  | _ => y

/-- A word on tiles other than MMA and ACCWB that has its turn: its checks, and then what it does (R198, R199). -/
def tileTurn (ch c : Nat) (p : MPend) (go : State → State) (s : State) : State :=
  if p.op.isRel then go s
  else match tileChecks ch c p.op p.op.tiles p.sig.prov s with
  | (some (.code n), s) => recordC ch c { p.sig.record n 3 with pid := some p.id } s
  | (some (.ctx r), s) => contextError (s.ctxOf ch) r p.sig.prov 0 s
  | (none, s) => go s

/-- Started word `k` of a core, where the earlier words on its tiles have acted, no record names it and the chair's words
may go on (R188, R201, R224). -/
def MSide.turnOf (ch c k : Nat) (s : State) : Option MPend :=
  let y := s.core ch c
  if (s.chair ch).open_ = false ∨ y.recorded 3 k then none
  else (y.m.pend.find? (·.id = k)).filter fun p => !pendBlocked p.op.tiles k y.m.pend

/-- ACCUMULATOR_WORD_COMPLETE: started word `k` on tiles takes its effect, or what is left of it, and completes (R198 to
R202). -/
def execAccumulatorWordComplete (ch c k : Nat) (s : State) : Res :=
  let s := { s with act := { chair := ch, core := c, eng := 3 } }
  .next (match MSide.turnOf ch c k s with
    | none => s
    | some p => match p.op with
      | .mma .. => s
      | .lease => s
      | .accwb acc n mem rows f bias held => finishAccwb ch c p acc n mem rows f bias held s
      | op => tileTurn ch c p (fun s => addSig ch c p.sig 3 (dropPend ch c p.id (s.updCore ch c (tileEffect op)))) s)

/-- The word with one atom more moved. -/
def MOp.moved : MOp → MOp
  | .accrd acc off k n => .accrd acc off k (n + 1)
  | .accwr acc off k n => .accwr acc off k (n + 1)
  | op => op

/-- Started ACCRD or ACCWR `k` moves one atom, its last one excepted (R160, R199). -/
def tileStep (ch c k : Nat) (s : State) : State :=
  match MSide.turnOf ch c k s with
  | none => s
  | some p =>
    match p.op with
    | .accrd _ _ n i | .accwr _ _ n i =>
      if i + 1 ≥ 128 * (n.toNat + 1) then s
      else tileTurn ch c p (fun s => s.updCore ch c fun y =>
        let y := tileAtom p.op y i
        { y with m := { y.m with pend := updFirst (·.id = k) (fun q => { q with op := q.op.moved }) y.m.pend } }) s
    | _ => s

end Sys2Proof.Machine
end

