-- ==== Sys2Proof/Machine/Sys.lean ====
section
/-!
DEFINITION. Core control: the breakaway words (R62 to R64), the semaphore words and CFENCE (R108 to R110), XSAVE
and XREST (R236), and the core CSRs (R237); with the order of R105 among the waits on a semaphore.
-/

namespace Sys2Proof.Machine

open Sys2Proof

/-! ## Waits on a semaphore (R103, R105) -/

/-- What the head of an engine's queue, or with key 8 a JOIN that a core has fetched, waits for: its wait clause
that has not passed, or a SEMWAIT's amount. -/
def Core.headWait (y : Core) (e : Nat) : Option (Nat × Nat) :=
  let of := fun (w : Word) =>
    let cl := clauseOf w
    if cl.wsem ≠ 0 ∧ SMap.get false y.waited e = false then some (cl.wsem.toNat, amount cl.wcnt)
    else if e = 7 ∧ field 32 8 w = 0x0A#8 ∧ field 24 8 w ≠ 0#8 then
      some ((field 24 8 w).toNat, (field 0 16 w).toNat)
    else none
  if e = 8 then y.buf.bind fun q => of q.w
  else match headUnit (y.queue e) with
    | some (_, q, _) => of q.w
    | none => none

/-- The pipe an X-side word goes to: the scalar pipe takes OPC 0x00 to 0x0D and 0x52 (R139). -/
def scalarPipe (w : Word) : Bool :=
  let o := (field 32 8 w).toNat
  o ≤ 0x0D || o == 0x52

/-- The engine may issue the word in this cycle: one word a cycle, and of the X-side one for each pipe, the second
without a wait clause (R113, R139).
DEDUCED (assumption 34). -/
def Core.issueOk (y : Core) (e cycle : Nat) (w : Word) : Bool :=
  if e = 2 then
    let (mine, other) := if scalarPipe w then (y.x.scalarAt, y.x.vectorAt) else (y.x.vectorAt, y.x.scalarAt)
    mine != some cycle && (other != some cycle || (clauseOf w).wsem == 0) &&
      !(y.x.fly.any fun r => r.at_ ≤ cycle)
  else SMap.get (cycle + 1) y.issued e != cycle

/-- The engine that a CSR write in the SYS queue orders: the X-side, the A-side or the fabric port (R114, R135,
R299). -/
def csrOrders (w : Word) : Nat :=
  if engOf w == 7 && field 32 8 w == 0x13#8 then
    match (field 0 12 w).toNat with
    | 0x010 | 0x011 | 0x012 | 0x013 => 2
    | 0x030 | 0x031 | 0x032 | 0x033 => 1
    | 0x039 => 6
    | _ => 0
  else 0

/-- A word of an engine, taken as number `n`, is held back by a CSR write taken before it (R114, R135, R299). -/
def Core.csrHolds (y : Core) (e n : Nat) : Bool :=
  (y.queue 7).any fun q => csrOrders q.w == e && q.n < n

/-- The unit at the head of an engine's queue, with its word `q`, may start in this cycle: it stood there at the cycle's
start, the engine has room for it, and no CSR write holds it back (R94, R114, R135, R139, R299). -/
def Core.mayStart (y : Core) (e cycle : Nat) (q : QWord) : Bool :=
  y.unitRipe e cycle && y.issueOk e cycle q.w && !y.csrHolds e q.n

/-- The head of an engine's queue, or with key 8 a fetched control word, is one that waits on a semaphore in this cycle:
the semaphore and the amount. -/
def Core.waitsNow (y : Core) (e cycle : Nat) : Option (Nat × Nat) :=
  let may : Bool := e == 8 || (match headUnit (y.queue e) with
    | some (_, q, _) => y.mayStart e cycle q
    | none => false)
  if may then y.headWait e else none

/-- The gaffer may issue: its chair is open, or in handler mode; and it has no fault, no save and no EXIT behind it, and
has not issued in this cycle. -/
def Chair.gafferMoves (x : Chair) : Bool :=
  (x.open_ || (x.st == .halted && x.frame.handler)) && x.gfault.isNone && x.gf.save.isNone && !x.gf.exited &&
    x.gf.issued != some x.cycle && (match x.halt with
      | none => true
      | some h => h.cycle == x.cycle || x.gf.ds)

/-- The chair wait that the gaffer waits on, or that the word at PC begins in this cycle whether or not the gaffer has had
its turn: semaphore and amount (R17, R105). -/
def Chair.pendingWait (x : Chair) : Option (Nat × Nat) :=
  let cl := clauseOf (SMap.get 0 x.gf.isram x.gf.pc.toNat)
  let begins : Bool := x.gafferMoves && cl.wsem != 0 && !x.gf.waited && x.gf.stageOn cl.stage
  x.gf.waitOn.or (if begins then some (cl.wsem.toNat, amount cl.wcnt) else none)

/-- A chair wait on a semaphore is pending and can pass, and so comes before the waits of engines (R105). -/
def Chair.chairFirst (x : Chair) (k : Nat) : Bool :=
  match x.pendingWait with
  | some (j, a) => j == k && x.live.all fun c => (x.core c).semv k ≥ a
  | none => false

/-- A wait of engine `e` on semaphore `k` may take its amount now: the amount is there, no chair wait comes
first, and no wait that began earlier, or in the same cycle at a lower engine, could take its own; a wait of a word that
could issue in this cycle begins in it, whether or not its engine has had its turn (R105).
DEDUCED (assumption 65). -/
def Chair.waitPasses (x : Chair) (c e k amt : Nat) : Bool :=
  let y := x.core c
  let at_ := fun i => SMap.get x.cycle y.since i
  y.semv k ≥ amt && !x.chairFirst k &&
    (List.range 9).all fun i =>
      i == e || (match y.headWait i with
        | some (j, a) => !(j == k && a ≤ y.semv k && ((y.since.any fun s => s.1 == i) || (y.waitsNow i x.cycle).isSome) &&
            (at_ i < at_ e || (at_ i == at_ e && i < e)))
        | none => true)

/-- A wait goes on waiting: the cycle in which it began stays (R105). -/
def Core.beginWait (y : Core) (e cycle : Nat) : Core :=
  if y.since.any fun s => s.1 == e then y else { y with since := SMap.ins y.since e cycle }

/-! ## Semaphore words (R109, R110) -/

/-- SEMINIT comes first of all accesses to its semaphore in a cycle (R105); after an addition or a passed wait
of the same cycle it issues in a later one. -/
def execSeminit (k : BitVec 8) (v : BitVec 16) (s : State) : Res :=
  let y := s.me
  let now := s.here.cycle
  .next (if k ≠ 0 ∧ ((SMap.get (0, 0) y.adds k.toNat).2 ≠ 0 ∧ (SMap.get (0, 0) y.adds k.toNat).1 = now ∨
      SMap.get 0 y.took k.toNat = now + 1) then s
    else retireSig (s.setMe (y.setSem k.toNat v.toNat)))

def execSemadd (k : BitVec 8) (v : BitVec 16) (s : State) : Res :=
  .next (retireSig (addSem s.act.chair s.act.core k.toNat v.toNat s.sig 7 s))

def execSemwait (k : BitVec 8) (v : BitVec 16) (s : State) : Res :=
  let y := s.me
  let now := s.here.cycle
  .next (if k = 0 ∨ v = 0 then retireSig s
    else if s.here.waitPasses s.act.core 7 k.toNat v.toNat then
      retireSig (s.setMe (y.takeSem k.toNat v.toNat now))
    else s.setMe (y.beginWait 7 now))

/-- CFENCE: every word taken before it has completed, and so its writes are performed at every scope (R109,
R271). -/
def execCfence (_ : Scope) (s : State) : Res :=
  .next (if s.me.stillBefore s.act.n 7 then retireSig s else s)

/-! ## Breakaway (R60, R63) -/

/-- DETACH issues from the SYS queue: the core begins to fetch (R60, R63).  It signals nothing. -/
def execDetach (_t : BitVec 8) (_addr : BitVec 64) (s : State) : Res :=
  let s := retire s
  .next (s.setMe (match s.me.phase with
    | .leaving => { s.me with phase := .detached }
    | _ => s.me))

/-- The fetched control word of the stream is spent. -/
def Core.clearBuf (y : Core) : Core :=
  { y with buf := none, waited := SMap.put false y.waited 8 false, since := SMap.del y.since 8 }

/-- A level C fault of the control word a core has fetched (R61, R63). -/
def controlFault (code : Nat) (s : State) : State :=
  recordC s.act.chair s.act.core
    { code := code, prov := s.act.prov, w := s.act.w, lits := s.act.lits, eng := 0 } s

/-- JOIN (R60, R61, R63). -/
def execJoin (t : BitVec 8) (s : State) : Res :=
  let y := s.me
  .next (if y.tag ≠ some t then controlFault 0x11 s
    else if (List.range 256).any fun k => SMap.get 0 y.sp k < SMap.get 0 y.pin k then controlFault 0x12 s
    else s.setMe { y.clearBuf with phase := .joining })

/-- A displacement of off24 words from a stream address (R63). -/
def streamTo (pc : Word) (off : BitVec 24) : Word := pc + 8 * off.signExtend 64

/-- JMPS (R63). -/
def execJmps (off : BitVec 24) (s : State) : Res :=
  let y := s.me
  .next (s.setMe { y.clearBuf with spc := streamTo y.spc off })

/-- An A-side word that pops the X-to-A queue (R99). -/
def popsXa (w : Word) : Bool :=
  engOf w == 1 && (field 32 8 w == 0x28#8 || field 32 8 w == 0x29#8) &&
    (field 24 3 w == 1#3 || field 24 3 w == 2#3)

/-- An A-side word of the core has still to pop the X-to-A queue; a BQPUSH that waits for room has popped (R64, R100). -/
def Core.popsBefore (y : Core) : Bool :=
  match headUnit (y.queue 1) with
  | some (_, q, rest) => (popsXa q.w && y.a.bq.isNone) || rest.any fun q => popsXa q.w
  | none => false

/-- What BRS's condition gives: the branch and the core with the entry popped, or a wait (R64). -/
def brsCond (c : BrsCond) (y : Core) : Option (Bool × Core) :=
  let popXa := match y.a.xa with
    | b :: bs => if y.popsBefore then none else some (b, { y with a := { y.a with xa := bs } })
    | [] => none
  let popAx := match y.a.ax with
    | b :: bs => some (b, { y with a := { y.a with ax := bs } })
    | [] => none
  let done := (y.queue 1).isEmpty && y.a.still
  match c with
  | .xa1 => popXa
  | .xa0 => popXa.map fun r => (!r.1, r.2)
  | .ax1 => popAx
  | .ax0 => popAx.map fun r => (!r.1, r.2)
  | .vs => if done then some (y.a.v, y) else none
  | .vc => if done then some (!y.a.v, y) else none

/-- The entry that BRS would pop stood in its queue at the start of this cycle (R94). -/
def brsRipe (c : BrsCond) (y : Core) (cycle : Nat) : Bool :=
  match c with
  | .xa1 | .xa0 => 0 < y.ripe keyXa y.a.xa.length cycle
  | .ax1 | .ax0 => 0 < y.ripe keyAx y.a.ax.length cycle
  | _ => true

/-- BRS (R63, R64). -/
def execBrs (c : BrsCond) (off : BitVec 24) (s : State) : Res :=
  .next (match if brsRipe c s.me s.here.cycle then brsCond c s.me else none with
    | none => s
    | some (t, y) => s.setMe { y.clearBuf with spc := if t then streamTo y.spc off else y.spc + 8 })

/-- CEXIT (R60, R63); a skip count still pending is discarded (R101), and with the last core the request that waits for a
soft point (R231, R233). -/
def execCexit (s : State) : Res :=
  let y := s.me.clearBuf
  let s := s.setMe { y with phase := .exited, tag := none, a := { y.a with skip := 0 } }
  .next (if s.here.live.isEmpty then s.setHere { s.here with req := false } else s)

/-! ## XSAVE and XREST (R236) -/

/-- The bytes of a part, in order. -/
def partBytes (part : Nat) (y : Core) : List Byte :=
  let w8 := fun (w : Word) => leBytes 8 w.toNat
  match part with
  | 0 => (List.range 64).flatMap fun i => w8 (y.x.sreg (BitVec.ofNat 6 i))
  | 1 =>
    ((List.range 32).flatMap fun i => w8 (y.a.reg (BitVec.ofNat 5 i))) ++
      (List.range 16).flatMap fun i =>
        let g := y.a.gen (BitVec.ofNat 4 i)
        w8 g.base ++ w8 g.stride ++ leBytes 4 g.pos.toNat ++ leBytes 4 g.lim.toNat ++ List.replicate 8 0
  | 2 =>
    ((List.range 32).flatMap fun i => leBytes 4 (y.x.preg (BitVec.ofNat 5 i)).toNat) ++
      leBytes 8 y.x.flags.toNat ++ leBytes 8 y.x.frm.toNat ++ leBytes 8 (VType.code y.x.vtype) ++
      leBytes 8 y.x.drow.toNat
  | _ => (List.range 512).flatMap fun i => vecBytes (y.x.vreg (BitVec.ofNat 9 i))

/-- The length of a part. -/
def partLen (part : Nat) : Nat :=
  match part with
  | 0 => 512 | 1 => 768 | 2 => 160 | _ => 65536

/-- A write of FRM; 4 to 7 is ignored (R41). -/
def XSide.writeFrm (x : XSide) (v : Word) : XSide :=
  if (field 0 3 v).toNat < 4 then { x with frm := field 0 3 v } else x

/-- A write of VTYPE; a code that VSETT does not admit is ignored (R135). -/
def XSide.writeVtype (x : XSide) (v : Word) : XSide :=
  match VType.ofCode (field 0 4 v).toNat with
  | some t => { x with vtype := t }
  | none => x

/-- Load a part from its bytes; slots of a0, s0 and p0 are ignored. -/
def loadPart (part : Nat) (bs : List Byte) (y : Core) : Core :=
  let n8 := fun (o : Nat) => BitVec.ofNat 64 (leNat ((bs.drop o).take 8))
  let n4 := fun (o : Nat) => BitVec.ofNat 32 (leNat ((bs.drop o).take 4))
  match part with
  | 0 => { y with x := (List.range 64).foldl (fun x i => x.setS (BitVec.ofNat 6 i) (n8 (8 * i))) y.x }
  | 1 =>
    let a := (List.range 32).foldl (fun (a : ASide) i => a.setReg (BitVec.ofNat 5 i) (n8 (8 * i))) y.a
    { y with a := (List.range 16).foldl (fun (a : ASide) i =>
        let o := 256 + 32 * i
        a.setGen (BitVec.ofNat 4 i)
          { base := n8 o, stride := n8 (o + 8), pos := n4 (o + 16), lim := n4 (o + 20) }) a }
  | 2 =>
    let x := (List.range 32).foldl (fun (x : XSide) i => x.setP (BitVec.ofNat 5 i) (n4 (4 * i))) y.x
    let x := ({ x with flags := field 0 9 (n8 128) }.writeFrm (n8 136)).writeVtype (n8 144)
    { y with x := { x with drow := field 0 10 (n8 152) } }
  | _ =>
    { y with x := (List.range 512).foldl (fun x i =>
        x.setV (BitVec.ofNat 9 i) (bytesVec ((bs.drop (128 * i)).take 128))) y.x }

/-- XSAVE and XREST: they wait as CFENCE core, and then act whole, by the A-side's stores and loads (R236).
DESIGN CHOICE (assumption 41). -/
def aPart (save : Bool) (a : BitVec 5) (part : BitVec 2) (s : State) : State :=
  let ch := s.act.chair
  let c := s.act.core
  let va := s.aside.reg a
  let segs := [(va, partLen part.toNat)]
  let need : Need := if save then { w := true } else { r := true }
  if s.me.stillBefore s.act.n 7 = false then s
  else if va.toNat % 128 ≠ 0 then raiseC 0x1F s
  else match resolve ch c need segs s with
  | (.error e, s) => accessFails ch c e s.act.prov s
  | (.ok ps, s) =>
    let qs := ps.map (·.1)
    if qs.any fun q => s.ganged q.pa then s
    else match checkAtoms s.mem save qs with
    | some e => atomsFail e s
    | none =>
      let s := countPages (distinctPages (ps.map (·.2))) ch s
      let s := watchMatch ch c (!save) save segs s.act.prov s
      if save then retireSig (seeWords { s with mem := writePieces qs (partBytes part.toNat s.me) s.mem })
      else
        let s := s.setAside (vacantReport s.mem qs s.aside)
        retireSig (s.setMe (loadPart part.toNat (readPieces s.mem qs) s.me))

def execXsave (a : BitVec 5) (part : BitVec 2) (s : State) : Res := .next (aPart true a part s)
def execXrest (a : BitVec 5) (part : BitVec 2) (s : State) : Res := .next (aPart false a part s)

/-! ## Core CSRs (R237) -/

/-- The code of a page's state (R208). -/
def PageState.code : PageState → Nat
  | .resident => 0 | .migrating => 1 | .arriving => 2 | .departing => 3 | .deep => 4

/-- PQSTAT of the page that holds an address: a snapshot, with no effect (R212). -/
def pqstat (s : State) (k : Nat) (va : Word) : Word :=
  match walk s k va with
  | none => 0
  | some t =>
    let p := s.page t
    let die := if pteTier t.pte = 0 then homeDie (ptePfn t.pte * 4096) else 0
    BitVec.ofNat 64 (2 ^ 63 + (if pteSettled t.pte then 2 ^ 62 else 0) + pteTier t.pte * 2 ^ 60 + die * 2 ^ 57 +
      PageState.code p.st * 2 ^ 54 + p.used * 2 ^ 51)

/-- The turns of a slot table that belong to a tenant, as a mask (R323, R324). -/
def slotMask (m : SMap Nat) (tenant : Nat) : Word :=
  (List.range 64).foldl (fun (w : Word) k => if SMap.get 0 m k = tenant + 1 then w ||| (1#64 <<< k) else w) 0

/-- The value of a core CSR (R237). -/
def coreCsr (s : State) (csr : Nat) : Word :=
  let ch := s.act.chair
  let y := s.me
  let k := s.ctxOf ch
  let x := s.ctx k
  let d := s.die (dieOf ch)
  match csr with
  | 0x001 => BitVec.ofNat 64 (coreIndex ch s.act.core)
  | 0x002 => BitVec.ofNat 64 k
  | 0x003 => BitVec.ofNat 64 s.here.clock
  | 0x010 => y.x.flags.setWidth 64
  | 0x011 => y.x.frm.setWidth 64
  | 0x012 => BitVec.ofNat 64 (VType.code y.x.vtype)
  | 0x013 => y.x.drow.setWidth 64
  | 0x030 => y.a.vacr
  | 0x031 => if y.a.v then 1 else 0
  | 0x032 => y.a.pcfg.setWidth 64
  | 0x033 => y.a.pqva
  | 0x034 => pqstat s k y.a.pqva
  | 0x038 => BitVec.ofNat 64 x.rank
  | 0x039 => y.f.frank.setWidth 64
  | 0x03A => BitVec.ofNat 64 x.job
  | 0x03B => slotMask d.stackSlots (x.desc1 1 58 6)
  | 0x03C => slotMask d.xferSlots (x.desc1 1 58 6)
  | _ => 0

/-- CSRRC: the value is read at issue and lands one cycle later, with the signal. -/
def execCsrrc (a : BitVec 5) (csr : BitVec 12) (s : State) : Res :=
  let y := s.aside
  .next (if y.busy a then s
    else
      let l : Late := { d := a, at_ := s.here.cycle + 1, v := coreCsr s csr.toNat, sig := s.sig }
      retire (s.setAside { y with late := y.late ++ [l] }))

/-- Results for A-side registers land (R237).
DEDUCED (assumption 22). -/
def landLate (ch c : Nat) (s : State) : State :=
  let x := s.chair ch
  let y := x.core c
  let due := y.a.late.filter fun l => l.at_ ≤ x.cycle
  if due.isEmpty then s
  else
    let a := due.foldl (fun (a : ASide) l => a.setReg l.d l.v) y.a
    let s := s.setCore ch c { y with a := { a with late := y.a.late.filter fun l => x.cycle < l.at_ } }
    due.foldl (fun s l => addSig ch c l.sig 7 s) s

/-- Every word of an engine taken before number `n` has issued. -/
def Core.issuedBefore (y : Core) (e n : Nat) : Bool := (y.queue e).all fun q => q.n ≥ n

/-- Every A-side word taken before number `n` has completed (R114). -/
def Core.asideBefore (y : Core) (n : Nat) : Bool := y.issuedBefore 1 n && y.a.still

/-- Every X-side word taken before number `n` has landed (R135). -/
def Core.xsideBefore (y : Core) (n : Nat) : Bool := y.issuedBefore 2 n && y.x.fly.isEmpty

/-- A CSR write that waits for a condition and then acts. -/
def csrWrite (ready : Bool) (f : Core → Core) (s : State) : Res :=
  .next (if ready then retireSig (s.setMe (f s.me)) else s)

/-- CSRWC of the CSRs without a row of their own; a write to a read-only one is ignored. -/
def execCsrwc (csr : BitVec 12) (a : BitVec 5) (s : State) : Res :=
  let y := s.me
  let v := y.a.reg a
  let onX := fun (f : XSide → XSide) =>
    csrWrite (y.xsideBefore s.act.n) (fun y => { y with x := f y.x }) s
  match csr.toNat with
  | 0x010 => onX fun x => { x with flags := field 0 9 v }
  | 0x011 => onX fun x => x.writeFrm v
  | 0x012 => onX fun x => x.writeVtype v
  | 0x013 => onX fun x => { x with drow := field 0 10 v }
  | 0x030 => csrWrite (y.asideBefore s.act.n) (fun y => { y with a := { y.a with vacr := v, vacId := none } }) s
  | _ => csrWrite true id s

/-- A CSRWC of PCFG (R114, R123). -/
def execPcfgWrite (a : BitVec 5) (s : State) : Res :=
  let v := s.aside.reg a
  let ls := (field 8 3 v).toNat
  csrWrite (s.me.asideBefore s.act.n) (fun y =>
    if ls ≥ 6 ∨ (field 0 8 v).toNat * 2048 + 2 ^ ls * 8192 > Config.spadBytes ∨
        (y.a.tags.any fun t => t.2.st ≠ .invalid) then y
    else { y with a := { y.a with pcfg := field 0 12 v } }) s

/-- A CSRWC of ACOND sets V to bit 0 (R114). -/
def execAcondWrite (a : BitVec 5) (s : State) : Res :=
  let v := s.aside.reg a
  csrWrite (s.me.asideBefore s.act.n) (fun y => { y with a := { y.a with v := v.getLsbD 0, vacId := none } }) s

/-- A CSRWC of PQVA (R212). -/
def execPqvaWrite (a : BitVec 5) (s : State) : Res :=
  let v := s.aside.reg a
  csrWrite (s.me.asideBefore s.act.n) (fun y => { y with a := { y.a with pqva := v } }) s

/-- A CSRWC of FRANK waits until every FAB word taken before it has issued (R299). -/
def execFrankWrite (a : BitVec 5) (s : State) : Res :=
  let v := s.aside.reg a
  csrWrite (s.me.issuedBefore 6 s.act.n) (fun y => { y with f := { y.f with frank := field 0 10 v } }) s

/-- A queued word that lets the core take and fetch nothing until it completes: CFENCE, XSAVE, XREST and HGIVE (R109,
R131, R236). -/
def holdsTaking (w : Word) : Bool :=
  (engOf w == 7 && (field 32 8 w == 0x0B#8 || field 32 8 w == 0x10#8 || field 32 8 w == 0x11#8)) ||
    (engOf w == 1 && field 32 8 w == 0x48#8)

end Sys2Proof.Machine
end

