-- ==== Sys2Proof/Machine/Cores.lean ====
section
/-!
DEFINITION. How a core takes words from the ring (R57, R60), fetches them from its stream (R61, R63) and
rejoins; the chair's finish (R67); and the queue-deadlock fault (R97).
-/

namespace Sys2Proof.Machine

open Sys2Proof

/-! ## Taking and fetching -/

/-- A core may take or fetch in this cycle: its chair is open, it has not moved in this cycle, and no CFENCE, HGIVE,
XSAVE or XREST holds it (R57, R109, R131, R236). -/
def Chair.mayTake (x : Chair) (c : Nat) : Bool :=
  let y := x.core c
  x.open_ && SMap.get (x.cycle + 1) y.issued 0 != x.cycle && !(y.queue 7 ++ y.queue 1).any fun q => holdsTaking q.w

/-- The core has taken or passed a slot, or fetched a word, in this cycle. -/
def Core.moved (y : Core) (cycle : Nat) : Core := { y with issued := SMap.ins y.issued 0 cycle }

/-- The literals at the tail of a queue, in order: those that wait for their word (R19). -/
def tailLits (q : List QWord) : List (BitVec 32) :=
  ((q.reverse.takeWhile fun x => isLit x.w).map fun x => field 0 32 x.w).reverse

/-- Pass a word to its engine's queue in a cycle (R13, R94). -/
def Core.push (y : Core) (w : Word) (p : Prov) (lis : List Nat) (cycle : Nat) : Core :=
  let q : QWord := { w := w, n := y.taken, prov := p, lis := lis }
  { (y.setQueue (engOf w) (y.queue (engOf w) ++ [q])).pushNote (engOf w) 1 cycle with taken := y.taken + 1 }

/-- An illegal word: a level C fault at the taking or the fetch, and the core does not move (R34, R35).
DEDUCED (assumption 37). -/
def illegalWord (ch c : Nat) (w : Word) (p : Prov) (s : State) : State :=
  recordC ch c { code := 0x10, prov := p, w := w, lits := tailLits ((s.core ch c).queue (engOf w)), eng := 0 } s

/-- A core takes a DETACH that selects it: LEAVING, with its tag, d, the stream's address, and the record of its
counters as Pin and P (R60, R61). -/
def takeDetach (ch c : Nat) (sl : Slot) (w : Word) (s : State) : State :=
  s.updChair ch fun x =>
    let y := x.core c
    let addr : Word := match tailLits (y.queue 7) with
      | lo :: hi :: _ => hi ++ lo
      | _ => 0
    let mine := fun (b : Break) => b.core == c && b.d == sl.esn
    -- a DETACH that was emitted within an open span has the record as that span keeps it
    let b := (x.gf.breaks.find? mine).or (x.gf.shadows.find? mine |>.map fun z => (x.gf.openBreak c).getD z)
    let cs := (b.map (·.counters)).getD []
    let y := { y with
      phase := .leaving, tag := some (field 24 8 w), d := sl.esn, spc := addr, spc0 := addr, dgpc := sl.gpc,
      dlis := sl.lis, pin := cs, sp := cs }
    let take := fun (z : Break) => { z with taken := true }
    { x.setCore c y with
      gf := { x.gf with breaks := updFirst mine take x.gf.breaks, shadows := updFirst mine take x.gf.shadows } }

/-- RING_TAKE: a drafting core takes or passes its next slot (R13, R57). -/
def execRingTake (ch c : Nat) (s : State) : Res :=
  let x := s.chair ch
  let y := x.core c
  let pass := fun (s : State) => s.updCore ch c fun y => { y.moved x.cycle with pos := y.pos + 1 }
  .next (if x.mayTake c = false ∨ y.phase ≠ .drafting ∨ y.pos = x.gf.head then s
    else
      let sl := SMap.get {} x.ring (y.pos.toNat % 256)
      match sl.item with
      | .joinpt _ => pass s
      | .word w =>
        if sl.cores.getLsbD c = false then pass s
        else if (y.queue (engOf w)).length ≥ Config.wordQueue then s
        else
          let p : Prov := { kind := 0, gpc := sl.gpc, esn := sl.esn }
          if s.act.lawful = false then illegalWord ch c w p s
          else
            let s := if isDetach w then takeDetach ch c sl w s else s
            pass (s.updCore ch c fun y => y.push w p sl.lis x.cycle))

/-- The provenance of the word at a core's stream PC (R24). -/
def Core.streamProv (y : Core) : Prov :=
  { kind := 1, gpc := y.dgpc, esn := y.d, soff := BitVec.ofNat 21 ((y.spc - y.spc0).toNat / 8) }

/-- A fetched control word that enters no queue (R63). -/
def isControl (w : Word) : Bool :=
  engOf w == 7 && (field 32 8 w == 1#8 || field 32 8 w == 2#8 || field 32 8 w == 3#8 || field 32 8 w == 4#8)

/-- The stream's counters after a fetched word; `none`: its wait exceeds P (R61, R110).
DEDUCED (assumption 35). -/
def promoteStream (w : Word) (sp : SMap Nat) : Option (SMap Nat) :=
  let cl := clauseOf w
  let get := fun (m : SMap Nat) (k : Nat) => if k = 0 then 0 else SMap.get 0 m k
  let put := fun (m : SMap Nat) (k v : Nat) => if k = 0 then m else SMap.put 0 m k v
  let k := (field 24 8 w).toNat
  let v := (field 0 16 w).toNat
  let sys := fun (o : BitVec 8) => engOf w == 7 && field 32 8 w == o
  let ws := cl.wsem.toNat
  let wa := if ws = 0 then 0 else amount cl.wcnt
  if isLit w then some sp
  else if wa > get sp ws then none
  else if sys 0x0A && k ≠ 0 && v > get sp k - (if ws = k then wa else 0) then none
  else
    let m := put sp ws (get sp ws - wa)
    let m := if sys 0x08 then put m k v else m
    let m := if sys 0x09 then put m k (get m k + v) else m
    let m := if sys 0x0A then put m k (get m k - v) else m
    let ss := cl.ssem.toNat
    some (if ss = 0 then m else put m ss (get m ss + amount cl.scnt))

/-- The word at a stream address, through an executable translation: the word, or a wait, or the context error of
R63, or the poison error of R159. -/
inductive Fetched where
  | word (w : Word) | wait | ctxError | poison (bad : Option Nat)
  deriving DecidableEq, Repr, Inhabited

/-- DEDUCED (assumption 36). -/
def fetchStream (ch c : Nat) (va : Word) (s : State) : Fetched × State :=
  match access ch c va { x := true } s with
  | (.error .deep, s) => (.wait, accessFails ch c (.deep, va) {} s)
  | (.error .arriving, s) => (.wait, s)
  | (.error .migrating, s) => (.wait, s)
  | (.error _, s) => (.ctxError, s)
  | (.ok t, s) =>
    let a := t.pa va
    if s.ganged a then (.wait, s)
    else if s.mem.bad (a / 32) then (.poison (some (a / 32)), s)
    else if s.mem.atomAt a = .poison then (.poison none, s)
    else if (s.ctx (s.ctxOf ch)).measured va (s.mem.word a) = false then (.ctxError, s)
    else (.word (s.mem.word a), s)

/-- STREAM_FETCH: a detached core fetches the word at its stream PC, checks it, and passes it on; a control word
is held until it has run (R61, R63). -/
def execStreamFetch (ch c : Nat) (s : State) : Res :=
  let x := s.chair ch
  let y := x.core c
  let p := y.streamProv
  .next (if x.mayTake c = false ∨ y.phase ≠ .detached ∨ y.buf.isSome then s
    else
      match fetchStream ch c y.spc s with
      | (.wait, s) => s
      | (.ctxError, s) => contextError (s.ctxOf ch) 4 p y.spc s
      | (.poison bad, s) =>
        let m := match bad with
          | some i => s.mem.toPoison i
          | none => s.mem
        recordC ch c { code := 0x1A, prov := p, eng := 0 } { s with mem := m }
      | (.word w, s) =>
        if isControl w = false ∧ (s.core ch c |>.queue (engOf w)).length ≥ Config.wordQueue then s
        else if s.act.lawful = false then illegalWord ch c w p s
        else match promoteStream w y.sp with
        | none => recordC ch c { code := 0x12, prov := p, w := w, lits := tailLits (y.queue (engOf w)), eng := 0 } s
        | some sp =>
          s.updCore ch c fun y =>
            let y := { y.moved x.cycle with sp := sp }
            if isControl w then
              { y with buf := some { w := w, n := y.taken, prov := p, lis := y.dlis }, taken := y.taken + 1 }
            else { y.push w p y.dlis x.cycle with spc := y.spc + 8 })

/-- The marker that ends a core's span has been emitted: its ESN (R60). -/
def Chair.joinEsn (x : Chair) (c : Nat) : Option (BitVec 28) :=
  ((x.gf.breaks ++ x.gf.shadows).find? fun b => b.core == c && b.d == (x.core c).d && b.taken).bind (·.joinEsn)

/-- The records of core `c` that lie behind its marker at ESN `j`: DETACHes that it has skipped, and those it dropped
(R60). -/
def Break.behind (b : Break) (c : Nat) (j : BitVec 28) : Bool :=
  b.core == c && b.joinEsn.isSome && (j - b.d).toNat < 2 ^ 27

/-- CORE_REJOIN: a joining core meets its marker and drafts again from the slot after it (R60). -/
def execCoreRejoin (ch c : Nat) (s : State) : Res :=
  let x := s.chair ch
  let y := x.core c
  .next (if x.open_ = false ∨ y.phase ≠ .joining then s
    else match x.joinEsn c with
    | none => s
    | some j =>
      let x := x.setCore c { y with phase := .drafting, pos := j + 1, tag := none }
      s.setChair ch { x with gf := { x.gf with
        breaks := x.gf.breaks.filter fun b =>
          !(b.core == c && b.d == y.d && b.taken) && !(b.dropped && b.behind c j),
        shadows := x.gf.shadows.filter fun b => !(b.core == c && (j - b.d).toNat < 2 ^ 27) } })

/-! ## The end of a chair (R67) -/

/-- The kernel of a context that the dispatcher has pre-empted for another goes back to the scoreboard (R325); any other
stays RUNNING until it is resumed (R315). -/
def requeueKernel (k : Nat) (s : State) : State :=
  match (s.ctx k).kernel with
  | none => s
  | some (d, n) =>
    s.updKernel d n fun z => if z.st = .running ∧ z.asked then { z with st := .waiting, asked := false } else z

/-- A context whose every chair that is not EXITED is SAVED is PREEMPTED (R220, R231, R232). -/
def settle (k : Nat) (s : State) : State :=
  let x := s.ctx k
  let going := s.chairs.any fun e => e.2.ctx == some k && (e.2.st == .run || e.2.st == .halted)
  if (x.st = .running ∨ x.st = .frozen) ∧ going = false ∧ x.saved ≠ [] then
    -- the request that brought this about is served
    let rest := fun (v : SavedChair) => { v with chair := { v.chair with req := false } }
    requeueKernel k (s.setCtx k { x with st := .preempted, saved := x.saved.map fun e => (e.1, rest e.2) })
  else s

/-- Every core is EXITED, or DRAFTING with an empty ring ahead, and every word has completed. -/
def Chair.finished (x : Chair) : Bool :=
  x.gf.exited && (List.range 16).all fun c =>
    let y := x.core c
    (y.phase == .exited || (y.phase == .drafting && y.pos == x.gf.head)) && y.still && y.n.pend.isEmpty

/-- A withdrawn group whose last chair has left is of the launch no more (R318). -/
def leaveGroup (k idx : Nat) (s : State) : State :=
  match s.kernelOf k with
  | none => s
  | some (lead, z) =>
    let g := z.group idx
    let there := s.chairs.any (fun e => e.2.ctx == some k && z.group e.2.idx == g) ||
      (s.ctx k).saved.any fun e => z.group e.1 == g
    if there then s
    else s.updKernel lead z.seq fun z =>
      { z with left := z.left ++ [g], marked := if z.marked = some g then none else z.marked }

/-- The chair's die is marked for withdrawal, or its STEP has said so: with its EXIT it leaves the launch (R318). -/
def Chair.leaves (x : Chair) (k : Nat) (s : State) : Bool :=
  x.withdrawn || (s.kernelOf k).any fun z => z.2.marked == some (z.2.group x.idx)

/-- CHAIR_FINISH: the chair is EXITED; a chair that leaves the launch is free for another kernel (R67, R318). -/
def execChairFinish (ch : Nat) (s : State) : Res :=
  let x := s.chair ch
  .next (if x.st ≠ .run ∨ x.halt.isSome ∨ x.finished = false then s
    else
      let k := s.ctxOf ch
      let x := x.mapCores fun _ y => { y with a := { y.a with skip := 0 } }
      let away := x.leaves k s
      let s := s.setChair ch (if away then x.bare else { x with st := .exited, req := false })
      let s := if away then leaveGroup k x.idx s else s
      settle k (s.updCtx k fun z => { z with gone := z.gone ++ [x.idx] }))

/-! ## Queue deadlock (R97) -/

/-- The number of entries a data-queue word names (R21). -/
def wordEntries (w : Word) : Nat := (field 20 4 w).toNat + 1

/-- The port is free: no command waits for its unit (R246). -/
def NSide.ready (n : NSide) : Bool := n.pend.all (·.accepted)

/-- The head word of an engine is stalled on a push to a full core-local queue or a pop from an empty one. -/
def Core.localStall (y : Core) (e : Nat) : Bool :=
  match headUnit (y.queue e) with
  | none => false
  | some (_, q, _) =>
    let w := q.w
    let o := (field 32 8 w).toNat
    let dq := fun (i : Nat) => (SMap.get [] y.a.dq i).length
    let sq := fun (i : Nat) => (SMap.get [] y.a.sq i).length
    let waits := (clauseOf w).wsem ≠ 0 && SMap.get false y.waited e = false
    let q3 := (field 29 3 w).toNat
    let cond := (field 24 3 w).toNat
    let popXa := (cond == 1 || cond == 2) && y.a.xa.isEmpty
    !waits && !(e == 1 && y.a.skip > 0) && (match e, o with
      | 1, 0x00 | 1, 0x01 => dq q3 + wordEntries w > Config.dataQueue
      | 1, 0x02 => dq q3 + wordEntries w > Config.dataQueue || sq ((field 15 5 w).toNat % 2) < wordEntries w
      | 1, 0x03 | 1, 0x04 => sq (q3 - 4) < wordEntries w
      | 1, 0x0A => dq ((field 27 5 w).toNat) + 1 > Config.dataQueue
      | 1, 0x28 => if y.a.bq.isSome then y.a.ax.length ≥ Config.outcomeQueue else popXa
      | 1, 0x29 => popXa
      | 5, 0x08 => y.n.ready && dq ((field 29 2 w).toNat) ≥ Config.dataQueue &&
          (y.n.fifo.head?.bind (·.result)).isSome
      | 2, 0x0B => dq ((field 11 3 w).toNat) = 0
      | 2, 0x0C => y.x.lane.length ≥ Config.laneDepth
      | 2, 0x0D => y.a.xa.length ≥ Config.outcomeQueue
      | 2, 0x40 => dq ((field 15 3 w).toNat) = 0
      | 2, 0x41 => sq ((field 15 3 w).toNat - 4) ≥ Config.dataQueue
      | _, _ => false)

/-- No word is in progress in any engine of the core. -/
def Core.quiet (y : Core) : Bool := y.engineStill && y.n.pend.isEmpty

/-- The condition of a BRS by its code (R64). -/
def brsOf (n : Nat) : Option BrsCond :=
  [BrsCond.xa1, .xa0, .ax1, .ax0, .vs, .vc][n - 1]?

/-- The core can take or fetch no further word. -/
def noTake (ch c : Nat) (s : State) : Bool :=
  let x := s.chair ch
  let y := x.core c
  let full := fun (w : Word) => (y.queue (engOf w)).length ≥ Config.wordQueue
  let held := (y.queue 7 ++ y.queue 1).any fun q => holdsTaking q.w
  match y.phase with
  | .exited => true
  | .drafting =>
    held || y.pos == x.gf.head ||
      (let sl := SMap.get {} x.ring (y.pos.toNat % 256)
       match sl.item with
       | .joinpt _ => false
       | .word w => sl.cores.getLsbD c && full w)
  | .leaving => true
  | .joining => (x.joinEsn c).isNone
  | .detached =>
    match y.buf with
    | some q =>
      -- a BRS whose condition cannot be had: an empty queue, or A-side words before it
      engOf q.w == 7 && field 32 8 q.w == 3#8 && ((clauseOf q.w).wsem == 0 || SMap.get false y.waited 8) &&
        ((brsOf (field 29 3 q.w).toNat).any fun cd => (brsCond cd y).isNone)
    | none =>
      held || match walk s (s.ctxOf ch) y.spc with
      | some t => (s.page t).st == .resident && pteX t.pte && full (s.mem.word (t.pa y.spc)) &&
          !isControl (s.mem.word (t.pa y.spc))
      | none => false

/-- The gaffer has executed EXIT, or waits for ring room, CHAIRW, JOINW, GPOP, GPOPN or format-queue room; STEP and a soft
save wait as CHAIRW (R79, R89, R91).
DEDUCED (assumption 77). -/
def Chair.gafferWaits (x : Chair) : Bool :=
  let g := x.gf
  let w := SMap.get 0 g.isram g.pc.toNat
  let o := (field 32 8 w).toNat
  let a : BitVec 6 := field 20 6 w
  let here := g.issued != some x.cycle && g.save.isNone && ((clauseOf w).wsem = 0 || g.waited) &&
    g.stageOn (clauseOf w).stage && [a, field 26 6 w].all fun r => r == 0 || SMap.get 0 g.ready r.toNat ≤ x.cycle
  let cores := fun (all : List Nat) => if a = 0 then all else maskCores (field 0 16 (g.reg a))
  let waits := fun (faults goes : Nat → Bool) (cs : List Nat) => !cs.any faults && !cs.all goes
  let lane := waits (fun c => (x.core c).x.lane.isEmpty && (x.core c).phase == .exited) fun c => !(x.core c).x.lane.isEmpty
  g.exited || (g.save.isSome && waits x.neverArrives (fun c => x.gathered true [c]) (List.range 16)) ||
    (here && (match o with
    | 0x48 | 0x49 | 0x4A | 0x50 => !x.ringRoom
    | 0x4B => waits (fun c => (g.openBreak c).isSome || x.fmtStuck c)
        (fun c => (x.core c).m.fmtq.length < Config.formatQueue) (maskCores (g.mask (field 26 6 w)))
    | 0x51 => waits x.neverArrives x.arrived (maskCores (field 0 16 (g.reg a)))
    | 0x53 => waits x.neverArrives (fun c => x.gathered ((field 0 20 w).getLsbD 0) [c]) (cores (List.range 16))
    | 0x54 => lane (cores x.live)
    | 0x55 => lane [(field 0 4 (g.reg a)).toNat]
    | 0x59 => waits x.neverArrives (fun c => x.gathered true [c]) (List.range 16)
    | _ => false))

/-- The conditions of R97 hold. -/
def deadlocked (ch : Nat) (s : State) : Bool :=
  let x := s.chair ch
  x.st == .run && x.halt.isNone && x.gfault.isNone && x.gafferWaits && !x.finished &&
    ((List.range 16).all fun c => (x.core c).quiet) && x.live.all fun c =>
    let y := x.core c
    noTake ch c s && (List.range 7).all fun i => (y.queue (i + 1)).isEmpty || y.localStall (i + 1)

/-- QUEUE_DEADLOCK: one record for each core with a stalled engine, an EXITED one too; with none, one for the lowest core
that is not EXITED, which names no word (R97), and core 0 holds it where every core is EXITED.
DEDUCED (assumption 77). -/
def execQueueDeadlock (ch : Nat) (s : State) : Res :=
  let x := s.chair ch
  let head := fun (c : Nat) => (List.range 7).findSome? fun i =>
    if (x.core c).localStall (i + 1) then (headUnit ((x.core c).queue (i + 1))).map fun r => (i + 1, r.1, r.2.1)
    else none
  .next (if deadlocked ch s = false then s
    else
      match (List.range 16).filterMap fun c => (head c).map fun r => (c, r) with
      | [] => recordC ch (x.live.headD 0) { code := 0x28 } s
      | l => l.foldl (fun s r =>
          recordC ch r.1 { code := 0x28, prov := r.2.2.2.prov, w := r.2.2.2.w, lits := r.2.2.1, eng := r.2.1 } s) s)

end Sys2Proof.Machine
end

