-- ==== Sys2Proof/Machine/NearMem.lean ====
section
/-!
DEFINITION. The near-memory command port and the units of the stacks (R243 to R267).
-/

namespace Sys2Proof.Machine

open Sys2Proof

/-! ## Arithmetic (R255, R257, R260) -/

def add32 (a b : Nat) : Nat := (fAdd fp32 .rne (unpack fp32 a) (unpack fp32 b)).1
def mul32 (a b : Nat) : Nat := (fMul fp32 .rne (unpack fp32 a) (unpack fp32 b)).1
def fma32 (a b c : Nat) : Nat := (fFma fp32 .rne (unpack fp32 a) (unpack fp32 b) (unpack fp32 c)).1
def div32 (a b : Nat) : Nat := (fDiv fp32 .rne (unpack fp32 a) (unpack fp32 b)).1
def neg32 (a : Nat) : Nat := if a ≥ 2 ^ 31 then a - 2 ^ 31 else a + 2 ^ 31

/-- An element of a format code of R36, as FP32: exact, any NaN the default NaN (R255). -/
def toFp32 (fmt x : Nat) : Nat :=
  let f := match fmt with | 1 => bf16 | 2 => fp16 | _ => fp32
  (roundVal fp32 .rne (unpack f x)).1

/-- The bytes of an element of a format code. -/
def fmtBytes (fmt : Nat) : Nat := if fmt = 0 then 4 else 2

/-! ## Descriptors (R244, R254, R256, R259, R261) -/

/-- A field of a descriptor. -/
def dw (d : List Word) (i lo w : Nat) : Nat := ((d.getD i 0).toNat >>> lo) % 2 ^ w

/-- The words of a list are zero from an index on. -/
def zeroFrom (d : List Word) (i : Nat) : Bool := (d.drop i).all (· == 0)

def nmredOk (d : List Word) : Bool :=
  dw d 0 0 5 == 0 && dw d 1 0 2 == 0 && dw d 2 32 32 ≥ 1 && dw d 2 20 12 == 0 && dw d 2 0 20 ≥ 1 &&
    dw d 3 44 4 ≤ 2 && dw d 3 42 2 ≠ 3 && dw d 3 37 5 == 0 && dw d 3 0 32 % fmtBytes (dw d 3 44 4) == 0 &&
    zeroFrom d 4

def nmattOk (d : List Word) : Bool :=
  dw d 0 0 5 == 0 && dw d 1 0 5 == 0 && dw d 2 0 2 == 0 && dw d 3 32 32 ≤ dw d 3 0 32 &&
    dw d 4 56 8 == 0 && 1 ≤ dw d 4 35 5 && dw d 4 35 5 ≤ 30 && dw d 4 40 8 + dw d 4 35 5 ≤ 256 &&
    (dw d 4 31 4 == 1 || dw d 4 31 4 == 2) && dw d 4 3 28 == 0 && dw d 5 32 32 ≥ 1 && zeroFrom d 6

def nmoptOk (d : List Word) : Bool :=
  (List.range 4).all (fun i => dw d i 0 5 == 0) && dw d 4 32 32 % 32 == 0 && dw d 4 32 32 ≥ 32 &&
    dw d 4 28 4 ≤ 1 && dw d 4 0 26 == 0 && dw d 9 0 32 == 0 &&
    (if dw d 4 26 2 = 0 then d.getD 10 0 == 0 && d.getD 11 0 == 0
     else dw d 10 0 5 == 0 && dw d 11 0 3 == 0) && dw d 12 0 3 == 0 && zeroFrom d 13

def nmmaskOk (d : List Word) : Bool :=
  dw d 0 0 5 == 0 && dw d 1 0 5 == 0 && dw d 2 0 3 == 0 && dw d 3 32 32 % 32 == 0 && dw d 3 32 32 ≥ 32 &&
    dw d 3 26 2 ≠ 0 && dw d 3 28 4 == 0 && dw d 3 0 26 == 0 && zeroFrom d 4

/-! ## The port (R246, R247, R249) -/

/-- A word that writes memory when it is performed, among the A-side's. -/
def writesMem (w : Word) : Bool :=
  engOf w == 1 &&
    (let o := (field 32 8 w).toNat
     o == 0x03 || o == 0x04 || o == 0x09 || (0x38 ≤ o && o ≤ 0x3F))

/-- Every A-side store, atomic and data-queue store taken before number `n` is performed (R249, R285). -/
def Core.storesBefore (y : Core) (n : Nat) : Bool :=
  ((y.queue 1).all fun q => q.n ≥ n || !writesMem q.w) && y.a.pend.all fun p => p.n ≥ n || (!p.op.writes && !p.mv)

/-- The command places a result in the FIFO. -/
def NOp.hasResult : NOp → Bool
  | .nmred _ | .nmatt _ | .nmopt _ | .nmmask _ | .brd _ _ => true
  | _ => false

/-- The word is issued: it leaves its queue, is pending, and has its FIFO slot (R95, R246). -/
def nmIssue (op : NOp) (die unit : Nat) (s : State) : State :=
  let (id, s) := s.fresh
  let y := s.me
  let p : NPend := { id := id, op := op, die := die, unit := unit, sig := s.sig, n := s.act.n }
  retire (s.setMe { y with n := {
    pend := y.n.pend ++ [p],
    fifo := if op.hasResult then y.n.fifo ++ [{ id := id }] else y.n.fifo } })

/-- The home die of an address; the core's own for an address with no home in a stack (R244). -/
def homeOf (s : State) (ch : Nat) (va : Word) : Nat :=
  match walk s (s.ctxOf ch) va with
  | some t => if pteTier t.pte = 0 then homeDie (t.pa va) else dieOf ch
  | none => dieOf ch

/-- The look-up of the stack that a command runs on waits for a ganged pseudo-channel (R244, R263). -/
def homeWaits (s : State) (d : List Word) : Bool := walkWaits s (s.ctxOf s.act.chair) (d.getD 0 0)

/-- The address of the running word's descriptor, as the word read its register (R244). -/
def nmBase (a : BitVec 5) (s : State) : Word := s.me.n.cap.getD (s.aside.reg a)

/-- The running word has read its register, and waits for the accesses that its load is behind. -/
def nmWaits (va : Word) (s : State) : State :=
  let y := s.me
  s.setMe { y with n := { y.n with cap := some va } }

/-- The descriptor's read is an ordinary load: an access of this A-side that has issued and is not performed holds it back as
it would any later load (R129, R244). -/
def descBehind (va : Word) (len : Nat) (s : State) : Bool :=
  s.aside.pend.any fun q => q.blocks s (s.ctxOf s.act.chair) { id := 0, op := .load, segs := [(va, len)] }

/-- A word with a descriptor of `len` bytes: the read of the descriptor as an ordinary load, the checks, and the issue (R244).
The port's release comes before the unit reads an operand (R249).
DEDUCED (assumption 42). -/
def nmDescriptor (len : Nat) (a : BitVec 5) (ok : List Word → Bool) (op : List Word → NOp)
    (die : State → List Word → Nat) (unit : Nat) (s : State) : Res :=
  let ch := s.act.chair
  let c := s.act.core
  let va := nmBase a s
  .next (if s.me.n.ready = false ∨ s.me.n.fifo.length ≥ Config.resultFifo then s
    else if descBehind va len s then nmWaits va s
    else if va.toNat % len ≠ 0 then raiseC 0x15 s
    else match resolve ch c { r := true } [(va, len)] s with
    | (.error e, s) => accessFails ch c e s.act.prov s
    | (.ok ps, s) =>
      let qs := ps.map (·.1)
      if qs.any fun q => s.ganged q.pa then s
      else match checkAtoms s.mem false qs with
      | some e => atomsFail e s
      | none =>
        let d := (chunksOf 8 (readPieces s.mem qs)).map fun b => BitVec.ofNat 64 (leNat b)
        if ok d = false then raiseC 0x15 s
        else if homeWaits s d then s
        else
          let s := countPages (distinctPages (ps.map (·.2))) ch s
          let s := watchMatch ch c true false [(va, len)] s.act.prov s
          let s := s.setAside (vacantReport s.mem qs s.aside)
          nmIssue (op d) (die s d) unit s)

/-- The die of the command's first operand byte.
DEDUCED (assumption 42). -/
def firstHome (s : State) (d : List Word) : Nat := homeOf s s.act.chair (d.getD 0 0)

def execNmred (u : BitVec 4) (a : BitVec 5) (s : State) : Res :=
  nmDescriptor 64 a nmredOk .nmred firstHome u.toNat s
def execNmatt (u : BitVec 4) (a : BitVec 5) (s : State) : Res :=
  nmDescriptor 64 a nmattOk .nmatt (fun _ d => dw d 4 0 3) u.toNat s
def execNmopt (u : BitVec 3) (a : BitVec 5) (s : State) : Res :=
  nmDescriptor 128 a nmoptOk .nmopt firstHome u.toNat s
def execNmmask (u : BitVec 3) (a : BitVec 5) (s : State) : Res :=
  nmDescriptor 64 a nmmaskOk .nmmask firstHome u.toNat s

/-- NMPOP (R94, R247). -/
def execNmpop (q : BitVec 2) (s : State) : Res :=
  let y := s.me
  .next (if y.n.ready = false ∨ (y.a.dqs q.toNat).length ≥ Config.dataQueue then s
    else match y.n.fifo with
    | { id := id, result := some v, at_ := t } :: rest =>
      if s.here.cycle < t then s
      else
        let e : DqEntry := { id := id, data := some v, at_ := s.here.cycle + 1 }
        let a := { y.a with dq := SMap.put [] y.a.dq q.toNat (y.a.dqs q.toNat ++ [e]) }
        retireSig (s.setMe { y with a := a, n := { y.n with fifo := rest } })
    | _ => s)

/-! ## Bank words (R263, R264) -/

/-- The pseudo-channel a bank command works on. -/
def NOp.bank : NOp → Option Nat
  | .bankOff pc | .bankOn pc | .bcst pc _ | .bmac pc _ _ _ _ | .brd pc _ => some pc
  | _ => none

/-- The command changes the mode of its pseudo-channel. -/
def NOp.changesMode : NOp → Bool
  | .bankOff _ | .bankOn _ => true
  | _ => false

/-- A mode change of a pseudo-channel by the core is not finished. -/
def NSide.turning (n : NSide) (pc : Nat) : Bool :=
  n.pend.any fun p => p.op.changesMode && p.op.bank == some pc

/-- The fault of a bank word that needs GANG mode and ownership: an operand range in NORMAL mode, an ownership
violation for another core (R263). -/
def gangFault (s : State) (ch c pc : Nat) : Option Nat :=
  match (s.chan (dieOf ch, pc)).gang with
  | none => some 0x15
  | some g => if g.ch = ch ∧ g.core = c then none else some 0x18

/-- Issue a bank word once the port and its pseudo-channel are ready and the mode admits it. -/
def nmBank (pc : Nat) (fault : State → Option Nat) (go : State → State) (s : State) : Res :=
  let n := s.me.n
  .next (if n.ready = false ∨ n.turning pc then s
    else match fault s with
    | some e => raiseC e s
    | none => go s)

def ownGang (pc : Nat) (s : State) : Option Nat := gangFault s s.act.chair s.act.core pc

def execNmbankOff (pc : BitVec 8) (s : State) : Res :=
  nmBank pc.toNat (ownGang pc.toNat) (nmIssue (.bankOff pc.toNat) (dieOf s.act.chair) 0) s

/-- The fault of NMBANK.ON: GANG mode already, or no grant for the context (R263). -/
def onFault (s : State) (ch pc : Nat) : Option Nat :=
  let x := s.chan (dieOf ch, pc)
  if x.gang.isSome || x.grant ≠ some (s.ctxOf ch) then some 0x18 else none

def execNmbankOn (pc : BitVec 8) (s : State) : Res :=
  nmBank pc.toNat (fun s => onFault s s.act.chair pc.toNat)
    (nmIssue (.bankOn pc.toNat) (dieOf s.act.chair) 0) s

/-- The translation of a bank word's address at issue: a forbidden access is a context error, and an address that
translates to no page in memory is what `none` says (R244, R264). -/
def bankAccess (va : Word) (absent : Nat → State → State) (go : Tr → State → State) (s : State) : State :=
  let ch := s.act.chair
  match access ch s.act.core va { r := true } s with
  | (.ok t, s) => if pteNarrow t.pte then contextError (s.ctxOf ch) 3 s.act.prov va s else go t s
  | (.error .migrating, s) => s
  | (.error .deep, s) => absent 11 s
  | (.error .arriving, s) => absent 11 s
  | (.error .none, s) => absent 1 s
  | (.error _, s) => contextError (s.ctxOf ch) 1 s.act.prov va s

def execNmbcst (pc : BitVec 8) (a : BitVec 5) (s : State) : Res :=
  let va := s.aside.reg a
  nmBank pc.toNat (fun s => if va.toNat % 1024 ≠ 0 then some 0x15 else ownGang pc.toNat s)
    (bankAccess va (fun r s => contextError (s.ctxOf s.act.chair) r s.act.prov va s)
      fun _ => nmIssue (.bcst pc.toNat va) (dieOf s.act.chair) 0) s

/-- NMBMAC: the chunk's page is held from issue on, so that it is not moved (R264). -/
def execNmbmac (pc : BitVec 8) (k : BitVec 3) (a : BitVec 5) (s : State) : Res :=
  let va := s.aside.reg a
  let d := dieOf s.act.chair
  nmBank pc.toNat (fun s => if va.toNat % 16384 ≠ 0 then some 0x15 else ownGang pc.toNat s)
    (bankAccess va (fun _ => raiseC 0x15) fun t s =>
      let pa := t.pa va
      if pteTier t.pte ≠ 0 ∨ t.size < 0x10000 ∨ chanOf pa ≠ (d, pc.toNat) then raiseC 0x15 s
      else nmIssue (.bmac pc.toNat k.toNat va pa t.leaf) d 0 (holdPages [t] true s)) s

def execNmbrd (pc : BitVec 8) (k : BitVec 3) (s : State) : Res :=
  nmBank pc.toNat (ownGang pc.toNat) (fun s =>
    if s.me.n.fifo.length ≥ Config.resultFifo then s
    else nmIssue (.brd pc.toNat k.toNat) (dieOf s.act.chair) 0 s) s

/-! ## Pools and arenas (R265, R267) -/

/-- The arena of the context that holds a whole range. -/
def arenaOf (s : State) (k : Nat) (va : Word) (n : Nat) : Option Arena :=
  (s.ctx k).arenas.find? fun a => a.base ≤ va && (va - a.base).toNat + n ≤ a.len

def execNmpool (a : BitVec 5) (n : BitVec 32) (s : State) : Res :=
  let va := s.aside.reg a
  let k := s.ctxOf s.act.chair
  .next (if s.me.n.ready = false then s
    else if va.toNat % 0x10000 ≠ 0 ∨ (arenaOf s k va (0x10000 * n.toNat)).isNone then raiseC 0x15 s
    else nmIssue (.pool va n.toNat) (dieOf s.act.chair) 0 s)

/-- An arena that R265 does not admit: it overlaps another, or is one too many. -/
def arenaBad (s : State) (k : Nat) (base : Word) (len : Nat) : Bool :=
  let l := (s.ctx k).arenas
  len ≠ 0 && (l.length ≥ 1024 || l.any fun a => overlaps a.base a.len base len)

def execNmarena (a : BitVec 5) (base : BitVec 64) (s : State) : Res :=
  let len := (s.aside.reg a).toNat
  let k := s.ctxOf s.act.chair
  .next (if s.me.n.ready = false then s
    else if canonical base = false ∨ base.toNat % 0x10000 ≠ 0 ∨ len % 0x10000 ≠ 0 ∨ len > 2 ^ 40 ∨
        arenaBad s k base len then raiseC 0x15 s
    else nmIssue (.arena base len) (dieOf s.act.chair) 0 s)

/-! ## A unit's accesses (R244, R248) -/

/-- Why a unit stops: it waits, or a context error, or a level C fault (with the atoms found bad). -/
inductive UErr where
  | wait | ctx (reason : Nat) (va : Word) | code (n : Nat) (bad : List Nat)
  deriving DecidableEq, Repr, Inhabited

/-- Resolve the ranges a unit touches, as ordinary accesses; `own` is the pseudo-channel whose gang reads them. -/
def unitPieces (ch c : Nat) (n : Need) (segs : List (Word × Nat)) (own : Option (Nat × Nat)) (s : State) :
    Except UErr (List Piece × List Tr) × State :=
  match resolve ch c n segs s with
  | (.error (.migrating, _), s) => (.error .wait, s)
  | (.error (.deep, va), s) => (.error (.ctx 11 va), s)
  | (.error (.arriving, va), s) => (.error (.ctx 11 va), s)
  | (.error (.narrow, va), s) => (.error (.ctx 3 va), s)
  | (.error (_, va), s) => (.error (.ctx 1 va), s)
  | (.ok ps, s) =>
    let qs := ps.map (·.1)
    if qs.any fun q => s.ganged q.pa && some (chanOf q.pa) != own then (.error .wait, s)
    else match checkAtoms s.mem n.w qs with
    | some (.poison bad) => (.error (.code 0x1A bad), s)
    | some (.replica va) => (.error (.ctx 2 va), s)
    | none => (.ok (qs, ps.map (·.2)), s)

/-- Read ranges. -/
def unitRead (ch c : Nat) (segs : List (Word × Nat)) (own : Option (Nat × Nat)) (s : State) :
    Except UErr (List Byte × List Tr) × State :=
  match unitPieces ch c { r := true } segs own s with
  | (.error e, s) => (.error e, s)
  | (.ok (ps, ts), s) => (.ok (readPieces s.mem ps, ts), s)

/-- Write bytes over ranges. -/
def unitWrite (ch c : Nat) (segs : List (Word × Nat)) (bs : List Byte) (s : State) :
    Except UErr (List Tr) × State :=
  match unitPieces ch c { w := true } segs none s with
  | (.error e, s) => (.error e, s)
  | (.ok (ps, ts), s) => (.ok ts, seeWords { s with mem := writePieces ps bs s.mem })

/-- The elements of `w` bytes at an address, as ranges. -/
def elemSegs (va : Word) (w n : Nat) : List (Word × Nat) :=
  (List.range n).map fun i => (va + BitVec.ofNat 64 (w * i), w)

/-- Bytes as numbers of `w` bytes. -/
def elems (w : Nat) (bs : List Byte) : List Nat := (chunksOf w bs).map leNat

/-- A 128-byte result. -/
def resultVec (bs : List Byte) : Vec := bytesVec bs

/-! ## NMRED (R255) -/

/-- One row of the bag joins the accumulated values. -/
def redJoin (pool n : Nat) (acc row : List Nat) : List Nat :=
  if n = 0 then row
  else (List.range row.length).map fun e =>
    let a := acc.getD e 0
    let y := row.getD e 0
    if pool = 2 then (fMinMax fp32 true a y).1 else add32 a y

/-- The elements of the row being read that lie in the atom of its next one: of two virtual atoms where the page is
NARROW (R56, R160). -/
def redPart (s : State) (k : Nat) (va : Word) (w left : Nat) : List (Word × Nat) :=
  let size := if (walk s k va).any fun t => pteNarrow t.pte then 64 else 32
  elemSegs va w (Nat.min left ((size - va.toNat % size) / w))

/-- One move of NMRED: the next index is read, or the next atom of the row it names; a row that is whole joins the bag
(R160, R255). -/
def redStep (ch c : Nat) (d : List Word) (p : NPend) (s : State) : Except UErr (NPend × List Tr) × State :=
  let fmt := dw d 3 44 4
  let w := fmtBytes fmt
  let n := dw d 3 32 5 + 1
  match p.row with
  | none =>
    match unitRead ch c [(d.getD 1 0 + BitVec.ofNat 64 (4 * p.next), 4)] none s with
    | (.error e, s) => (.error e, s)
    | (.ok (bs, ts), s) =>
      let x := int32 (leNat bs)
      if x = -1 then (.ok ({ p with next := p.next + 1 }, ts), s)
      else if x < 0 ∨ x ≥ dw d 2 32 32 then (.error (.code 0x15 []), s)
      else
        let va := d.getD 0 0 + BitVec.ofNat 64 (32 * dw d 2 0 20 * x.toNat + dw d 3 0 32)
        (.ok ({ p with row := some va, buf := [] }, ts), s)
  | some va =>
    let have_ := p.buf.length / w
    let segs := redPart s (s.ctxOf ch) (va + BitVec.ofNat 64 p.buf.length) w (n - have_)
    match unitRead ch c segs none s with
    | (.error e, s) => (.error e, s)
    | (.ok (bs, ts), s) =>
      let buf := p.buf ++ bs
      if buf.length < w * n then (.ok ({ p with buf := buf }, ts), s)
      else
        let row := (elems w buf).map (toFp32 fmt)
        (.ok ({ p with next := p.next + 1, cnt := p.cnt + 1, acc := redJoin (dw d 3 42 2) p.cnt p.acc row,
                       row := none, buf := [] }, ts), s)

/-- The lanes of the result. -/
def redResult (d : List Word) (n : Nat) (acc : List Nat) : List Nat :=
  let pool := dw d 3 42 2
  (List.range 32).map fun e =>
    if e ≥ dw d 3 32 5 + 1 then 0
    else if n = 0 then (if pool = 2 then fp32.inf true else 0)
    else if pool = 1 then (fDiv fp32 .rne (unpack fp32 (acc.getD e 0)) (.fin false n 0)).1
    else acc.getD e 0

/-! ## NMATT (R257) -/

/-- The stack home of an address, where it has one. -/
def stackHome (s : State) (k : Nat) (va : Word) : Option Nat :=
  match walk s k va with
  | some t => if pteTier t.pte = 0 then some (homeDie (t.pa va)) else none
  | none => none

/-- The address of a token's key. -/
def keyAt (d : List Word) (t : Nat) : Word := d.getD 0 0 + BitVec.ofNat 64 (32 * dw d 5 32 32 * t)

/-- The tokens of the shard: those whose key page is homed at the die, and those whose home cannot be read yet (R263). -/
def shard (s : State) (k : Nat) (d : List Word) : List Nat :=
  (List.range (dw d 3 0 32 - dw d 3 32 32)).filterMap fun i =>
    let t := dw d 3 32 32 + i
    if walkWaits s k (keyAt d t) ∨ stackHome s k (keyAt d t) = some (dw d 4 0 3) then some t else none

/-- The score of a token from its query and key. -/
def score (scale : Nat) (q key : List Nat) : Nat :=
  mul32 scale ((List.range q.length).foldl (fun a i => fma32 (q.getD i 0) (key.getD i 0) a) 0)

/-- The scores of tokens in order. -/
def scores (ch c : Nat) (d : List Word) (q : List Nat) : List Nat → List Tr → State →
    Except UErr (List Nat × List Tr) × State
  | [], ts, s => (.ok ([], ts), s)
  | t :: rest, ts, s =>
    match unitRead ch c (elemSegs (keyAt d t) 2 (dw d 4 48 8 + 1)) none s with
    | (.error e, s) => (.error e, s)
    | (.ok (bs, us), s) =>
      let x := score (dw d 5 0 32) q ((elems 2 bs).map (toFp32 (dw d 4 31 4)))
      match scores ch c d q rest (ts ++ us) s with
      | (.error e, s) => (.error e, s)
      | (.ok (xs, ts), s) => (.ok (x :: xs, ts), s)

/-- The address of the columns of a token's value that the command reads. -/
def valueAt (d : List Word) (t : Nat) : Word :=
  d.getD 1 0 + BitVec.ofNat 64 (32 * dw d 5 32 32 * t + 2 * dw d 4 40 8)

/-- The home of a token's key, or of its value's columns, cannot be read yet (R263). -/
def tokenWaits (s : State) (k : Nat) (d : List Word) (t : Nat) : Bool :=
  [keyAt d t, valueAt d t, valueAt d t + BitVec.ofNat 64 (2 * dw d 4 35 5 - 1)].any (walkWaits s k)

/-- A backed page of the columns of a token's value is homed elsewhere than at the command's die (R257). -/
def valueElsewhere (s : State) (k : Nat) (d : List Word) (t : Nat) : Bool :=
  [valueAt d t, valueAt d t + BitVec.ofNat 64 (2 * dw d 4 35 5 - 1)].any fun va =>
    (walk s k va).any fun x => pteTier x.pte == 1 || (pteTier x.pte == 0 && homeDie (x.pa va) != dw d 4 0 3)

/-- The sums of the tokens in order: l and the columns o. -/
def attSums (ch c : Nat) (d : List Word) (m : Nat) : List (Nat × Nat) → Nat → List Nat → List Tr → State →
    Except UErr (Nat × List Nat × List Tr) × State
  | [], l, o, ts, s => (.ok (l, o, ts), s)
  | (t, x) :: rest, l, o, ts, s =>
    match unitRead ch c (elemSegs (valueAt d t) 2 (dw d 4 35 5)) none s with
    | (.error e, s) => (.error e, s)
    | (.ok (bs, us), s) =>
      let p := (fExp2 fp32 .rne (unpack fp32 (add32 x (neg32 m)))).1
      let v := (elems 2 bs).map (toFp32 (dw d 4 31 4))
      let o := (List.range v.length).map fun j => fma32 p (v.getD j 0) (o.getD j 0)
      attSums ch c d m rest (add32 l p) o (ts ++ us) s

def isNan32 (x : Nat) : Bool := (unpack fp32 x).isNan

/-- m, l and o as the 128 bytes of the result. -/
def attBytes (m l : Nat) (o : List Nat) : List Byte := leBytes 4 m ++ leBytes 4 l ++ o.flatMap (leBytes 4)

def nmattRun (ch c : Nat) (d : List Word) (s : State) : Except UErr (List Byte × List Tr) × State :=
  let toks := shard s (s.ctxOf ch) d
  let w := dw d 4 35 5
  if toks.isEmpty then (.ok (attBytes (fp32.inf true) 0 (List.replicate w 0), []), s)
  else if toks.any (tokenWaits s (s.ctxOf ch) d) then (.error .wait, s)
  else if toks.any (valueElsewhere s (s.ctxOf ch) d) then (.error (.code 0x15 []), s)
  else match unitRead ch c (elemSegs (d.getD 2 0) 4 (dw d 4 48 8 + 1)) none s with
  | (.error e, s) => (.error e, s)
  | (.ok (qs, us), s) =>
    match scores ch c d (elems 4 qs) toks us s with
    | (.error e, s) => (.error e, s)
    | (.ok (xs, ts), s) =>
      if xs.any isNan32 then (.ok (attBytes fp32.nan fp32.nan (List.replicate w fp32.nan), ts), s)
      else
        let m := xs.tail.foldl (fun m x => (fMinMax fp32 true m x).1) (xs.headD 0)
        match attSums ch c d m (toks.zip xs) 0 (List.replicate w 0) ts s with
        | (.error e, s) => (.error e, s)
        | (.ok (l, o, ts), s) => (.ok (attBytes m l o, ts), s)

/-! ## NMOPT and NMMASK (R260, R261) -/

/-- The new M, V and W of one element. -/
def optElem (d : List Word) (w m v g : Nat) : Nat × Nat × Nat :=
  let m' := fma32 (dw d 6 32 32) m (mul32 (dw d 6 0 32) g)
  let v' := fma32 (dw d 7 32 32) v (mul32 (dw d 7 0 32) (mul32 g g))
  let den := add32 (fSqrt fp32 .rne (unpack fp32 (mul32 v' (dw d 8 0 32)))).1 (dw d 9 32 32)
  let u := div32 (mul32 m' (dw d 8 32 32)) den
  (m', v', fma32 (neg32 (dw d 5 32 32)) (fma32 (dw d 5 0 32) w u) w)

/-- A mask search over 32 FP32 values: the values chosen, their indices packed, and whether a NaN was chosen. -/
def maskSearch (mask : Nat) (xs : List Nat) : List Byte × List Byte × Bool :=
  let rs := compress .f32 (mask - 1) xs
  (rs.flatMap fun r => leBytes 4 r.1, leBytes 8 (packElems (mask + 1) (rs.map (·.2))), rs.any fun r => isNan32 r.1)

/-- The ranges of the mask output of row `r` at OUTV and OUTM. -/
def maskSegs (outv outm : Word) (r : Nat) : List (Word × Nat) :=
  [(outv + BitVec.ofNat 64 (64 * r), 64), (outm + BitVec.ofNat 64 (8 * r), 8)]

/-- The writes of bytes over ranges, one for each atom, in order (R160). -/
def atomWrites : List (Word × Nat) → List Byte → List (Word × List Byte)
  | [], _ => []
  | (va, n) :: gs, bs => (va, bs.take n) :: atomWrites gs (bs.drop n)

/-- A row that has been computed: its places are checked, and then its writes stand to be made one by one, so that an
error of a place leaves the row not begun (R248, R260).
DEDUCED (assumption 42). -/
def stageRow (ch c : Nat) (p : NPend) (segs : List (Word × Nat)) (bs : List Byte) (nan : Bool) (ts : List Tr) (s : State) :
    Except UErr (NPend × List Tr) × State :=
  match unitPieces ch c { w := true } segs none s with
  | (.error e, s) => (.error e, s)
  | (.ok (_, us), s) =>
    (.ok ({ p with writes := atomWrites (segs.flatMap fun g => atomParts g.1 g.2) bs, nan := nan }, ts ++ us), s)

/-- Compute row `r` of NMOPT: the row's M, V and W, then its mask output. -/
def optRow (ch c : Nat) (d : List Word) (r : Nat) (p : NPend) (s : State) : Except UErr (NPend × List Tr) × State :=
  let at_ := fun (i : Nat) => d.getD i 0 + BitVec.ofNat 64 (128 * r)
  let seg := fun (i : Nat) => ([(at_ i, 128)] : List (Word × Nat))
  let gw := fmtBytes (dw d 4 28 4)
  let gva := d.getD 3 0 + BitVec.ofNat 64 (32 * gw * r)
  match unitRead ch c (seg 0 ++ seg 1 ++ seg 2) none s with
  | (.error e, s) => (.error e, s)
  | (.ok (bs, t1), s) =>
    match unitRead ch c (elemSegs gva gw 32) none s with
    | (.error e, s) => (.error e, s)
    | (.ok (gs, t2), s) =>
      let xs := elems 4 bs
      let g := (elems gw gs).map (toFp32 (dw d 4 28 4))
      let new := (List.range 32).map fun i =>
        optElem d (xs.getD i 0) (xs.getD (32 + i) 0) (xs.getD (64 + i) 0) (g.getD i 0)
      let w' := new.map (·.2.2)
      let out := (new.flatMap fun e => leBytes 4 e.1) ++ (new.flatMap fun e => leBytes 4 e.2.1) ++
        w'.flatMap (leBytes 4)
      let rows := seg 1 ++ seg 2 ++ seg 0
      let mask := dw d 4 26 2
      if mask = 0 then stageRow ch c p rows out (w'.any isNan32) (t1 ++ t2) s
      else
        let (vs, is, nan) := maskSearch mask w'
        stageRow ch c p (rows ++ maskSegs (d.getD 10 0) (d.getD 11 0) r) (out ++ vs ++ is) nan (t1 ++ t2) s

/-- Compute row `r` of NMMASK. -/
def maskRow (ch c : Nat) (d : List Word) (r : Nat) (p : NPend) (s : State) : Except UErr (NPend × List Tr) × State :=
  match unitRead ch c [(d.getD 0 0 + BitVec.ofNat 64 (128 * r), 128)] none s with
  | (.error e, s) => (.error e, s)
  | (.ok (bs, ts), s) =>
    let (vs, is, nan) := maskSearch (dw d 3 26 2) (elems 4 bs)
    stageRow ch c p (maskSegs (d.getD 1 0) (d.getD 2 0) r) (vs ++ is) nan ts s

/-- Add one to the generation word, as one event (R260): its new value. -/
def bumpGen (ch c : Nat) (va : Word) (s : State) : Except UErr (Nat × List Tr) × State :=
  match unitPieces ch c { r := true, w := true } [(va, 8)] none s with
  | (.error e, s) => (.error e, s)
  | (.ok (ps, ts), s) =>
    let g := (leNat (readPieces s.mem ps) + 1) % 2 ^ 64
    (.ok (g, ts), seeWords { s with mem := writePieces ps (leBytes 8 g) s.mem })

/-! ## Steps of an accepted command -/

/-- The rows of a command that works row by row: the indices of NMRED are its rows. -/
def NOp.rows : NOp → Nat
  | .nmred d => dw d 3 48 16
  | .nmopt d => dw d 4 32 32 / 32
  | .nmmask d => dw d 3 32 32 / 32
  | _ => 0

/-- Change a command in progress. -/
def updNm (ch c id : Nat) (f : NPend → NPend) (s : State) : State :=
  s.updCore ch c fun y => { y with n := { y.n with pend := updFirst (·.id = id) f y.n.pend } }

/-- The next write of the row that is under way; after the last, the row is done (R251, R260). -/
def rowWrite (ch c : Nat) (p : NPend) (s : State) : Except UErr (NPend × List Tr) × State :=
  match p.writes with
  | [] => (.error .wait, s)
  | (va, bs) :: rest =>
    match unitWrite ch c [(va, bs.length)] bs s with
    | (.error e, s) => (.error e, s)
    | (.ok ts, s) =>
      let p := { p with writes := rest }
      (.ok (if rest.isEmpty then
          { p with next := p.next + 1, nanrows := p.nanrows + (if p.nan then 1 else 0), nan := false }
        else p, ts), s)

/-- One move of a command that works row by row: NMRED reads; NMOPT makes GEN odd, and a row is computed and then
written atom by atom (R251, R255, R260). -/
def nmRowStep (ch c : Nat) (p : NPend) (s : State) : Except UErr (NPend × List Tr) × State :=
  match p.op with
  | .nmred d => redStep ch c d p s
  | .nmopt d =>
    if p.begun = false then
      match bumpGen ch c (d.getD 12 0) s with
      | (.error e, s) => (.error e, s)
      | (.ok (_, ts), s) => (.ok ({ p with begun := true }, ts), s)
    else if p.writes.isEmpty then optRow ch c d p.next p s
    else rowWrite ch c p s
  | .nmmask d => if p.writes.isEmpty then maskRow ch c d p.next p s else rowWrite ch c p s
  | _ => (.error .wait, s)

/-- Count the pages that a command meets for the first time (R210). -/
def nmCount (ch : Nat) (p : NPend) (ts : List Tr) (s : State) : NPend × State :=
  let new := (distinctPages ts).filter fun t => !p.pages.contains t.leaf
  ({ p with pages := p.pages ++ new.map (·.leaf) }, countPages new ch s)

/-- A move, kept in the state as it is made. -/
def nmMove (ch c : Nat) (p : NPend) (s : State) : Except UErr NPend × State :=
  match nmRowStep ch c p s with
  | (.error e, s) => (.error e, s)
  | (.ok (p, ts), s) =>
    let (p, s) := nmCount ch p ts s
    (.ok p, updNm ch c p.id (fun _ => p) s)

/-- The moves that remain, at most `n`. -/
def nmRows (ch c : Nat) : Nat → NPend → State → Except UErr NPend × State
  | 0, p, s => (.ok p, s)
  | n + 1, p, s =>
    if p.next ≥ p.op.rows then (.ok p, s)
    else match nmMove ch c p s with
    | (.error e, s) => (.error e, s)
    | (.ok p, s) => nmRows ch c n p s

/-- The moves that a command can need: a row of NMRED is an index and at most five atoms, and one of NMOPT a
computation and at most seventeen writes. -/
def NOp.moves (op : NOp) : Nat := 20 * op.rows + 20

/-- A command as it replays: NMRED from the start, NMOPT and NMMASK from the first row not done (R248). -/
def NPend.anew (p : NPend) : NPend :=
  match p.op with
  | .nmred _ => { p with accepted := false, next := 0, cnt := 0, acc := [], row := none, buf := [] }
  | _ => { p with accepted := false, writes := [], nan := false }

/-- A unit's error (R248): the command goes back to be accepted anew, and its unit is free for others (R224, R246). -/
def unitError (ch c : Nat) (p : NPend) (e : UErr) (s : State) : State :=
  match e with
  | .wait => s
  | .ctx r va => contextError (s.ctxOf ch) r p.sig.prov va s
  | .code n bad =>
    recordC ch c { p.sig.record n 5 with pid := some p.id }
      (updNm ch c p.id NPend.anew { s with mem := bad.foldl (fun m i => m.toPoison i) s.mem })

/-- The command ends: its result stands in its slot, and its signal is added (R246). -/
def nmEnd (ch c : Nat) (p : NPend) (result : Option Vec) (s : State) : State :=
  let y := s.core ch c
  let fifo := match result with
    | some v => updFirst (·.id = p.id) (fun e => { e with result := some v, at_ := (s.chair ch).cycle + 1 }) y.n.fifo
    | none => y.n.fifo
  let y := { y with n := { y.n with pend := y.n.pend.filter (·.id ≠ p.id), fifo := fifo } }
  addSig ch c p.sig 5 (s.setCore ch c y)

/-- The command only changes a pseudo-channel's mode or returns an accumulator: nothing is released for it. -/
def NOp.bare : NOp → Bool
  | .bankOff _ | .bankOn _ | .brd _ _ => true
  | _ => false

/-- The port's release before a command: what the core has stored before it is performed, before a unit reads any operand
(R249). -/
def Core.releasedFor (y : Core) (p : NPend) : Bool := p.op.bare || y.storesBefore p.n

/-- The accepted command may go on: its chair's frame is not closed, it is not recorded as faulting, and the port's release
before it is over (R224, R249). -/
def nmGoes (ch c : Nat) (p : NPend) (s : State) : Bool :=
  p.accepted && (s.chair ch).alive && !(s.core ch c).recorded 5 p.id && (s.core ch c).releasedFor p

/-- An earlier command of the core on the same pseudo-channel is not finished. -/
def bankBehind (pc id : Nat) : List NPend → Bool
  | [] => false
  | q :: qs => if q.id = id then false else q.op.bank == some pc || bankBehind pc id qs

/-- Every earlier result of the FIFO stands (R246). -/
def resultsBefore (id : Nat) : List NmEntry → Bool
  | [] => true
  | e :: es => if e.id = id then true else e.result.isSome && resultsBefore id es

/-- What a command may touch, as virtual ranges (R267). -/
def NOp.ranges : NOp → List (Word × Nat)
  | .nmred d =>
    [(d.getD 0 0 + BitVec.ofNat 64 (dw d 3 0 32),
      32 * dw d 2 0 20 * (dw d 2 32 32 - 1) + fmtBytes (dw d 3 44 4) * (dw d 3 32 5 + 1)),
     (d.getD 1 0, 4 * dw d 3 48 16)]
  | .nmatt d =>
    let pitch := 32 * dw d 5 32 32
    let off := BitVec.ofNat 64 (pitch * dw d 3 32 32)
    let n := dw d 3 0 32 - dw d 3 32 32
    if n = 0 then [] else
      [(d.getD 0 0 + off, pitch * (n - 1) + 2 * (dw d 4 48 8 + 1)),
       (valueAt d (dw d 3 32 32), pitch * (n - 1) + 2 * dw d 4 35 5), (d.getD 2 0, 4 * (dw d 4 48 8 + 1))]
  | .nmopt d =>
    let n := dw d 4 32 32
    (List.range 3).map (fun i => (d.getD i 0, 4 * n)) ++
      [(d.getD 3 0, fmtBytes (dw d 4 28 4) * n), (d.getD 12 0, 8)] ++
      (if dw d 4 26 2 = 0 then [] else [(d.getD 10 0, 2 * n), (d.getD 11 0, n / 4)])
  | .nmmask d =>
    let n := dw d 3 32 32
    [(d.getD 0 0, 4 * n), (d.getD 1 0, 2 * n), (d.getD 2 0, n / 4)]
  | .bcst _ va => [(va, 1024)]
  | .bmac _ _ va _ _ => [(va, 16384)]
  | _ => []

/-! ## Commands that lie in a frame (R224, R248, R263) -/

/-- The 1 KiB that NMBCST reads waits (R263, R264). -/
def bcstWaits (ch c pc : Nat) (va : Word) (s : State) : Bool :=
  match (unitRead ch c [(va, 1024)] (some (dieOf ch, pc)) s).1 with
  | .error .wait => true
  | _ => false

/-- The chair is halting or halted for a hard pre-emption, or has executed EXIT: it runs no word before its context is
resumed. -/
def Chair.rests (x : Chair) : Bool :=
  match x.st with
  | .run => x.halt.any (·.hard)
  | .halted => x.frame.hard
  | _ => true

/-- A pin of the context ends only after chair `ch` has halted: the pin is its own, or that of a chair that a resume lets go
on, where the context is resumed only once every chair is saved.  The pins of a chair whose handler runs, of one that halts
for a fault and of the saved chairs of a context that runs or is FAULTED can end before (R126, R220, R226, R267). -/
def pinStays (s : State) (k ch : Nat) (va : Word) (n : Nat) : Bool :=
  let st := (s.ctx k).st
  (s.chairs.any fun e => e.2.ctx == some k && (e.1 == ch || (e.2.rests && (st != .faulted || e.2.st == .exited))) &&
      e.2.pins va n) ||
    (st != .running && st != .faulted && (s.ctx k).saved.any fun e => e.2.chair.pins va n)

/-- A store of the core before a command is performed only after a restart: it has not issued, or something holds it back
(R224, R249). -/
def storeStays (ch c : Nat) (p : NPend) (s : State) : Bool :=
  let y := s.core ch c
  !p.op.bare && (((y.queue 1).any fun q => q.n < p.n && writesMem q.w) ||
    y.a.pend.any fun q => q.n < p.n && (q.op.writes || q.mv) && !leftAside ch c q s)

/-- The range of pages that a command frees (R267). -/
def NPend.freed (p : NPend) (ch : Nat) (s : State) : Option (Word × Nat) :=
  match p.op with
  | .pool va n => some (va, 0x10000 * n)
  | .arena base 0 => ((s.ctx (s.ctxOf ch)).arenas.find? fun a => a.base == base).map fun a => (base, a.len)
  | _ => none

/-- The commands of a core that its halt cannot wait for: the one that has faulted, those behind a store that the restart
performs, those behind such a command in their pseudo-channel, and those that free pages under a pin which stays or under such
a command that is accepted.
DEDUCED (assumption 40). -/
def nmLying (ch c : Nat) (s : State) : List NPend :=
  let y := s.core ch c
  let hung := y.n.pend.foldl (fun ls p =>
    if y.recorded 5 p.id ||
        (p.accepted && (storeStays ch c p s || ls.any fun q => q.op.bank.isSome && q.op.bank == p.op.bank))
    then ls ++ [p] else ls) []
  let held := fun (g : Word × Nat) => pinStays s (s.ctxOf ch) ch g.1 g.2 ||
    hung.any fun q => q.accepted && q.op.ranges.any fun r => overlaps r.1 r.2 g.1 g.2
  hung ++ y.n.pend.filter fun p => p.accepted && (p.freed ch s).any held

/-- Every earlier result of the FIFO stands, but for those of commands that wait for the restart (R246, R248). -/
def resultsStand (ch c id : Nat) (s : State) : Bool :=
  let y := s.core ch c
  let lying := if (s.chair ch).halt.isSome then nmLying ch c s else y.n.pend.filter fun p => y.recorded 5 p.id
  resultsBefore id (y.n.fifo.filter fun e => !lying.any fun p => p.id == e.id)

/-- An accepted bank command that can complete now (R263). -/
def bankGoes (ch c : Nat) (p : NPend) (s : State) : Bool :=
  let y := s.core ch c
  p.accepted && !(nmLying ch c s).any (fun q => q.id == p.id) &&
    (p.op.bank.any fun pc => !bankBehind pc p.id y.n.pend) && (match p.op with
      | .bankOff _ => true
      | .bmac .. => y.releasedFor p
      | .bcst pc va => y.releasedFor p && !bcstWaits ch c pc va s
      | .brd _ _ => resultsStand ch c p.id s
      | _ => false)

/-! ## The ends of the commands -/

/-- A command makes one move. -/
def nmRowTurn (ch c k : Nat) (s : State) : State :=
  match (s.core ch c).n.pend.find? (·.id = k) with
  | none => s
  | some p =>
    if nmGoes ch c p s = false ∨ p.next ≥ p.op.rows then s
    else match nmMove ch c p s with
    | (.error e, s) => unitError ch c p e s
    | (.ok _, s) => s

/-- The unit takes a command (R246): its unit is not at work on another. -/
def NOp.kind : NOp → Nat
  | .nmred _ => 1
  | .nmatt _ => 2
  | .nmopt _ | .nmmask _ => 3
  | _ => 0

/-- A unit of a stack is at work, for a chair that has not stopped for good. -/
def unitBusy (s : State) (p : NPend) : Bool :=
  p.op.kind ≠ 0 && s.chairs.any fun x => x.2.alive && x.2.cores.any fun c => c.2.n.pend.any fun q =>
    q.accepted && q.op.kind == p.op.kind && q.die == p.die && q.unit == p.unit

/-- NM_COMMAND_ACCEPT: the unit takes the command, to whose die links lead (R8, R246). -/
def execNmCommandAccept (ch c : Nat) (s : State) : Res :=
  .next (if (s.chair ch).open_ = false then s
    else match (s.core ch c).n.pend.find? fun p => !p.accepted with
    | none => s
    | some p =>
      if unitBusy s p ∨ s.joined (dieOf ch) p.die = false then s
      else updNm ch c p.id (fun p => { p with accepted := true }) s)

/-- The gang that a core owns on a pseudo-channel of its die, and its change (R263). -/
def State.myGang (s : State) (ch c pc : Nat) : Option Gang := (s.chan (dieOf ch, pc)).mine (s.ctxOf ch) ch c

def State.setMyGang (s : State) (ch c pc : Nat) (g : Gang) : State :=
  s.setChan (dieOf ch, pc) ((s.chan (dieOf ch, pc)).setMine (s.ctxOf ch) ch c g)

/-- The bank accumulators' result of NMBRD. -/
def brdResult (g : Gang) (k : Nat) : List Byte :=
  (List.range 16).flatMap fun b => leBytes 4 (SMap.get 0 g.acc (16 * k + b)).toNat

/-- NM_RESULT: an accepted command with a result finishes, after those before it (R246). -/
def execNmResult (ch c k : Nat) (s : State) : Res :=
  let y := s.core ch c
  .next (match y.n.pend.find? (·.id = k) with
    | none => s
    | some p =>
      if nmGoes ch c p s = false ∨ resultsStand ch c k s = false then s
      else
        let fin := fun (p : NPend) (bs : List Byte) (ts : List Tr) (s : State) =>
          nmEnd ch c p (some (resultVec bs)) (nmCount ch p ts s).2
        match p.op with
        | .nmred d =>
          match nmRows ch c p.op.moves p s with
          | (.error e, s) => unitError ch c p e s
          | (.ok q, s) => fin q ((redResult d q.cnt q.acc).flatMap (leBytes 4)) [] s
        | .nmatt d =>
          match nmattRun ch c d s with
          | (.error e, s) => unitError ch c p e s
          | (.ok (bs, ts), s) => fin p bs ts s
        | .nmopt d =>
          match nmRows ch c p.op.moves p s with
          | (.error e, s) => unitError ch c p e s
          | (.ok q, s) =>
            match bumpGen ch c (d.getD 12 0) s with
            | (.error e, s) => unitError ch c q e s
            | (.ok (g, us), s) => fin q (leBytes 8 q.nanrows ++ leBytes 8 g) us s
        | .nmmask _ =>
          match nmRows ch c p.op.moves p s with
          | (.error e, s) => unitError ch c p e s
          | (.ok q, s) => fin q (leBytes 8 q.nanrows) [] s
        | .brd pc a =>
          if bankBehind pc k y.n.pend then s
          else match s.myGang ch c pc with
          | none => s
          | some g =>
            let acc := (List.range 16).foldl (fun m b => SMap.put 0 m (16 * a + b) 0) g.acc
            fin p (brdResult g a) [] (s.setMyGang ch c pc { g with acc := acc })
        | _ => s)

/-- The A-side accesses in flight to a pseudo-channel: those that have left the A-sides of running chairs (R224, R263). -/
def inFlight (s : State) (c : Nat × Nat) : Bool :=
  s.chairs.any fun x => x.2.alive && x.2.cores.any fun y => y.2.a.pend.any fun p =>
    leftAside x.1 y.1 p s && p.segs.any fun g =>
    (atomParts g.1 g.2).any fun q => match walk s (s.ctxOf x.1) q.1 with
      | some t => inStack (t.pa q.1) && chanOf (t.pa q.1) == c
      | none => false

/-- The gang buffer from 1 KiB (R264). -/
def gangBuf (bs : List Byte) : SMap (BitVec 16) :=
  ((elems 2 bs).zipIdx).foldl (fun m e => SMap.put 0 m e.2 (BitVec.ofNat 16 e.1)) []

/-- Bank `b`'s row added into accumulator `k` (R264). -/
def bankMac (g : Gang) (k b : Nat) (row : List Nat) : BitVec 32 :=
  let x := (List.range 16).foldl (fun a i =>
    let ps := (List.range 32).map fun e => (row.getD (32 * i + e) 0, (SMap.get 0 g.buf (32 * i + e)).toNat)
    add32 a (fGroup fp16 false ps).1) (SMap.get 0 g.acc (16 * k + b)).toNat
  BitVec.ofNat 32 x

/-- A pin or an accepted command of the context covers part of a range (R267). -/
def poolHeld (s : State) (k : Nat) (va : Word) (n : Nat) : Bool :=
  pinned s k va n || s.chairs.any fun x => x.2.ctx == some k && x.2.cores.any fun y =>
    y.2.n.pend.any fun p => p.accepted && p.op.ranges.any fun g => overlaps g.1 g.2 va n

/-- Free the backed pages of a range of arena pages (R267): `none` while a frame is in a ganged channel.
DEDUCED (assumption 43). -/
def freePages (k : Nat) : Nat → Word → State → State
  | 0, _, s => s
  | n + 1, va, s =>
    let s := match walk s k va with
      | some t =>
        if t.size = 0x10000 ∧ pteTier t.pte = 0 ∧ pteNarrow t.pte = false then
          let f := ptePfn t.pte * 4096
          let s := setLeaf t.leaf (pteBit t.pte 0 false) { s with mem := vacateRange s.mem f 0x10000 }
          let s := ownFrames f 0x10000 0 { s with pages := SMap.del s.pages t.leaf }
          s.updDie (homeDie f) fun y => { y with pool := y.pool ++ [f] }
        else s
      | none => s
    freePages k n (va + 0x10000) s

/-- A backed page of a range, or its table entry, lies in a ganged pseudo-channel. -/
def poolGanged (s : State) (k n : Nat) (va : Word) : Bool :=
  (List.range n).any fun i =>
    let va := va + BitVec.ofNat 64 (0x10000 * i)
    walkWaits s k va || (walk s k va).any fun t => s.ganged t.leaf || s.gangedIn (ptePfn t.pte * 4096) 0x10000

/-- NEAR_MEMORY_COMMAND_COMPLETE: an accepted command without a result finishes (R246, R263 to R267). -/
def execNearMemoryCommandComplete (ch c k : Nat) (s : State) : Res :=
  let y := s.core ch c
  let die := dieOf ch
  let ctx := s.ctxOf ch
  .next (match y.n.pend.find? (·.id = k) with
    | none => s
    | some p =>
      let fail := fun (code : Nat) (s : State) => unitError ch c p (.code code []) s
      let behind : Bool := match p.op.bank with | some pc => bankBehind pc k y.n.pend | none => false
      if nmGoes ch c p s = false ∨ behind then s
      else match p.op with
      | .bankOn pc =>
        match onFault s ch pc with
        | some e => fail e s
        | none =>
          if inFlight s (die, pc) then s
          else nmEnd ch c p none (s.setChan (die, pc) { s.chan (die, pc) with gang := some { ch := ch, core := c } })
      | .bankOff pc =>
        match gangFault s ch c pc with
        | none => nmEnd ch c p none (flushLogs (s.setChan (die, pc) { s.chan (die, pc) with gang := none }))
        | some e =>
          -- at a halt the gang lies in the frame already
          if (s.myGang ch c pc).isSome then nmEnd ch c p none (s.setChan (die, pc) ((s.chan (die, pc)).unkeep ctx ch c))
          else fail e s
      | .bcst pc va =>
        match s.myGang ch c pc with
        | none => s
        | some g =>
          match unitRead ch c [(va, 1024)] (some (die, pc)) s with
          | (.error e, s) => unitError ch c p e s
          | (.ok (bs, ts), s) =>
            let s := s.setMyGang ch c pc { g with buf := gangBuf bs }
            nmEnd ch c p none (countPages (distinctPages ts) ch s)
      | .bmac pc a va pa leaf =>
        match s.myGang ch c pc with
        | none => s
        | some g =>
          let is := atomsOf pa 16384
          if is.any fun i => s.mem.damaged i then
            unitError ch c p (.code 0x1A (is.filter s.mem.bad)) s
          else
            let acc := (List.range 16).foldl (fun m b =>
              SMap.put 0 m (16 * a + b) (bankMac g a b (elems 2 (s.mem.getBytes (pa + 1024 * b) 1024)))) g.acc
            let s := s.setMyGang ch c pc { g with acc := acc }
            let s := match walk s ctx va with
              | some t => countPages [t] ch s
              | none => s
            nmEnd ch c p none (releaseLeaves [leaf] s)
      | .pool va n =>
        if poolHeld s ctx va (0x10000 * n) ∨ poolGanged s ctx n va then s
        else nmEnd ch c p none (freePages ctx n va s)
      | .arena base len =>
        if len = 0 then
          match (s.ctx ctx).arenas.find? fun a => a.base == base with
          | none => nmEnd ch c p none s
          | some a =>
            if poolHeld s ctx base a.len ∨ poolGanged s ctx (a.len / 0x10000) base then s
            else
              let s := freePages ctx (a.len / 0x10000) base s
              nmEnd ch c p none (s.updCtx ctx fun x => { x with arenas := x.arenas.filter (·.base ≠ base) })
        else if arenaBad s ctx base len then fail 0x15 s
        else nmEnd ch c p none (s.updCtx ctx fun x => { x with arenas := x.arenas ++ [{ base := base, len := len }] })
      | _ => s)

end Sys2Proof.Machine
end

