-- ==== Sys2Proof/Machine/Save.lean ====
section
/-!
DEFINITION. The halt of a chair (R224), pre-emption (R230 to R233), and save and restore by moving (R234, R235).
-/

namespace Sys2Proof.Machine

open Sys2Proof

/-! ## The halt (R224, R230, R232) -/

/-- The chair has words of its own to run: it is in RUN, or its handler runs (R226). -/
def Chair.working (x : Chair) : Bool := x.st == .run || (x.st == .halted && x.frame.handler)

/-- The yield budget of a chair expires in this cycle, which counts toward it, and no halt is asked for; the cycles of
its handler count too (R232).
DEDUCED (assumption 16). -/
def budgetDue (s : State) (ch : Nat) : Bool :=
  let x := s.chair ch
  x.working && x.halt.isNone && x.budget + 1 ≥ (s.ctx (s.ctxOf ch)).desc1 1 0 44

/-- YIELD_BUDGET_EXPIRY: the chair is to halt as a hard pre-emption (R232). -/
def execYieldBudgetExpiry (ch : Nat) (s : State) : Res :=
  .next (if budgetDue s ch then s.setChair ch ((s.chair ch).askHalt true) else s)

/-- The halt of a chair falls due: the cycle of its cause is over, and a hard pre-emption waits for the
delay-slot word (R224, R230). -/
def Chair.haltDue (x : Chair) : Bool :=
  match x.halt with
  | none => false
  | some h =>
    x.cycle > h.cycle && x.working &&
      (h.hard == false || x.owesSlot == false)

/-- The gaffer stands at a delay-slot word that waits: a chair wait, one of the waits of R97, WQUIET, or under REPLAY a GRAB
that the log does not give. -/
def slotWaits (ch : Nat) (s : State) : Bool :=
  let x := s.chair ch
  let o := (field 32 8 (SMap.get 0 x.gf.isram x.gf.pc.toNat)).toNat
  x.gf.ds && x.gf.issued != some x.cycle &&
    (x.gf.waitOn.isSome || x.gafferWaits || (o == 0x5D && !x.gf.quiet.any (·.done)) ||
      (o == 0x58 && (s.ctx (s.ctxOf ch)).desc1 1 54 1 == 1))

/-- A hard pre-emption may halt the chair at a delay-slot word that waits: R230 lets the word complete first, and R5 and R97
bound a wait that never ends by the expired budget.
DESIGN CHOICE (assumption 79). -/
def slotHalts (ch : Nat) (s : State) : Bool :=
  let x := s.chair ch
  x.halt.any fun h => h.hard && x.cycle > h.cycle && x.working && slotWaits ch s

/-- A core has an access that has left the A-side and is not done, or an accepted near-memory command (R224, R248).  One
whose wait cannot end before the frame closes lies in the frame.
DEDUCED (assumption 40). -/
def Core.outside (ch c : Nat) (s : State) : Bool :=
  let y := s.core ch c
  let lying := nmLying ch c s
  y.a.pend.any (fun p => leftAside ch c p s) || y.n.pend.any fun p => p.accepted && !lying.any fun q => q.id == p.id

/-- A core of a context has a command for its gang that its pseudo-channel has accepted and that can complete now
(R248, R263). -/
def bankWork (k : Nat) (s : State) : Bool :=
  s.chairs.any fun e => e.2.ctx == some k && e.2.alive && e.2.cores.any fun c =>
    c.2.n.pend.any fun p => bankGoes e.1 c.1 p s

/-- A near-memory command that lies in the frame is accepted anew after the restart (R248). -/
def NSide.freeze (n : NSide) : NSide := { n with pend := n.pend.map fun p => if p.accepted then p.anew else p }

/-- The furnaces of a chair whose commands have drained are occupied no longer (R189, R190). -/
def Chair.freeQuads (x : Chair) : Chair :=
  (List.range 4).foldl (fun x q => x.setQuad q { x.quad q with busy := Nat.min (x.quad q).busy x.cycle }) x

/-- Before a frame closes, the results due land and the started furnace commands drain (R224, R189). -/
def drainChair (ch : Nat) (s : State) : State :=
  let s := (List.range 16).foldl (fun s c => drainMma ch c (landDue ch c (s.core ch c).x.fly.length s)) s
  s.updChair ch fun x => x.freeQuads.mapCores fun _ y => { y with n := y.n.freeze }

/-- A type 5 entry: the chair and its cycle counter (R232, R238). -/
def budgetEntry (ch cycle : Nat) : List Byte := [5, 0] ++ leBytes 2 ch ++ leBytes 4 0 ++ leBytes 8 cycle

/-- A pre-emption request reaches a chair (R231). -/
def Chair.request (x : Chair) : Chair :=
  if x.hasExited || x.live.isEmpty then x else { x with req := true }

/-- A pre-emption request reaches the chairs of a context, but for one (R231, R232). -/
def requestChairs (k : Nat) (but : Option Nat) (s : State) : State :=
  { s with chairs := s.chairs.map fun e =>
      if e.2.ctx = some k ∧ some e.1 ≠ but then (e.1, Chair.request e.2) else e }

/-- CHAIR_HALT (R224, R232): the commands of the gangs run to completion, the gangs end (R263), the work outside the
engines ends, and then the frame closes. -/
def execChairHalt (ch : Nat) (s : State) : Res :=
  let x := s.chair ch
  let k := s.ctxOf ch
  .next (if (x.haltDue = false ∧ slotHalts ch s = false) ∨ bankWork k s then s
    else
      let s := dropGangs k s
      -- the work of a chair whose frame is closed already lies in that frame
      if x.alive && (List.range 16).any fun c => Core.outside ch c s then s
      else
        let s := chairHaltNow ch (drainChair ch s)
        if (s.chair ch).st = .halted ∧ (s.chair ch).frame.hard then
          requestChairs k (some ch) (logEntry k (budgetEntry ch (s.chair ch).clock) s)
        else s)

/-! ## Saving (R234, R235) -/

/-- Move a core's scratchpad into its block; an atom with an uncorrectable error leaves POISON there, and a loss
record goes to the context (R180, R235). -/
def saveSpad (k ch c base : Nat) (s : State) : State :=
  let y := s.core ch c
  let bad := y.spad.errs.filter fun i => y.spad.bad i
  let (src, mem) := moveRange y.spad s.mem 0 Config.spadBytes base
  let s := { s.setCore ch c { y with spad := src } with mem := mem }
  bad.foldl (fun s i =>
    lossRecord k {} (Loc.sp ch c (32 * i)).report (base + 32 * i) 0
      { s with mem := s.mem.toPoison (base / 32 + i) }) s

/-- Write a tile's 128 atoms into the block (R235). -/
def tileAtoms (base : Nat) (t : Tile) (m : Space) : Space :=
  let bs := t.bytes
  let st : AtomState := match t.st with
    | .vacant => .vacant
    | .poison => .poison
    | _ => if t.err then .poison else .home
  (List.range 128).foldl (fun m i => m.putAtom (base / 32 + i) st ((bs.drop (32 * i)).take 32)) m

/-- Move the tiles of a core into its block; a tile that has moved keeps its state in the frame (R235). -/
def saveTiles (k ch c base : Nat) (s : State) : State :=
  (List.range 512).foldl (fun s t =>
    let y := s.core ch c
    let v := y.m.tile t
    let s := { s with mem := tileAtoms (base + 4096 * t) v s.mem }
    let s := if v.bad then lossRecord k {} (tileReport ch c t) (base + 4096 * t) 0 s else s
    s.setCore ch c { y with m := y.m.setTile t { v with data := [], err := false } }) s

/-- The register images of a core, in part order (R234, R236). -/
def registerImage (y : Core) : List Byte := (List.range 4).flatMap fun p => partBytes p y

/-- The blocks of the sixteen cores of a chair (R234). -/
def coreBlocks (base : Nat) : List (Nat × Nat) := (List.range 16).map fun c => (c, base + c * 0x400000)

/-- The parts of a save block for whose items the manual gives no layout: each core's frame items, queues, handles, shape
slots and chains, and the gaffer's part after its image (R234). -/
def itemParts (base : Nat) : List (Nat × Nat) :=
  (coreBlocks base).map (fun b => (b.2 + 0x80000, 0x180000)) ++ [(base + 0x4000250, 0x1FFDB0)]

/-- The bytes that a save writes over those parts (R234).
DEDUCED (assumption 39). -/
def itemBytes (x : Chair) : List Byte := (List.range (16 * 0x180000 + 0x1FFDB0)).map (Config.itemByte x)

/-- Write bytes over parts of memory, in order. -/
def writeParts : List (Nat × Nat) → List Byte → Space → Space
  | [], _, m => m
  | (a, n) :: ps, bs, m => writeParts ps (bs.drop n) (m.device a (bs.take n))

/-- The bytes of parts of memory, in order. -/
def readParts (ps : List (Nat × Nat)) (m : Space) : List Byte := ps.flatMap fun p => m.getBytes p.1 p.2

/-- The words of the gaffer image of R229 as the save block holds them. -/
def Chair.savedImage (x : Chair) : List Word :=
  if x.st = .halted then x.image else (x.closeFrame 0 true).image

/-- A chair as its save block keeps it: its translations are dropped. -/
def Chair.stored (x : Chair) (st : ChairState) : Chair :=
  { x.mapCores (fun _ y => { y with a := { y.a with tlb := [] } }) with st := st }

/-- The bytes of the gaffer image (R229). -/
def imageBytes (ws : List Word) : List Byte := ws.flatMap fun w => leBytes 8 w.toNat

/-- Save a chair of a context, and free it: every scratchpad, then every tile, then the register images, the gaffer
image and the other items (R235). -/
def saveChair (ch : Nat) (st : ChairState) (s : State) : State :=
  let k := s.ctxOf ch
  let x := s.chair ch
  let base := (s.ctx k).block x.idx
  let s := dropGangs k s
  let s := (coreBlocks base).foldl (fun s b => saveSpad k ch b.1 b.2 s) s
  let s := (coreBlocks base).foldl (fun s b => saveTiles k ch b.1 (b.2 + 0x200000) s) s
  let y := (s.chair ch).stored st
  let mem := (coreBlocks base).foldl (fun m b => m.device (b.2 + 0x50000) (registerImage (y.core b.1))) s.mem
  let mem := mem.device (base + 0x4000000) (imageBytes x.savedImage)
  let s := { s with mem := writeParts (itemParts base) (itemBytes y) mem }
  let v : SavedChair := { chair := y, from_ := ch }
  let s := s.updCtx k fun z =>
    { z with saved := SMap.ins z.saved x.idx v, chairs := z.chairs.filter (· ≠ ch) }
  settle k (s.setChair ch x.bare)

/-- The gaffer at a soft point whose save is over, or not made: at its LOOPP with the N and i0 to go on from, or past its
YIELD once the save is made (R79, R91). -/
def Chair.pastSave (x : Chair) (p : Option (Nat × Nat)) (made : Bool) : Chair :=
  let x := { x with gf := { x.gf with save := none, resume := p.or x.gf.resume } }
  if made && p.isNone then
    let x := { x with gf := x.gf.spent x.cycle }
    x.advance.getD x
  else x

/-- The save block of a chair of a context lies partly in a ganged pseudo-channel of another (R263). -/
def blockGanged (k idx : Nat) (s : State) : Bool := (dropGangs k s).gangedIn ((s.ctx k).block idx) 0x4200000

/-- SOFT_SAVE: a chair at a soft point that has gathered as CHAIRW mode 1 waits for, with every accepted near-memory
command complete, is SAVED; a wait that could never end is a join-wait fault of the word there (R79, R87, R91, R231). -/
def execSoftSave (ch : Nat) (s : State) : Res :=
  let x := s.chair ch
  .next (if x.st ≠ .run ∨ x.halt.isSome then s
    else match x.gf.save with
    | none => s
    | some p =>
      if (List.range 16).any x.neverArrives then
        raiseG 0x07 { s.setChair ch (x.pastSave p false) with act := { chair := ch } }
      else if x.gathered true (List.range 16) = false ∨ blockGanged (s.ctxOf ch) x.idx s ∨
          (List.range 16).any fun c => !(x.core c).n.pend.isEmpty then s
      else saveChair ch .saved (s.setChair ch { x.pastSave p true with req := false }))

/-- CHAIR_SAVE: the die controller saves a halted chair whose cause is not being served (R220, R232, R235). -/
def execChairSave (ch : Nat) (s : State) : Res :=
  let x := s.chair ch
  let st := (s.ctx (s.ctxOf ch)).st
  .next (if x.st = .halted ∧ x.frame.handler = false ∧ x.halt.isNone ∧ blockGanged (s.ctxOf ch) x.idx s = false ∧
      (st = .faulted ∨ (x.frame.hard ∧ st ≠ .dead)) then
    saveChair ch .halted s else s)

/-! ## Restoring (R235) -/

/-- Loss records for damaged atoms of a save block: LOST is the block's atom, PROV is zero (R235). -/
def restoreLosses (k : Nat) (is : List Nat) (to_ : Nat → Nat) (s : State) : State :=
  is.foldl (fun s i => lossRecord k { kind := 0 } (32 * i) (to_ i) 0 s) s

/-- Move a core's scratchpad back from its block. -/
def restoreSpad (k ch c base : Nat) (s : State) : State :=
  let bad := (atomsOf base Config.spadBytes).filter s.mem.damaged
  let m := bad.foldl (fun m i => m.toPoison i) s.mem
  let y := s.core ch c
  let (mem, spad) := moveRange m y.spad base Config.spadBytes 0
  restoreLosses k bad (fun i => (Loc.sp ch c (32 * i - base)).report)
    { s.setCore ch c { y with spad := spad } with mem := mem }

/-- Move the tiles of a core back from its block: a damaged atom makes its tile POISON (R235). -/
def restoreTiles (k ch c base : Nat) (s : State) : State :=
  (List.range 512).foldl (fun s t =>
    let a := base + 4096 * t
    let y := s.core ch c
    let v := y.m.tile t
    let bad := (atomsOf a 4096).filter s.mem.damaged
    let v' : Tile := if bad ≠ [] then { st := .poison }
      else if v.st = .vacant then v
      else { v with data := (tileOf (s.mem.getBytes a 4096)).data }
    restoreLosses k bad (fun _ => tileReport ch c t)
      { s.setCore ch c { y with m := y.m.setTile t v' } with mem := vacateRange s.mem a 4096 }) s

/-- Bytes of the register image of a core (R236). -/
def registerLen : Nat := partLen 0 + partLen 1 + partLen 2 + partLen 3

/-- Read the register image of a core back. -/
def loadRegs (base : Nat) (m : Space) (y : Core) : Core :=
  ((List.range 4).foldl (fun (r : Core × Nat) p =>
    (loadPart p (m.getBytes r.2 (partLen p)) r.1, r.2 + partLen p)) (y, base + 0x50000)).1

/-- Take a changed gaffer image of a save block: a halted chair's goes into its frame, and a chair saved at a soft point
goes on from it (R229, R235).
DEDUCED (assumption 39). -/
def Chair.loadImage (x : Chair) (ws : List Word) : Chair :=
  if ws = x.savedImage then x
  else if x.st = .halted then x.takeImage ws
  else
    let y := (x.closeFrame 0 true).takeImage ws
    { x with gf := { y.gf with g := restoreG y.frame y.gf.g }.continueAs y.frame.cont y.frame.levels y.frame.depth }

/-- The chair that a restore reads from a block: the items as saved, or what the device makes of changed bytes, and the
gaffer image (R235). -/
def loadChair (base : Nat) (m : Space) (v : SavedChair) : Chair :=
  let bs := readParts (itemParts base) m
  let x := if bs = itemBytes v.chair then v.chair
    else
      let z := Config.itemsRead bs
      { z with st := v.chair.st, ctx := v.chair.ctx, idx := v.chair.idx, halt := none, gfault := none,
               cores := (List.range 16).map fun c => (c, { z.core c with spad := {} }) }
  x.loadImage ((chunksOf 8 (m.getBytes (base + 0x4000000) 592)).map fun b => BitVec.ofNat 64 (leNat b))

/-- A part of a save block other than scratchpads and tiles is damaged: an uncorrectable error in the context's
registers, queues or gaffer state (R218, R223, R235). -/
def itemsDamaged (base : Nat) (m : Space) : Bool :=
  (((coreBlocks base).map fun (b : Nat × Nat) => (b.2 + 0x50000, registerLen)) ++ [(base + 0x4000000, 592)] ++ itemParts base).any
    fun p => (atomsOf p.1 p.2).any m.damaged

/-- The gangs that the frame of a chair of context `k` keeps, each with its pseudo-channel (R263). -/
def keptGangs (k ch : Nat) (s : State) : List ((Nat × Nat) × Gang) :=
  s.dies.flatMap fun e => e.2.chans.flatMap fun p =>
    (p.2.kept.filter fun q => q.1 == k && q.2.ch == ch).map fun q => ((e.1, p.1), q.2)

/-- What names the chair by its old package index follows it: the kept gangs, to the pseudo-channels of the same numbers on
its new die, and the barrier words bound to its handles (R263, R282).
DEDUCED (assumption 48). -/
def followChair (k old new : Nat) (s : State) : State :=
  let gangs := keptGangs k old s
  let s := gangs.foldl (fun s q => s.setChan q.1 ((s.chan q.1).unkeep k old q.2.core)) s
  let s := gangs.foldl (fun s q =>
    s.setChan (dieOf new, q.1.2) ((s.chan (dieOf new, q.1.2)).keep k { q.2 with ch := new })) s
  { s with
    binds := s.binds.map fun b => if b.ctx = k ∧ b.ch = old then { b with ch := new } else b }

/-- A soft-saved chair goes on after its soft point, with its whole budget (R231, R232). -/
def resumeSoft (ch : Nat) (s : State) : State :=
  regang ch (s.updChair ch fun x =>
    { x with st := .run, cycle := x.cycle + 1, budget := 0, gf := { x.gf with issued := none } })

/-- Restore the chair of index `n` of a context onto a free chair, and let it go on: a halted chair replays as
REINJECT 0 and RESUME (R220, R235). -/
def restoreChair (k n ch : Nat) (s : State) : State :=
  match (s.ctx k).saved.find? fun e => e.1 == n with
  | none => s
  | some (_, v) =>
    let base := (s.ctx k).block n
    let x := loadChair base s.mem v
    let x := { x with
      tenant := (s.chair ch).tenant, clock := (s.chair ch).clock,
      frame := { x.frame with mode := x.frame.inner.isSome && x.frame.mode } }
    let bad := itemsDamaged base s.mem
    let s := (s.setChair ch x).updCtx k fun z =>
      { z with saved := SMap.del z.saved n, chairs := z.chairs ++ [ch] }
    let s := (coreBlocks base).foldl (fun s b => restoreSpad k ch b.1 b.2 s) s
    let s := (coreBlocks base).foldl (fun s b => restoreTiles k ch b.1 (b.2 + 0x200000) s) s
    let s := (coreBlocks base).foldl (fun s b => s.updCore ch b.1 (loadRegs b.2 s.mem)) s
    let s := { s with mem := vacateRange s.mem base 0x4200000 }
    if bad then contextError k 5 {} 0 s
    else
      let s := followChair k v.from_ ch s
      if x.st = .halted then resumeChair ch s else resumeSoft ch s

/-- CHAIR_RESTORE (R235). -/
def execChairRestore (k n ch : Nat) (s : State) : Res :=
  let z := s.ctx k
  .next (if z.st = .running ∧ blockGanged k n s = false ∧ (s.chair ch).tenant = some (z.desc1 1 58 6) ∧ (s.chair ch).ctx = none then
    restoreChair k n ch s else s)

end Sys2Proof.Machine
end

