-- ==== Sys2Proof/Machine/Fabric.lean ====
section
/-!
DEFINITION. The fabric port's words and the packets they send (R295 to R305, R309), the barrier words' instructions
(R280 to R286), and the broom wave (R306).
-/

namespace Sys2Proof.Machine

open Sys2Proof

/-! ## Places (R296, R302) -/

/-- The context of a job on this package. -/
def jobCtx (s : State) (job : Nat) : Option Nat :=
  (s.ctxs.find? fun e => e.2.st ≠ .free && e.2.job == job).map (·.1)

/-- The context of a job, where the rank is this package's. -/
def rankCtx (s : State) (job rank : Nat) : Option Nat :=
  (jobCtx s job).bind fun k => if (s.ctx k).rank = rank then some k else none

/-- The chair that holds a context's core number now. -/
def placeOf (s : State) (k num : Nat) : Option Nat :=
  (s.chairs.find? fun e => e.2.ctx == some k && e.2.idx == num / 16).map (·.1)

/-- A core's number in its context (R302). -/
def coreNumber (s : State) (ch c : Nat) : Nat := 16 * (s.chair ch).idx + c

/-- Deliveries into the chair are not held back by a freeze (R311). -/
def Chair.takesPackets (x : Chair) : Bool := x.st == .run || x.st == .exited

/-! ## Sending -/

/-- The receiver of a direction holds the flit. -/
def LinkDir.holds (d : LinkDir) (f : Flit) : Bool := match d.got with | some g => f.seq ≤ g | none => false

/-- Flits of a packet are on a link and not yet received, or a stopped link's receiver keeps them. -/
def onLink (s : State) (num : Nat) : Bool :=
  let held := fun (d : LinkDir) =>
    (d.unacked.any fun f => f.pkt == num && !d.holds f) || d.saved.any fun f => f.pkt == num
  s.links.any fun e => held e.2.fwd || held e.2.back

/-- The packet goes to another package. -/
def Pkt.leaves (s : State) (p : Pkt) : Bool := (rankCtx s p.job p.drank).isNone

/-- The tier of a packet's address in its destination context: of the page's leaf. -/
def Pkt.tier (s : State) (p : Pkt) : Option Nat :=
  (rankCtx s p.job p.drank).bind fun k => (walk s k p.addr).map fun t => pteTier t.pte

/-- The die that a packet goes to; `none`: another package, or an address that no page in a stack holds. -/
def Pkt.to_ (s : State) (p : Pkt) : Option Nat :=
  (rankCtx s p.job p.drank).bind fun k => match p.ty with
    | .putData | .getReq | .barrier =>
      (walk s k p.addr).bind fun t => if pteTier t.pte = 0 then some (homeDie (t.pa p.addr)) else none
    | .message => (placeOf s k p.dcore).map dieOf
    | .getResp | .reply => (placeOf s k p.score).map dieOf

/-- A packet goes to the hub, whose ports hold the host tier (R9, R300). -/
def Pkt.toHub (s : State) (p : Pkt) : Bool := (p.ty == .putData || p.ty == .getReq) && p.tier s == some 1

/-- The look-up of the die that a packet goes to waits for a ganged pseudo-channel (R263). -/
def Pkt.homeWaits (s : State) (p : Pkt) : Bool :=
  (rankCtx s p.job p.drank).any fun k => match p.ty with
    | .putData | .getReq | .barrier => walkWaits s k p.addr
    | _ => false

/-- A packet is in the die or the hub that it goes to, or has no such place in this package, or waits at its word already (R8,
R9, R299). -/
def Pkt.there (s : State) (p : Pkt) : Bool :=
  p.code == 1 || p.code == 2 || (match p.to_ s with
    | some d => p.pos == some d
    | none => !p.toHub s || p.pos.isNone)

/-- The packet of a number, where it may be applied: it has come to its die, and no flit of it is on a link.  One that waits
for its word's replay is not in the fabric. -/
def pktAt (s : State) (num : Nat) : Option Pkt :=
  if onLink s num then none else s.net.find? fun p => p.num = num && p.code ≠ 9 && p.there s

def dropPkt (num : Nat) (s : State) : State := { s with net := s.net.filter (·.num ≠ num) }

/-- What every packet of the running FAB word carries. -/
def packetOf (sc : Scope) (drank id : Nat) (s : State) : Pkt :=
  let k := s.ctxOf s.act.chair
  let x := s.ctx k
  { num := 0, ty := .putData, job := x.job, ctx := k, srank := x.rank, drank := drank,
    score := coreNumber s s.act.chair s.act.core, pkg := drank == x.rank, sc := sc, fid := id,
    prov := s.act.prov, chair := s.act.chair, die := dieOf s.act.chair, pos := some (dieOf s.act.chair) }

/-- The rank an operation of a scope goes to (R299); `none`: FRANK names no package of the job.
DEDUCED (assumption 18). -/
def destRank (sc : Scope) (s : State) : Option Nat :=
  let x := s.ctx (s.ctxOf s.act.chair)
  let f := s.me.f.frank.toNat
  if sc = .system then (if x.ranks.contains f || f == x.rank then some f else none) else some x.rank

/-- Any other word that touches memory, among the A-side's. -/
def accessesMem (w : Word) : Bool :=
  engOf w == 1 && (let o := (field 32 8 w).toNat; o ≤ 0x04 || o == 0x0A || o == 0x08) || writesMem w

/-- The port's release: every A-side access taken before number `n` is performed (R285, R300, R301). -/
def Core.released (y : Core) (n : Nat) : Bool :=
  ((y.queue 1).all fun q => q.n ≥ n || !accessesMem q.w) && y.a.pend.all fun p => p.n ≥ n

/-- The registers of the running FAB word, as it read them when it issued (R284, R298). -/
def fabRegs (a b : BitVec 5) (r : BitVec 6) (s : State) : FabRegs :=
  s.me.f.cap.getD { a := s.aside.reg a, b := s.aside.reg b, s := s.xside.sreg r }

/-- The running FAB word has issued with its registers, and waits at the head of its queue. -/
def fabWaits (v : FabRegs) (s : State) : State :=
  let y := s.me
  s.setMe { y with f := { y.f with cap := some v } }

/-- The FAB queue is not held back by a BARW (R284). -/
def FSide.ready (f : FSide) : Bool := f.barw.isNone

/-- The running FAB word is issued and owes its signal until `left` events have come. -/
def fPending (id left : Nat) (s : State) : State :=
  let y := s.me
  let p : FPend := { id := id, left := left, sig := s.sig }
  retire (s.setMe { y with f := { y.f with pend := y.f.pend ++ [p] } })

/-- The interface of the running core. -/
def myPort (s : State) : Nat := coreIndex s.act.chair s.act.core

/-- The job of the running core's context. -/
def myJob (s : State) : Nat := (s.ctx (s.ctxOf s.act.chair)).job

/-! ## Atoms that travel -/

/-- Take an atom of memory away as a MOVE source (R159): the state and bytes that travel, and whether its stored
bits were lost (R180). -/
def takeAtom (pa : Nat) (s : State) : (AtomState × List Byte) × Bool × State :=
  let i := pa / 32
  let bad := s.mem.bad i
  let st := s.mem.atom i
  let e : AtomState × List Byte := if bad then (.poison, []) else match st with
    | .vacant => (.vacant, [])
    | .poison => (.poison, [])
    | q => (q, s.mem.atomBytes i)
  (e, bad, s.putLoc (.mem pa) .vacant [])

/-- Take atoms away in order, each with the atom that becomes POISON where its datum was lost; the loss records go to context
`k` (R180). -/
def takeAtoms (k : Nat) (p : Prov) : List (Nat × Nat) → State → List (AtomState × List Byte) × State
  | [], s => ([], s)
  | (pa, dst) :: pas, s =>
    let (e, bad, s) := takeAtom pa s
    let s := if bad then lossRecord k p pa dst 0 s else s
    let (es, s) := takeAtoms k p pas s
    (e :: es, s)

/-- Source atoms, each with the atom of rising places that takes its datum. -/
def toPlaces (pas : List Nat) (dst : Nat) : List (Nat × Nat) := pas.zipIdx.map fun e => (e.1, dst + 32 * e.2)

/-- Cut a list into groups of `n`. -/
def groupsOf {α : Type} (n : Nat) (xs : List α) : List (List α) :=
  (List.range ((xs.length + n - 1) / n)).map fun i => (xs.drop (n * i)).take n

/-- The physical address of every atom of a range from its pieces. -/
def pieceAtoms (ps : List (Piece × Tr)) : List Nat := ps.map (·.1.pa)

/-- Check a local source of PUT or AMSEND as an ordinary access of a MOVE source, which the watch slots see (R133, R300,
R301); an atom that is uncorrectable travels as POISON (R159, R180).
DEDUCED (assumption 23). -/
def sourceAtoms (va : Word) (len : Nat) (s : State) : Option (List Nat) × State :=
  let ch := s.act.chair
  match resolve ch s.act.core { r := true, w := true, vac := true } [(va, len)] s with
  | (.error e, s) => (none, accessFails ch s.act.core e s.act.prov s)
  | (.ok ps, s) =>
    let qs := ps.map (·.1)
    if qs.any fun q => s.ganged q.pa then (none, s)
    else if qs.any fun q => s.mem.atom q.atom == .poison then (none, raiseC 0x1A s)
    else (some (pieceAtoms ps), watchMatch ch s.act.core true true [(va, len)] s.act.prov s)

/-! ## PUT and GET (R300) -/

/-- The length of PUT and GET. -/
def lenOk (len : Nat) : Bool := len % 32 == 0 && 32 ≤ len && len ≤ 0x1000000

/-- The packets of a PUT from its atoms. -/
def putPackets (h : Pkt) (va : Word) (pas : List Nat) (es : List (AtomState × List Byte)) : List Pkt :=
  (groupsOf 8 es).zipIdx.map fun g =>
    { h with ty := .putData, addr := va + BitVec.ofNat 64 (256 * g.2), data := g.1, tag := BitVec.ofNat 16 g.2,
             srcs := (pas.drop (8 * g.2)).take 8 }

/-- PUT. -/
def execPut (a b : BitVec 5) (sc : Scope) (len : BitVec 32) (s : State) : Res :=
  let v := fabRegs a b 0 s
  let dst := v.a
  let src := v.b
  let n := len.toNat
  .next (if s.me.f.ready = false then s
    else if s.me.released s.act.n = false then fabWaits v s
    else if lenOk n = false then raiseC 0x1C s
    else if dst.toNat % 32 ≠ 0 ∨ src.toNat % 32 ≠ 0 then raiseC 0x1F s
    else match destRank sc s with
    | none => raiseC 0x15 s
    | some r =>
      match sourceAtoms src n s with
      | (none, s) => fabWaits v s
      | (some pas, s) =>
        let (id, s) := s.fresh
        let h := packetOf sc r id s
        let (es, s) := takeAtoms (s.ctxOf s.act.chair) s.act.prov (toPlaces pas dst.toNat) s
        let ps := putPackets h dst pas es
        seeWords (fPending id ps.length (sendAll ps (count h.job (myPort s) (Pair.inject ps.length h.pkg) s))))

/-- GET. -/
def execGetw (h : BitVec 6) (a b : BitVec 5) (sc : Scope) (len : BitVec 32) (s : State) : Res :=
  let off := (s.aside.reg a).toNat
  let src := s.aside.reg b
  let n := len.toNat
  let c := s.act.core
  let o : XOpnd := { kind := .move, dst := .sp h off, len := n }
  .next (if s.me.f.ready = false then s
    else if lenOk n = false then raiseC 0x1C s
    else if off % 32 ≠ 0 ∨ src.toNat % 32 ≠ 0 then raiseC 0x1F s
    else if sideOk s.here c o true o.dst = false then raiseC 0x18 s
    else if sideLimit s.here c o true o.dst = false then raiseC 0x1C s
    else match destRank sc s with
    | none => raiseC 0x15 s
    | some r =>
      let (id, s) := s.fresh
      let p := packetOf sc r id s
      let p := { p with ty := .getReq, len := n, addr := src, arg := BitVec.ofNat 64 off, h := h }
      let x := s.here
      let s := if (x.handle h).st = .free then
          s.setHere (x.setHandle h { st := .held c, home := c, base := off / 32, len := n / 32 })
        else s
      fPending id ((n + 255) / 256) (sendAll [p] (count p.job (myPort s) (Pair.inject 1 p.pkg) s)))

/-- Why a remote home cannot serve an atom: it waits, or a context error of the sending context. -/
inductive HomeErr where
  | wait | ctx (reason : Nat)
  deriving DecidableEq, Repr, Inhabited

/-- A packet where it is has a way to a place in memory (R8, R9). -/
def reachFrom (s : State) (pos : Option Nat) (pa : Nat) : Bool :=
  match pos with
  | some d => s.reaches d pa
  | none => s.hubReaches pa

/-- Translate an address at a home in a context, without a core's TLB (R300). -/
def homeAccess (pos : Option Nat) (k : Nat) (n : Need) (va : Word) (s : State) : Except HomeErr Nat × State :=
  if walkWaits s k va then (.error .wait, s)
  else match walk s k va with
  | none => (.error (.ctx 1), s)
  | some t =>
    if n.ok t.pte = false then (.error (.ctx 1), s)
    else if pteNarrow t.pte then (.error (.ctx 3), s)
    else
      let s := undepart t (refit t s)
      match (s.page t).st with
      | .migrating => (.error .wait, s)
      | .deep => (.error (.ctx 11), s)
      | .arriving => (.error (.ctx 11), s)
      | _ =>
        if s.ganged (t.pa va) ∨ s.served k (t.pa va) = false ∨ reachFrom s pos (t.pa va) = false then (.error .wait, s)
        else (.ok (t.pa va), markLeaf t.leaf (n.w && !n.vac) s)

/-- Translate every atom of a range at a home. -/
def homeAtoms (pos : Option Nat) (k : Nat) (n : Need) (va : Word) : Nat → State → Except HomeErr (List Nat) × State
  | 0, s => (.ok [], s)
  | m + 1, s =>
    match homeAccess pos k n va s with
    | (.error e, s) => (.error e, s)
    | (.ok pa, s) =>
      match homeAtoms pos k n (va + 32) m s with
      | (.error e, s) => (.error e, s)
      | (.ok pas, s) => (.ok (pa :: pas), s)

/-- The sending context, while it is the one that sent the packet. -/
def senderCtx (s : State) (p : Pkt) : Option Nat :=
  (rankCtx s p.job p.srank).bind fun k => if k = p.ctx then some k else none

/-- The answer to a packet's issuing core (R295).
DESIGN CHOICE (assumption 46). -/
def replyTo (p : Pkt) (code : Nat) : Pkt :=
  { p with ty := .reply, srank := p.drank, drank := p.srank, code := code, data := [], die := p.pos.getD p.die }

/-- The loss records of data lost at a destination: each source, and the atom that is POISON (R180, R300). -/
def lostRecords (k : Nat) (p : Prov) (ls : List (Nat × Nat)) (s : State) : State :=
  ls.foldl (fun s l => lossRecord k p l.1 l.2 0 s) s

/-- A failure at a home is a context error of the sending context (R223, R300), after the records of the data of its packet
that were lost; to another package both go as a reply.  The packet is consumed there (R297).
DEDUCED (assumption 44). -/
def homeFails (p : Pkt) (reason : Nat) (va : Word) (s : State) : State :=
  let s := count p.job (stackPort 0) (Pair.consume 1 p.pkg) (dropPkt p.num s)
  match senderCtx s p with
  | some k => contextError k reason p.prov va (lostRecords k p.prov p.lost s)
  | none => if p.pkg then s else sendAll [replyTo p (0x80 + reason)] s

/-- Write an atom that has travelled by the MOVE destination row (R159): a REPLICA is an error; into a POISON one,
or one whose bits are lost, the datum is lost. -/
def landAtom (l : Loc) (e : AtomState × List Byte) (s : State) : Except Unit Bool × State :=
  let datum : Bool := e.1 == .home || e.1 == .replica
  match s.atomOf l with
  | .replica => (.error (), s)
  | .poison => (.ok datum, s)
  | _ => if s.badAt l then (.ok datum, s.putLoc l .poison []) else (.ok false, s.putLoc l e.1 e.2)

/-- The sources of the data that were lost at some of the places of a packet. -/
def Pkt.losses (p : Pkt) (places : List Loc) (lost : List Nat) : List (Nat × Nat) :=
  (p.srcs.zip (places.map Loc.report)).filter fun e => lost.contains e.2

/-- Write atoms in order: the first REPLICA, if one stops it, and the places where a datum was lost. -/
def landAtoms : List (Loc × (AtomState × List Byte)) → State → Option Loc × List Nat × State
  | [], s => (none, [], s)
  | (l, e) :: rest, s =>
    match landAtom l e s with
    | (.error _, s) => (some l, [], s)
    | (.ok lost, s) =>
      let (o, ls, s) := landAtoms rest s
      (o, if lost then l.report :: ls else ls, s)

/-- The packet with the sources of the data that have been lost at some of its places. -/
def Pkt.losing (p : Pkt) (places : List Loc) (lost : List Nat) : Pkt := { p with lost := p.lost ++ p.losses places lost }

/-- PUT_DATA: what is left of a data packet is applied at its destination home (R300). -/
def execPutData (num : Nat) (s : State) : Res :=
  .next (match pktAt s num with
    | none => s
    | some p =>
      match p.ty, rankCtx s p.job p.drank with
      | .putData, some k =>
        match homeAtoms p.pos k { w := true } p.addr p.data.length s with
        | (.error .wait, s) => s
        | (.error (.ctx r), s) => homeFails p r p.addr s
        | (.ok pas, s) =>
          match landAtoms ((pas.map Loc.mem).zip p.data) s with
          | (some _, ls, s) => seeWords (homeFails (p.losing (pas.map Loc.mem) ls) 2 p.addr s)
          | (none, ls, s) =>
            let s := count p.job (stackPort (pas.headD 0)) (Pair.consume 1 p.pkg) (dropPkt num s)
            seeWords (sendAll [replyTo (p.losing (pas.map Loc.mem) ls) 0] s)
      | _, _ => s)

/-- The next atom of a data packet that has more is written at its home, as one event: a load may meet some atoms of a packet
written and others not (R160, R300, R313).  What stops it there is left to PUT_DATA. -/
def landTurn (num : Nat) (s : State) : State :=
  match pktAt s num with
  | none => s
  | some p =>
    match p.ty, rankCtx s p.job p.drank, p.data with
    | .putData, some k, e :: e' :: es =>
      match homeAccess p.pos k { w := true } p.addr s with
      | (.error _, _) => s
      | (.ok pa, t) =>
        match landAtom (.mem pa) e t with
        | (.error _, _) => s
        | (.ok lost, t) =>
          let q := p.losing [.mem pa] (if lost then [pa] else [])
          let q := { q with addr := p.addr + 32, data := e' :: es, srcs := p.srcs.drop 1 }
          seeWords { t with net := t.net.map fun r => if r.num = num then q else r }
    | _, _, _ => s

/-- The responses of a GET, from a die. -/
def getPackets (p : Pkt) (die : Nat) (pas : List Nat) (es : List (AtomState × List Byte)) : List Pkt :=
  (groupsOf 8 es).zipIdx.map fun g =>
    { p with ty := .getResp, srank := p.drank, drank := p.srank, die := die, data := g.1, tag := BitVec.ofNat 16 g.2,
             arg := p.arg + BitVec.ofNat 64 (256 * g.2), len := 0, srcs := (pas.drop (8 * g.2)).take 8 }

/-- The scratchpad place that a GET writes first, as a loss record names it; a core of another package goes by its number
(R180, R302).
DESIGN CHOICE (assumption 33). -/
def getPlace (p : Pkt) (s : State) : Nat :=
  match (rankCtx s p.job p.srank).bind fun k => placeOf s k p.score with
  | some ch =>
    let v := (s.chair ch).handle p.h
    (Loc.sp ch (if v.st = .free then p.score % 16 else v.home) p.arg.toNat).report
  | none => 2 ^ 63 + p.score * 2 ^ 32 + p.arg.toNat

/-- GET_REQUEST: at the source home the responses are injected and the request is consumed (R300). -/
def execGetRequest (num : Nat) (s : State) : Res :=
  .next (match pktAt s num with
    | none => s
    | some p =>
      match p.ty, rankCtx s p.job p.drank with
      | .getReq, some k =>
        match homeAtoms p.pos k { r := true, w := true, vac := true } p.addr (p.len / 32) s with
        | (.error .wait, s) => s
        | (.error (.ctx r), s) => homeFails p r p.addr s
        | (.ok pas, s) =>
          let (es, s) := takeAtoms k p.prov (toPlaces pas (getPlace p s)) s
          let ps := getPackets p (p.pos.getD 0) pas es
          let port := stackPort (pas.headD 0)
          let s := count p.job port (Pair.inject ps.length p.pkg) s
          seeWords (sendAll ps (count p.job port (Pair.consume 1 p.pkg) (dropPkt num s)))
      | _, _ => s)

/-- One of the events that an issued FAB word waits for has come; after the last its signal is added. -/
def fEvent (ch c id : Nat) (s : State) : State :=
  let y := s.core ch c
  match y.f.pend.find? (·.id = id) with
  | none => s
  | some q =>
    if q.left ≤ 1 then
      let f := { y.f with pend := y.f.pend.filter (·.id ≠ id) }
      addSig ch c q.sig 6 (s.setCore ch c { y with f := f })
    else
      let f := { y.f with pend := updFirst (·.id = id) (fun q => { q with left := q.left - 1 }) y.f.pend }
      s.setCore ch c { y with f := f }

/-- GET_RESPONSE: the atoms are written into the handle's region (R300). -/
def execGetResponse (num : Nat) (s : State) : Res :=
  .next (match pktAt s num with
    | none => s
    | some p =>
      match p.ty, (rankCtx s p.job p.drank).bind fun k => placeOf s k p.score with
      | .getResp, some ch =>
        let x := s.chair ch
        let c := p.score % 16
        if x.takesPackets = false then s
        else
          let home := if (x.handle p.h).st = .free then c else (x.handle p.h).home
          let offs := (List.range p.data.length).map fun i => p.arg.toNat + 32 * i
          let ls := offs.map (Loc.sp ch home)
          let k := s.ctxOf ch
          let done := fun (s : State) => count p.job (coreIndex ch c) (Pair.consume 1 p.pkg) (dropPkt num s)
          if offs.any (countWaits s ch home) then s
          else match landAtoms (ls.zip p.data) s with
          | (some _, lost, s) => contextError k 2 p.prov 0 (lostRecords k p.prov (p.losses ls lost) (done s))
          | (none, lost, s) =>
            let s := lostRecords k p.prov (p.losses ls lost) s
            fEvent ch c p.fid (done (offs.foldl (fun s off => countAtom ch home off s) s))
      | _, _ => s)

/-! ## Active messages (R301 to R305) -/

/-- A destination core lies within a scope of this core; a core of no chair of the context is in none. -/
def destOk (sc : Scope) (drank num : Nat) (s : State) : Bool :=
  let ch := s.act.chair
  let k := s.ctxOf ch
  let x := s.ctx k
  if drank ≠ x.rank then true
  else
    let known := (placeOf s k num).isSome || x.saved.any fun e => e.1 == num / 16
    known && (match sc with
      | .core => num == coreNumber s ch s.act.core
      | .chair => num / 16 == s.here.idx
      | .die => (placeOf s k num).any fun d => dieOf d == dieOf ch
      | _ => true)

/-- AMSEND. -/
def execAmsend (a b : BitVec 5) (r : BitVec 6) (sc : Scope) (s : State) : Res :=
  let v := fabRegs a b r s
  let d := v.a
  let va := v.b
  let atoms := (field 12 4 d).toNat
  let num := (field 0 12 d).toNat
  .next (if s.me.f.ready = false then s
    else if s.me.released s.act.n = false then fabWaits v s
    else if field 48 16 d ≠ 0 ∨ field 24 8 d ≠ 0 ∨ atoms > 8 then raiseC 0x15 s
    else match destRank sc s with
    | none => raiseC 0x15 s
    | some rank =>
      if destOk sc rank num s = false then raiseC 0x15 s
      else if atoms ≠ 0 ∧ va.toNat % 32 ≠ 0 then raiseC 0x1F s
      else match (if atoms = 0 then (some [], s) else sourceAtoms va (32 * atoms) s) with
      | (none, s) => fabWaits v s
      | (some pas, s) =>
        let (id, s) := s.fresh
        let h := packetOf sc rank id s
        -- the atom that will be POISON is not known yet
        let (es, s) := takeAtoms (s.ctxOf s.act.chair) s.act.prov (pas.map fun pa => (pa, 0)) s
        let p := { h with ty := .message, dcore := num, nsem := field 16 8 d, tag := field 32 16 d,
                          arg := v.s, data := es }
        retireSig (seeWords (sendAll [p] (count h.job (myPort s) (Pair.inject 1 h.pkg) s))))

/-- A message of the same sender to the same core, sent earlier, has not arrived (R303).
DEDUCED (assumption 44). -/
def messageBefore (s : State) (p : Pkt) : Bool :=
  let same := fun (q : Pkt) => q.ty == .message && q.job == p.job && q.srank == p.srank && q.drank == p.drank &&
    q.score == p.score && q.dcore == p.dcore && q.order < p.order
  s.net.any same || s.losses.any fun l => l.pkts.any same

/-- The sender of a message as a recorded input gives it (R354). -/
def arrivalValue (p : Pkt) : List Byte := leBytes 4 (4096 * p.srank + p.score) ++ leBytes 2 p.tag.toNat

/-- A message enters an inbox, from which it can be received in the next cycle on, and its notify semaphore is raised; the
record of an overflow names the message's sender beside a tag that names no word (R24, R94, R106, R303).
DESIGN CHOICE (assumption 33). -/
def enterInbox (ch c : Nat) (p : Pkt) (s : State) : State :=
  let m : Msg := { tag := p.tag, srank := p.srank, score := p.score, arg := p.arg, pkg := p.pkg, sc := p.sc,
                   payload := p.data }
  let s := dropPkt p.num (s.updCore ch c fun y =>
    { y.pushNote keyInbox 1 (s.chair ch).cycle with f := { y.f with inbox := y.f.inbox ++ [m] } })
  addSem ch c p.nsem.toNat 1 { prov := { kind := 3 }, sender := some (p.srank, p.score) } 0 s

/-- MESSAGE_ARRIVAL (R303, R311, R354). -/
def execMessageArrival (num : Nat) (s : State) : Res :=
  .next (match pktAt s num with
    | none => s
    | some p =>
      match p.ty, (rankCtx s p.job p.drank).bind fun k => placeOf s k p.dcore with
      | .message, some ch =>
        let c := p.dcore % 16
        let k := s.ctxOf ch
        if (s.chair ch).takesPackets = false ∨ (s.core ch c).f.inbox.length ≥ Config.inboxDepth ∨
            messageBefore s p then s
        else
          let v := arrivalValue p
          input k ch rrArrival (fun w => w.take v.length == v) (fun w s =>
            let s := if w.isNone then recordInput k ch rrArrival v s else s
            enterInbox ch c p s) s
      | _, _ => s)

/-- MRECV's first result (R304). -/
def Msg.info (m : Msg) : Word :=
  BitVec.ofNat 64 (m.tag.toNat * 2 ^ 32 + m.srank * 2 ^ 16 + m.payload.length * 2 ^ 12 + m.score)

/-- The payload of a received message is written by the MOVE destination row, which the watch slots see (R133, R304):
the state, if it could be. -/
def landPayload (va : Word) (m : Msg) (s : State) : Option State × State :=
  let ch := s.act.chair
  if m.payload.isEmpty then (some s, s)
  else if va.toNat % 32 ≠ 0 then (none, raiseC 0x1F s)
  else match resolve ch s.act.core { w := true } [(va, 32 * m.payload.length)] s with
  | (.error e, s) => (none, accessFails ch s.act.core e s.act.prov s)
  | (.ok ps, s) =>
    let qs := ps.map (·.1)
    if qs.any fun q => s.ganged q.pa then (none, s)
    else match checkAtoms s.mem true qs with
    | some e => (none, atomsFail e s)
    | none =>
      let s' := watchMatch ch s.act.core false true [(va, 32 * m.payload.length)] s.act.prov
        (((pieceAtoms ps).zip m.payload).foldl (fun s e => s.putLoc (.mem e.1) e.2.1 e.2.2) s)
      (some (seeWords s'), s')

/-- The oldest unreceived message of the running core's inbox that stood there when the cycle began (R94, R304). -/
def unreceived (s : State) : Option Msg :=
  let q := s.me.f.inbox
  (q.take (s.me.ripe keyInbox q.length s.here.cycle)).find? fun m => !m.held

/-- MRECV. -/
def execMrecv (d e b : BitVec 5) (s : State) : Res :=
  let v := fabRegs 0 b 0 s
  .next (if s.me.f.ready = false then s
    else match unreceived s with
    | none => fabWaits v s
    | some m =>
      match landPayload v.b m s with
      | (none, s) => fabWaits v s
      | (some s, _) =>
        let y := s.me
        retireSig (s.setMe { y with
          a := (y.a.setReg d m.info).setReg e m.arg,
          f := { y.f with inbox := updFirst (fun m => !m.held) (fun m => { m with held := true }) y.f.inbox } }))

/-- MDONE. -/
def execMdone (s : State) : Res :=
  .next (if s.me.f.ready = false then s
    else match takeFirst (·.held) s.me.f.inbox with
    | none => raiseC 0x1E s
    | some (m, rest) =>
      let y := s.me
      let s := count (myJob s) (myPort s) (Pair.consume 1 m.pkg) s
      retireSig (s.setMe { y with f := { y.f with inbox := rest } }))

/-! ## Losses (R309) -/

/-- An atom of a page of the deep tier becomes POISON. -/
def poisonDeep (pa : Nat) (s : State) : State := { s with deep := s.deep.toPoison (pa / 32) }

/-- The place of a scratchpad atom of a chair of a context, by the chair's index: in its chair, or in its save block (R234). -/
def spadPlace (s : State) (k num c off : Nat) : Loc :=
  match placeOf s k num with
  | some ch => .sp ch c off
  | none => .mem ((s.ctx k).block (num / 16) + 0x400000 * c + off)

/-- The chair of a context that has a core number, where it stands or as it is saved. -/
def chairOf (s : State) (k num : Nat) : Option Chair :=
  match placeOf s k num with
  | some ch => some (s.chair ch)
  | none => ((s.ctx k).saved.find? fun e => e.1 == num / 16).map fun e => e.2.chair

/-- Poison the destination atoms of a lost data packet or response that lie in this package (R309). -/
def poisonLost (p : Pkt) (s : State) : State :=
  match p.ty with
  | .putData =>
    match rankCtx s p.job p.drank with
    | none => s
    | some k => (List.range p.data.length).foldl (fun s i =>
        let va := p.addr + BitVec.ofNat 64 (32 * i)
        match walk s k va with
        | some t => if pteTier t.pte = 2 then poisonDeep (t.pa va) s else s.putLoc (.mem (t.pa va)) .poison []
        | none => s) s
  | .getResp =>
    match (rankCtx s p.job p.drank).bind fun k => (chairOf s k p.score).map fun x => (k, x) with
    | none => s
    | some (k, x) =>
      let v := x.handle p.h
      let home := if v.st = .free then p.score % 16 else v.home
      (List.range p.data.length).foldl (fun s i =>
        s.putLoc (spadPlace s k p.score home (p.arg.toNat + 32 * i)) .poison []) s
  | _ => s

/-- QREPAIR. -/
def execQrepair (a : BitVec 5) (s : State) : Res :=
  let n := (s.aside.reg a).toNat
  .next (if s.me.f.ready = false then s
    else match s.losses.find? fun l => l.id == n && l.job == myJob s with
    | none => raiseC 0x1E s
    | some l =>
      let s := count l.job (myPort s) (Pair.consume l.count (!l.sysOnly)) s
      let s := l.pkts.foldl (fun s p => poisonLost p s) { s with losses := s.losses.filter (·.id ≠ n) }
      retireSig s)

/-! ## Barrier instructions (R280 to R286) -/

/-- The core is in the word's group (R285). -/
def bwGroup (w : BitVec 128) (ch c : Nat) : Bool :=
  match bwScope w with
  | 0 => bwChair w == ch && bwCore w == c
  | 1 => bwChair w == ch
  | 2 => bwChair w / 32 == dieOf ch
  | _ => true

/-- What a barrier operation needs of its page.
DEDUCED (assumption 17). -/
def BarOp.need : BarOp → Need
  | .init .. | .arrive _ | .counted .. => { r := true, w := true }
  | _ => { r := true }

def BarOp.writes (o : BarOp) : Bool := o.need.w

/-- The operation is no word's: a counted atom sends it (R282). -/
def BarOp.counts : BarOp → Bool
  | .counted .. => true
  | _ => false

/-- Why a barrier word turns an operation away (R280): a level C fault with the atom found bad, or a context
error. -/
inductive BarErr where
  | code (n : Nat) (bad : List Nat) | ctx (reason : Nat)
  deriving DecidableEq, Repr, Inhabited

/-- The checks of R280 at the word, once its place is known; `group`: the issuing core is in the group. -/
def barCheck (o : BarOp) (pa : Nat) (group : BitVec 128 → Bool) (s : State) : Option BarErr :=
  let i := pa / 32
  let w := s.barWord pa
  let init : Bool := match o with | .init .. => true | _ => false
  if s.mem.atom i = .poison then some (.code 0x1A [])
  else if s.mem.bad i then some (.code 0x1A [i])
  else if s.mem.atom i = .replica then some (if o.writes then .ctx 2 else .code 0x1E [])
  else if init then none
  else if bwValid w = false then some (.code 0x1E [])
  else if group w = false then some (.code 0x18 [])
  else none

/-- A fresh barrier word (R284). -/
def barFresh (target : BitVec 32) (sc : Scope) (h : Option (BitVec 6)) (ch c : Nat) : BitVec 128 :=
  let scn : Nat := match sc with | .core => 0 | .chair => 1 | .die => 2 | .package => 3 | .system => 4
  BitVec.ofNat 128 (target.toNat * 2 ^ 96 + (if h.isSome then 2 ^ 30 else 0) + scn * 2 ^ 27 + c * 2 ^ 20 +
    ch * 2 ^ 12 + (h.map BitVec.toNat).getD 0)

/-- The place of a barrier word for a core (R280): the place, a wait, or why it fails; a failure leaves the state as
`s`, since a faulting instruction changes nothing. -/
def barPlace (o : BarOp) (va : Word) (s : State) : Except (Option BarErr) Nat × State :=
  if va.toNat % 16 ≠ 0 then (.error (some (.code 0x15 [])), s)
  else match access s.act.chair s.act.core va o.need s with
  | (.error .migrating, t) => (.error none, t)
  | (.error .deep, _) => (.error (some (.code 0x15 [])), s)
  | (.error .arriving, _) => (.error (some (.code 0x15 [])), s)
  | (.error .narrow, _) => (.error (some (.ctx 3)), s)
  | (.error _, _) => (.error (some (.ctx 1)), s)
  | (.ok t, u) =>
    if pteNarrow t.pte then (.error (some (.ctx 3)), s)
    else if pteTier t.pte ≠ 0 then (.error (some (.code 0x15 [])), s)
    else if s.ganged (t.pa va) then (.error none, u)
    else (.ok (t.pa va), u)

/-- A barrier error of the running word. -/
def barFails (e : BarErr) (va : Word) (s : State) : State :=
  match e with
  | .code n bad => raiseC n { s with mem := bad.foldl (fun m i => m.toPoison i) s.mem }
  | .ctx r => contextError (s.ctxOf s.act.chair) r s.act.prov va s

/-- The release scope that a barrier operation's packet carries: BARINIT's own; the word gives the others' (R284, R295). -/
def BarOp.scope : BarOp → Scope
  | .init _ sc _ => sc
  | _ => .system

/-- The operation goes to another package as a packet; its word is issued (R299). -/
def barRemote (o : BarOp) (va : Word) (rank : Nat) (s : State) : State :=
  let (id, s) := s.fresh
  let p := packetOf o.scope rank id s
  let p := { p with ty := .barrier, addr := va, bar := o }
  let s := sendAll [p] (count p.job (myPort s) (Pair.inject 1 p.pkg) s)
  let s := fPending id 1 s
  match o with
  | .wait _ => s.setMe { s.me with f := { s.me.f with barw := some { pa := 0, g0 := 0, remote := some id } } }
  | _ => s

/-- A barrier operation of this package is counted where it is injected and where it is applied, and the watch slots see
it (R133, R285, R297). -/
def barLocal (o : BarOp) (va : Word) (pa : Nat) (s : State) : State :=
  let s := watchMatch s.act.chair s.act.core o.need.r o.writes [(va, 16)] s.act.prov s
  count (myJob s) (stackPort pa) (Pair.consume 1 true) (count (myJob s) (myPort s) (Pair.inject 1 true) s)

/-- A barrier instruction: the package it acts in, the release, the place, the checks, and the act (R280, R284,
R285, R299). -/
def barrier (o : BarOp) (release : Bool) (a : BitVec 5) (act : Nat → State → State) (s : State) : Res :=
  let v := fabRegs a 0 0 s
  let va := v.a
  let x := s.ctx (s.ctxOf s.act.chair)
  let f := s.me.f.frank.toNat
  .next (if s.me.f.ready = false then s
    else if release ∧ s.me.released s.act.n = false then fabWaits v s
    else if f ≠ x.rank then
      if x.ranks.contains f then barRemote o va f s else raiseC 0x15 s
    else match barPlace o va s with
    | (.error none, t) => fabWaits v t
    | (.error (some e), t) => barFails e va t
    | (.ok pa, t) =>
      match barCheck o pa (fun w => bwGroup w s.act.chair s.act.core) s with
      | some e => barFails e va s
      | none => act pa (barLocal o va pa t))

/-- The bindings without those of a word of this package. -/
def unbind (pa : Nat) (bs : List Binding) : List Binding := bs.filter fun b => b.far.isSome || b.pa != pa

/-- BARINIT sets the word, and makes or ends its binding (R282, R284). -/
def execBarinit (a : BitVec 5) (sc : Scope) (h : Option (BitVec 6)) (target : BitVec 32) (s : State) : Res :=
  barrier (.init target sc h) true a (fun pa s =>
    let ch := s.act.chair
    let s := s.setBarWord pa (barFresh target sc h ch s.act.core)
    let bs := unbind pa s.binds
    let s := { s with binds := match h with
      | some h => bs ++ [{ pa := pa, ctx := s.ctxOf ch, ch := ch, named := ch, h := h }]
      | none => bs }
    retireSig (seeWords s)) s

/-- BARV. -/
def execBarv (a : BitVec 5) (n : BitVec 15) (s : State) : Res :=
  barrier (.arrive n.toNat) true a (fun pa s => retireSig (arriveAt pa n.toNat s)) s

/-- BARW: passed at once, or registered, and then it holds back the FAB queue. -/
def execBarw (a : BitVec 5) (ph : BitVec 1) (s : State) : Res :=
  barrier (.wait (ph == 1)) false a (fun pa s =>
    let w := s.barWord pa
    if bwPhase w = (ph == 1) then retireSig s
    else
      let (id, s) := s.fresh
      let s := fPending id 1 s
      s.setMe { s.me with f := { s.me.f with barw := some { pa := pa, g0 := bwGen w } } }) s

/-- BARSEM: passed at once, or a link is armed; a ninth is an arrival fault. -/
def execBarsem (a : BitVec 5) (k : BitVec 8) (ph : BitVec 1) (s : State) : Res :=
  barrier (.link (ph == 1) k) false a (fun pa t =>
    let w := t.barWord pa
    let y := t.me
    if bwPhase w = (ph == 1) then
      retireSig (addSem t.act.chair t.act.core k.toNat 1 t.sig 6 t)
    else if y.f.links.length ≥ 8 then raiseC 0x1E s
    else
      retireSig (t.setMe { y with f := { y.f with
        links := y.f.links ++ [{ pa := pa, g0 := bwGen w, sem := some k, sig := t.sig }] } })) s

/-- The BARW and the links of a core that have passed take their effect (R284). -/
def passWords (ch c : Nat) (s : State) : State :=
  let y := s.core ch c
  let done := y.f.links.filter fun l => l.passed
  let bw : Bool := match y.f.barw with | some l => l.passed | none => false
  if done.isEmpty && !bw then s
  else
    let id := ((y.f.pend.getLast?).map (·.id)).getD 0
    let f := { y.f with links := y.f.links.filter (fun l => !l.passed), barw := if bw then none else y.f.barw }
    let s := s.setCore ch c { y with f := f }
    let s := if bw then fEvent ch c id s else s
    done.foldl (fun s l => addSem ch c ((l.sem.map BitVec.toNat).getD 0) 1 l.sig 6 s) s

/-! ## Barrier operations from other packages (R299) -/

/-- A barrier packet is turned away: it is consumed, and its fault or error goes back (R299). -/
def barTurned (p : Pkt) (pa : Nat) (e : BarErr) (s : State) : State :=
  let s := count p.job (stackPort pa) (Pair.consume 1 p.pkg) (dropPkt p.num s)
  match e with
  | .code n bad => sendAll [replyTo p n] { s with mem := bad.foldl (fun m i => m.toPoison i) s.mem }
  | .ctx r => sendAll [replyTo p (0x80 + r)] s

/-- The packet is applied, and its reply goes back. -/
def barDone (p : Pkt) (pa code : Nat) (s : State) : State :=
  sendAll [replyTo p code] (count p.job (stackPort pa) (Pair.consume 1 p.pkg) (dropPkt p.num s))

/-- A waiting packet is registered at its word: it is consumed, and stays until the word has moved on. -/
def barWaits (p : Pkt) (pa : Nat) (s : State) : State :=
  let s := count p.job (stackPort pa) (Pair.consume 1 p.pkg) s
  let q := { p with code := 1, len := bwGen (s.barWord pa), arg := BitVec.ofNat 64 pa }
  { s with net := s.net.map fun r => if r.num = p.num then q else r }

/-- Apply a barrier packet at its word's home. -/
def barApply (p : Pkt) (pa : Nat) (s : State) : State :=
  let w := s.barWord pa
  match p.bar with
  | .init target sc h =>
    -- CORE and CHAIR are the issuing core's, of its own package, which keeps the binding
    let s := s.setBarWord pa (barFresh target sc h p.chair (p.score % 16))
    barDone p pa 0 (seeWords { s with binds := unbind pa s.binds })
  | .arrive n => barDone p pa 0 (arriveAt pa n s)
  | .wait ph => if bwPhase w = ph then barDone p pa 0 s else barWaits p pa s
  | .link ph _ =>
    if bwPhase w = ph then barDone p pa 1 s
    else sendAll [replyTo p 0] (barWaits p pa s)
  | .counted h named =>
    let s := s.settleWord pa
    if bwBound (s.barWord pa) h named && s.wordAtom pa == .home then barDone p pa 0 (arriveAt pa 32 s)
    else barDone p pa 3 s

/-- A counted atom of another package at its word: one that finds no word that it may write ends the binding, and raises
nothing (R282). -/
def barCounted (k : Nat) (p : Pkt) (s : State) : State :=
  if walkWaits s k p.addr then s
  else match walk s k p.addr with
  | none => barDone p 0 3 s
  | some t =>
    let pa := if pteTier t.pte = 2 then deepPlace (t.pa p.addr) else t.pa p.addr
    if p.addr.toNat % 16 ≠ 0 ∨ p.bar.need.ok t.pte = false ∨ pteNarrow t.pte then barDone p 0 3 s
    else if (s.page t).st = .migrating ∨ s.ganged pa ∨ s.served k pa = false then s
    else barApply p pa s

/-- BARRIER_OPERATION: a packet is applied at its word's home, or a registered one has passed (R299). -/
def execBarrierOperation (num : Nat) (s : State) : Res :=
  .next (match pktAt s num with
    | none => s
    | some p =>
      match p.ty, rankCtx s p.job p.drank with
      | .barrier, some k =>
        if p.code = 1 then s
        else if p.code = 2 then
          sendAll [replyTo p (match p.bar with | .link .. => 2 | _ => 0)] (dropPkt num s)
        else if p.bar.counts then barCounted k p s
        else if p.addr.toNat % 16 ≠ 0 then barTurned p 0 (.code 0x15 []) s
        else if walkWaits s k p.addr then s
        else match walk s k p.addr with
        | none => barTurned p 0 (.ctx 1) s
        | some t =>
          let pa := t.pa p.addr
          if p.bar.need.ok t.pte = false then barTurned p 0 (.ctx 1) s
          else if pteNarrow t.pte then barTurned p 0 (.ctx 3) s
          else if pteTier t.pte ≠ 0 then barTurned p 0 (.code 0x15 []) s
          else if ((undepart t s).page t).st = .migrating ∨ s.ganged pa ∨ s.served k pa = false then s
          else match barCheck p.bar pa (fun w => bwScope w == 4) s with
            | some e => barTurned p pa e s
            | none => barApply p pa (markLeaf t.leaf p.bar.writes (undepart t s))
      | _, _ => s)

/-! ## Replies (R295, R299) -/

/-- The issuing core's own BARW was answered: it holds the FAB queue no more. -/
def clearBarw (ch c id : Nat) (s : State) : State :=
  s.updCore ch c fun y =>
    { y with f := { y.f with barw := match y.f.barw with
      | some l => if l.remote = some id then none else some l
      | none => none } }

/-- The signal and the word of the barrier operation that a reply answers. -/
def fabSig (ch c : Nat) (p : Pkt) (s : State) : Sig :=
  (((s.core ch c).f.pend.find? (·.id = p.fid)).map (·.sig)).getD { prov := p.prov }

/-- A reply with a fault: the word waits for replay, which sends its packet again. -/
def replyFault (ch c : Nat) (p : Pkt) (s : State) : State :=
  let again : Pkt := { p with ty := .barrier, srank := p.drank, drank := p.srank, code := 9 }
  let s := sendAll [again] (dropPkt p.num s)
  recordC ch c { (fabSig ch c p s).record p.code 6 with pid := some p.fid } s

/-- A reply to a BARSEM: its link passed at arming, or is armed, or an armed one has passed (R284). -/
def replyLink (ch c : Nat) (k : BitVec 8) (p : Pkt) (s : State) : State :=
  let y := s.core ch c
  let g := fabSig ch c p s
  let mine := fun (l : Link1) => l.remote == some p.fid
  match p.code with
  | 1 => addSem ch c k.toNat 1 g 6 (fEvent ch c p.fid s)
  | 2 =>
    if y.f.links.any mine then
      addSem ch c k.toNat 1 g 6
        (s.setCore ch c { y with f := { y.f with links := y.f.links.filter fun l => !mine l } })
    else s
  | _ =>
    if y.f.links.length ≥ 8 then replyFault ch c { p with code := 0x1E } s
    else
      let l : Link1 := { pa := 0, g0 := 0, sem := some k, remote := some p.fid, sig := g }
      fEvent ch c p.fid (s.setCore ch c { y with f := { y.f with links := y.f.links ++ [l] } })

/-- The issuing core still waits for a reply: its word is not done, or a link of it is armed. -/
def replyDue (ch c : Nat) (p : Pkt) (s : State) : Bool :=
  let f := (s.core ch c).f
  (f.pend.any fun q => q.id == p.fid) || f.links.any fun l => l.remote == some p.fid

/-- The reply to a counted atom: where the word failed the check, the binding ends (R282). -/
def replyCounted (k : Nat) (p : Pkt) (h : BitVec 6) (s : State) : State :=
  if p.code = 3 then
    { s with binds := s.binds.filter fun b => !(b.ctx == k && b.h == h && b.far == some (p.srank, p.addr)) }
  else s

/-- A BARINIT of another package's word is performed: its binding, if it makes one, replaces that of an earlier one (R282).
DEDUCED (assumption 45). -/
def bindFar (k ch : Nat) (p : Pkt) (h : Option (BitVec 6)) (s : State) : State :=
  let far := some (p.srank, p.addr)
  let bs := s.binds.filter fun b => b.ctx ≠ k ∨ b.far ≠ far
  { s with binds := match h with
    | some h => bs ++ [{ pa := 0, far := far, ctx := k, ch := ch, named := p.chair, h := h }]
    | none => bs }

/-- REPLY: an acknowledgement, with the losses at the destination, or a barrier reply reaches the issuing core (R295,
R299, R300).  A link that has passed is told of after it is armed (R284, R286). -/
def execReply (num : Nat) (s : State) : Res :=
  .next (match pktAt s num with
    | none => s
    | some p =>
      match p.ty, (rankCtx s p.job p.drank).bind fun k => placeOf s k p.score with
      | .reply, some ch =>
        let c := p.score % 16
        let k := s.ctxOf ch
        let t := dropPkt num s
        if p.bar.counts then (match p.bar with
          | .counted h _ => replyCounted k p h t
          | _ => t)
        else if replyDue ch c p s = false then t
        else if p.code ≥ 0x80 then contextError k (p.code - 0x80) p.prov p.addr (lostRecords k p.prov p.lost t)
        else if p.code ≥ 0x10 then
          if (s.chair ch).open_ then replyFault ch c p s else s
        else
          let t := lostRecords k p.prov p.lost t
          match p.bar with
          | .link _ j =>
            if (p.code = 0 ∧ (s.chair ch).open_ = false) ∨ (p.code = 2 ∧ (s.core ch c).f.pend.any fun q => q.id == p.fid) then s
            else replyLink ch c j p t
          | .init _ _ h => fEvent ch c p.fid (bindFar k ch p h t)
          | .wait _ => fEvent ch c p.fid (clearBarw ch c p.fid t)
          | _ => fEvent ch c p.fid t
      | _, _ => s)

/-! ## The broom wave (R306, R307) -/

/-- The sums of a job's counters over this package's interfaces, and the packets of its outstanding losses that the pair
counts (R306, R308). -/
def waveSums (job : Nat) (sys : Bool) (s : State) : Nat × Nat × Nat :=
  let ps := (s.pairs.filter fun e => e.1 / 8192 == job).map (·.2)
  let i := ps.foldl (fun (a : BitVec 64) p => a + if sys then p.si else p.pi) 0
  let c := ps.foldl (fun (a : BitVec 64) p => a + if sys then p.sc else p.pc) 0
  let l := ((s.losses.filter fun l => l.job == job && (sys || !l.sysOnly)).map (·.count)).sum
  (i.toNat, c.toNat, l)

/-- A WQUIET of the job is registered for the pair.
DEDUCED (assumption 67). -/
def waveAsked (job : Nat) (sys : Bool) (s : State) : Bool :=
  s.chairs.any fun e => match e.2.ctx, e.2.gf.quiet with
    | some k, some q => (s.ctx k).job == job && (q.sc == 4) == sys && !q.done
    | _, _ => false

/-- A proof of quiet completes every WQUIET that registered before its wave began. -/
def proveQuiet (w : Wave) (s : State) : State :=
  { s with chairs := s.chairs.map fun e => match e.2.ctx, e.2.gf.quiet with
      | some k, some q =>
        if (s.ctx k).job = w.job ∧ (q.sc == 4) = w.sys ∧ q.wave ≤ w.num then
          (e.1, { e.2 with gf := { e.2.gf with quiet := some { q with done := true } } })
        else e
      | _, _ => e }

/-- The job has other packages, whose interfaces a system wave reads too (R296, R306). -/
def jobSpans (s : State) (job : Nat) : Bool :=
  (jobCtx s job).any fun k => (s.ctx k).ranks.any fun r => r != (s.ctx k).rank

/-- WAVE_PASS: pass 1 or pass 2 of a wave reads the sums; `i`, `c` and `loss` are what the other packages of the job, where it
has any, report to a system wave. -/
def execWavePass (job : Nat) (sys : Bool) (i c loss : Nat) (s : State) : Res :=
  let m := waveSums job sys s
  let t : Nat × Nat × Nat :=
    if sys && jobSpans s job then ((m.1 + i) % 2 ^ 64, (m.2.1 + c) % 2 ^ 64, m.2.2 + loss) else m
  .next (match s.waves.find? fun w => w.job == job && w.sys == sys with
    | none =>
      if waveAsked job sys s then
        { s with waves := s.waves ++ [{ job := job, sys := sys, num := s.waveNum, pass1 := some t }],
                 waveNum := s.waveNum + 1 }
      else s
    | some w =>
      let s := { s with waves := s.waves.filter fun v => !(v.job == job && v.sys == sys) }
      match w.pass1 with
      | none => s
      | some p =>
        if p.1 = t.1 ∧ p.2.1 = t.2.1 ∧ t.1 = t.2.1 ∧ p.2.2 = 0 ∧ t.2.2 = 0 then proveQuiet w s else s)

end Sys2Proof.Machine
end

