-- ==== Sys2Proof/Machine/Contexts.lean ====
section
/-!
DEFINITION. Contexts from outside: the descriptor (R221), the container and the context record (R329 to R333), and
resume, kill and release (R220).
-/

namespace Sys2Proof.Machine

open Sys2Proof

/-! ## The descriptor (R221) -/

/-- A range of bytes lies in stack memory (R206). -/
def rangeInStack (a n : Nat) : Bool := inStack a && (n == 0 || inStack (a + n - 1))

/-- A descriptor that the die controller does not refuse for its own fields (R221).
DEDUCED (assumption 50). -/
def descOk (ws : List Word) : Bool :=
  ws.length == 8 &&
    wordField ws 0 52 12 == 0 && wordField ws 1 44 10 == 0 && wordField ws 3 13 51 == 0 &&
    wordField ws 4 52 12 == 0 && wordField ws 6 0 64 == 0 && wordField ws 7 0 64 == 0 &&
    !(wordField ws 1 55 1 == 1 && wordField ws 1 54 1 == 1) &&
    wordField ws 1 0 44 ≥ 65536 &&
    wordField ws 4 0 52 % 0x10000 == 0 && rangeInStack (wordField ws 4 0 52) 0x4200000 &&
    wordField ws 5 52 12 ≥ 1 && wordField ws 5 0 52 % 4096 == 0 &&
    rangeInStack (wordField ws 5 0 52) (wordField ws 5 52 12 * 4096)

/-- A job and rank that the package can still bind (R296). -/
def jobOk (s : State) (job rank : Nat) : Bool :=
  let live := s.ctxs.filter fun e => e.2.st ≠ .free
  job < 65536 && rank < 1024 && live.length < 256 && live.all fun e => e.2.job ≠ job

/-- A job of one package has rank 0 (R296). -/
def rankOk (rank : Nat) (ranks : List Nat) : Bool := rank == 0 || ranks.any (· ≠ rank)

/-- The die takes contexts: READY and not in recovery mode (R328, R352).
DESIGN CHOICE (assumption 62). -/
def Die.serves (d : Die) : Bool := d.ready && !d.recovery

/-- DESCRIPTOR_LOAD: the context named is LOADING with a zero record; the job's counters begin at zero (R220, R221,
R296, R332). -/
def execDescriptorLoad (die : Nat) (words : List Word) (job rank : Nat) (ranks : List Nat) (s : State) : Res :=
  let k := wordField words 0 0 12
  .next (if (s.die die).serves ∧ descOk words ∧ (s.ctx k).st = .free ∧ jobOk s job rank ∧ rankOk rank ranks then
    let s := { s with pairs := s.pairs.filter fun e => e.1 / 8192 ≠ job }
    s.setCtx k { st := .loading, die := die, desc := words, job := job, rank := rank, ranks := ranks }
  else s)

/-! ## The container (R329 to R332) -/

/-- A little-endian field of a byte string. -/
def bytesNat (bs : List Byte) (off n : Nat) : Nat := leNat ((bs.drop off).take n)

/-- A segment descriptor (R330). -/
structure Segment where
  typ : Nat
  key : Nat
  va : Nat
  len : Nat
  off : Nat
  digest : List Byte
  sig : List Byte
  /-- bytes 79:0, which the signature covers -/
  signed : List Byte
  spare : Nat
  deriving DecidableEq, Repr, Inhabited

def segmentAt (bs : List Byte) (i : Nat) : Segment :=
  let d := (bs.drop (64 + 176 * i)).take 176
  { typ := bytesNat d 0 1, key := bytesNat d 1 1, spare := bytesNat d 2 6, va := bytesNat d 8 8,
    len := bytesNat d 16 8, off := bytesNat d 24 8, digest := (d.drop 32).take 48, sig := (d.drop 80).take 96,
    signed := d.take 80 }

def segments (bs : List Byte) : List Segment := (List.range (bytesNat bs 4 2)).map (segmentAt bs)

/-- The limits of R330 for one descriptor. -/
def Segment.ok (g : Segment) (entry size : Nat) : Bool :=
  g.spare == 0 && g.typ ≤ 2 && g.key ≤ 15 && g.off + g.len ≤ size &&
    (if g.typ = 0 then g.len % 8 == 0 && 8 ≤ g.len && g.len ≤ 65536 && entry < g.len / 8 && g.va == 0
     else g.len % 4096 == 0 && g.va % 4096 == 0 && canonical (BitVec.ofNat 64 g.va))

/-- Two segments that R330 forbids to overlap do not. -/
def Segment.apart (g h : Segment) : Bool := g.va + g.len ≤ h.va || h.va + h.len ≤ g.va

/-- Every two of a list satisfy a relation. -/
def allPairs {α : Type} (r : α → α → Bool) : List α → Bool
  | [] => true
  | x :: xs => xs.all (r x) && allPairs r xs

/-- A well-formed container (R329, R330). -/
def containerOk (bs : List Byte) : Bool :=
  let n := bytesNat bs 4 2
  let entry := bytesNat bs 6 2
  let gs := segments bs
  bytesNat bs 0 4 == 0x31585745 && 1 ≤ n && n ≤ 64 && entry ≤ 8191 && 64 + 176 * n ≤ bs.length &&
    ((bs.drop 8).take 56).all (· == 0) && gs.all (fun g => g.ok entry bs.length) &&
    (gs.filter fun g => g.typ == 0).length == 1 && allPairs Segment.apart (gs.filter fun g => g.typ ≠ 0)

/-- Why loading stops: a page in flight makes it wait, or it fails with a reason of R332. -/
inductive LoadStop where
  | wait (t : Option Tr) | fail (reason : Nat)
  deriving DecidableEq, Repr, Inhabited

/-- Place 4 KiB pieces of a segment at rising virtual addresses of a context: the frames are the context's, a TYPE 2 page is
R and W, and no page is X before every segment has passed; the bytes are the device's write, which leaves a REPLICA or POISON atom
as it is (R10, R169, R332).
DESIGN CHOICE (assumption 49). -/
def placePages (k : Nat) (stream : Bool) (va : Word) : List (List Byte) → State → Option LoadStop × State
  | [], s => (none, s)
  | b :: bs, s =>
    if walkWaits s k va then (some (.wait none), s)
    else match walk s k va with
    | none => (some (.fail 9), s)
    | some t =>
      if pteNarrow t.pte then (some (.fail 3), s)
      else
        let s := undepart t (refit t s)
        let pa := t.pa va
        if (s.page t).st ≠ .resident ∨ s.ganged t.leaf ∨ s.gangedIn pa 4096 then (some (.wait (some t)), s)
        else
          let p := pteBit (s.mem.word t.leaf) 63 false
          let p := if stream then p else pteBit (pteBit p 1 true) 2 true
          let s := markLeaf t.leaf true (if p = s.mem.word t.leaf then s else setLeaf t.leaf p s)
          let s := if inStack pa then ownFrames pa 4096 (k + 1) s else s
          placePages k stream (va + 4096) bs { s with mem := s.mem.device pa b }

/-- The 64-bit words of gaffer code, as instruction SRAM (R332). -/
def codeSram (bs : List Byte) : SMap Word :=
  (groupsOf 8 bs).zipIdx.foldl (fun m e => SMap.put 0 m e.2 (BitVec.ofNat 64 (leNat e.1))) []

/-- The key of a slot; an empty slot is an empty list (R331). -/
def Die.key (d : Die) (slot : Nat) : List Byte := SMap.get [] d.keys slot

/-- The next value of the context record (R332).
DESIGN CHOICE (assumption 8). -/
def extend (mr : BitVec 384) (typ : Nat) (key digest : List Byte) : BitVec 384 :=
  Config.sha384 (leBytes 48 mr.toNat ++ [BitVec.ofNat 8 typ] ++ leBytes 48 (Config.sha384 key).toNat ++ digest)

/-- Check and measure a segment, where that is not done: why it fails, or the context's record extended (R332, R350). -/
def measureSegment (k i : Nat) (bs : List Byte) (g : Segment) (s : State) : Option LoadStop × State :=
  let c := s.ctx k
  let key := (s.die c.die).key g.key
  let data := (bs.drop g.off).take g.len
  if c.next > i then (none, s)
  else if leNat g.digest ≠ (Config.sha384 data).toNat then (some (.fail 7), s)
  else if g.sig.all (· == 0) ∨ Config.ecdsaValid key (Config.sha384 g.signed) g.sig = false then (some (.fail 8), s)
  else (none, s.setCtx k { c with mr := extend c.mr g.typ key g.digest, next := c.next + 1 })

/-- Place a segment that has been measured (R332). -/
def placeSegment (k : Nat) (bs : List Byte) (g : Segment) (s : State) : Option LoadStop × State :=
  let data := (bs.drop g.off).take g.len
  let r : Option LoadStop × State :=
    if g.typ = 0 then (none, s.updCtx k fun c => { c with code := codeSram data, entry := BitVec.ofNat 13 (bytesNat bs 6 2) })
    else placePages k (g.typ == 1) (BitVec.ofNat 64 g.va) (groupsOf 4096 data) s
  match r with
  | (some e, s) => (some e, s)
  | (none, s) => (none, s.updCtx k fun c => { c with placed := c.placed + 1 })

/-- Check, measure and place segment `i` (R332). -/
def loadSegment (k i : Nat) (bs : List Byte) (g : Segment) (s : State) : Option LoadStop × State :=
  match measureSegment k i bs g s with
  | (some e, s) => (some e, s)
  | (none, s) => placeSegment k bs g s

/-- The segments from number `i` on, in descriptor order (R332). -/
def loadSegments (k : Nat) (bs : List Byte) : Nat → List Segment → State → Option LoadStop × State
  | _, [], s => (none, s)
  | i, g :: gs, s =>
    match loadSegment k i bs g s with
    | (some e, s) => (some e, s)
    | (none, s) => loadSegments k bs (i + 1) gs s

/-- The 4 KiB virtual addresses of a segment. -/
def Segment.vas (g : Segment) : List Word := (List.range (g.len / 4096)).map fun i => BitVec.ofNat 64 (g.va + 4096 * i)

/-- A page holds part of a segment. -/
def Segment.on (g : Segment) (t : Tr) : Bool := overlaps (BitVec.ofNat 64 g.va) g.len t.base t.size

/-- Change the leaves of the pages that hold the stream segments, but of those that also hold a TYPE 2 segment, which
stay as they are; words run only from the measured ranges (R332, R333).
DESIGN CHOICE (assumption 49). -/
def sealPages (k : Nat) (gs : List Segment) (s : State) : State :=
  let streams := gs.filter fun g => g.typ == 1
  let s := (streams.flatMap Segment.vas).foldl (fun s va =>
    match walk s k va with
    | none => s
    | some t => if gs.any fun g => g.typ == 2 && g.on t then s
      else setLeaf t.leaf (pteBit (pteBit (s.mem.word t.leaf) 63 true) 2 false) s) s
  s.updCtx k fun c => { c with sealed := streams.map fun g => (BitVec.ofNat 64 g.va, (c.image.drop g.off).take g.len) }

/-- A leaf of the pages that the loader would seal lies in a ganged pseudo-channel (R263). -/
def sealWaits (k : Nat) (gs : List Segment) (s : State) : Bool :=
  ((gs.filter fun g => g.typ == 1).flatMap Segment.vas).any fun va => walkWaits s k va || (walk s k va).any fun t => s.ganged t.leaf

/-- No page of a segment is X while the container is loaded (R332). -/
def unsealPages (k : Nat) (gs : List Segment) (s : State) : State :=
  ((gs.filter fun g => g.typ ≠ 0).flatMap Segment.vas).foldl (fun s va =>
    match walk s k va with
    | some t => if pteX t.pte then setLeaf t.leaf (pteBit (s.mem.word t.leaf) 63 false) s else s
    | none => s) s

/-- What has come of a run of the loader: it waits for a page, a DEEP one being asked for, or the container fails, or the
segments so far are in their places. -/
def loadEnds (k : Nat) (r : Option LoadStop × State) : State :=
  match r with
  | (some (.wait (some t)), s) => demand t k (s.ctx k).die s
  | (some (.wait none), s) => s
  | (some (.fail r), s) => contextError k r {} 0 (s.updCtx k fun y => { y with code := [] })
  | (none, s) =>
    let c := s.ctx k
    let gs := segments c.image
    if c.placed < gs.length ∨ sealWaits k gs s then s
    else (sealPages k gs s).updCtx k fun y => { y with st := .ready, image := [], placed := 0 }

/-- Begin a container: its header, its descriptors and its key slots are checked (R329, R330, R332). -/
def beginLoad (k : Nat) (bs : List Byte) (s : State) : State :=
  let c := s.ctx k
  let gs := segments bs
  if containerOk bs = false then contextError k 6 {} 0 s
  else if gs.any fun g => (s.die c.die).key g.key == [] then contextError k 8 {} 0 s
  else unsealPages k gs (s.updCtx k fun y => { y with image := bs })

/-- CONTAINER_LOAD: the loader checks the container and goes on with one segment; a page of it that is on its way makes it
wait, and its later turns do the others (R332, R336). -/
def execContainerLoad (k : Nat) (bs : List Byte) (s : State) : Res :=
  .next (if (s.ctx k).st ≠ .loading ∨ ((s.ctx k).image ≠ [] ∧ (s.ctx k).image ≠ bs) then s
    else
      let s := if (s.ctx k).image = [] then beginLoad k bs s else s
      let c := s.ctx k
      if c.st ≠ .loading then s
      else loadEnds k (loadSegments k bs c.placed (((segments bs).drop c.placed).take 1) s))

/-- The loader makes one move: it measures the next segment, or places it, or once all are placed seals their pages and
makes the context READY (R332, R336). -/
def loadTurn (k : Nat) (s : State) : State :=
  let c := s.ctx k
  match (segments c.image).drop c.placed with
  | [] => if c.st ≠ .loading ∨ c.image = [] then s else loadEnds k (none, s)
  | g :: _ =>
    if c.st ≠ .loading ∨ c.image = [] then s
    else loadEnds k (if c.next ≤ c.placed then measureSegment k c.placed c.image g s else placeSegment k c.image g s)

/-! ## Resume, kill and release (R220) -/

/-- Some chair of the context is halted for a cause that system software serves, and is not saved yet. -/
def unsaved (s : State) (k : Nat) : Bool :=
  s.chairs.any fun e => e.2.ctx == some k && e.2.st == .halted && !e.2.frame.handler

/-- CONTEXT_RESUME: the context is RUNNING, and its saved chairs are restored as chairs are granted (R220, R235,
R325). -/
def execContextResume (k : Nat) (s : State) : Res :=
  let c := s.ctx k
  .next (if (c.st = .preempted ∨ c.st = .faulted) ∧ unsaved s k = false then
    let s := s.setCtx k { c with st := .running }
    match c.kernel with
    | none => s
    | some (d, n) => s.updKernel d n fun z => if z.st = .waiting then { z with st := .running } else z
  else s)

/-- CONTEXT_KILL. -/
def execContextKill (k : Nat) (s : State) : Res := .next (contextError k 12 { kind := 3 } 0 s)

/-- The stack frames a context owns: those with its tag, and those without a tag that its tables map before any other
context's (R218, R219). -/
def ownedFrames (s : State) (k : Nat) : List Nat :=
  (s.frames.filter fun e => e.2 == k + 1).map (·.1) ++
    (leavesOf s k).flatMap fun t =>
      if pteTier t.pte = 0 then (framesOf (ptePfn t.pte * 4096) t.physSize).filter fun f =>
        SMap.get 0 s.frames f == 0 && ownerAt s (4096 * f) == some k
      else []

/-- A packet is on its way to a context: a package holds one context of a job (R296). -/
def Ctx.bound (x : Ctx) (p : Pkt) : Bool := p.job == x.job && p.drank == x.rank

/-- A context has left its chairs: every chair of it is of no context, its gangs and grants end, its bindings end, and the
packets on their way to it, the outstanding losses and the waves of its job go with it, so that no other context of the job
number meets them (R335); the nodes of its kernels keep its tenant.
DEDUCED (assumption 52). -/
def dropCtx (k : Nat) (s : State) : State :=
  let gone := fun (g : Gang) => (s.chair g.ch).ctx == some k
  let end_ := fun (p : PChan) => { p with
    grant := p.grant.filter (· ≠ k), gang := p.gang.filter fun g => !gone g, kept := p.kept.filter (·.1 ≠ k) }
  let chans := fun (m : SMap PChan) => (m.map fun p => (p.1, end_ p.2)).filter fun p => p.2 ≠ {}
  flushLogs { s with
    chairs := s.chairs.map fun e => if e.2.ctx = some k then (e.1, e.2.bare) else e,
    dies := s.dies.map fun e =>
      (e.1, { e.2.keepTenant k ((s.ctx k).desc1 1 58 6) with chans := chans e.2.chans }),
    binds := s.binds.filter fun b => b.ctx ≠ k,
    net := s.net.filter fun p => !((s.ctx k).bound p),
    losses := s.losses.filter fun l => l.job ≠ (s.ctx k).job,
    waves := s.waves.filter fun w => w.job ≠ (s.ctx k).job }

/-- The 64 KiB frames behind a context's arenas, by die. -/
def arenaFrames (s : State) (k : Nat) : List Nat :=
  (s.ctx k).arenas.flatMap fun a => (List.range (a.len / 0x10000)).filterMap fun i =>
    match walk s k (a.base + BitVec.ofNat 64 (0x10000 * i)) with
    | some t => if pteTier t.pte = 0 then some (t.pa (a.base + BitVec.ofNat 64 (0x10000 * i))) else none
    | none => none

/-- Give arena frames back to the pools of their dies (R266). -/
def poolBack (fs : List Nat) (s : State) : State :=
  fs.foldl (fun s f => s.updDie (homeDie f) fun d => { d with pool := d.pool ++ [f] }) s

/-- Save blocks of saved chairs become VACANT (R235).
DEDUCED (assumption 66). -/
def dropBlocks (k : Nat) (s : State) : State :=
  (s.ctx k).saved.foldl (fun s e => { s with mem := vacateRange s.mem ((s.ctx k).block e.1) 0x4200000 }) s

/-- The records of pages that no context has any more are dropped, those of pages in flight apart where `keep` says so; a
context that is gone owns none (R208, R216), and its frames are free. -/
def dropPages (keep : Bool) (s : State) : State :=
  let live := (allLeaves s).map (·.2.leaf)
  let s := { s with pages := (s.pages.filter fun e => live.contains e.1 || (keep && e.2.st.flying)).map fun e =>
      (e.1, { e.2 with ctx := e.2.ctx.filter fun k => (s.ctx k).st ≠ .free }) }
  restDemotions s

/-- CONTEXT_RELEASE: what a DEAD context owns is VACANT and unowned, and the context is FREE (R220, R335). -/
def execContextRelease (k : Nat) (s : State) : Res :=
  .next (if (s.ctx k).st ≠ .dead then s
    else
      let fs := ownedFrames s k
      let pool := arenaFrames s k
      let s := dropBlocks k (dropCtx k s)
      let s := fs.foldl (fun s f =>
        { s with mem := vacateRange s.mem (4096 * f) 4096, frames := SMap.del s.frames f }) s
      let s := { s with pages := s.pages.map fun e => if e.2.ctx = some k then (e.1, { e.2 with holds := 0 }) else e }
      dropPages false ((poolBack pool s).setCtx k {}))

end Sys2Proof.Machine
end

