-- ==== Sys2Proof/Machine/Launch.lean ====
section
/-!
DEFINITION. Launch records and queues (R314), the scoreboard and the kernel's states (R315 to R317), the choice of dies
and chairs and the withdrawal of a die (R318), and a kernel's end.
-/

namespace Sys2Proof.Machine

open Sys2Proof

/-! ## Records (R314) -/

/-- A range of bytes lies in memory that the device reads directly (R206). -/
def rangeInMem (a n : Nat) : Bool := rangeInStack a n || (inHost a && (n == 0 || inHost (a + n - 1)))

/-- A kernel launch record within the limits of R314. -/
def kernelOk (ws : List Word) : Bool :=
  let f := wordField ws
  ws.length == 8 && f 0 60 4 == 0 && 1 ≤ f 0 44 4 && f 0 44 4 ≤ 8 && f 0 44 4 ≤ f 0 40 4 && f 0 40 4 ≤ 8 &&
    f 0 39 1 == 0 && f 0 16 18 % 8 == 0 && f 0 16 18 ≤ 0xFFF8 && f 0 12 4 == 0 && f 0 0 12 == 0 &&
    f 1 0 64 % 8 == 0 && rangeInStack (f 1 0 64) (f 0 16 18) && (f 3 0 64 == 0 || 1 ≤ f 4 32 32) &&
    f 4 4 28 == 0 && f 4 0 4 ≤ 8 && f 5 0 64 % 16 == 0 &&
    (if f 4 0 4 = 0 then f 5 0 64 == 0 else rangeInMem (f 5 0 64) (16 * f 4 0 4)) &&
    f 6 0 64 == 0 && f 7 0 64 == 0

/-- A kernel record that the die controller does not refuse: its limits, and its context is READY. -/
def recordOk (s : State) (ws : List Word) : Bool :=
  kernelOk ws && (s.ctx (wordField ws 0 48 12)).st == .ready

/-- The die accepts launches (R328, R351, R352). -/
def Die.launches (d : Die) : Bool := d.serves && !d.noLaunch

/-- Give a record the die's next launch sequence number. -/
def Die.accept (d : Die) (ws : List Word) (st : KernelState) (node : Option (Nat × Nat)) : Die :=
  { d with nextSeq := (d.nextSeq + 1) % 2 ^ 64,
           kernels := d.kernels ++ [{ seq := d.nextSeq, words := ws, st := st, node := node }] }

/-- A kernel launch record reaches a die's launch queue. -/
def launchKernel (die : Nat) (ws : List Word) (s : State) : State :=
  let d := s.die die
  if d.launches && d.launchQ.length < 64 && recordOk s ws then
    s.setDie die { d.accept ws .queued none with launchQ := d.launchQ ++ [d.nextSeq] }
  else s

/-! ## The scoreboard and streams (R316, R317) -/

/-- The kernel holds a scoreboard entry. -/
def Kernel.onBoard (z : Kernel) : Bool := z.st == .waiting || z.st == .issuing || z.st == .running

/-- The transfer nodes that hold an entry. -/
def Graph.moving (g : Graph) : Nat :=
  (g.nodes.filter fun e => e.2.st == .running && wordField e.2.words 0 60 4 == 1).length

/-- Scoreboard entries in use. -/
def Die.entries (d : Die) : Nat :=
  (d.kernels.filter Kernel.onBoard).length + (d.graphs.map Graph.moving).foldl (· + ·) 0

/-- The streams of a kernel: address, length and EARLY. -/
def streamTable (s : State) (z : Kernel) : List (Word × Nat × Bool) :=
  (List.range z.nstream).map fun i =>
    let a := z.streams + 16 * i
    let w := s.mem.word (a + 8)
    (s.mem.word a, (w >>> 12).toNat * 4096, w.getLsbD 0)

/-- The entries of a kernel's stream table keep the form that R314 gives. -/
def streamsOk (s : State) (z : Kernel) : Bool :=
  (List.range z.nstream).all fun i =>
    let a := z.streams + 16 * i
    field 0 12 (s.mem.word a) == 0 && field 1 11 (s.mem.word (a + 8)) == 0

/-- The translations of the pages of a range in a context; `none` where one is missing.  Structural on fuel: one page
needs one unit. -/
def rangeTrs (s : State) (k : Nat) : Nat → Word → Nat → Option (List Tr)
  | 0, _, _ => some []
  | fuel + 1, va, len =>
    if len = 0 then some []
    else
      match walk s k va with
      | none => none
      | some t =>
        let n := t.size - (va - t.base).toNat
        if len ≤ n then some [t]
        else (rangeTrs s k fuel (va + BitVec.ofNat 64 n) (len - n)).map (t :: ·)

/-- The look-up of a page of a range waits for a ganged pseudo-channel (R263).  Structural on fuel, as `rangeTrs`. -/
def rangeWaits (s : State) (k : Nat) : Nat → Word → Nat → Bool
  | 0, _, _ => false
  | fuel + 1, va, len =>
    len ≠ 0 && (walkWaits s k va || (match walk s k va with
      | none => false
      | some t =>
        let n := t.size - (va - t.base).toNat
        len > n && rangeWaits s k fuel (va + BitVec.ofNat 64 n) (len - n)))

/-- The look at a kernel's streams waits: its stream table, or a page table, lies in a ganged pseudo-channel (R263). -/
def streamsWait (s : State) (z : Kernel) : Bool :=
  (z.nstream ≠ 0 && s.gangedIn z.streams (16 * z.nstream)) ||
    (streamTable s z).any fun e => rangeWaits s z.ctxId (e.2.1 / 4096 + 1) e.1 e.2.1

/-- The pages of every stream, with EARLY; `none` where a page has no valid translation. -/
def streamPages (s : State) (z : Kernel) : Option (List (Tr × Bool)) :=
  if streamsOk s z = false then none
  else (streamTable s z).foldl (fun acc e =>
    match acc, rangeTrs s z.ctxId (e.2.1 / 4096 + 1) e.1 e.2.1 with
    | some ts, some us => some (ts ++ us.map fun t => (t, e.2.2))
    | _, _ => none) (some [])

/-- The dispatcher's check (R317): a missing translation fails the kernel; else its pages are held, a departing one stays,
and the deep ones are asked for.
DEDUCED (assumption 53). -/
def checkStreams (die n : Nat) (s : State) : State :=
  match (s.die die).kernel n with
  | none => s
  | some z =>
    match streamPages s z with
    | none => s.updDie die (Die.failKernels (·.seq = n))
    | some ts =>
      let s := ts.foldl (fun s t => demand t.1 z.ctxId die (undepart t.1 (refit t.1 s))) s
      s.updKernel die n fun z => { z with held := ts.map fun t => t.1.leaf }

/-- Every page of the streams that hold the kernel back is RESIDENT. -/
def streamsResident (s : State) (z : Kernel) : Bool :=
  !streamsWait s z && match streamPages s z with
  | none => false
  | some ts => ts.all fun t => t.2 || (s.page t.1).st == .resident

/-- A graph of the die stands in the launch queue under a sequence number. -/
def Die.queuedGraph (d : Die) (n : Nat) : Bool := d.graphs.any fun g => g.seq == n && g.queued

/-- SCOREBOARD_TAKE: with an entry free the oldest record leaves the launch queue: a kernel takes the entry, a graph
begins; a kernel that has FAILED takes none (R316). -/
def execScoreboardTake (die : Nat) (s : State) : Res :=
  let d := s.die die
  .next (match d.launchQ with
    | [] => s
    | n :: rest =>
      if d.queuedGraph n then
        if d.entries ≥ 256 then s
        else s.setDie die ({ d with launchQ := rest }.updGraph n fun g => { g with queued := false })
      else match (d.kernel n).map (·.st) with
      | some KernelState.queued =>
        if d.entries ≥ 256 ∨ (d.kernel n).any (streamsWait s) then s
        else
          let s := s.setDie die { d with launchQ := rest }
          checkStreams die n (s.updKernel die n fun z => { z with st := .waiting })
      | _ => s.setDie die { d with launchQ := rest })

/-! ## Issue (R316, R318) -/

def kernelTenant (s : State) (z : Kernel) : Nat := (s.ctx z.ctxId).desc1 1 58 6
def kernelPrio (s : State) (z : Kernel) : Nat := (s.ctx z.ctxId).desc1 1 56 2

/-- Dies with enough free chairs of the kernel's tenant. -/
def rooms (s : State) (z : Kernel) : List Nat :=
  (List.range 8).filter fun d => (freeChairs s d (kernelTenant s z)).length ≥ z.chairs

/-- The context's saved chairs wait for this kernel, of the lead die's scoreboard, to be issued again (R325). -/
def returning (s : State) (z : Kernel) : Bool :=
  (s.ctx z.ctxId).st == .preempted && (s.ctx z.ctxId).kernel.any fun q =>
    q.2 == z.seq && ((s.die q.1).kernel z.seq).any fun y => y.words == z.words

/-- The chairs that the kernel needs are free. -/
def chairsFree (s : State) (z : Kernel) : Bool :=
  if returning s z then
    ((List.range 8).flatMap fun d => freeChairs s d (kernelTenant s z)).length ≥ (s.ctx z.ctxId).saved.length
  else (rooms s z).length ≥ z.minDie

/-- The kernel is ready: its context is READY for a launch, or waits for this one to go on, its streams are resident, and its
predecessors are done (R316). -/
def kernelReady (s : State) (z : Kernel) : Bool :=
  z.st == .waiting && (((s.ctx z.ctxId).st == .ready && (s.ctx z.ctxId).kernel.isNone) || returning s z) &&
    streamsResident s z

/-- Kernel `a` ranks before kernel `b` of the same die (R316). -/
def ranksBefore (s : State) (a b : Kernel) : Bool :=
  kernelPrio s a > kernelPrio s b || (kernelPrio s a == kernelPrio s b && a.seq < b.seq)

/-- A kernel that ranks before, is ready, and has its chairs or is of the same tenant, holds this one back.
DEDUCED (assumption 54). -/
def heldBack (s : State) (d : Die) (z : Kernel) : Bool :=
  d.kernels.any fun a => a.seq ≠ z.seq && ranksBefore s a z && kernelReady s a &&
    (kernelTenant s a == kernelTenant s z || chairsFree s a)

/-- The bytes of a range that lie in a page. -/
def bytesIn (va : Word) (len : Nat) (t : Tr) : Nat :=
  Nat.min (va.toNat + len) (t.base.toNat + t.size) - Nat.max va.toNat t.base.toNat

/-- The declared stream bytes that a die holds (R210, R318). -/
def bytesAt (s : State) (z : Kernel) (d : Nat) : Nat :=
  (streamTable s z).foldl (fun n e =>
    ((rangeTrs s z.ctxId (e.2.1 / 4096 + 1) e.1 e.2.1).getD []).foldl (fun n t =>
      if pteTier t.pte = 0 ∧ homeDie (ptePfn t.pte * 4096) = d then n + bytesIn e.1 e.2.1 t else n) n) 0

/-- Of dies `a` and `b`, `a` is chosen first: the lead die, then the die with more bytes, then the lower one. -/
def diePrefer (s : State) (z : Kernel) (lead a b : Nat) : Bool :=
  if a = lead then true else if b = lead then false
  else bytesAt s z a > bytesAt s z b || (bytesAt s z a == bytesAt s z b && a < b)

/-- A die is among the `n` that are chosen of `ds`. -/
def dieChosen (s : State) (z : Kernel) (lead : Nat) (ds : List Nat) (d : Nat) : Bool :=
  (ds.filter fun e => e ≠ d && diePrefer s z lead e d).length < z.minDie

/-- The chairs are a choice that the dispatcher may make: of every chosen die as many free chairs of the tenant as the
record says, in rising order. -/
def choiceOk (s : State) (z : Kernel) (lead : Nat) (chs : List Nat) : Bool :=
  let t := kernelTenant s z
  let ds := (rooms s z).filter (dieChosen s z lead (rooms s z))
  chs.Pairwise (· < ·) &&
    (List.range 8).all (fun d =>
      (chs.filter fun ch => dieOf ch == d).length == if ds.contains d then z.chairs else 0) &&
    chs.all fun ch => (freeChairs s (dieOf ch) t).contains ch

/-- The dies of a list of chairs, each once, in order. -/
def diesOf (chs : List Nat) : List Nat :=
  chs.foldl (fun ds ch => if ds.contains (dieOf ch) then ds else ds ++ [dieOf ch]) []

/-- The dies of the groups of a launch, by their first chairs there are. -/
def groupDies (s : State) (z : Kernel) : List Nat :=
  z.dies.zipIdx.map fun e =>
    ((s.chairs.find? fun c => c.2.ctx == some z.ctxId && z.group c.2.idx == e.2).map fun c => dieOf c.1).getD e.1

/-- A PREEMPTED context's chairs are restored onto the chairs granted; their groups stay (R325). -/
def reissue (die n : Nat) (z : Kernel) (chs : List Nat) (s : State) : State :=
  let k := z.ctxId
  let idxs := (s.ctx k).saved.map (·.1)
  let s := (s.updKernel die n fun z => { z with st := .running }).updCtx k fun c => { c with st := .running }
  let s := (idxs.zip chs).foldl (fun s e => restoreChair k e.1 e.2 s) s
  s.updKernel die n fun z => { z with dies := groupDies s z }

/-- KERNEL_ISSUE (R315, R318, R325). -/
def execKernelIssue (die n : Nat) (chs : List Nat) (s : State) : Res :=
  let d := s.die die
  .next (match d.kernel n with
    | none => s
    | some z =>
      if kernelReady s z = false ∨ heldBack s d z then s
      else if returning s z then
        if (s.ctx z.ctxId).kernel = some (die, n) ∧
            (s.ctx z.ctxId).saved.all (fun e => !blockGanged z.ctxId e.1 s) ∧ chs.Nodup ∧ chs.length = (s.ctx z.ctxId).saved.length ∧
            chs.all (fun ch => (freeChairs s (dieOf ch) (kernelTenant s z)).contains ch) then
          reissue die n z chs s
        else s
      else if (s.ctx z.ctxId).kernel = none ∧ chairsFree s z ∧ choiceOk s z die chs then
        let s := grantChairs z.ctxId 0 chs s
        let s := s.updCtx z.ctxId fun c => { c with kernel := some (die, n) }
        s.updKernel die n fun z => { z with st := .issuing, dies := diesOf chs }
      else s)

/-- ARGUMENT_BLOCK_LOADED: every granted gaffer holds the argument block, and the kernel runs; a lost atom of the block
is never loaded (R315). -/
def execArgumentBlockLoaded (die n : Nat) (s : State) : Res :=
  .next (match (s.die die).kernel n with
    | none => s
    | some z =>
      if z.st ≠ .issuing ∨ (s.ctx z.ctxId).st ≠ .ready ∨ (atomsOf z.arg z.argLen).any s.mem.damaged then s
      else
        let k := z.ctxId
        let args := s.mem.getBytes z.arg z.argLen
        let s := (s.ctx k).chairs.foldl (fun s ch => startChair ch args s) s
        (s.updKernel die n fun z => { z with st := .running }).updCtx k fun c => { c with st := .running })

/-! ## The end of a kernel (R315) -/

/-- Every chair of the context has left it or is EXITED, and every write has been performed. -/
def allExited (s : State) (k : Nat) : Bool :=
  (s.ctx k).saved.isEmpty && s.chairs.all fun e => e.2.ctx ≠ some k || (e.2.st == .exited &&
    (List.range 16).all fun c => (e.2.core c).f.pend.isEmpty && (e.2.core c).a.pend.isEmpty)

/-- KERNEL_RETIRE: the context is FREE (R315). -/
def execKernelRetire (die n : Nat) (s : State) : Res :=
  .next (match (s.die die).kernel n with
    | none => s
    | some z =>
      let k := z.ctxId
      if z.st = .running ∧ (s.ctx k).st = .running ∧ (s.ctx k).kernel = some (die, n) ∧ allExited s k then
        dropPages true ((dropCtx k (s.updDie die (Die.retireKernel n))).setCtx k {})
      else s)

/-- Stop every chair of a context. -/
def stopChairs (k : Nat) (s : State) : State :=
  { s with chairs := s.chairs.map fun e =>
      if e.2.ctx = some k ∧ e.2.st ≠ .idle then (e.1, { e.2 with st := .exited, halt := none, gfault := none })
      else e }

/-- KERNEL_CANCEL: a kernel that has not RETIRED is FAILED, and its chairs stop (R315). -/
def execKernelCancel (die n : Nat) (s : State) : Res :=
  .next (match (s.die die).kernel n with
    | none => s
    | some z =>
      if z.st = .retired then s
      else
        let s := s.updDie die (Die.failKernels (·.seq = n))
        if (s.ctx z.ctxId).kernel = some (die, n) then stopChairs z.ctxId s else s)

/-- A WAITING kernel of higher priority and the same tenant lacks chairs (R318). -/
def wanted (s : State) (d : Die) (z : Kernel) : Bool :=
  d.kernels.any fun a => a.st == .waiting && kernelPrio s a > kernelPrio s z &&
    kernelTenant s a == kernelTenant s z && !chairsFree s a

/-- A launch has a die to give: one more than its least number, and none marked (R318). -/
def canGive (z : Kernel) : Bool := z.st == .running && z.marked.isNone && z.groups.length > z.minDie

/-- The chairs of a marked group that have executed EXIT already are free (R318). -/
def freeExited (k : Nat) (z : Kernel) (s : State) : State :=
  let out := s.chairs.filter fun e => e.2.ctx == some k && e.2.st == .exited && z.marked == some (z.group e.2.idx)
  out.foldl (fun s e => leaveGroup k e.2.idx (s.setChair e.1 e.2.bare)) s

/-- DIE_WITHDRAW: the launch's most recently added die is marked (R318). -/
def execDieWithdraw (die n : Nat) (s : State) : Res :=
  let d := s.die die
  .next (match d.kernel n with
    | none => s
    | some z =>
      if canGive z ∧ (List.range 8).any (fun e => wanted s (s.die e) z) then
        let z' := { z with marked := z.groups.getLast? }
        freeExited z.ctxId z' (s.updKernel die n fun _ => z')
      else s)

/-! ## Pre-emption requests (R231, R325) -/

/-- The context that runs kernel `z` of die `d` is one that the dispatcher pre-empts for a waiting kernel: of the tenant, with
the lowest PRIO below the waiting one's, and of those of one die the highest sequence number (R316, R325).
DEDUCED (assumption 54). -/
def givesWay (s : State) (a : Kernel) (d : Nat) (z : Kernel) : Bool :=
  let rival := fun (y : Kernel) => (s.ctx y.ctxId).st == .running && y.st == .running &&
    kernelTenant s y == kernelTenant s a && kernelPrio s y < kernelPrio s a
  rival z && s.dies.all fun e => e.2.kernels.all fun y =>
    !rival y || kernelPrio s z < kernelPrio s y || (kernelPrio s z == kernelPrio s y && (e.1 ≠ d || y.seq ≤ z.seq))

/-- The dispatcher asks kernel `z` of die `dz` to make room: a waiting kernel lacks chairs, no launch of its tenant can give a die, and
`z` is the one that gives way (R325). -/
def dispatcherAsks (s : State) (dz : Nat) (z : Kernel) : Bool :=
  s.dies.any fun e => e.2.kernels.any fun a =>
    a.st == .waiting && !chairsFree s a && givesWay s a dz z &&
      !(s.dies.any fun d => d.2.kernels.any fun y => canGive y && kernelTenant s y == kernelTenant s a &&
        kernelPrio s y < kernelPrio s a)

/-- PREEMPTION_REQUEST: it reaches every chair of the context, whatever state another chair has brought the context to;
the dispatcher's own makes the kernel one that returns to the scoreboard (R231, R325). -/
def execPreemptionRequest (k : Nat) (s : State) : Res :=
  let s' := requestChairs k none s
  .next (if (s.ctx k).st = .free ∨ (s.ctx k).st = .dead then s
    else match s.kernelOf k with
    | some (d, z) => if dispatcherAsks s d z then s'.updKernel d z.seq fun z => { z with asked := true } else s'
    | none => s')

end Sys2Proof.Machine
end

