-- ==== Sys2Proof/Machine/Graphs.lean ====
section
/-!
DEFINITION. Task graphs (R320 to R322): the check of a launch, what each node does when it is ready, transfer nodes,
and the completion record.
-/

namespace Sys2Proof.Machine

open Sys2Proof

/-! ## The check (R320) -/

/-- The four words of node `i` of a table. -/
def nodeWords (s : State) (base i : Nat) : List Word :=
  (List.range 4).map fun j => s.mem.word (base + 32 * i + 8 * j)

/-- The nodes reachable over edges that are not BACK.  Structural on fuel. -/
def Graph.reach (g : Graph) : Nat → List Nat → List Nat → List Nat
  | 0, _, seen => seen
  | _, [], seen => seen
  | fuel + 1, i :: is, seen =>
    if seen.contains i then g.reach fuel is seen
    else g.reach fuel ((g.node i).forward ++ is) (i :: seen)

/-- The body of a while: every node reachable from SUCC0 without a BACK edge (R321). -/
def Graph.body (g : Graph) (w : Nat) : List Nat :=
  g.reach (5 * g.nodes.length + 1) [((g.node w).succ 0).2] []

/-- The launch record in stack memory that a kernel node names. -/
def recordAt (s : State) (a : Nat) : List Word := (List.range 8).map fun j => s.mem.word (a + 8 * j)

/-- The fields of one node that R320 constrains; `n`: the number of nodes.
DESIGN CHOICE (assumption 55). -/
def nodeOk (s : State) (n : Nat) (x : Node) : Bool :=
  let f := wordField x.words
  let t := f 0 60 4
  let addr := f 2 0 64
  let fields : Bool := match t with
    | 0 => f 0 32 4 == 0 && f 0 0 32 == 0 && f 3 0 64 == 0 && addr % 8 == 0 && rangeInStack addr 64 &&
      recordOk s (recordAt s addr)
    | 1 => f 0 32 4 ≤ 1 && f 0 0 32 % 32 == 0 && addr % 32 == 0 && f 3 0 64 % 32 == 0
    | 5 => f 0 32 4 == 0 && f 0 16 16 == 0 && f 3 0 64 == 0 && addr % 32 == 0 && rangeInMem addr 32
    | _ => f 0 32 4 == 0 && f 0 0 32 == 0 && f 3 0 64 == 0 && addr % 8 == 0
  let shape : Bool := match t with
    | 2 => x.nsucc == 2
    | 3 => x.nsucc == 2
    | 4 => 2 ≤ x.nsucc && x.nsucc ≤ 4
    | 5 => x.nsucc == 0
    | _ => true
  t ≤ 5 && x.nsucc ≤ 4 && f 0 48 9 == 0 && fields && shape &&
    (List.range 4).all (fun i => f 1 (16 * i + 12) 3 == 0) && (List.range x.nsucc).all fun i => (x.succ i).2 < n

/-- Every BACK edge runs from a node of a while's body to that while, and every NPRED counts the other edges. -/
def Graph.edgesOk (g : Graph) : Bool :=
  g.nodes.all fun e =>
    (e.2.succs.all fun q => !q.1 || ((g.node q.2).typ == 3 && (g.body q.2).contains e.1)) &&
      e.2.npred == (g.nodes.flatMap fun q => q.2.forward.filter (· == e.1)).length

/-- The graph of a launch record, with nothing done. -/
def graphOf (s : State) (seq base n : Nat) : Graph :=
  { seq := seq, nodes := (List.range n).map fun i => (i, { words := nodeWords s base i }) }

/-- A graph launch record within the limits of R314, and a table within those of R320. -/
def graphOk (s : State) (ws : List Word) : Bool :=
  let f := wordField ws
  let n := f 0 0 12 + 1
  let base := f 1 0 64
  let g := graphOf s 0 base n
  ws.length == 8 && f 0 60 4 == 1 && f 0 48 12 == 0 && f 0 39 1 == 0 && f 0 12 4 == 0 && f 4 4 28 == 0 &&
    f 6 0 64 == 0 && f 7 0 64 == 0 && base % 32 == 0 && rangeInStack base (32 * n) &&
    (g.nodes.all fun e => nodeOk s n e.2) && (g.nodes.filter fun e => e.2.typ == 5).length == 1 && g.edgesOk

/-- A graph launch is accepted: it takes the die's next sequence number and the tail of its launch queue; one that is
refused is reported to the host (R314, R320). -/
def launchGraph (die : Nat) (ws : List Word) (s : State) : State :=
  let d := s.die die
  if d.launches && d.launchQ.length < 64 && graphOk s ws then
    let g := graphOf s d.nextSeq (wordField ws 1 0 64) (wordField ws 0 0 12 + 1)
    s.setDie die { d with nextSeq := (d.nextSeq + 1) % 2 ^ 64, launchQ := d.launchQ ++ [d.nextSeq],
                          graphs := d.graphs ++ [{ g with queued := true }] }
  else s.setDie die { d with refusals := d.refusals + 1 }

/-- LAUNCH_RECORD (R314). -/
def execLaunchRecord (die : Nat) (ws : List Word) (s : State) : Res :=
  .next (if wordField ws 0 60 4 = 1 then launchGraph die ws s else launchKernel die ws s)

/-- GRAPH_LAUNCH (R320). -/
def execGraphLaunch (die : Nat) (ws : List Word) (s : State) : Res := .next (launchGraph die ws s)

/-! ## Nodes (R321) -/

def Die.graph (d : Die) (n : Nat) : Option Graph := d.graphs.find? (·.seq = n)

def setGraph (die : Nat) (g : Graph) (s : State) : State := s.updDie die fun d => d.updGraph g.seq fun _ => g

/-- Mark a node as having run. -/
def Graph.runs (g : Graph) (i : Nat) (st : NodeState) : Graph :=
  g.upd i fun n => { n with st := st, again := false, ran := true }

/-- Skip one successor of a decision; a sink only counts it as done. -/
def Graph.refuse (g : Graph) (i : Nat) : Graph :=
  if (g.node i).typ = 5 then g.credit i else g.skipAll [i]

/-- A decision does not take an edge: its node is skipped, but for the node that the decision does take, which counts the
edge as done, and for the while of a BACK edge. -/
def Graph.leave (g : Graph) (taken : Nat) (e : Bool × Nat) : Graph :=
  if e.1 then g else if e.2 = taken then g.credit e.2 else g.refuse e.2

/-- A decision takes successor slot `j`: the other successors are skipped.
DESIGN CHOICE (assumption 55). -/
def Graph.decide (g : Graph) (i j : Nat) : Graph :=
  let n := g.node i
  let taken := n.succ j
  ((List.range n.nsucc).filter (· ≠ j)).foldl (fun g k => g.leave taken.2 (n.succ k)) ((g.runs i .done).pass taken)

/-- Forget the progress of a node of a while's body. -/
def Graph.forget (g : Graph) (b : Nat) : Graph :=
  g.upd b fun m => { m with st := if m.st = .running ∧ m.typ ≠ 3 then .running else .idle, count := 0, again := false }

/-- A while that reads nonzero: its body starts again, and it waits for a BACK edge; one that reads zero leaves it.  In a
graph that has failed or been cancelled no node of the body starts, and the while is done (R321).
DESIGN CHOICE (assumption 55). -/
def Graph.whileNode (g : Graph) (i : Nat) (v : Word) : Graph :=
  let n := g.node i
  if v ≠ 0 ∧ g.halted then (g.runs i .done).done i
  else if v ≠ 0 then
    let g := (g.body i).foldl Graph.forget (g.runs i .running)
    g.upd (n.succ 0).2 fun m => { m with again := true }
  else ((g.runs i .done).leave (n.succ 1).2 (n.succ 0)).pass (n.succ 1)

/-- The context under RECORD or REPLAY that a graph's condition words belong to: that of its first kernel node which
has one (R354).
DEDUCED (assumption 56). -/
def graphCtx (s : State) (g : Graph) : Option Nat :=
  (g.nodes.filterMap fun e =>
    if e.2.typ = 0 then some (wordField (recordAt s (wordField e.2.words 2 0 64)) 0 48 12) else none).find? fun k =>
      let c := s.ctx k
      c.st ≠ .free && c.st ≠ .dead && (c.desc1 1 55 1 == 1 || c.desc1 1 54 1 == 1)

/-- Read the condition word of a ready node and act on it; a POISON word fails the graph, and so does a place that is no
memory.
DESIGN CHOICE (assumption 55). -/
def conditionNode (die : Nat) (g : Graph) (i : Nat) (s : State) : State :=
  let a := wordField (g.node i).words 2 0 64
  let act := fun (v : Word) => match (g.node i).typ with
    | 2 => g.decide i (if v ≠ 0 then 0 else 1)
    | 4 => g.decide i (if v.toNat < (g.node i).nsucc - 1 then v.toNat else (g.node i).nsucc - 1)
    | _ => g.whileNode i v
  if s.ganged a then s
  else if rangeInMem a 8 = false ∨ s.mem.damaged (a / 32) then
    let s := if s.mem.bad (a / 32) then { s with mem := s.mem.toPoison (a / 32) } else s
    setGraph die ((g.runs i .running).fail i 0) s
  else
    let v := s.mem.word a
    match graphCtx s g with
    | none => setGraph die (act v) s
    | some k =>
      input k (32 * die) rrCondition (fun _ => true) (fun e s =>
        let w := match e with
          | some bs => BitVec.ofNat 64 (leNat (bs.take 8))
          | none => v
        let s := if e.isNone then recordInput k (32 * die) rrCondition (leBytes 8 v.toNat) s else s
        setGraph die (act w) s) s

/-- The completion record (R322). -/
def completion (g : Graph) : List Byte :=
  let status : Nat := if g.failed.isSome then 1 else if g.cancelled then 2 else 0
  let f := g.failed.getD (0, 0)
  let ran := (g.nodes.filter fun e => e.2.ran).length
  leBytes 32 (status + 2 ^ 56 * f.2 + 2 ^ 68 * f.1 + 2 ^ 128 * ran + 2 ^ 192 * g.seq)

/-- NODE_READY: a ready node acts by its type (R321). -/
def execNodeReady (die gn i : Nat) (s : State) : Res :=
  .next (match (s.die die).graph gn with
    | none => s
    | some g =>
      let n := g.node i
      let f := wordField n.words
      if g.ready i = false ∨ i ≥ g.nodes.length ∨ g.finished then s
      else match n.typ with
      | 0 =>
        let z : Kernel := { seq := 0, words := recordAt s (f 2 0 64) }
        if (s.die die).entries ≥ 256 ∨ s.gangedIn (f 2 0 64) 64 ∨ streamsWait s z then s
        else
          let seq := (s.die die).nextSeq
          let s := s.updDie die fun d => d.accept (recordAt s (f 2 0 64)) .waiting (some (gn, i))
          checkStreams die seq (s.updDie die fun d => d.updGraph gn fun g => g.runs i .running)
      | 1 => if (s.die die).entries ≥ 256 then s else setGraph die (g.runs i .running) s
      | 5 =>
        let a := f 2 0 64
        if s.ganged a then s
        else
          let g := g.runs i .done
          seeWords (setGraph die { g with finished := true, irq := some (f 0 0 16) }
            { s with mem := s.mem.device a (completion g) })
      | _ => conditionNode die g i s)

/-! ## Transfer nodes (R321) -/

/-- Move the pairs of a transfer node in order: whether it met an error, or waits. -/
def nodePairs (dup : Bool) (src dst : Nat) : Nat → State → Option MErr × State
  | 0, s => (none, s)
  | n + 1, s =>
    if s.ganged src || s.ganged dst then (some .wait, s)
    else
      let r := movePair dup { srcs := [.mem src], dsts := [.mem dst] } s
      let s := match r.loss, frameOwner s src with
        | some (l, p), some k => lossRecord k { kind := 0 } l p 0 r.s
        | _, _ => r.s
      match r.err with
      | some e => (some e, s)
      | none => nodePairs dup (src + 32) (dst + 32) n s

/-- A die's transfer engines have a turn for a tenant of the graph's kernels, which the node of an ended kernel keeps; those
of a graph without a kernel need none (R323).
DESIGN CHOICE (assumption 75). -/
def Graph.served (g : Graph) (s : State) (die : Nat) : Bool :=
  let ks := g.nodes.filter fun e => e.2.typ == 0
  let ts := ks.filterMap fun e =>
    let k := wordField (recordAt s (wordField e.2.words 2 0 64)) 0 48 12
    e.2.tenant.or (if (s.ctx k).st = .free then none else some ((s.ctx k).desc1 1 58 6))
  ks.isEmpty || ts.any fun t => (s.die die).xferSlots.any fun q => q.2 == t + 1

/-- TRANSFER_NODE_COMPLETE: the node's atoms move, each as one event, and the node is done or fails (R321). -/
def execTransferNodeComplete (die gn i : Nat) (s : State) : Res :=
  .next (match (s.die die).graph gn with
    | none => s
    | some g =>
      let n := g.node i
      let f := wordField n.words
      if n.st ≠ .running ∨ n.typ ≠ 1 ∨ g.served s die = false then s
      else if rangeInMem (f 2 0 64) (f 0 0 32) = false ∨ rangeInMem (f 3 0 64) (f 0 0 32) = false then
        s.updDie die fun d => d.updGraph gn fun g => g.fail i 0
      else match nodePairs (f 0 32 4 == 1) (f 2 0 64) (f 3 0 64) (f 0 0 32 / 32) s with
      | (some .wait, _) => s
      | (some _, s) => seeWords (s.updDie die fun d => d.updGraph gn fun g => g.fail i 0)
      | (none, s) => seeWords (s.updDie die fun d => d.updGraph gn fun g => g.done i))

/-- GRAPH_CANCEL: what has not begun is skipped, and the sink reports it (R321, R322). -/
def execGraphCancel (die gn : Nat) (s : State) : Res :=
  .next (match (s.die die).graph gn with
    | none => s
    | some g => if g.halted ∨ g.finished then s else setGraph die ({ g with cancelled := true }.drop true) s)

end Sys2Proof.Machine
end

