-- ==== Sys2Proof/Machine/Derailleur.lean ====
section
/-!
DEFINITION. The derailleur's moves (R208 to R211, R216), the scrubber (R217, R218), and the remap service (R207, R333).
-/

namespace Sys2Proof.Machine

open Sys2Proof

/-- The leaf has a record: the page has been used. -/
def hasPage (s : State) (leaf : Nat) : Bool := s.pages.any fun e => e.1 == leaf

/-- The page of a leaf: by its record, or as a context's tables give it. -/
def trOf (s : State) (leaf : Nat) : Tr :=
  let p := s.mem.word leaf
  let old := SMap.get {} s.pages leaf
  let base := if hasPage s leaf && old.fits p then old.va
    else (((allLeaves s).find? fun e => e.2.leaf == leaf).map (·.2.base)).getD 0
  { leaf := leaf, pte := p, base := base, size := psBytes (ptePS p) }

/-- The record of a page, which a page that has not been used has from its leaf and its first context. -/
def pageRec (s : State) (leaf : Nat) : Page :=
  let p := s.page (trOf s leaf)
  { p with ctx := p.ctx.or (((allLeaves s).find? fun e => e.2.leaf == leaf).map (·.1)) }

/-- The leaves of the pages there are: those of the contexts. -/
def pageLeaves (s : State) : List Nat := (allLeaves s).map (·.2.leaf)

/-! ## Counts (R210, R211) -/

/-- EPOCH_END: the page's 4,096th counted access of an epoch is over; `frame` is the free frame a move would take. -/
def execEpochEnd (leaf frame : Nat) (s : State) : Res :=
  .next (if (s.page (trOf s leaf)).epoch ≥ 4096 ∧ s.ganged leaf = false then endEpoch (trOf s leaf) frame s else s)

/-- WINDOW_END: the page's 65,536th counted access of a window is over. -/
def execWindowEnd (leaf : Nat) (s : State) : Res :=
  let p := s.page (trOf s leaf)
  .next (if p.window ≥ 65536 ∧ s.ganged leaf = false then endWindow leaf p s else s)

/-! ## Demotion (R210) -/

/-- The page is a stream's of a kernel that has been checked and not retired (R317). -/
def streamHeld (s : State) (leaf : Nat) : Bool :=
  s.dies.any fun e => e.2.kernels.any fun z => z.onBoard && z.held.contains leaf

/-- The page lies in a die's stack and the derailleur may demote it.
DEDUCED (assumption 57). -/
def demotable (s : State) (d leaf : Nat) : Bool :=
  let t := trOf s leaf
  movable s t (pageRec s leaf) && homeDie (ptePfn t.pte * 4096) == d

/-- A page that may be demoted to the host tier or to the deep tier has a lower window count: a stream's page does not go to
the deep tier, and holds back no other (R210, R317). -/
def lessUsed (s : State) (die leaf : Nat) (host : Bool) : Bool :=
  (pageLeaves s).any fun l => demotable s die l && (host || !streamHeld s l) && (pageRec s l).window < (pageRec s leaf).window

/-- The link of a die to the hub, and the port of the flash controller that serves a deep address, carry traffic (R9).
DESIGN CHOICE (assumption 59). -/
def deepReach (s : State) (die pa : Nat) : Bool := s.hubUp die && (s.link (Config.flashPort pa)).moves

/-- FREE_FRAMES_LOW: a stack whose free frames have fallen below its low mark demotes the page with the lowest window
count, until the high mark is reached. -/
def execFreeFramesLow (die leaf : Nat) (host : Bool) (frame : Nat) (s : State) : Res :=
  let d := s.die die
  let low := (field 0 32 d.flow).toNat
  let high := d.high
  let free := freeFrames s die
  let p := pageRec s leaf
  let t := trOf s leaf
  .next (if free ≥ high then s.setDie die { d with demoting := false }
    else if !d.demoting && free ≥ low then s
    else if (pageLeaves s).contains leaf = false ∨ demotable s die leaf = false ∨ s.ganged leaf ∨
        lessUsed s die leaf host then s
    else if frame % t.physSize ≠ 0 ∨ claimed s (!host) frame t.physSize then s
    else if host then
      if inHost frame && inHost (frame + t.physSize - 1) && emptyIn s.mem frame t.physSize then
        let (p, s) := spend leaf p (s.setDie die { d with demoting := true })
        startMove leaf .migrating frame p s
      else s
    else if frame + t.physSize ≤ 2 ^ 43 ∧ streamHeld s leaf = false then
      let (p, s) := spend leaf p (s.setDie die { d with demoting := true })
      startMove leaf .departing frame p s
    else s)

/-! ## The end of a move (R208) -/

/-- An address that names a place in a range follows it. -/
def follow (lo n dest a : Nat) : Nat := if lo ≤ a && a < lo + n then a - lo + dest else a

/-- What waits at a barrier word, or is bound to one, follows the word (R282, R284).
DEDUCED (assumption 45). -/
def relocate (lo n dest : Nat) (s : State) : State :=
  let link := fun (l : Link1) => { l with pa := follow lo n dest l.pa }
  let core := fun (y : Core) => { y with f := { y.f with links := y.f.links.map link, barw := y.f.barw.map link } }
  let pkt := fun (p : Pkt) =>
    if p.ty = .barrier ∧ (p.code = 1 ∨ p.code = 2) then
      { p with arg := BitVec.ofNat 64 (follow lo n dest p.arg.toNat) }
    else p
  let chair := fun (x : Chair) => { x with cores := x.cores.map fun c => (c.1, core c.2) }
  { s with
    chairs := s.chairs.map fun e => (e.1, chair e.2),
    ctxs := s.ctxs.map fun e =>
      (e.1, { e.2 with saved := e.2.saved.map fun v => (v.1, { v.2 with chair := chair v.2.chair }) }),
    binds := s.binds.map fun b => { b with pa := follow lo n dest b.pa },
    net := s.net.map pkt }

/-- A page with record `old` is at rest at a new place: its leaf names the place, INFL is clear, and the TLBs have dropped
it. -/
def settlePage (leaf tier pa : Nat) (st : PageState) (old : Page) (s : State) : State :=
  let p := pteMove (s.mem.word leaf) tier (pa / 4096)
  let s := setLeaf leaf (pteBit p 7 (st = .deep)) s
  s.setPage leaf { old with st := st, target := 0 }

/-- MIGRATION_COMPLETE: every atom has moved, each with its state, by a bridge or the hub; the old frame is free (R8, R208). -/
def execMigrationComplete (leaf : Nat) (s : State) : Res :=
  let t := trOf s leaf
  let p := s.page t
  let lo := ptePfn t.pte * 4096
  let n := t.physSize
  .next (if p.st ≠ .migrating ∨ s.ganged leaf ∨ s.gangedIn lo n ∨ s.gangedIn p.target n ∨
      s.reaches (homeDie lo) p.target = false then s
    else
      let s := { s with mem := moveWithin s.mem lo n p.target }
      let s := relocate lo n p.target (if inStack lo then ownFrames lo n 0 s else s)
      restDemotions (settlePage leaf (if inStack p.target then 0 else 1) p.target .resident p s))

/-- DEEP_WRITE_COMMIT: the page is on the deep tier, and its stack frame is free. -/
def execDeepWriteCommit (leaf : Nat) (s : State) : Res :=
  let t := trOf s leaf
  let p := s.page t
  let lo := ptePfn t.pte * 4096
  let n := t.physSize
  .next (if p.st ≠ .departing ∨ s.ganged leaf ∨ s.gangedIn lo n ∨ streamHeld s leaf ∨
      deepReach s (homeDie lo) p.target = false then s
    else
      let (mem, deep) := moveRange s.mem s.deep lo n p.target
      let s := relocate lo n (deepPlace p.target) (ownFrames lo n 0 { s with mem := mem, deep := deep })
      restDemotions (settlePage leaf 2 p.target .deep p s))

/-- DEEP_WRITE_FAIL: the page is RESIDENT again, and the die controller's error log counts it (R216). -/
def execDeepWriteFail (leaf : Nat) (s : State) : Res :=
  let t := trOf s leaf
  let p := s.page t
  .next (if p.st ≠ .departing ∨ s.ganged leaf then s
    else
      let s := s.updDie (homeDie (ptePfn t.pte * 4096)) fun d => { d with errlog := d.errlog + 1 }
      undepart t s)

/-- The stacks in the order in which an arrival tries them (R210). -/
def arrivalOrder (d : Nat) : List Nat :=
  d :: (bridged d ++ (List.range 8).filter fun e => e ≠ d && !(bridged d).contains e)

/-- The stack that takes an arrival of `n` bytes: the first that is not full. -/
def arrivalDie (s : State) (d n : Nat) : Option Nat :=
  (arrivalOrder d).find? fun e => (freeFrame s e n).isSome

/-- The arrival of a stream's page is served in the turns of the launch's tenant at the transfer engines of its lead die; any
other arrival needs none (R317, R323).
DESIGN CHOICE (assumption 75). -/
def xferServed (s : State) (leaf : Nat) : Bool :=
  s.dies.all fun e => e.2.kernels.all fun z =>
    !(z.onBoard && z.held.contains leaf) || e.2.xferSlots.any fun q => q.2 == (s.ctx z.ctxId).desc1 1 58 6 + 1

/-- ARRIVAL_COMPLETE: every atom has arrived; what flash lost is POISON, and the context has a loss record (R208, R216). -/
def execArrivalComplete (leaf frame : Nat) (bad : List Nat) (s : State) : Res :=
  let t := trOf s leaf
  let p := s.page t
  let lo := ptePfn t.pte * 4096
  let n := t.physSize
  .next (if p.st ≠ .arriving ∨ arrivalDie s p.asker n ≠ some (homeDie frame) ∨ frameOk s frame n = false ∨
      s.ganged leaf ∨ s.gangedIn frame n ∨ deepReach s (homeDie frame) lo = false ∨ xferServed s leaf = false then s
    else
      let lost := bad.filter fun o => o < n && s.deep.atomAt (lo + o) ≠ .vacant
      let (deep, mem) := moveRange s.deep s.mem lo n frame
      let mem := lost.foldl (fun m o => m.toPoison ((frame + o) / 32)) mem
      let s := relocate (deepPlace lo) n frame (ownFrames frame n p.tag { s with mem := mem, deep := deep })
      let s := settlePage leaf 0 frame .resident p s
      lost.foldl (fun s o => match (pageRec s leaf).ctx with
        | some k => lossRecord k { kind := 0 } ((lo + o) / 0x10000 * 0x10000) ((frame + o) / 32 * 32) 0 s
        | none => s) s)

/-! ## The scrubber (R218) -/

/-- The owner of a scratchpad line: its tag is that of the context that holds the chair, which owns every line of it
(R218, R219). -/
def lineOwner (s : State) (ch : Nat) : Option Nat := (s.chair ch).ctx

/-- An uncorrectable atom that the scrubber finds: POISON and a loss record to its owner (R218). -/
def scrubbed (l : Loc) (k : Nat) (s : State) : State :=
  lossRecord k { kind := 0 } l.report l.report 0 (s.putLoc l .poison [])

/-- The unowned frame of a stack atom is VACANT and free (R159, R218). -/
def freeFrameAt (pa : Nat) (s : State) : State :=
  restDemotions { s with mem := vacateRange s.mem (pa / 4096 * 4096) 4096, frames := SMap.del s.frames (pa / 4096) }

/-- The unowned 128-byte line of a scratchpad atom is VACANT (R159, R218). -/
def freeLineAt (ch c off : Nat) (s : State) : State :=
  s.updCore ch c fun y => { y with spad := vacateRange y.spad (off / 128 * 128) 128 }

/-- SCRUB: the scrubber reads one place; `bad` says that its check bits are found uncorrectable.  A VACANT place is never
reported (R161). -/
def execScrub (p : ScrubPlace) (s : State) : Res :=
  .next (match p with
    | .stack pa bad =>
      let l := Loc.mem pa
      if inStack pa = false ∨ s.ganged pa ∨ (bad || s.badAt l) = false ∨ s.atomOf l = .vacant ∨ s.atomOf l = .poison then s
      else
        match ownerAt s pa with
        | some k => scrubbed l k s
        | none => freeFrameAt pa s
    | .scratchpad ch c off bad =>
      let l := Loc.sp ch c off
      if off ≥ Config.spadBytes ∨ (bad || s.badAt l) = false ∨ s.atomOf l = .vacant ∨ s.atomOf l = .poison then s
      else match lineOwner s ch with
        | some k => scrubbed l k s
        | none => freeLineAt ch c off s
    | .tile ch c t bad =>
      let y := s.core ch c
      let v := y.m.tile t
      if (bad || v.bad) = false ∨ v.st = .vacant ∨ v.st = .poison then s
      else
        let w : Tile := if (s.chair ch).ctx.isSome then { st := .poison } else {}
        let s := s.setCore ch c { y with m := y.m.setTile t w }
        match (s.chair ch).ctx with
        | some k => lossRecord k { kind := 0 } (tileReport ch c t) (tileReport ch c t) 0 s
        | none => s
    | .inside ch bad =>
      if bad = false then s
      else match (s.chair ch).ctx with
      | some k => contextError k 5 {} 0 s
      | none => s.setChair ch (s.chair ch).bare)

/-! ## The remap service (R207, R333) -/

/-- The remap service refuses a request that would make a page executable, or an executable page writable (R333). -/
def remapOk (old new : Word) : Bool := !pteX new && !(pteX old && pteW new)

/-- A valid stack leaf's frames go to an owner. -/
def tagLeaf (p : Word) (owner : Nat) (s : State) : State :=
  let n := if pteNarrow p then psBytes (ptePS p) / 2 else psBytes (ptePS p)
  if pteV p && pteTier p == 0 && inStack (ptePfn p * 4096) then ownFrames (ptePfn p * 4096) n owner s else s

/-- A new leaf keeps the home and the translation of an old one (R126). -/
def sameHome (old new : Word) : Bool :=
  pteV new && pteLeaf new && ptePfn old == ptePfn new && pteTier old == pteTier new && ptePS old == ptePS new &&
    pteNarrow old == pteNarrow new

/-- REMAP: system software changes a valid leaf of a context; the request waits for a page in flight or held, and one
that would give up a pinned page's home or translation waits for the pins (R126, R207). -/
def execRemap (k : Nat) (va pte : Word) (s : State) : Res :=
  .next (if (s.ctx k).st = .free then s
    else match walk s k va with
    | none => s
    | some t =>
      let p := s.page t
      if walkWaits s k va ∨ remapOk t.pte pte = false ∨ (p.st ≠ .resident ∧ p.st ≠ .deep) ∨ p.holds ≠ 0 ∨ s.ganged t.leaf ∨
          (sameHome t.pte pte = false ∧ pinnedAt s t) then s
      else
        let same : Bool := ptePfn t.pte = ptePfn pte ∧ pteTier t.pte = pteTier pte
        let s := if same then s else { tagLeaf t.pte 0 s with pages := SMap.del s.pages t.leaf }
        restDemotions (setLeaf t.leaf pte (tagLeaf pte (k + 1) s)))

end Sys2Proof.Machine
end

