-- ==== Sys2Proof/Machine/Links.lean ====
section
/-!
DEFINITION. Links and their flits (R294), lost packets (R308 to R310), and stops (R312).
-/

namespace Sys2Proof.Machine

open Sys2Proof

/-! ## Which links there are (R6, R8, R9, R292) -/

/-- The links of the package: ten bridges, a hub link for each die, five ports, the mesh links, and sixteen spokes. -/
def linkExists (l : Nat) : Bool :=
  l < 10 || (Config.hubBase ≤ l && l < Config.hubBase + 8) || (Config.portBase ≤ l && l < Config.portBase + 5) ||
    (Config.meshBase ≤ l && l < Config.meshBase + 0x800 && (l - Config.meshBase) % 0x100 < Config.meshLinks) ||
    (Config.spokeBase ≤ l && l < Config.spokeBase + 16)

/-- The dies whose controllers see a link: both of a bridge, that of a hub or mesh link, and die 0 for the hub's own. -/
def linkDies (l : Nat) : List Nat :=
  match Config.bridges[l]? with
  | some (d, e) => [d, e]
  | none =>
    if Config.hubBase ≤ l ∧ l < Config.hubBase + 8 then [l - Config.hubBase]
    else if Config.meshBase ≤ l ∧ l < Config.meshBase + 0x800 then [(l - Config.meshBase) / 0x100]
    else [0]

/-- The links that train in the bring-up of die `d`: its bridges, its hub link, its mesh links, and the links of the hub,
which are the ports and the spokes (R294, R352). -/
def trainedBy (_ : State) (d : Nat) : List Nat :=
  ((List.range 10).filter fun l => (linkDies l).contains d) ++ [Config.hubBase + d] ++
    (List.range Config.meshLinks).map (Config.meshBase + 0x100 * d + ·) ++ (List.range 5).map (Config.portBase + ·) ++
    (List.range 16).map (Config.spokeBase + ·)

/-- The packet may take direction `dir` of a link next: a bridge leads from one of its two dies to the other, lower to
higher in direction 0; a hub link takes from its die to the hub what leaves the die, and from the hub to the die what is for
it; a spoke takes from the hub what is for another package (R8, R9, R292). -/
def carries (s : State) (l dir : Nat) (p : Pkt) : Bool :=
  let t := p.to_ s
  match Config.bridges[l]? with
  | some (d, e) => if dir = 0 then p.pos == some d && t == some e else p.pos == some e && t == some d
  | none =>
    if Config.hubBase ≤ l ∧ l < Config.hubBase + 8 then
      let d := some (l - Config.hubBase)
      if dir = 0 then p.pos == d && t ≠ d else p.pos.isNone && t == d
    else if Config.meshBase ≤ l ∧ l < Config.meshBase + 0x800 then p.pos == some ((l - Config.meshBase) / 0x100)
    else Config.spokeBase ≤ l && l < Config.spokeBase + 16 && dir == 0 && p.pos.isNone && p.leaves s

/-- Where a packet is when it has crossed a link in a direction. -/
def Pkt.crossed (p : Pkt) (l dir : Nat) : Pkt :=
  match Config.bridges[l]? with
  | some (d, e) => { p with pos := some (if dir = 0 then e else d) }
  | none =>
    if Config.hubBase ≤ l ∧ l < Config.hubBase + 8 then { p with pos := if dir = 0 then none else some (l - Config.hubBase) }
    else p

/-! ## Training (R294) -/

/-- LINK_ENABLE. -/
def execLinkEnable (l : Nat) (s : State) : Res :=
  let x := s.link l
  .next (if linkExists l ∧ (x.st = .down ∨ x.st = .failed) then s.setLink l { x with st := .training, tries := 0 } else s)

/-- A link of a die has ended its training, UP or FAILED. -/
def linkTrained (s : State) (l : Nat) : Bool := (s.link l).st ≠ .down && (s.link l).st ≠ .training

/-- The dies whose links have trained take the last step of their bring-up: they report READY (R352).
DESIGN CHOICE (assumption 62). -/
def diesReady (s : State) : State :=
  (List.range 8).foldl (fun s d =>
    let x := s.die d
    if x.stage = 4 ∧ x.stuck = false ∧ (trainedBy s d).all (linkTrained s) then
      s.setDie d { x with stage := 5, ready := true }
    else s) s

/-- TRAINING_SUCCESS: sequence numbers restart on both sides. -/
def execTrainingSuccess (l : Nat) (s : State) : Res :=
  .next (if (s.link l).st = .training then diesReady (s.setLink l { st := .up }) else s)

/-- An entry in the error log of each die that sees a link. -/
def linkErrors (l : Nat) (s : State) : State :=
  (linkDies l).foldl (fun s d => s.updDie d fun x => { x with errlog := x.errlog + 1 }) s

/-- TRAINING_FAILURE: the third in a row makes the link FAILED, with an error log entry. -/
def execTrainingFailure (l : Nat) (s : State) : Res :=
  let x := s.link l
  .next (if x.st ≠ .training then s
    else if x.tries ≥ 2 then diesReady (linkErrors l (s.setLink l { x with st := .failed, tries := 0 }))
    else s.setLink l { x with tries := x.tries + 1 })

/-! ## Losses (R308) -/

def PktType.code : PktType → Nat
  | .putData => 0 | .getReq => 1 | .getResp => 2 | .message => 3 | .barrier => 4 | .reply => 5

/-- A packet's header as a number (R295). -/
def Pkt.header (p : Pkt) : Nat :=
  let msg : Bool := p.ty == .message
  let tag := if msg ∨ p.ty = .putData ∨ p.ty = .getResp then p.tag.toNat else 0
  let addr := if p.ty = .getResp then p.h.toNat * 2 ^ 32 + p.arg.toNat else p.addr.toNat
  p.ty.code * 2 ^ 252 + p.data.length * 2 ^ 248 + p.job * 2 ^ 232 + p.srank * 2 ^ 222 + p.drank * 2 ^ 212 +
    p.score * 2 ^ 200 + (if msg then p.dcore * 2 ^ 188 + p.nsem.toNat * 2 ^ 180 else 0) +
    (if p.pkg then 2 ^ 179 else 0) + p.sc.code.toNat * 2 ^ 176 + tag * 2 ^ 160 +
    (if p.ty = .getReq then p.len * 2 ^ 128 else 0) + addr % 2 ^ 64 * 2 ^ 64 + (if msg then p.arg.toNat else 0)

/-- The loss record of lost packets (R308): all of them can be resent. -/
def fabricLossEntry (l : Nat) (x : Loss) : List Byte :=
  leBytes 32 (1 + 2 * 2 ^ 8 + x.id % 2 ^ 16 * 2 ^ 24 + l % 2 ^ 16 * 2 ^ 40 + x.count % 2 ^ 16 * 2 ^ 56 +
      ((if x.sysOnly then 1 else 0) + 2) * 2 ^ 72) ++
    leBytes 32 ((x.pkts.head?.map Pkt.header).getD 0)

/-- A loss number that no outstanding loss has, from the next one on (R308).  Structural on fuel. -/
def freeLoss (s : State) : Nat → Nat → Nat
  | 0, n => n
  | fuel + 1, n => if s.losses.any (·.id == n) then freeLoss s fuel ((n + 1) % 2 ^ 16) else n

/-- A lost packet as it is kept to be sent again: from the port that injected it, or from the hub where it came from another
package (R308, R309). -/
def Pkt.again (s : State) (p : Pkt) : Pkt :=
  { p with pos := if (rankCtx s p.job p.srank).isSome then some p.die else none }

/-- Packets of a job that one pair-set counts are lost on a link: a loss record, and an outstanding loss; a reply is
never counted (R295, R308). -/
def loseGroup (l : Nat) (g : List Pkt) (s : State) : State :=
  match g with
  | [] => s
  | p :: _ =>
    let id := freeLoss s (2 ^ 16) s.lossNum
    let x : Loss := { id := id, job := p.job, pkts := g.map (Pkt.again s), sysOnly := !p.pkg,
                      count := (g.filter fun q => q.ty ≠ .reply).length }
    let nums := g.map (·.num)
    let s := { s with losses := s.losses ++ [x], lossNum := (id + 1) % 2 ^ 16,
                      net := s.net.filter fun q => !nums.contains q.num }
    match jobCtx s p.job with
    | some k => logEntry k (fabricLossEntry l x) s
    | none => s

/-- Lose packets, a group for each job and pair-set.  Structural on fuel: each group takes one packet at least.
DESIGN CHOICE (assumption 59). -/
def losePackets (l : Nat) : Nat → List Pkt → State → State
  | 0, _, s => s
  | _, [], s => s
  | fuel + 1, p :: ps, s =>
    let same := fun (q : Pkt) => q.job == p.job && q.pkg == p.pkg
    losePackets l fuel (ps.filter fun q => !same q) (loseGroup l (p :: ps.filter same) s)

/-- Packets with an unacknowledged flit on the link, that no receiver has applied. -/
def unackedPkts (s : State) (x : Link) : List Pkt :=
  s.net.filter fun p => x.fwd.unacked.any (·.pkt == p.num) || x.back.unacked.any (·.pkt == p.num)

/-! ## Flits -/

/-- The sender replays from its first unacknowledged flit. -/
def LinkDir.replay (d : LinkDir) : LinkDir :=
  let n := d.unacked.length
  { d with unacked := d.unacked.zipIdx.map fun e => { e.1 with at_ := d.sent + e.2 }, sent := d.sent + n,
           replays := d.replays + 1, replayed := d.nextSeq }

/-- A flit of the last replay is not acknowledged. -/
def LinkDir.replaying (d : LinkDir) : Bool := d.unacked.any (·.seq < d.replayed)

/-- FLIT_CRC_FAIL: a replay, or after the eighth a new training, which loses every packet with an unacknowledged flit. -/
def execFlitCrcFail (l dir : Nat) (s : State) : Res :=
  let x := s.link l
  let d := x.side dir
  .next (if x.st = .up then s.setLink l { x.setSide dir d.replay with st := .retry }
    else if x.st = .retry then
      if d.replays ≥ 8 then
        let ps := unackedPkts s x
        losePackets l ps.length ps (s.setLink l { st := .training })
      else s.setLink l (x.setSide dir d.replay)
    else s)

/-- The acknowledgement of the oldest flit is missing: 512 flits have been sent since. -/
def LinkDir.missing (d : LinkDir) : Bool :=
  match d.unacked with
  | [] => false
  | f :: _ => d.sent - (f.at_ + 1) ≥ 512

/-- `n` more flits take the count of the oldest unacknowledged one to 512 at most (R294). -/
def LinkDir.room (d : LinkDir) (n : Nat) : Bool :=
  match d.unacked with
  | [] => true
  | f :: _ => d.sent + n ≤ f.at_ + 1 + 512

/-- ACK_MISSING. -/
def execAckMissing (l dir : Nat) (s : State) : Res :=
  let x := s.link l
  .next (if x.st = .up ∧ (x.side dir).missing then s.setLink l { x.setSide dir (x.side dir).replay with st := .retry }
    else s)

/-- REPLAY_ACKNOWLEDGED: what was replayed is acknowledged, and the link is UP. -/
def execReplayAcknowledged (l dir : Nat) (s : State) : Res :=
  let x := s.link l
  let d := x.side dir
  .next (if x.st = .retry ∧ d.replaying = false then
    let x := x.setSide dir { d with replays := 0 }
    s.setLink l { x with st := if x.fwd.replays = 0 ∧ x.back.replays = 0 then .up else .retry }
  else s)

/-- Every flit of a packet sent on this direction has been received. -/
def LinkDir.whole (d : LinkDir) (num : Nat) : Bool := d.unacked.all fun f => f.pkt ≠ num || d.holds f

/-- A packet has crossed a link when the far side holds all of it; over a spoke it leaves this package. -/
def crossLink (l dir : Nat) (d : LinkDir) (f : Flit) (s : State) : State :=
  match s.net.find? (·.num = f.pkt) with
  | none => s
  | some p =>
    if d.whole p.num = false then s
    else if l ≥ Config.spokeBase then (if p.leaves s then dropPkt p.num s else s)
    else { s with net := s.net.map fun q => if q.num = p.num then q.crossed l dir else q }

/-- FLIT_RECEIVED: a flit that the receiver holds already is dropped, the next one is recorded; what it carries
acknowledges the other direction's flits. -/
def execFlitReceived (l dir seq : Nat) (s : State) : Res :=
  let x := s.link l
  let d := x.side dir
  let o := x.side (1 - dir)
  .next (if x.moves = false ∨ dir > 1 then s
    else
      let next : Nat := match d.got with | some g => g + 1 | none => 0
      let hit := if seq = next then d.unacked.find? (·.seq = seq) else none
      let d := if hit.isSome then { d with got := some seq } else d
      let u := o.unacked.filter fun f => !o.holds f
      let o := { o with unacked := u }
      let o := { o with replays := if x.st = .up ∧ o.replaying = false then 0 else o.replays }
      let s := s.setLink l ((x.setSide dir d).setSide (1 - dir) o)
      match hit with
      | some f => crossLink l dir d f s
      | none => s)

/-- The sender of a direction puts the flits of a packet on a link that leads its way, while it is UP or RETRY, or an idle flit;
while the acknowledgement of its oldest flit is missing it sends none before its replay (R294, R295, R356). -/
def sendFlit (l dir : Nat) (pkt : Option Nat) (s : State) : State :=
  let x := s.link l
  let d := x.side dir
  if linkExists l = false ∨ dir > 1 ∨ x.moves = false ∨ (x.st = .up ∧ d.missing) then s
  else match pkt with
  | none => s.setLink l (x.setSide dir { d with sent := d.sent + 1 })
  | some n =>
    match s.net.find? (·.num = n) with
    | none => s
    | some p =>
      if p.homeWaits s ∨ carries s l dir p = false ∨ p.code = 9 ∨ onLink s n ∨ d.unacked.any (·.pkt == n) then s
      else
        let m := p.data.length + 1
        if d.room m = false then s
        else
        let fs : List Flit := (List.range m).map fun i => { seq := d.nextSeq + i, pkt := n, at_ := d.sent + i }
        let d := { d with nextSeq := d.nextSeq + m, sent := d.sent + m, unacked := d.unacked ++ fs }
        s.setLink l (x.setSide dir d)

/-! ## Resending, stops (R309, R312) -/

/-- LOSS_RESEND: the packets go again, with no change to any I. -/
def execLossResend (id : Nat) (s : State) : Res :=
  .next (match s.losses.find? (·.id = id) with
    | none => s
    | some l => { s with losses := s.losses.filter (·.id ≠ id), net := s.net ++ l.pkts })

/-- A receiver that stops saves the flits of packets that it has not yet applied. -/
def LinkDir.stop (s : State) (d : LinkDir) : LinkDir :=
  { d with saved := d.unacked.filter fun f => d.holds f && s.net.any (·.num = f.pkt) }

/-- STOP_REQUEST: every unit and every link endpoint stops. -/
def execStopRequest (s : State) : Res :=
  .next { s with stopped := true, links := s.links.map fun e =>
    if e.2.moves then
      (e.1, { e.2 with st := .stopped, fwd := e.2.fwd.stop s, back := e.2.back.stop s })
    else e }

/-- A direction after a stop; the replays count while a flit that was replayed is not acknowledged. -/
def LinkDir.resume (d : LinkDir) : LinkDir :=
  { d with saved := [], replays := if d.replaying then d.replays else 0 }

/-- LINK_RESUME: the link goes on from its next flit; when no link is stopped any more, every unit goes on. -/
def execLinkResume (l : Nat) (s : State) : Res :=
  let x := s.link l
  let s := if x.st = .stopped then
      s.setLink l { x with st := .up, fwd := x.fwd.resume, back := x.back.resume }
    else s
  .next (if s.links.all fun e => e.2.st ≠ .stopped then { s with stopped := false } else s)

end Sys2Proof.Machine
end

