-- ==== Sys2Proof/Machine/Manage.lean ====
section
/-!
DEFINITION. What reaches the package from outside: host writes (R276), bring-up and temperature (R351, R352), the
management registers (R353), key slots, tenants and slot tables (R323, R331), attestation (R334), and the event log's read
index (R238).
-/

namespace Sys2Proof.Machine

open Sys2Proof

/-! ## Host writes (R276, R354) -/

/-- Write bytes into atoms by the store row of R159: a REPLICA or POISON atom keeps what it holds, and one whose bits
are lost becomes POISON.
DESIGN CHOICE (assumption 61). -/
def hostStore (pa : Nat) : List Byte → State → State
  | [], s => s
  | b :: bs, s =>
    let l := Loc.mem pa
    let s := match s.atomOf l with
      | .replica => s
      | .poison => s
      | _ => if s.badAt l then s.putLoc l .poison [] else { s with mem := s.mem.storeIn pa [b] }
    hostStore (pa + 1) bs s

/-- The contexts under RECORD or REPLAY into whose pages the host writes: those that own the frame or map it (R354). -/
def hostTargets (s : State) (pa : Nat) : List Nat :=
  (s.ctxs.map (·.1)).filter fun k =>
    let c := s.ctx k
    (c.st ≠ .free && c.st ≠ .dead && (c.desc1 1 55 1 == 1 || c.desc1 1 54 1 == 1)) &&
      (frameOwner s pa == some k || (leavesOf s k).any fun t =>
        pteTier t.pte ≠ 2 && meets pa 1 (ptePfn t.pte * 4096) t.physSize)

/-- A context under RECORD or REPLAY into whose page the host writes; `none`: there is no such context. -/
def hostTarget (s : State) (pa : Nat) : Option Nat := (hostTargets s pa).head?

/-- The chair whose entries carry a context's host writes: its first. -/
def firstChair (s : State) (k : Nat) : Nat := (s.ctx k).chairs.headD 0

/-- A host write into one atom as a recorded input gives it: the address, the data, and in the last byte of VALUE how
many bytes it has (R354).
DESIGN CHOICE (assumption 61). -/
def hostValue (pa : Nat) (bs : List Byte) : List Byte :=
  leBytes 8 pa ++ (bs ++ List.replicate 39 0).take 39 ++ [BitVec.ofNat 8 bs.length]

/-- The pieces of a host write, each in one atom. -/
def hostParts (pa : Nat) (bs : List Byte) : List (Nat × List Byte) :=
  let h := 32 - pa % 32
  (pa, bs.take h) :: (groupsOf 32 (bs.drop h)).zipIdx.map fun e => (pa + h + 32 * e.2, e.1)

/-- One piece of a host write, an input of every context into whose pages it goes; `none`: replay makes it wait. -/
def hostPart (p : Nat × List Byte) (s : State) : Option State :=
  let v := hostValue p.1 p.2
  let ks := hostTargets s p.1
  if ks.any fun k => replayGate k (firstChair s k) rrHostWrite (· == v) s == .wait then none
  else
    let s := ks.foldl (fun s k =>
      let ch := firstChair s k
      input k ch rrHostWrite (· == v) (fun e s => if e.isNone then recordInput k ch rrHostWrite v s else s) s) s
    some (seeWords (hostStore p.1 p.2 s))

/-- The pieces of a host write in order; `none`: one has to wait, and with it the whole write. -/
def hostAll : List (Nat × List Byte) → State → Option State
  | [], s => some s
  | p :: ps, s => (hostPart p s).bind (hostAll ps)

/-- A host write has a way into a stack: by the host port or a CXL port, and by the link of the hub to its die (R9, R276). -/
def hostWay (pa : Nat) (s : State) : Bool :=
  !inStack pa || (((List.range 3).any fun i => (s.link (Config.portBase + i)).moves) && s.hubReaches pa)

/-- HOST_WRITE: the write is performed when the hub accepts it. -/
def execHostWrite (pa : Nat) (bs : List Byte) (s : State) : Res :=
  .next (if rangeInMem pa bs.length = false ∨ bs = [] ∨ s.gangedIn pa bs.length ∨ hostWay pa s = false ∨
      (inStack pa && !(s.die (homeDie pa)).ready) then s
    else (hostAll (hostParts pa bs) s).getD s)

/-- The host write that is the next entry of a chair in the log of a context under REPLAY. -/
def nextWrite (s : State) (k ch : Nat) : Option (List Byte) :=
  let c := s.ctx k
  if c.st = .free ∨ c.st = .dead ∨ c.desc1 1 54 1 = 0 then none
  else ((replayEntries k ch s).find? fun e => e.1 == SMap.get 0 c.rr ch && e.2.1 == rrHostWrite).map (·.2.2)

/-- Under REPLAY a host write that a log gives next for a chair is applied, with no write from outside (R355); the chair names
the entries alone, and need not run. -/
def replayedWrite (ch : Nat) (s : State) : State :=
  match (s.ctxs.map (·.1)).findSome? fun k => (nextWrite s k ch).map fun v => (k, v) with
    | none => s
    | some (k, v) =>
      let pa := leNat (v.take 8)
      let bs := (v.drop 8).take (v.getD 47 0).toNat
      if rangeInMem pa bs.length = false ∨ s.gangedIn pa bs.length then s
      else input k ch rrHostWrite (· == v) (fun _ s => seeWords (hostStore pa bs s)) s

/-! ## Bring-up (R328, R352) -/

/-- A die stops at a step of its bring-up that fails, and its error log records it (R352). -/
def Die.fails (d : Die) (step : Nat) : Die := { d with stage := step, stuck := true, errlog := d.errlog + 1 }

/-- Step 2 of the bring-up: every atom of the stack is VACANT. -/
def bringStack (die : Nat) (s : State) : State :=
  { s with mem := vacateRange s.mem (die * Config.stackBytes) Config.stackBytes }

/-- Step 3: every scratchpad atom, tile and handle takes its reset state. -/
def bringChairs (die : Nat) (s : State) : State := { s with chairs := s.chairs.filter fun e => dieOf e.1 ≠ die }

/-- Step 4: the die's links and the hub's ports and spokes train; with the last of them the die is READY. -/
def bringLinks (die : Nat) (s : State) : State :=
  diesReady ((trainedBy s die).foldl (fun s l =>
    if (s.link l).st = .down then s.setLink l { s.link l with st := .training } else s) s)

/-- POWER_ON: the boot ROM measures the firmware and checks its signature; where it passes, the steps of the bring-up
follow, up to one that fails (`fails`, 2 to 4); else the die stays in recovery mode.
DESIGN CHOICE (assumption 62). -/
def execPowerOn (die : Nat) (image : BootImage) (fails : Option Nat) (s : State) : Res :=
  .next (if die ≥ 8 ∨ (s.die die).stage ≠ 0 then s
    else
      let d := { s.die die with fwm := Config.sha384 image.firmware, stage := 1 }
      if Config.ecdsaValid Config.rootKey d.fwm image.sig = false then s.setDie die { d.fails 1 with recovery := true }
      else if fails = some 2 then s.setDie die (d.fails 2)
      else
        let s := bringStack die s
        if fails = some 3 then s.setDie die (d.fails 3)
        else
          let s := bringChairs die s
          if fails = some 4 then s.setDie die (d.fails 4)
          else bringLinks die (s.setDie die { d with stage := 4 }))

/-! ## Temperature (R351) -/

/-- Degrees as THERM counts them: units of 0.125 °C. -/
def degrees (t : Nat) : Nat := 8 * t

/-- A step of 250 MHz down, to 1.5 GHz at least (R351). -/
def Die.slower (d : Die) : Die := { d with slow := Nat.min 6 (d.slow + 1) }

/-- The contexts that hold a chair of a die. -/
def ctxsOn (s : State) (die : Nat) : List Nat :=
  (s.ctxs.map (·.1)).filter fun k => s.chairs.any fun e => e.2.ctx == some k && dieOf e.1 == die

/-- A request to every context on the die, which accepts no launch (R351). -/
def stopLaunches (die : Nat) (s : State) : State :=
  let s := s.updDie die fun d => { d with noLaunch := true }
  (ctxsOn s die).foldl (fun s k => requestChairs k none s) s

/-- THERMAL_THROTTLE: the clock goes down by a step; at 115 °C or above the other action is taken too. -/
def execThermalThrottle (die temp : Nat) (s : State) : Res :=
  .next (if temp ≥ degrees 105 ∧ temp < 2 ^ 16 then
    let s := s.updDie die fun d => { d.slower with therm := BitVec.ofNat 16 temp }
    if temp ≥ degrees 115 then stopLaunches die s else s
  else s)

/-- THERMAL_PREEMPT: a request to every context on the die, and no launch. -/
def execThermalPreempt (die temp : Nat) (s : State) : Res :=
  .next (if temp ≥ degrees 115 ∧ temp < 2 ^ 16 then
    stopLaunches die (s.updDie die fun d => { d with therm := BitVec.ofNat 16 temp })
  else s)

/-- THERMAL_RESTORE: 3 GHz, and launches again. -/
def execThermalRestore (die temp : Nat) (s : State) : Res :=
  .next (if temp < degrees 95 then
    s.updDie die fun d => { d with therm := BitVec.ofNat 16 temp, slow := 0, noLaunch := false }
  else s)

/-- A die controller reads its junction temperature, which THERM shows, and acts as the temperature asks (R351, R353). -/
def senseTurn (die temp : Nat) (s : State) : State :=
  if die ≥ 8 ∨ temp ≥ 2 ^ 16 then s
  else
    let s := s.updDie die fun d => { d with therm := BitVec.ofNat 16 temp }
    let s := if temp ≥ degrees 105 then s.updDie die Die.slower else s
    if temp ≥ degrees 115 then stopLaunches die s
    else if temp < degrees 95 then s.updDie die fun d => { d with slow := 0, noLaunch := false }
    else s

/-! ## Management registers (R353) -/

/-- The frames can join a die's arena pool: 64 KiB-aligned, in its stack, free, and each once. -/
def poolOk (s : State) (die : Nat) (fs : List Nat) : Bool :=
  fs.Nodup && fs.all fun f => f % 0x10000 == 0 && inStack f && homeDie f == die && frameOk s f 0x10000

/-- A write of POOLN: the pool takes new frames, or gives its last free ones up; it keeps its value where it lacks
them.  A bit above 31 is out of range.
DEDUCED (assumptions 63 and 72). -/
def poolWrite (die : Nat) (val : Word) (fs : List Nat) (s : State) : State :=
  let d := s.die die
  let old := d.pooln.toNat
  let new := val.toNat
  if new ≥ 2 ^ 32 then s
  else if new ≥ old then
    if fs.length = new - old ∧ poolOk s die fs then
      s.setDie die { d with pooln := BitVec.ofNat 32 new, pool := d.pool ++ fs }
    else s
  else if d.pool.length ≥ old - new then
    s.setDie die { d with pooln := BitVec.ofNat 32 new, pool := d.pool.take (d.pool.length - (old - new)) }
  else s

/-- MGMT_REGISTER_WRITE: FLOW, SCRUBN or POOLN; a read-only register or a field outside its range is refused, and so is
a bit that the register does not have.
DEDUCED (assumption 72). -/
def execMgmtRegisterWrite (die off : Nat) (val : Word) (frames : List Nat) (s : State) : Res :=
  .next (if (s.die die).serves = false then s
    else match off with
    | 0x00 =>
      if (field 0 32 val).toNat < (field 32 32 val).toNat then s.updDie die fun d => { d with flow := val } else s
    | 0x08 =>
      if 1 ≤ val.toNat ∧ val.toNat ≤ 65535 then s.updDie die fun d => { d with scrubn := field 0 16 val } else s
    | 0x10 => poolWrite die val frames s
    | _ => s)

/-- GGRANT_WRITE: the register keeps the value, and the channel takes the grant; a bit that the register does not have
refuses the write (R263, R353).
DEDUCED (assumption 72). -/
def execGgrantWrite (die : Nat) (val : Word) (s : State) : Res :=
  let k := (field 52 12 val).toNat
  let pc := (field 0 8 val).toNat
  let x := s.chan (die, pc)
  let kept := fun (s : State) => s.updDie die fun d => { d with ggrant := val }
  .next (if (s.die die).serves = false ∨ pc > 191 ∨ field 8 44 val ≠ 0 then s
    else if k = 0xFFF then (if x.gang.isSome then s else kept (s.setChan (die, pc) { x with grant := none }))
    else kept (s.setChan (die, pc) { x with grant := some k }))

/-! ## Keys, tenants, slot tables -/

/-- KEY_SLOT_WRITE: an uncompressed P-384 key, or empty (R331). -/
def execKeySlotWrite (die slot : Nat) (key : List Byte) (s : State) : Res :=
  .next (if (s.die die).serves = false ∨ slot ≥ 16 ∨ (key ≠ [] ∧ key.length ≠ 97) ∨
      s.ctxs.any (fun e => e.2.st == .loading && e.2.die == die) then s
    else s.updDie die fun d => { d with keys := SMap.put [] d.keys slot key })

/-- TENANT_ASSIGN: a chair that no context holds goes to a tenant or to none (R323). -/
def execTenantAssign (ch : Nat) (tenant : Option Nat) (s : State) : Res :=
  .next (if (s.die (dieOf ch)).serves = false ∨ ch ≥ 256 ∨ tenant.any (· ≥ 64) ∨ (s.chair ch).ctx.isSome then s
    else s.updChair ch fun x => { x with tenant := tenant })

/-- A context of the tenant is RUNNING on the die. -/
def tenantRuns (s : State) (die t : Nat) : Bool :=
  (ctxsOn s die).any fun k => (s.ctx k).st == .running && (s.ctx k).desc1 1 58 6 == t

/-- SLOT_TABLE_WRITE: refused while a context of a tenant whose turns change is RUNNING on the die (R323); when a turn
serves its tenant is timing.
DESIGN CHOICE (assumption 75). -/
def execSlotTableWrite (die : Nat) (xfer : Bool) (turn : Nat) (tenant : Option Nat) (s : State) : Res :=
  let d := s.die die
  let new := (tenant.map (· + 1)).getD 0
  let old := SMap.get 0 (if xfer then d.xferSlots else d.stackSlots) turn
  .next (if d.serves = false ∨ turn ≥ 64 ∨ tenant.any (· ≥ 64) then s
    else if old ≠ new ∧ [old, new].any (fun t => t ≠ 0 && tenantRuns s die (t - 1)) then s
    else if xfer then s.setDie die { d with xferSlots := SMap.put 0 d.xferSlots turn new }
    else s.setDie die { d with stackSlots := SMap.put 0 d.stackSlots turn new })

/-! ## Attestation (R328, R334) -/

def CtxState.code : CtxState → Nat
  | .free => 0 | .loading => 1 | .ready => 2 | .running => 3 | .frozen => 4 | .preempted => 5 | .faulted => 6 | .dead => 7

/-- Bytes 175:0 of a report. -/
def reportBody (d : Die) (die k : Nat) (c : Ctx) (nonce : List Byte) : List Byte :=
  let st := if d.recovery then 0xFF else c.st.code
  let c := if d.recovery ∨ c.st = .free then {} else c
  leBytes 4 1 ++ leBytes 2 k ++ [BitVec.ofNat 8 (c.desc1 1 58 6), BitVec.ofNat 8 st] ++ leBytes 8 c.next ++
    leBytes 48 d.fwm.toNat ++ leBytes 48 c.mr.toNat ++ nonce ++ leBytes 8 die ++ leBytes 8 d.repSeq

/-- ATTESTATION_REQUEST: the die signs a report on a context; in recovery mode there is no key to sign with. -/
def execAttestationRequest (die k : Nat) (nonce : List Byte) (s : State) : Res :=
  let d := s.die die
  .next (if nonce.length ≠ 48 ∨ k ≥ 4096 ∨ (d.ready = false ∧ d.recovery = false) then s
    else
      let body := reportBody d die k (s.ctx k) nonce
      let sig := if d.recovery then [] else Config.attestSign die d.fwm (Config.sha384 body)
      s.setDie die { d with report := body ++ (sig ++ List.replicate 96 0).take 96, repSeq := (d.repSeq + 1) % 2 ^ 64 })

/-! ## The event log (R238) -/

/-- LOG_READ_INDEX_ADVANCE. -/
def execLogReadIndexAdvance (k n : Nat) (s : State) : Res :=
  .next (s.updCtx k fun c => { c with logR := Nat.min c.logW (c.logR + n) })

end Sys2Proof.Machine
end

