-- ==== Sys2Proof/Machine/Dispatch.lean ====
section
/-!
DEFINITION. The meaning of every instruction: one arm per constructor of `Instr`, each one direct call.
-/

namespace Sys2Proof.Machine

open Sys2Proof

def exec (i : Instr) (s : State) : Host.Outcome State Fault Refusal :=
  match i with
  | .nop => Sys2Proof.Machine.execNop s
  | .add d a b => Sys2Proof.Machine.execAdd d a b s
  | .sub d a b => Sys2Proof.Machine.execSub d a b s
  | .mul d a b => Sys2Proof.Machine.execMul d a b s
  | .mulh d a b => Sys2Proof.Machine.execMulh d a b s
  | .mulhu d a b => Sys2Proof.Machine.execMulhu d a b s
  | .div d a b => Sys2Proof.Machine.execDiv d a b s
  | .divu d a b => Sys2Proof.Machine.execDivu d a b s
  | .rem d a b => Sys2Proof.Machine.execRem d a b s
  | .and d a b => Sys2Proof.Machine.execAnd d a b s
  | .or d a b => Sys2Proof.Machine.execOr d a b s
  | .xor d a b => Sys2Proof.Machine.execXor d a b s
  | .shl d a b => Sys2Proof.Machine.execShl d a b s
  | .shr d a b => Sys2Proof.Machine.execShr d a b s
  | .sar d a b => Sys2Proof.Machine.execSar d a b s
  | .min d a b => Sys2Proof.Machine.execMin d a b s
  | .max d a b => Sys2Proof.Machine.execMax d a b s
  | .minu d a b => Sys2Proof.Machine.execMinu d a b s
  | .maxu d a b => Sys2Proof.Machine.execMaxu d a b s
  | .seq d a b => Sys2Proof.Machine.execSeq d a b s
  | .slt d a b => Sys2Proof.Machine.execSlt d a b s
  | .sltu d a b => Sys2Proof.Machine.execSltu d a b s
  | .bfx d a pos wm1 => Sys2Proof.Machine.execBfx d a pos wm1 s
  | .bfi d a pos wm1 => Sys2Proof.Machine.execBfi d a pos wm1 s
  | .clz d a => Sys2Proof.Machine.execClz d a s
  | .popc d a => Sys2Proof.Machine.execPopc d a s
  | .addi d a imm => Sys2Proof.Machine.execAddi d a imm s
  | .andi d a imm => Sys2Proof.Machine.execAndi d a imm s
  | .ori d a imm => Sys2Proof.Machine.execOri d a imm s
  | .xori d a imm => Sys2Proof.Machine.execXori d a imm s
  | .shli d a sh => Sys2Proof.Machine.execShli d a sh s
  | .shri d a sh => Sys2Proof.Machine.execShri d a sh s
  | .sari d a sh => Sys2Proof.Machine.execSari d a sh s
  | .slti d a imm => Sys2Proof.Machine.execSlti d a imm s
  | .lui d imm => Sys2Proof.Machine.execLui d imm s
  | .ldl d a imm => Sys2Proof.Machine.execLdl d a imm s
  | .stl d a imm => Sys2Proof.Machine.execStl d a imm s
  | .ldlw d a imm => Sys2Proof.Machine.execLdlw d a imm s
  | .stlw d a imm => Sys2Proof.Machine.execStlw d a imm s
  | .beq a b off => Sys2Proof.Machine.execBeq a b off s
  | .bne a b off => Sys2Proof.Machine.execBne a b off s
  | .blt a b off => Sys2Proof.Machine.execBlt a b off s
  | .bge a b off => Sys2Proof.Machine.execBge a b off s
  | .bltu a b off => Sys2Proof.Machine.execBltu a b off s
  | .bgeu a b off => Sys2Proof.Machine.execBgeu a b off s
  | .jal l off => Sys2Proof.Machine.execJal l off s
  | .jalr d a imm => Sys2Proof.Machine.execJalr d a imm s
  | .loop lv a off => Sys2Proof.Machine.execLoop lv a off s
  | .loopp lv a off => Sys2Proof.Machine.execLoopp lv a off s
  | .lbrk lv a => Sys2Proof.Machine.execLbrk lv a s
  | .emit m l => Sys2Proof.Machine.execEmit m l s
  | .emitp m a => Sys2Proof.Machine.execEmitp m a s
  | .emitt m a sh l => Sys2Proof.Machine.execEmitt m a sh l s
  | .fmt m a => Sys2Proof.Machine.execFmt m a s
  | .expect m a k => Sys2Proof.Machine.execExpect m a k s
  | .joinpt t => Sys2Proof.Machine.execJoinpt t s
  | .joinw a => Sys2Proof.Machine.execJoinw a s
  | .detq d sel => Sys2Proof.Machine.execDetq d sel s
  | .chairw a mode => Sys2Proof.Machine.execChairw a mode s
  | .gpop d a op => Sys2Proof.Machine.execGpop d a op s
  | .gpopn d a => Sys2Proof.Machine.execGpopn d a s
  | .grab d => Sys2Proof.Machine.execGrab d s
  | .step d => Sys2Proof.Machine.execStep d s
  | .yield => Sys2Proof.Machine.execYield s
  | .exit => Sys2Proof.Machine.execExit s
  | .semrd d k => Sys2Proof.Machine.execSemrd d k s
  | .wquiet sc => Sys2Proof.Machine.execWquiet sc s
  | .csrr d csr => Sys2Proof.Machine.execCsrr d csr s
  | .csrw a csr => Sys2Proof.Machine.execCsrw a csr s
  | .fselWrite a => Sys2Proof.Machine.execFselWrite a s
  | .trap k => Sys2Proof.Machine.execTrap k s
  | .resume => Sys2Proof.Machine.execResume s
  | .reinject k => Sys2Proof.Machine.execReinject k s
  | .savectx a k => Sys2Proof.Machine.execSavectx a k s
  | .restctx a k => Sys2Proof.Machine.execRestctx a k s
  | .lit eng v => Sys2Proof.Machine.execLit eng v s
  | .ldq q ag cnt => Sys2Proof.Machine.execLdq q ag cnt s
  | .ldqMv q ag cnt => Sys2Proof.Machine.execLdqMv q ag cnt s
  | .ldqs q ag cnt => Sys2Proof.Machine.execLdqs q ag cnt s
  | .ldqsMv q ag cnt => Sys2Proof.Machine.execLdqsMv q ag cnt s
  | .ldqg q ag cnt s' size => Sys2Proof.Machine.execLdqg q ag cnt s' size s
  | .ldqgMv q ag cnt s' => Sys2Proof.Machine.execLdqgMv q ag cnt s' s
  | .stq q ag cnt => Sys2Proof.Machine.execStq q ag cnt s
  | .stqs q ag cnt => Sys2Proof.Machine.execStqs q ag cnt s
  | .lds d a imm => Sys2Proof.Machine.execLds d a imm s
  | .sts d a imm => Sys2Proof.Machine.execSts d a imm s
  | .ldsq q a imm => Sys2Proof.Machine.execLdsq q a imm s
  | .loadDataReturn ch c k => Sys2Proof.Machine.execLoadDataReturn ch c k s
  | .aadd d a b => Sys2Proof.Machine.execAadd d a b s
  | .asub d a b => Sys2Proof.Machine.execAsub d a b s
  | .amul d a b mode => Sys2Proof.Machine.execAmul d a b mode s
  | .ashl d a b => Sys2Proof.Machine.execAshl d a b s
  | .ashr d a b mode => Sys2Proof.Machine.execAshr d a b mode s
  | .aand d a b => Sys2Proof.Machine.execAand d a b s
  | .aor d a b => Sys2Proof.Machine.execAor d a b s
  | .amin d a b mode => Sys2Proof.Machine.execAmin d a b mode s
  | .amax d a b mode => Sys2Proof.Machine.execAmax d a b mode s
  | .aslt d a b mode => Sys2Proof.Machine.execAslt d a b mode s
  | .aaddi d a x => Sys2Proof.Machine.execAaddi d a x s
  | .agset g a b c => Sys2Proof.Machine.execAgset g a b c s
  | .agsetB g a => Sys2Proof.Machine.execAgsetB g a s
  | .agnext g a => Sys2Proof.Machine.execAgnext g a s
  | .agnextW g a => Sys2Proof.Machine.execAgnextW g a s
  | .agpos g a => Sys2Proof.Machine.execAgpos g a s
  | .agrd a g sel => Sys2Proof.Machine.execAgrd a g sel s
  | .bqpush c => Sys2Proof.Machine.execBqpush c s
  | .bqskip c n => Sys2Proof.Machine.execBqskip c n s
  | .probe d a => Sys2Proof.Machine.execProbe d a s
  | .probeFillComplete ch c st w => Sys2Proof.Machine.execProbeFillComplete ch c st w s
  | .pevict a => Sys2Proof.Machine.execPevict a s
  | .probeEvictionComplete ch c st w => Sys2Proof.Machine.execProbeEvictionComplete ch c st w s
  | .rprobe d a b => Sys2Proof.Machine.execRprobe d a b s
  | .rprobeWait d a b => Sys2Proof.Machine.execRprobeWait d a b s
  | .runpin a b => Sys2Proof.Machine.execRunpin a b s
  | .atadd d a b sc => Sys2Proof.Machine.execAtadd d a b sc s
  | .atfadd d a b sc => Sys2Proof.Machine.execAtfadd d a b sc s
  | .atmin d a b sc => Sys2Proof.Machine.execAtmin d a b sc s
  | .atmax d a b sc => Sys2Proof.Machine.execAtmax d a b sc s
  | .atxch d a b sc => Sys2Proof.Machine.execAtxch d a b sc s
  | .atcas d a b c sc => Sys2Proof.Machine.execAtcas d a b c sc s
  | .ator d a b sc => Sys2Proof.Machine.execAtor d a b sc s
  | .atand d a b sc => Sys2Proof.Machine.execAtand d a b sc s
  | .fence sc => Sys2Proof.Machine.execFence sc s
  | .rel sc => Sys2Proof.Machine.execRel sc s
  | .acq sc => Sys2Proof.Machine.execAcq sc s
  | .hgive h a => Sys2Proof.Machine.execHgive h a s
  | .htake h => Sys2Proof.Machine.execHtake h s
  | .hquery d h => Sys2Proof.Machine.execHquery d h s
  | .watch n a b kind => Sys2Proof.Machine.execWatch n a b kind s
  | .sadd d a b => Sys2Proof.Machine.execSadd d a b s
  | .ssub d a b => Sys2Proof.Machine.execSsub d a b s
  | .smul d a b => Sys2Proof.Machine.execSmul d a b s
  | .sand d a b => Sys2Proof.Machine.execSand d a b s
  | .sor d a b => Sys2Proof.Machine.execSor d a b s
  | .sxor d a b => Sys2Proof.Machine.execSxor d a b s
  | .sshl d a b => Sys2Proof.Machine.execSshl d a b s
  | .sshr d a b => Sys2Proof.Machine.execSshr d a b s
  | .sfadd d a b => Sys2Proof.Machine.execSfadd d a b s
  | .sfmul d a b => Sys2Proof.Machine.execSfmul d a b s
  | .smov d x => Sys2Proof.Machine.execSmov d x s
  | .spopq d q => Sys2Proof.Machine.execSpopq d q s
  | .spushg a => Sys2Proof.Machine.execSpushg a s
  | .bqout a => Sys2Proof.Machine.execBqout a s
  | .dqcnt d => Sys2Proof.Machine.execDqcnt d s
  | .resultLanding ch c => Sys2Proof.Machine.execResultLanding ch c s
  | .vadd p d a b => Sys2Proof.Machine.execVadd p d a b s
  | .vsub p d a b => Sys2Proof.Machine.execVsub p d a b s
  | .vmul p d a b => Sys2Proof.Machine.execVmul p d a b s
  | .vmulh p d a b => Sys2Proof.Machine.execVmulh p d a b s
  | .vmin p d a b => Sys2Proof.Machine.execVmin p d a b s
  | .vmax p d a b => Sys2Proof.Machine.execVmax p d a b s
  | .vabs p d a => Sys2Proof.Machine.execVabs p d a s
  | .vneg p d a => Sys2Proof.Machine.execVneg p d a s
  | .vand p d a b => Sys2Proof.Machine.execVand p d a b s
  | .vor p d a b => Sys2Proof.Machine.execVor p d a b s
  | .vxor p d a b => Sys2Proof.Machine.execVxor p d a b s
  | .vnot p d a => Sys2Proof.Machine.execVnot p d a s
  | .vshl p d a b => Sys2Proof.Machine.execVshl p d a b s
  | .vshr p d a b => Sys2Proof.Machine.execVshr p d a b s
  | .vsar p d a b => Sys2Proof.Machine.execVsar p d a b s
  | .vadds p d a b => Sys2Proof.Machine.execVadds p d a b s
  | .vfadd p d a b => Sys2Proof.Machine.execVfadd p d a b s
  | .vfsub p d a b => Sys2Proof.Machine.execVfsub p d a b s
  | .vfmul p d a b => Sys2Proof.Machine.execVfmul p d a b s
  | .vfma p d a b => Sys2Proof.Machine.execVfma p d a b s
  | .vfmin p d a b => Sys2Proof.Machine.execVfmin p d a b s
  | .vfmax p d a b => Sys2Proof.Machine.execVfmax p d a b s
  | .vfabs p d a => Sys2Proof.Machine.execVfabs p d a s
  | .vfneg p d a => Sys2Proof.Machine.execVfneg p d a s
  | .vrcp p d a => Sys2Proof.Machine.execVrcp p d a s
  | .vrsq p d a => Sys2Proof.Machine.execVrsq p d a s
  | .vexp2 p d a => Sys2Proof.Machine.execVexp2 p d a s
  | .vlog2 p d a => Sys2Proof.Machine.execVlog2 p d a s
  | .vceq p pd a b => Sys2Proof.Machine.execVceq p pd a b s
  | .vclt p pd a b => Sys2Proof.Machine.execVclt p pd a b s
  | .vcle p pd a b => Sys2Proof.Machine.execVcle p pd a b s
  | .vfceq p pd a b => Sys2Proof.Machine.execVfceq p pd a b s
  | .vfclt p pd a b => Sys2Proof.Machine.execVfclt p pd a b s
  | .vfcle p pd a b => Sys2Proof.Machine.execVfcle p pd a b s
  | .vfcun p pd a b => Sys2Proof.Machine.execVfcun p pd a b s
  | .pand pd pa pb => Sys2Proof.Machine.execPand pd pa pb s
  | .por pd pa pb => Sys2Proof.Machine.execPor pd pa pb s
  | .pxor pd pa pb => Sys2Proof.Machine.execPxor pd pa pb s
  | .pnot pd pa => Sys2Proof.Machine.execPnot pd pa s
  | .pany sd pa => Sys2Proof.Machine.execPany sd pa s
  | .pcnt sd pa => Sys2Proof.Machine.execPcnt sd pa s
  | .vpopq p d q => Sys2Proof.Machine.execVpopq p d q s
  | .vpushq p q a => Sys2Proof.Machine.execVpushq p q a s
  | .vsel p d a b => Sys2Proof.Machine.execVsel p d a b s
  | .vbcast p d sa => Sys2Proof.Machine.execVbcast p d sa s
  | .vperm p d a b => Sys2Proof.Machine.execVperm p d a b s
  | .vrot p d a k => Sys2Proof.Machine.execVrot p d a k s
  | .vext sd a k => Sys2Proof.Machine.execVext sd a k s
  | .vins d sa k => Sys2Proof.Machine.execVins d sa k s
  | .vmov p d a => Sys2Proof.Machine.execVmov p d a s
  | .vcvt d a t => Sys2Proof.Machine.execVcvt d a t s
  | .vcvtd d a t => Sys2Proof.Machine.execVcvtd d a t s
  | .vpack d a h => Sys2Proof.Machine.execVpack d a h s
  | .vunpk d a h => Sys2Proof.Machine.execVunpk d a h s
  | .vrsum p sd a => Sys2Proof.Machine.execVrsum p sd a s
  | .vrmax p sd a => Sys2Proof.Machine.execVrmax p sd a s
  | .vrmin p sd a => Sys2Proof.Machine.execVrmin p sd a s
  | .vfrsum p sd a => Sys2Proof.Machine.execVfrsum p sd a s
  | .defer p a tag => Sys2Proof.Machine.execDefer p a tag s
  | .drain d pd => Sys2Proof.Machine.execDrain d pd s
  | .vcompnm d a mode => Sys2Proof.Machine.execVcompnm d a mode s
  | .vsett t => Sys2Proof.Machine.execVsett t s
  | .lease n => Sys2Proof.Machine.execLease n s
  | .leaseGrant ch q => Sys2Proof.Machine.execLeaseGrant ch q s
  | .leaseLapse ch c => Sys2Proof.Machine.execLeaseLapse ch c s
  | .unlease => Sys2Proof.Machine.execUnlease s
  | .mma acc ma mb => Sys2Proof.Machine.execMma acc ma mb s
  | .mmat acc ma mb => Sys2Proof.Machine.execMmat acc ma mb s
  | .furnaceCommandComplete ch c => Sys2Proof.Machine.execFurnaceCommandComplete ch c s
  | .mset mp off => Sys2Proof.Machine.execMset mp off s
  | .minc mp off => Sys2Proof.Machine.execMinc mp off s
  | .accz acc k => Sys2Proof.Machine.execAccz acc k s
  | .accrd acc m k => Sys2Proof.Machine.execAccrd acc m k s
  | .accwr acc m k => Sys2Proof.Machine.execAccwr acc m k s
  | .accwb acc dst k => Sys2Proof.Machine.execAccwb acc dst k s
  | .accmv acc s' k => Sys2Proof.Machine.execAccmv acc s' k s
  | .accrel acc k => Sys2Proof.Machine.execAccrel acc k s
  | .mwait => Sys2Proof.Machine.execMwait s
  | .fmtskip => Sys2Proof.Machine.execFmtskip s
  | .move t xq len => Sys2Proof.Machine.execMove t xq len s
  | .movePull h spo xq len => Sys2Proof.Machine.execMovePull h spo xq len s
  | .dup t xq len => Sys2Proof.Machine.execDup t xq len s
  | .drop e xq len => Sys2Proof.Machine.execDrop e xq len s
  | .promote t xq len => Sys2Proof.Machine.execPromote t xq len s
  | .move2d t xq slot => Sys2Proof.Machine.execMove2d t xq slot s
  | .move3d t xq slot => Sys2Proof.Machine.execMove3d t xq slot s
  | .xshape slot desc => Sys2Proof.Machine.execXshape slot desc s
  | .kick chn xq => Sys2Proof.Machine.execKick chn xq s
  | .chlink chn n => Sys2Proof.Machine.execChlink chn n s
  | .arrive a h xq target => Sys2Proof.Machine.execArrive a h xq target s
  | .xfill an val xq len => Sys2Proof.Machine.execXfill an val xq len s
  | .xcancel xq => Sys2Proof.Machine.execXcancel xq s
  | .xstat a xq => Sys2Proof.Machine.execXstat a xq s
  | .xfrCommandStart ch c q => Sys2Proof.Machine.execXfrCommandStart ch c q s
  | .xfrCommandComplete ch c q => Sys2Proof.Machine.execXfrCommandComplete ch c q s
  | .nmred u a => Sys2Proof.Machine.execNmred u a s
  | .nmatt u a => Sys2Proof.Machine.execNmatt u a s
  | .nmopt u a => Sys2Proof.Machine.execNmopt u a s
  | .nmmask u a => Sys2Proof.Machine.execNmmask u a s
  | .nmbankOff pc => Sys2Proof.Machine.execNmbankOff pc s
  | .nmbankOn pc => Sys2Proof.Machine.execNmbankOn pc s
  | .nmbcst pc a => Sys2Proof.Machine.execNmbcst pc a s
  | .nmbmac pc k a => Sys2Proof.Machine.execNmbmac pc k a s
  | .nmbrd pc k => Sys2Proof.Machine.execNmbrd pc k s
  | .nmpop q => Sys2Proof.Machine.execNmpop q s
  | .nmpool a n => Sys2Proof.Machine.execNmpool a n s
  | .nmarena a base => Sys2Proof.Machine.execNmarena a base s
  | .nmCommandAccept ch c => Sys2Proof.Machine.execNmCommandAccept ch c s
  | .nmResult ch c k => Sys2Proof.Machine.execNmResult ch c k s
  | .put a b sc len => Sys2Proof.Machine.execPut a b sc len s
  | .getw h a b sc len => Sys2Proof.Machine.execGetw h a b sc len s
  | .amsend a b s' sc => Sys2Proof.Machine.execAmsend a b s' sc s
  | .mrecv d e b => Sys2Proof.Machine.execMrecv d e b s
  | .mdone => Sys2Proof.Machine.execMdone s
  | .qrepair a => Sys2Proof.Machine.execQrepair a s
  | .barinit a sc h target => Sys2Proof.Machine.execBarinit a sc h target s
  | .barv a n => Sys2Proof.Machine.execBarv a n s
  | .barw a ph => Sys2Proof.Machine.execBarw a ph s
  | .barsem a k ph => Sys2Proof.Machine.execBarsem a k ph s
  | .detach t addr => Sys2Proof.Machine.execDetach t addr s
  | .join t => Sys2Proof.Machine.execJoin t s
  | .jmps off => Sys2Proof.Machine.execJmps off s
  | .brs c off => Sys2Proof.Machine.execBrs c off s
  | .cexit => Sys2Proof.Machine.execCexit s
  | .seminit k v => Sys2Proof.Machine.execSeminit k v s
  | .semadd k v => Sys2Proof.Machine.execSemadd k v s
  | .semwait k v => Sys2Proof.Machine.execSemwait k v s
  | .cfence sc => Sys2Proof.Machine.execCfence sc s
  | .xsave a part => Sys2Proof.Machine.execXsave a part s
  | .xrest a part => Sys2Proof.Machine.execXrest a part s
  | .csrrc a csr => Sys2Proof.Machine.execCsrrc a csr s
  | .csrwc csr a => Sys2Proof.Machine.execCsrwc csr a s
  | .pcfgWrite a => Sys2Proof.Machine.execPcfgWrite a s
  | .acondWrite a => Sys2Proof.Machine.execAcondWrite a s
  | .pqvaWrite a => Sys2Proof.Machine.execPqvaWrite a s
  | .frankWrite a => Sys2Proof.Machine.execFrankWrite a s
  | .ringTake ch c => Sys2Proof.Machine.execRingTake ch c s
  | .streamFetch ch c => Sys2Proof.Machine.execStreamFetch ch c s
  | .coreRejoin ch c => Sys2Proof.Machine.execCoreRejoin ch c s
  | .chairFinish ch => Sys2Proof.Machine.execChairFinish ch s
  | .queueDeadlock ch => Sys2Proof.Machine.execQueueDeadlock ch s
  | .yieldBudgetExpiry ch => Sys2Proof.Machine.execYieldBudgetExpiry ch s
  | .chairHalt ch => Sys2Proof.Machine.execChairHalt ch s
  | .preemptionRequest ctx => Sys2Proof.Machine.execPreemptionRequest ctx s
  | .softSave ch => Sys2Proof.Machine.execSoftSave ch s
  | .chairSave ch => Sys2Proof.Machine.execChairSave ch s
  | .chairRestore ctx n ch => Sys2Proof.Machine.execChairRestore ctx n ch s
  | .descriptorLoad die words job rank ranks => Sys2Proof.Machine.execDescriptorLoad die words job rank ranks s
  | .containerLoad ctx bytes => Sys2Proof.Machine.execContainerLoad ctx bytes s
  | .contextResume ctx => Sys2Proof.Machine.execContextResume ctx s
  | .contextKill ctx => Sys2Proof.Machine.execContextKill ctx s
  | .contextRelease ctx => Sys2Proof.Machine.execContextRelease ctx s
  | .launchRecord die words => Sys2Proof.Machine.execLaunchRecord die words s
  | .scoreboardTake die => Sys2Proof.Machine.execScoreboardTake die s
  | .kernelIssue die k chairs => Sys2Proof.Machine.execKernelIssue die k chairs s
  | .argumentBlockLoaded die k => Sys2Proof.Machine.execArgumentBlockLoaded die k s
  | .kernelRetire die k => Sys2Proof.Machine.execKernelRetire die k s
  | .kernelCancel die k => Sys2Proof.Machine.execKernelCancel die k s
  | .dieWithdraw die k => Sys2Proof.Machine.execDieWithdraw die k s
  | .graphLaunch die words => Sys2Proof.Machine.execGraphLaunch die words s
  | .nodeReady die g n => Sys2Proof.Machine.execNodeReady die g n s
  | .transferNodeComplete die g n => Sys2Proof.Machine.execTransferNodeComplete die g n s
  | .graphCancel die g => Sys2Proof.Machine.execGraphCancel die g s
  | .epochEnd leaf frame => Sys2Proof.Machine.execEpochEnd leaf frame s
  | .windowEnd leaf => Sys2Proof.Machine.execWindowEnd leaf s
  | .freeFramesLow die leaf host frame => Sys2Proof.Machine.execFreeFramesLow die leaf host frame s
  | .migrationComplete leaf => Sys2Proof.Machine.execMigrationComplete leaf s
  | .deepWriteCommit leaf => Sys2Proof.Machine.execDeepWriteCommit leaf s
  | .deepWriteFail leaf => Sys2Proof.Machine.execDeepWriteFail leaf s
  | .arrivalComplete leaf frame bad => Sys2Proof.Machine.execArrivalComplete leaf frame bad s
  | .scrub p => Sys2Proof.Machine.execScrub p s
  | .remap ctx va pte => Sys2Proof.Machine.execRemap ctx va pte s
  | .linkEnable l => Sys2Proof.Machine.execLinkEnable l s
  | .trainingSuccess l => Sys2Proof.Machine.execTrainingSuccess l s
  | .trainingFailure l => Sys2Proof.Machine.execTrainingFailure l s
  | .flitCrcFail l dir => Sys2Proof.Machine.execFlitCrcFail l dir s
  | .ackMissing l dir => Sys2Proof.Machine.execAckMissing l dir s
  | .replayAcknowledged l dir => Sys2Proof.Machine.execReplayAcknowledged l dir s
  | .lossResend id => Sys2Proof.Machine.execLossResend id s
  | .stopRequest => Sys2Proof.Machine.execStopRequest s
  | .linkResume l => Sys2Proof.Machine.execLinkResume l s
  | .putData k => Sys2Proof.Machine.execPutData k s
  | .getRequest k => Sys2Proof.Machine.execGetRequest k s
  | .getResponse k => Sys2Proof.Machine.execGetResponse k s
  | .messageArrival k => Sys2Proof.Machine.execMessageArrival k s
  | .barrierOperation k => Sys2Proof.Machine.execBarrierOperation k s
  | .reply k => Sys2Proof.Machine.execReply k s
  | .wavePass job sys i' c loss => Sys2Proof.Machine.execWavePass job sys i' c loss s
  | .hostWrite pa bytes => Sys2Proof.Machine.execHostWrite pa bytes s
  | .powerOn die image fails => Sys2Proof.Machine.execPowerOn die image fails s
  | .thermalThrottle die temp => Sys2Proof.Machine.execThermalThrottle die temp s
  | .thermalPreempt die temp => Sys2Proof.Machine.execThermalPreempt die temp s
  | .thermalRestore die temp => Sys2Proof.Machine.execThermalRestore die temp s
  | .mgmtRegisterWrite die off val frames => Sys2Proof.Machine.execMgmtRegisterWrite die off val frames s
  | .ggrantWrite die val => Sys2Proof.Machine.execGgrantWrite die val s
  | .keySlotWrite die slot key => Sys2Proof.Machine.execKeySlotWrite die slot key s
  | .tenantAssign ch tenant => Sys2Proof.Machine.execTenantAssign ch tenant s
  | .slotTableWrite die xfer turn tenant => Sys2Proof.Machine.execSlotTableWrite die xfer turn tenant s
  | .attestationRequest die ctx nonce => Sys2Proof.Machine.execAttestationRequest die ctx nonce s
  | .storePerformed ch c k => Sys2Proof.Machine.execStorePerformed ch c k s
  | .accumulatorWordComplete ch c k => Sys2Proof.Machine.execAccumulatorWordComplete ch c k s
  | .nearMemoryCommandComplete ch c k => Sys2Proof.Machine.execNearMemoryCommandComplete ch c k s
  | .logReadIndexAdvance ctx n => Sys2Proof.Machine.execLogReadIndexAdvance ctx n s
  | .flitReceived l dir seq => Sys2Proof.Machine.execFlitReceived l dir seq s

end Sys2Proof.Machine
end

