-- ==== Sys2Proof/Machine/Turns.lean ====
section
/-!
DEFINITION. One turn of each mover: the gaffer's fetch and issue (R17, R69 to R73, R77, R78, R85), an engine's issue
(R16, R93, R101, R113, R139), a fetched control word (R63), the chair's clock (R14), and the events that no word performs.
-/

namespace Sys2Proof.Machine

open Sys2Proof

/-- Run an instruction as the present word. -/
noncomputable def run (i : Instr) (a : Act) (s : State) : Res := exec i { s with act := a }

/-! ## The gaffer -/

/-- A branch, a jump or LBRK (R77). -/
def branches : Instr → Bool
  | .beq .. | .bne .. | .blt .. | .bge .. | .bltu .. | .bgeu .. | .jal .. | .jalr .. | .lbrk .. => true
  | _ => false

/-- A word that a delay slot may not hold (R73). -/
def slotForbids : Instr → Bool
  | .loop .. | .loopp .. | .exit | .resume | .step .. => true
  | i => branches i

/-- A word after which control does not fall through: EXIT stops, TRAP faults, RESUME leaves handler mode. -/
def staysPut : Instr → Bool
  | .exit | .trap .. | .resume => true
  | _ => false

/-- The word at PC with its literals, decoded; a third LIT in a row is a literal mismatch (R20). -/
noncomputable def gafDecode (w : Word) (lits : List (BitVec 32)) : Option Decoded :=
  if engOf w ≠ 0 then none
  else if isLit w then (if lits.length ≥ 2 then none else (decode w []).toOption)
  else (decode w lits).toOption

/-- The word stands where R17 and R77 do not let it. -/
def Gaffer.misplaced (g : Gaffer) (d : Decoded) : Bool :=
  (d.clause.stage ≠ 0 && (g.levelAt g.pc).isNone) ||
    (branches d.instr && (List.range g.depth).any fun lv =>
      let l := g.level lv
      l.start.toNat ≤ g.pc.toNat && g.pc.toNat ≤ l.last.toNat && g.pc.toNat + 1 ≥ l.last.toNat) ||
    (g.ds && (match d.instr with | .lit .. => true | _ => false))

/-- S counts the stage of every word fetched at the level that the word belongs to (R78). -/
def Gaffer.meetStage (g : Gaffer) (st : Nat) : Gaffer :=
  match g.levelAt g.pc with
  | none => g
  | some lv => if (g.level lv).s1 < st then g.setLevel lv { g.level lv with s1 := st } else g

/-- What a chair wait does: it passes, goes on waiting, or is a forward wait (R17, R85). -/
inductive Wait where
  | pass (x : Chair) | wait (x : Chair) | forward
  deriving DecidableEq, Repr, Inhabited

/-- The chair wait of the word at PC; its forward check is made anew in every turn that it waits.
DEDUCED (assumption 70). -/
def Chair.waitClause (x : Chair) (cl : Clause) : Wait :=
  let k := cl.wsem.toNat
  let n := amount cl.wcnt
  if k = 0 ∨ x.gf.waited then .pass x
  else if x.live.any fun c => x.waitCounter k c < n then .forward
  else if x.live.all fun c => (x.core c).semv k ≥ n then
    let x := x.chairTake k n
    let took := fun (x : Chair) (c : Nat) =>
      let y := x.core c
      x.setCore c { y with took := SMap.put 0 y.took k (x.cycle + 1) }
    let x := x.live.foldl took x
    .pass { x with gf := { x.gf with waited := true, waitOn := none } }
  else .wait { x with gf := { x.gf with waitOn := some (k, n) } }

/-- A word that its stage discards takes its cycle and nothing else (R78). -/
def gafDiscard (s : State) : State :=
  match s.here.advance with
  | none => raiseG 0x0A s
  | some _ => gafDone s

/-- The gaffer issues its decoded word, once its wait has passed and its registers have landed. -/
noncomputable def gafIssue (d : Decoded) (a : Act) (s : State) : Res :=
  let x := s.here
  if x.gf.ds && slotForbids d.instr then .next (raiseG 0x04 s)
  else match x.waitClause d.clause with
  | .forward => .next (raiseG 0x02 s)
  | .wait x => .next (s.setHere x)
  | .pass x =>
    let s := s.setHere x
    if x.gf.landed x.cycle d.instr = false then .next s
    else if x.advance.isNone && !staysPut d.instr then .next (raiseG 0x0A s)
    else run d.instr a (s.setHere { x with started := true })

/-- A turn of the gaffer of a chair: a word that is illegal, or stands where it may not, faults before its stage is looked
at (R20, R34, R78).
DEDUCED (assumption 24). -/
noncomputable def gafferTurn (ch : Nat) (s : State) : Res :=
  let x := s.chair ch
  if x.gafferMoves = false then .next s
  else
    let w := SMap.get 0 x.gf.isram x.gf.pc.toNat
    let a : Act := { chair := ch, w := w, lits := x.gf.lits, clause := clauseOf w }
    let s := { s with act := a }
    match gafDecode w x.gf.lits with
    | none => .next (raiseG 0x01 s)
    | some d =>
      if x.gf.misplaced d then .next (raiseG 0x01 s)
      else
        let lit : Bool := match d.instr with | .lit .. => true | _ => false
        let st := d.clause.stage
        let s := if lit then s else s.setGf (s.gf.meetStage st)
        if !lit && !s.gf.stageOn st then .next (gafDiscard s) else gafIssue d a s

/-! ## Engines -/

/-- The wait clause of the head word of an engine, with key 8 that of a fetched control word: whether it has passed
(R16, R103, R105).
DEDUCED (assumption 64). -/
def Chair.engineWait (x : Chair) (c e : Nat) (cl : Clause) : Bool × Chair :=
  let y := x.core c
  let k := cl.wsem.toNat
  if k = 0 ∨ SMap.get false y.waited e then (true, x)
  else if x.waitPasses c e k (amount cl.wcnt) then
    let y := y.takeSem k (amount cl.wcnt) x.cycle
    (true, x.setCore c { y with waited := SMap.put false y.waited e true, since := SMap.del y.since e })
  else (false, x.setCore c (y.beginWait e x.cycle))

/-- A turn of engine `e` of a core: its head word issues (R13). -/
noncomputable def engineTurn (ch c e : Nat) (s : State) : Res :=
  let x := s.chair ch
  let y := x.core c
  match headUnit (y.queue e) with
  | none => .next s
  | some (lits, q, _) =>
    if x.open_ = false ∨ e = 0 ∨ e > 7 ∨ y.mayStart e x.cycle q = false then .next s
    else
      let cl := clauseOf q.w
      let a : Act := { chair := ch, core := c, eng := e, clause := cl, prov := q.prov, lis := q.lis, w := q.w,
                       lits := lits, n := q.n }
      match x.engineWait c e cl with
      | (false, x) => .next (s.setChair ch x)
      | (true, x) =>
        let s := { s.setChair ch x with act := a }
        if e = 1 ∧ s.aside.skip > 0 then .next (skipWord s)
        else match (decode q.w lits).toOption with
        | none => .next s
        | some d => if e = 1 ∧ s.aside.landed d.instr = false then .next s else run d.instr a s

/-- A core runs the control word that it has fetched from its stream (R63). -/
noncomputable def controlTurn (ch c : Nat) (s : State) : Res :=
  let x := s.chair ch
  let y := x.core c
  match y.buf with
  | none => .next s
  | some q =>
    if x.open_ = false then .next s
    else
      let cl := clauseOf q.w
      let a : Act := { chair := ch, core := c, clause := cl, prov := q.prov, lis := q.lis, w := q.w, n := q.n }
      match x.engineWait c 8 cl with
      | (false, x) => .next (s.setChair ch x)
      | (true, x) =>
        match (decode q.w []).toOption with
        | none => .next s
        | some d => run d.instr a (s.setChair ch x)

/-! ## The chair's clock (R14) -/

/-- A grant of quad `q` can be made, and replay does not make it wait (R190, R355). -/
def grantDue (ch q : Nat) (s : State) : Bool :=
  match grantTo ch q s with
  | none => false
  | some c =>
    let v := [BitVec.ofNat 8 q, BitVec.ofNat 8 c]
    match replayGate (s.ctxOf ch) ch rrGrant (fun e => e.take 2 == v) s with
    | .wait => false
    | _ => true

/-- The engines of a core, with 8 for a fetched control word. -/
def waiters : List Nat := (List.range 8).map (· + 1)

/-- A wait of the chair or of an engine can pass in this cycle, so it does before the cycle ends (R103, R105). -/
def Chair.waitDue (x : Chair) : Bool :=
  (x.gafferMoves && (match x.gf.waitOn with
    | some (k, n) => x.live.all fun c => (x.core c).semv k ≥ n
    | none => false)) ||
    (x.open_ && (List.range 16).any fun c => waiters.any fun e => match (x.core c).waitsNow e x.cycle with
      | some (k, n) => x.waitPasses c e k n
      | none => false)

/-- The X-side of a core would issue its head word, or stop at it, in this cycle: nothing but its three stalls delays it
(R139). -/
noncomputable def xsideDue (ch c : Nat) (s : State) : Bool :=
  match engineTurn ch c 2 s with
  | .next t => (t.core ch c).queue 2 ≠ (s.core ch c).queue 2 || (t.core ch c).rec_ ≠ (s.core ch c).rec_
  | _ => false

/-- The gaffer would issue its word, or fault at it, in this cycle: one word a cycle (R69). -/
noncomputable def gafferDue (ch : Nat) (s : State) : Bool :=
  let x := s.chair ch
  x.gafferMoves && (match gafferTurn ch s with
    | .next t =>
      let y := t.chair ch
      y.gf.issued == some x.cycle || y.gfault.isSome || y.halt ≠ x.halt || y.st ≠ x.st || y.frame ≠ x.frame
    | _ => false)

/-- What falls due in the present cycle has all been done: halts and expiries, waits that can pass, words of the gaffer
and of the X-side, furnace commands whose cycles are over, lapses and grants, and the queue-deadlock fault (R69, R97, R103, R139, R189,
R190, R197, R356). -/
noncomputable def cycleOver (ch : Nat) (s : State) : Bool :=
  let x := s.chair ch
  !x.haltDue && !budgetDue s ch && !x.waitDue && !gafferDue ch s && !deadlocked ch s && (List.range 16).all (fun c =>
    !((x.core c).x.fly.any fun r => r.at_ ≤ x.cycle) && !lapseDue x c && !(x.core c).m.mmaDue x.cycle &&
      !xsideDue ch c s) &&
    (List.range 4).all fun q => !grantDue ch q s

/-- The waits that go on begin to wait in this cycle, where they have not before (R105). -/
def Core.beginWaits (y : Core) (cycle : Nat) : Core :=
  waiters.foldl (fun y e => if (y.waitsNow e cycle).isSome then y.beginWait e cycle else y) y

/-- Core `c` sees the new cycle: additions put off to it, results of the X-side and for A-side registers, and barrier
words that have passed (R105, R141, R237, R284). -/
def coreTick (ch : Nat) (s : State) (c : Nat) : State :=
  let s := addPutOff ch c s
  passWords ch c (landLate ch c (landDue ch c (s.core ch c).x.fly.length s))

/-- Each core sees the new cycle. -/
def coresTick (ch : Nat) (s : State) : State := (List.range 16).foldl (coreTick ch) (seeWords s)

/-- The chair's clock moves on by one cycle.  Its own counter counts in every state of the chair (R14), but that a frame
that is due closes first; in handler mode the yield budget counts too (R232). -/
noncomputable def cycleTurn (ch : Nat) (s : State) : State :=
  let x := s.chair ch
  let on := fun (x : Chair) => { x with clock := x.clock + 1, cycle := x.cycle + 1, budget := x.budget + 1 }
  if ch ≥ 256 ∨ x.haltDue then s
  else if x.working = false then s.setChair ch { x with clock := x.clock + 1 }
  else if x.st ≠ .run then (if budgetDue s ch || gafferDue ch s then s else s.setChair ch (on x))
  else if cycleOver ch s = false then s
  else coresTick ch (s.setChair ch (on (x.mapCores fun c y => Core.idleTick x c (y.beginWaits x.cycle))))

/-! ## Events -/

/-- The word that stands before a core is one that R34 admits there, with the literals before it. -/
noncomputable def admits (inStream : Bool) (w : Word) (lits : List (BitVec 32)) : Bool :=
  if engOf w = 0 then false
  else if isLit w then lits.length < 2 && (decode w []).toOption.isSome
  else match (decode w lits).toOption with
  | none => false
  | some d => placeOk inStream d.instr

/-- The word that a core would take from the ring or fetch from its stream next. -/
def nextWord (ch c : Nat) (inStream : Bool) (s : State) : Option Word :=
  let x := s.chair ch
  let y := x.core c
  if inStream then (walk s (s.ctxOf ch) y.spc).map fun t => s.mem.word (t.pa y.spc)
  else match (SMap.get {} x.ring (y.pos.toNat % 256)).item with
  | .word w => some w
  | .joinpt _ => none

/-- The check of the next word of a core. -/
noncomputable def lawful (ch c : Nat) (inStream : Bool) (s : State) : Bool :=
  match nextWord ch c inStream s with
  | none => true
  | some w => admits inStream w (tailLits ((s.core ch c).queue (engOf w)))

/-- An event may happen while every unit is stopped (R312).
DEDUCED (assumption 60). -/
def whileStopped : Instr → Bool
  | .linkResume .. | .stopRequest | .wavePass .. => true
  | _ => false

/-- A step that no word performs.
DESIGN CHOICE (assumption 6). -/
noncomputable def eventTurn (i : Instr) (s : State) : Res :=
  if i.engine.isSome then .next s
  else match i with
  | .ringTake ch c => run i { lawful := lawful ch c false s } s
  | .streamFetch ch c => run i { lawful := lawful ch c true s } s
  | i => run i {} s

/-- An atom of a space takes an uncorrectable error; a VACANT one is never reported (R161, R217). -/
def Space.upset (m : Space) (i : Nat) : Space :=
  if m.errs.contains i ∨ m.atom i = .vacant ∨ m.atom i = .poison then m else { m with errs := m.errs ++ [i] }

/-- A packet comes in from another package of its job, over a spoke link that is UP, and is at the hub (R9, R292, R296). -/
def inboundTurn (p : Pkt) (s : State) : State :=
  match rankCtx s p.job p.drank with
  | none => s
  | some k =>
    let up := (List.range 16).any fun i => (s.link (Config.spokeBase + i)).st == .up
    if p.srank = (s.ctx k).rank ∨ (s.ctx k).ranks.contains p.srank = false ∨ up = false then s
    else sendAll [{ p with ctx := k, pkg := false, pos := none }] s

/-- One turn. -/
noncomputable def takeTurn (t : Turn) (s : State) : Res :=
  match t with
  | .event i => if s.stopped && !whileStopped i then .next s else eventTurn i s
  | t =>
    if s.stopped then .next s
    else match t with
    | .event _ => .next s
    | .gaffer ch => gafferTurn ch s
    | .engine ch c e => engineTurn ch c e s
    | .control ch c => controlTurn ch c s
    | .cycle ch => .next (cycleTurn ch s)
    | .atom ch c q => .next (if xferRuns ch s then xAtom ch c q s else s)
    | .flit l dir pkt => .next (sendFlit l dir pkt s)
    | .tile ch c k => .next (tileStep ch c k s)
    | .row ch c k => .next (nmRowTurn ch c k s)
    | .load k => .next (loadTurn k s)
    | .replayed ch => .next (replayedWrite ch s)
    | .sense die temp => .next (senseTurn die temp s)
    | .upset pa => .next { s with mem := s.mem.upset (pa / 32) }
    | .upsetSpad ch c off => .next (s.updCore ch c fun y => { y with spad := y.spad.upset (off / 32) })
    | .upsetTile ch c t => .next (s.updCore ch c fun y =>
        { y with m := y.m.setTile t { y.m.tile t with err := (y.m.tile t).st ≠ .vacant } })
    | .land num => .next (landTurn num s)
    | .inbound p => .next (inboundTurn p s)

/-! ## Placing a word -/

/-- Chair 0 in RUN for a RUNNING context 0 with a yield budget. -/
def State.withChair (s : State) : State :=
  let x := s.chair 0
  let c := s.ctx 0
  let s := s.setCtx 0 { c with st := .running, chairs := [0], desc := [0, BitVec.ofNat 64 65536] ++ c.desc.drop 2 }
  s.setChair 0 { x with st := .run, ctx := some 0, halt := none, gfault := none }

/-- A word that only a stream's core runs (R63). -/
def isStreamWord (w : Word) : Bool := !isLit w && isControl w

/-- The state in which the next step runs a word, with the zero literals it needs. -/
def State.placeWord (s : State) (w : Word) : State :=
  let s := s.withChair
  let e := engOf w
  let n := if isLit w then 0 else litNeed e (field 32 8 w).toNat
  let x := s.chair 0
  if e = 0 then
    let g := { x.gf with
      isram := SMap.put 0 x.gf.isram x.gf.pc.toNat w, lits := List.replicate n 0, ds := false, exited := false,
      save := none, issued := none, waited := false }
    { s.setChair 0 { x with gf := g } with agenda := [.gaffer 0] }
  else
    let y := x.core 0
    if isStreamWord w then
      let y := { y with phase := .detached, buf := some { w := w }, waited := SMap.put false y.waited 8 false }
      { s.setChair 0 (x.setCore 0 y) with agenda := [.control 0 0] }
    else
      let lit : QWord := { w := BitVec.ofNat 64 (e * 2 ^ 40 + 0xFF * 2 ^ 32) }
      let y := (({ y with issued := [], pushed := [], waited := SMap.put false y.waited e false,
                          f := { y.f with cap := none }, n := { y.n with cap := none } } : Core).setQueue e
        (List.replicate n lit ++ [({ w := w } : QWord)]))
      { s.setChair 0 (x.setCore 0 y) with agenda := [.engine 0 0 e] }

end Sys2Proof.Machine
end

