-- ==== Sys2Proof/Machine/Step.lean ====
section
/-!
DEFINITION. One step of the package, and the state in which a given word is the next to run.

A step is one turn.  The turns asked for stand in `agenda`; when none stands there, the free value chooses one.
-/

namespace Sys2Proof.Machine

open Sys2Proof

/-- The next turn, and the state in which it is taken.
DESIGN CHOICE (assumption 1). -/
def State.nextTurn (s : State) : Turn × State :=
  match s.agenda with
  | t :: ts => (t, { s with agenda := ts })
  | [] => (Config.freeTurn s.tick, { s with tick := s.tick + 1 })

/-- One step. -/
noncomputable def step (s : State) : Host.Outcome State Fault Refusal :=
  takeTurn s.nextTurn.1 s.nextTurn.2

/-- `s` with a word placed where the next step runs it: chair 0 runs context 0, the word's literals are zero, and the
agenda names the mover. -/
def State.withFetchWord (s : State) (nbits w : Nat) : State := s.placeWord (BitVec.ofNat 64 (w % 2 ^ nbits))

end Sys2Proof.Machine
end

