-- ==== Sys2Proof/Safety.lean ====
section
/-!
DEFINITION. What counts as a safe state and a safe run, and the frames in which claims say what a step leaves as it was.
-/

namespace Sys2Proof.Machine

open Sys2Proof

/-! ## Canonical memory -/

/-- The canonical form of a space: addresses rise strictly, and nothing listed is what an unlisted place reads as. -/
def Space.wf (m : Space) : Bool := SMap.canon 0 m.bytes && SMap.canon .vacant m.atoms

/-- Memory and the deep tier are in canonical form. -/
def State.wf (s : State) : Bool := s.mem.wf && s.deep.wf

/-! ## Runs -/

/-- The states that `n` steps reach from `s`. -/
inductive Reaches : State → State → Prop where
  | refl (s : State) : Reaches s s
  | step {s t u : State} (h : Reaches s t) (next : Machine.step t = .next u) : Reaches s u

/-- A safe run: every state it reaches has its memory in canonical form, and from each of them the machine goes on. -/
def Safe (s : State) : Prop := ∀ t, Reaches s t → t.wf = true ∧ ∃ u, Machine.step t = .next u

/-! ## Frames -/

/-- Every byte and every atom of memory reads as before. -/
def sameMem (s t : State) : Prop :=
  (∀ a, t.mem.byte a = s.mem.byte a) ∧ (∀ i, t.mem.atom i = s.mem.atom i)

/-- Every byte and every atom of memory, of the deep tier and of every scratchpad reads as before. -/
def sameMemory (s t : State) : Prop :=
  sameMem s t ∧ (∀ a, t.deep.byte a = s.deep.byte a) ∧ (∀ i, t.deep.atom i = s.deep.atom i) ∧
    (∀ ch c a, (t.core ch c).spad.byte a = (s.core ch c).spad.byte a) ∧
    (∀ ch c i, (t.core ch c).spad.atom i = (s.core ch c).spad.atom i)

/-- Nothing but the chairs has changed. -/
def onlyChairs (s t : State) : Prop := t = { s with chairs := t.chairs }

/-- Nothing but chair `ch` has changed. -/
def onlyChair (ch : Nat) (s t : State) : Prop := onlyChairs s t ∧ ∀ e, e ≠ ch → t.chair e = s.chair e

/-- Nothing but the gaffer of the running word's chair has changed, and memory reads as before. -/
def onlyGaffer (s t : State) : Prop :=
  onlyChair s.act.chair s t ∧ t.here = { s.here with gf := t.gf } ∧ sameMemory s t

/-- The flow of control: what going on from a gaffer word may change besides what the word itself writes. -/
def sameButFlow (g h : Gaffer) : Prop :=
  h = { g with
    pc := h.pc, ds := h.ds, dt := h.dt, taken := h.taken, leave := h.leave, levels := h.levels, depth := h.depth,
    drain := h.drain, untaken := h.untaken, save := h.save, waited := h.waited }

/-- The word at PC ends no pass of a loop, fills no delay slot and is not the last of instruction SRAM. -/
def Gaffer.plain (g : Gaffer) : Prop :=
  g.ds = false ∧ g.pc.toNat < 8191 ∧ ∀ lv, lv < g.depth → (g.level lv).last ≠ g.pc

/-- A gaffer word has run in `s` and left the gaffer as `g`, its issue and the flow of control apart: no other chair, no
core and no memory has changed; from a plain word control goes on to the next one. -/
def gafWord (s t : State) (g : Gaffer) : Prop :=
  onlyChair s.act.chair s t ∧
    t.here = { s.here with gf := t.gf, budget := t.here.budget, halt := t.here.halt } ∧
    sameButFlow (g.spent s.here.cycle) t.gf ∧
    (g.depth = 0 → t.here.budget = s.here.budget ∧ t.here.halt = s.here.halt) ∧
    (g.plain → t.gf = { g.spent s.here.cycle with pc := g.pc + 1 } ∧
      t.here.budget = s.here.budget ∧ t.here.halt = s.here.halt) ∧
    sameMemory s t

/-- Nothing but core `c` of chair `ch` has changed. -/
def onlyCore (ch c : Nat) (s t : State) : Prop :=
  onlyChair ch s t ∧ t.chair ch = { s.chair ch with cores := (t.chair ch).cores } ∧
    ∀ e, e ≠ c → t.core ch e = s.core ch e

/-- The running word has left its engine's queue with nothing signalled yet, and its core is `y` apart from that. -/
def engTaken (s t : State) (y : Core) : Prop := t = s.setMe (y.retire s.act.eng s.here.cycle)

/-- The signal clause of the running word: its semaphore and amount (R16). -/
def State.signals (s : State) (k : Nat) : Nat :=
  if k ≠ 0 ∧ k = s.act.clause.ssem.toNat then amount s.act.clause.scnt else 0

/-- The running word's addition to semaphore `k` of core `y` belongs to a later cycle: a wait on the semaphore has passed in
this one (R105), or it would overflow in a frozen chair (R224). -/
def State.putsOff (s : State) (y : Core) (k : Nat) : Bool :=
  (s.here.st == .run && SMap.get 0 y.took k == s.here.cycle + 1) || (!s.here.open_ && y.semv k + s.signals k > 0xFFFF)

/-- The running word has left its engine's queue, its signal clause has been added or put off, and its core is `y` apart
from that: no other chair, no other core and no memory has changed (R16, R105, R106). -/
def engWord (s t : State) (y : Core) : Prop :=
  onlyChair s.act.chair s t ∧
    t.here = { s.here with cores := t.here.cores, halt := t.here.halt } ∧
    (∀ e, e ≠ s.act.core → t.here.core e = s.here.core e) ∧
    t.me = { y.retire s.act.eng s.here.cycle with
      sem := t.me.sem, adds := t.me.adds, rec_ := t.me.rec_, later := t.me.later } ∧
    (∀ k, t.me.semv k = if s.signals k = 0 ∨ s.putsOff y k then y.semv k else Nat.min (y.semv k + s.signals k) 0xFFFF) ∧
    (∀ k, s.signals k ≠ 0 → t.me.later =
      if s.putsOff y k then y.later ++ [(k, s.signals k, s.sig, s.act.eng)] else y.later) ∧
    ((∀ k, s.signals k = 0) → t.me.later = y.later) ∧
    ((∀ k, y.semv k + s.signals k ≤ 0xFFFF) → t.here.halt = s.here.halt ∧ t.me.rec_ = y.rec_)

end Sys2Proof.Machine
end

