-- ==== Sys2Proof/Certificates/Slice0/Obligations.lean ====
section
/-!
DEFINITION. The statements about the machine, for the provers: each formalises rules of the manual, named in its
docstring, or says that it rests on a choice of the model's and names the log entry.
-/

/-! ## The gaffer's words -/

namespace Sys2Proof.Claims

open Sys2Proof Sys2Proof.Machine

/-- What the tables of R74 and R75 give: the register written, its value and the cycles until it lands (R69), from the
integers that the registers hold. -/
def gafValue (g : Gaffer) : Instr → Option (BitVec 6 × Word × Nat)
  | .add d a b => some (d, .ofInt 64 ((g.reg a).toInt + (g.reg b).toInt), 1)
  | .sub d a b => some (d, .ofInt 64 ((g.reg a).toInt - (g.reg b).toInt), 1)
  | .mul d a b => some (d, .ofInt 64 ((g.reg a).toInt * (g.reg b).toInt), 3)
  | .mulh d a b => some (d, .ofInt 64 ((g.reg a).toInt * (g.reg b).toInt / 2 ^ 64), 3)
  | .mulhu d a b => some (d, .ofNat 64 ((g.reg a).toNat * (g.reg b).toNat / 2 ^ 64), 3)
  | .div d a b => some (d, if g.reg b = 0 then .ofInt 64 (-1) else .ofInt 64 ((g.reg a).toInt.tdiv (g.reg b).toInt), 24)
  | .divu d a b =>
    some (d, if g.reg b = 0 then .ofNat 64 (2 ^ 64 - 1) else .ofNat 64 ((g.reg a).toNat / (g.reg b).toNat), 24)
  | .rem d a b => some (d, if g.reg b = 0 then g.reg a else .ofInt 64 ((g.reg a).toInt.tmod (g.reg b).toInt), 24)
  | .and d a b => some (d, .ofNat 64 ((g.reg a).toNat &&& (g.reg b).toNat), 1)
  | .or d a b => some (d, .ofNat 64 ((g.reg a).toNat ||| (g.reg b).toNat), 1)
  | .xor d a b => some (d, .ofNat 64 ((g.reg a).toNat ^^^ (g.reg b).toNat), 1)
  | .shl d a b => some (d, .ofNat 64 ((g.reg a).toNat * 2 ^ ((g.reg b).toNat % 64)), 1)
  | .shr d a b => some (d, .ofNat 64 ((g.reg a).toNat / 2 ^ ((g.reg b).toNat % 64)), 1)
  | .sar d a b => some (d, .ofInt 64 ((g.reg a).toInt / 2 ^ ((g.reg b).toNat % 64)), 1)
  | .min d a b => some (d, .ofInt 64 (Min.min (g.reg a).toInt (g.reg b).toInt), 1)
  | .max d a b => some (d, .ofInt 64 (Max.max (g.reg a).toInt (g.reg b).toInt), 1)
  | .minu d a b => some (d, .ofNat 64 (Min.min (g.reg a).toNat (g.reg b).toNat), 1)
  | .maxu d a b => some (d, .ofNat 64 (Max.max (g.reg a).toNat (g.reg b).toNat), 1)
  | .seq d a b => some (d, if g.reg a = g.reg b then 1 else 0, 1)
  | .slt d a b => some (d, if (g.reg a).toInt < (g.reg b).toInt then 1 else 0, 1)
  | .sltu d a b => some (d, if (g.reg a).toNat < (g.reg b).toNat then 1 else 0, 1)
  | .bfx d a pos wm1 => some (d, .ofNat 64 ((g.reg a).toNat / 2 ^ pos.toNat % 2 ^ (wm1.toNat + 1)), 1)
  | .bfi d a pos wm1 =>
    some (d, .ofNat 64 ((g.reg d).toNat / 2 ^ (pos.toNat + wm1.toNat + 1) * 2 ^ (pos.toNat + wm1.toNat + 1) +
      (g.reg a).toNat % 2 ^ (wm1.toNat + 1) * 2 ^ pos.toNat + (g.reg d).toNat % 2 ^ pos.toNat), 1)
  | .clz d a => some (d, .ofNat 64 ((List.range 64).countP fun i => decide ((g.reg a).toNat < 2 ^ i)), 1)
  | .popc d a => some (d, .ofNat 64 ((List.range 64).countP fun i => (g.reg a).getLsbD i), 1)
  | .addi d a imm => some (d, .ofInt 64 ((g.reg a).toInt + imm.toInt), 1)
  | .andi d a imm => some (d, .ofNat 64 ((g.reg a).toNat &&& imm.toNat), 1)
  | .ori d a imm => some (d, .ofNat 64 ((g.reg a).toNat ||| imm.toNat), 1)
  | .xori d a imm => some (d, .ofNat 64 ((g.reg a).toNat ^^^ imm.toNat), 1)
  | .shli d a sh => some (d, .ofNat 64 ((g.reg a).toNat * 2 ^ sh.toNat), 1)
  | .shri d a sh => some (d, .ofNat 64 ((g.reg a).toNat / 2 ^ sh.toNat), 1)
  | .sari d a sh => some (d, .ofInt 64 ((g.reg a).toInt / 2 ^ sh.toNat), 1)
  | .slti d a imm => some (d, if (g.reg a).toInt < imm.toInt then 1 else 0, 1)
  | .lui d imm => some (d, .ofInt 64 (imm.toInt * 2 ^ 12), 1)
  | _ => none

/-- The gaffer's result `v` has gone to register `d`, g0 excepted, landing after `lat` cycles; nothing else has changed
but the issue of the word and the flow of control. -/
def gafWrites (s t : State) (d : BitVec 6) (v : Word) (lat : Nat) : Prop :=
  (∀ r, t.gf.reg r = if r = d ∧ d ≠ 0 then v else s.gf.reg r) ∧
    (∀ r, SMap.get 0 t.gf.ready r = if r = d.toNat ∧ d ≠ 0 then s.here.cycle + lat else SMap.get 0 s.gf.ready r) ∧
    gafWord s t { s.gf with g := t.gf.g, ready := t.gf.ready }

/-- The result of a word that reads the chair: DETQ, SEMRD and CSRR (R70, R87, R89, R227). -/
def gafReads (s : State) : Instr → Option (BitVec 6 × Word)
  | .detq d sel => some (d, s.here.phaseMask fun p =>
      if sel = 0 then p == .leaving || p == .detached || p == .joining else if sel = 1 then p == .exited
      else p == .drafting)
  | .semrd d k =>
    some (d, .ofNat 64 (leastNat (((List.range 16).filter fun c => (s.here.core c).phase ≠ .exited).map fun c =>
      (s.here.core c).semv k.toNat)))
  | .csrr d csr => some (d, gafCsr s csr.toNat)
  | _ => none

/-- A branch's condition, its target and the register that takes the link (R72). -/
def branchOf (g : Gaffer) : Instr → Option (Bool × Int × BitVec 6)
  | .beq a b off => some (decide (g.reg a = g.reg b), g.pc.toNat + off.toInt, 0)
  | .bne a b off => some (decide (g.reg a ≠ g.reg b), g.pc.toNat + off.toInt, 0)
  | .blt a b off => some (decide ((g.reg a).toInt < (g.reg b).toInt), g.pc.toNat + off.toInt, 0)
  | .bge a b off => some (decide ((g.reg b).toInt ≤ (g.reg a).toInt), g.pc.toNat + off.toInt, 0)
  | .bltu a b off => some (decide ((g.reg a).toNat < (g.reg b).toNat), g.pc.toNat + off.toInt, 0)
  | .bgeu a b off => some (decide ((g.reg b).toNat ≤ (g.reg a).toNat), g.pc.toNat + off.toInt, 0)
  | .jal l off => some (true, g.pc.toNat + off.toInt, l)
  | .jalr d a imm => some (true, ((((g.reg a).toNat : Int) + imm.toInt) % 2 ^ 64), d)
  | _ => none

/-- A branch may go to a word: it lies in instruction SRAM and, in a loop, in the innermost body (R72, R77). -/
def mayGo (g : Gaffer) (t : Int) : Prop :=
  0 ≤ t ∧ t ≤ 8191 ∧
    (g.depth = 0 ∨ ((g.level (g.depth - 1)).start.toNat ≤ t ∧ t ≤ (g.level (g.depth - 1)).last.toNat))

/-- The template with its low half spliced (R80). -/
def spliced (l : BitVec 64) (v : Word) (sh : BitVec 5) : Word :=
  .ofNat 64 (l.toNat / 2 ^ 32 * 2 ^ 32 + (l.toNat % 2 ^ 32 ||| v.toNat * 2 ^ sh.toNat % 2 ^ 32))

end Sys2Proof.Claims

open Sys2Proof Sys2Proof.Machine Sys2Proof.Claims

/-- R74, R75, R69: the arithmetic, logical, shift, compare and bit-field words of the gaffer write the register the tables
give with the value the tables give, and nothing else but the flow of control. -/
def Obligations.GafferArithmeticWritesItsResult : Prop :=
  ∀ (i : Instr) (s : State) (d : BitVec 6) (v : Word) (lat : Nat), wellFormed i = true →
    gafValue s.gf i = some (d, v, lat) → ∃ t, exec i s = .next t ∧ gafWrites s t d v lat

/-- R87, R89, R70, R227: DETQ, SEMRD and CSRR write their register with what they read of the chair, and nothing else. -/
def Sys2Proof.Claims.gafferReadsOfTheChairWriteTheirRegister : Prop :=
  ∀ (i : Instr) (s : State) (d : BitVec 6) (v : Word), gafReads s i = some (d, v) →
    ∃ t, exec i s = .next t ∧ gafWrites s t d v 1

/-- R70, R14, R68: the loop and emission CSRs read lc0 to lc3, li0 to li3, the next ESN and the cycle counter.
That li holds the low 32 bits of a pass index is the model's choice of assumption 24. -/
def Sys2Proof.Claims.gafferCsrsReadLoopAndEmissionState : Prop :=
  ∀ s : State,
    (∀ lv, lv < 4 → gafCsr s (0x020 + lv) = BitVec.ofNat 64 (s.gf.level lv).n) ∧
    (∀ lv, lv < 4 → gafCsr s (0x024 + lv) = BitVec.ofNat 64 ((s.gf.level lv).k % 2 ^ 32)) ∧
    gafCsr s 0x028 = s.gf.head.setWidth 64 ∧ gafCsr s 0x029 = BitVec.ofNat 64 s.here.clock

/-- R87, R89, R70, R227, R14, R68: DETQ, SEMRD and CSRR write their register with what they read of the chair; among the CSRs are
the loop state, the next ESN and the cycle counter. -/
def Sys2Proof.Claims.gafferReadsOfTheChair : Prop :=
  gafferReadsOfTheChairWriteTheirRegister ∧ gafferCsrsReadLoopAndEmissionState

/-- R89, R72, R78: NOP changes nothing but the flow of control; the word after a taken branch's delay slot is its target,
and the word at the end of a pass goes on with the next pass or past the end of the level. -/
def Sys2Proof.Claims.nopMovesOnlyTheFlowOfControl : Prop :=
  ∀ s : State, ∃ t, exec .nop s = .next t ∧ gafWord s t s.gf ∧
    (s.gf.ds = true → s.gf.leave = none → s.gf.taken = true → t.gf.pc = s.gf.dt ∧ t.gf.ds = false) ∧
    (∀ lv, s.gf.ds = false → s.gf.depth = lv + 1 → (s.gf.level lv).pre = false → s.gf.pc = (s.gf.level lv).last →
      (s.gf.level lv).start.toNat ≤ (s.gf.level lv).last.toNat →
      (s.gf.level lv).k + 1 < (s.gf.level lv).n + (s.gf.level lv).s1 →
      s.gf.drain = none →
      t.gf.pc = (s.gf.level lv).start ∧ t.gf.depth = s.gf.depth ∧ (t.gf.level lv).k = (s.gf.level lv).k + 1) ∧
    (s.gf.ds = false → s.gf.depth = 1 → (s.gf.level 0).pre = false → s.gf.pc = (s.gf.level 0).last →
      s.gf.pc.toNat < 8191 → (s.gf.level 0).start.toNat ≤ (s.gf.level 0).last.toNat → s.gf.drain = none →
      (s.gf.level 0).n + (s.gf.level 0).s1 ≤ (s.gf.level 0).k + 1 → t.gf.pc = s.gf.pc + 1 ∧ t.gf.depth = 0)

/-- R76: a load or store of data SRAM at an aligned address inside it moves its bytes, least significant first; any other
address is a local-access fault; and their words have the opcodes given.
That the register is read as an unsigned number is the model's choice of assumption 76. -/
def Obligations.DataSramAccesses : Prop :=
  ∀ (s : State) (d a : BitVec 6) (imm : BitVec 20) (p : Nat),
    (((s.gf.reg a).toNat : Int) + imm.toInt = p → p % 8 = 0 → p + 8 ≤ 0x10000 →
      (∃ t, exec (.ldl d a imm) s = .next t ∧ gafWrites s t d (.ofNat 64 (s.gf.sram p 8)) 1) ∧
      ∃ t, exec (.stl d a imm) s = .next t ∧ gafWord s t { s.gf with dsram := t.gf.dsram } ∧
        ∀ q, SMap.get 0 t.gf.dsram q =
          if p ≤ q ∧ q < p + 8 then (s.gf.reg d).extractLsb' (8 * (q - p)) 8 else SMap.get 0 s.gf.dsram q) ∧
    (((s.gf.reg a).toNat : Int) + imm.toInt = p → p % 4 = 0 → p + 4 ≤ 0x10000 →
      (∃ t, exec (.ldlw d a imm) s = .next t ∧
        gafWrites s t d ((BitVec.ofNat 32 (s.gf.sram p 4)).signExtend 64) 1) ∧
      ∃ t, exec (.stlw d a imm) s = .next t ∧ gafWord s t { s.gf with dsram := t.gf.dsram } ∧
        ∀ q, SMap.get 0 t.gf.dsram q =
          if p ≤ q ∧ q < p + 4 then (s.gf.reg d).extractLsb' (8 * (q - p)) 8 else SMap.get 0 s.gf.dsram q) ∧
    ((∀ p : Nat, ((s.gf.reg a).toNat : Int) + imm.toInt = p → p % 8 = 0 → 0x10000 < p + 8) →
      exec (.ldl d a imm) s = .next (raiseG 0x06 s) ∧ exec (.stl d a imm) s = .next (raiseG 0x06 s)) ∧
    ((∀ p : Nat, ((s.gf.reg a).toNat : Int) + imm.toInt = p → p % 4 = 0 → 0x10000 < p + 4) →
      exec (.ldlw d a imm) s = .next (raiseG 0x06 s) ∧ exec (.stlw d a imm) s = .next (raiseG 0x06 s)) ∧
    (encode ⟨{}, .ldl d a imm⟩).map (field 32 8) = [0x30] ∧ (encode ⟨{}, .stl d a imm⟩).map (field 32 8) = [0x31] ∧
    (encode ⟨{}, .ldlw d a imm⟩).map (field 32 8) = [0x32] ∧ (encode ⟨{}, .stlw d a imm⟩).map (field 32 8) = [0x33]

/-- R72, R77: a branch or jump that may go where it goes leaves its one delay slot pending, with its target if it is
taken, and writes PC + 2 to its link register; a taken one that may not is a control-target fault. -/
def Obligations.BranchesLeaveADelaySlot : Prop :=
  ∀ (i : Instr) (s : State) (taken : Bool) (target : Int) (link : BitVec 6),
    branchOf s.gf i = some (taken, target, link) →
    ((taken = true → mayGo s.gf target) →
      ∃ t, exec i s = .next t ∧ onlyGaffer s t ∧
        t.gf = { s.gf.spent s.here.cycle with
          g := t.gf.g, ready := t.gf.ready, ds := true, taken := taken, dt := t.gf.dt, leave := none,
          pc := s.gf.pc + 1 } ∧
        (taken = true → (t.gf.dt.toNat : Int) = target) ∧
        ∀ r, t.gf.reg r = if r = link ∧ link ≠ 0 then .ofNat 64 (s.gf.pc.toNat + 2) else s.gf.reg r) ∧
    (taken = true → ¬mayGo s.gf target → exec i s = .next (raiseG 0x0A s))

/-- R77, R78, R79: LOOP, and LOOPP with no pre-emption to take, start their level at pass 0, or with N = 0 go past its
end; LBRK leaves its one delay slot pending and its level behind it where the register is not zero.
It rests on the model's choices of assumption 24. -/
def Obligations.LoopsStartAndBreak : Prop :=
  ∀ (i : Instr) (s : State) (lv : BitVec 2) (a : BitVec 6) (off : BitVec 20) (pre : Bool),
    (i = .loop lv a off ∧ pre = false ∨ i = .loopp lv a off ∧ pre = true) →
    (lv.toNat = s.gf.depth → 1 ≤ off.toNat → s.gf.pc.toNat + off.toNat ≤ 8191 →
      (∀ e, e < s.gf.depth → (s.gf.level e).start.toNat ≤ s.gf.pc.toNat + 1 ∧
        s.gf.pc.toNat + off.toNat ≤ (s.gf.level e).last.toNat) →
      (s.gf.reg a).toNat ≤ 0xFFFFFFFF → s.gf.resume = none → (pre = true → s.here.req = false) →
      ((s.gf.reg a).toNat ≠ 0 →
        ∃ t, exec i s = .next t ∧ onlyChair s.act.chair s t ∧
          t.here = { s.here with gf := t.gf, budget := t.here.budget, halt := t.here.halt } ∧ sameMemory s t ∧
          t.gf = { s.gf.spent s.here.cycle with levels := t.gf.levels, depth := lv.toNat + 1, pc := s.gf.pc + 1 } ∧
          (∀ e, e ≠ lv.toNat → t.gf.level e = s.gf.level e) ∧
          t.gf.level lv.toNat =
            { n := (s.gf.reg a).toNat, k := 0, i0 := 0, start := s.gf.pc + 1, last := s.gf.pc + off.setWidth 13,
              s1 := 0, pre := pre, n0 := (s.gf.reg a).toNat } ∧
          (pre = true → t.here.budget = 0)) ∧
      ((s.gf.reg a).toNat = 0 → s.gf.pc.toNat + off.toNat < 8191 →
        ∃ t, exec i s = .next t ∧ sameMemory s t ∧
          t.gf = { s.gf.spent s.here.cycle with pc := s.gf.pc + off.setWidth 13 + 1 })) ∧
    (lv.toNat < s.gf.depth →
      ∃ t, exec (.lbrk lv a) s = .next t ∧ onlyGaffer s t ∧
        t.gf = { s.gf.spent s.here.cycle with
          ds := true, taken := false, dt := 0, leave := if s.gf.reg a ≠ 0 then some lv.toNat else none,
          pc := s.gf.pc + 1 }) ∧
    (lv.toNat ≠ s.gf.depth → exec (.loop lv a off) s = .next (raiseG 0x01 s) ∧
      (s.gf.depth ≤ lv.toNat → exec (.lbrk lv a) s = .next (raiseG 0x01 s)))

/-- R19, R20: a gaffer LIT waits with the ones before it for the word they serve; an engine's LIT does nothing apart from
its word. -/
def Sys2Proof.Claims.literalsWaitForTheirWord : Prop :=
  ∀ (s : State) (v : BitVec 32) (eng : BitVec 4),
    (s.gf.lits.length < 2 → ∃ t, exec (.lit 0 v) s = .next t ∧ t.gf.lits = s.gf.lits ++ [v] ∧
      (∀ r, t.gf.reg r = s.gf.reg r) ∧ (s.gf.plain → t.gf.pc = s.gf.pc + 1) ∧ sameMemory s t) ∧
    (2 ≤ s.gf.lits.length → exec (.lit 0 v) s = .next (raiseG 0x01 s)) ∧
    (eng ≠ 0 → exec (.lit eng v) s = .next s)

/-- R89, R72, R78, R19, R20: NOP changes nothing but the flow of control, through delay slots and loop ends; a literal waits for
its word. -/
def Sys2Proof.Claims.nopAndLiteralsChangeNoRegister : Prop :=
  nopMovesOnlyTheFlowOfControl ∧ literalsWaitForTheirWord

/-- R87, R89, R70, R227, R14, R68, R72, R78, R19, R20: DETQ, SEMRD and CSRR write their register with what they read of the chair;
NOP changes nothing but the flow of control, through delay slots and loop ends; a literal waits for its word.
It rests on the model's choices of assumptions 24 and 34. -/
def Obligations.GafferReadsNopAndLiterals : Prop :=
  Sys2Proof.Claims.gafferReadsOfTheChair ∧ Sys2Proof.Claims.nopAndLiteralsChangeNoRegister

/-- R71, R224: a level G fault is recorded with its cause; the faulting word changes no register, no core and no memory,
and the chair's halt is asked for in the present cycle.
It rests on the model's choices of assumption 16. -/
def Obligations.GafferFaultsArePrecise : Prop :=
  ∀ (s : State) (cause : Nat) (code : BitVec 20), s.gf.waited = false → s.here.halt = none →
    onlyChair s.act.chair s (raiseG cause s code) ∧
      (raiseG cause s code).here = { s.here with
        gfault := some (cause, code), halt := some { cycle := s.here.cycle },
        gf := { s.gf with waited := false, waitOn := none } } ∧
      sameMemory s (raiseG cause s code)

/-! ## The gaffer's words that reach its cores -/

namespace Sys2Proof.Claims

/-- The cores a mask register selects (R21, R80). -/
def selected (g : Gaffer) (m : BitVec 6) : BitVec 16 := if m = 0 then 0xFFFF else (g.reg m).setWidth 16

/-- The word an emission composes, and its mask register (R80). -/
def emits (g : Gaffer) : Instr → Option (Word × BitVec 6)
  | .emit m l => some (l, m)
  | .emitp m a => some (g.reg a, m)
  | .emitt m a sh l => some (spliced l (g.reg a) sh, m)
  | _ => none

/-- The amount a clause takes or adds; none for sem0 (R15, R16). -/
def clauseAmt (k : BitVec 8) (cnt : BitVec 2) : Nat := if k = 0 then 0 else 2 ^ cnt.toNat

/-- The promise counters of a core after an emitted word that is no SEMINIT, SEMADD or SEMWAIT (R84). -/
def promised (g : Gaffer) (w : Word) (c : Nat) (k : BitVec 8) : Nat :=
  let cl := clauseOf w
  g.promise c k.toNat - (if k = cl.wsem then clauseAmt cl.wsem cl.wcnt else 0) +
    (if k = cl.ssem then clauseAmt cl.ssem cl.scnt else 0)

/-- The operand of a semaphore word: its semaphore and its value (R84). -/
def semOpnd (w : Word) : BitVec 8 × Nat := (field 24 8 w, (field 0 16 w).toNat)

/-- A promise counter after the wait of a word has been taken (R84). -/
def waitTaken (g : Gaffer) (w : Word) (c : Nat) (k : BitVec 8) : Nat :=
  let cl := clauseOf w
  g.promise c k.toNat - (if k = cl.wsem then clauseAmt cl.wsem cl.wcnt else 0)

/-- A promise counter after a SEMINIT, SEMADD or SEMWAIT: its wait, then its operand, then its signal (R84). -/
def semPromised (g : Gaffer) (w : Word) (c : Nat) (k : BitVec 8) : Nat :=
  let cl := clauseOf w
  let p := waitTaken g w c k
  (if k ≠ (semOpnd w).1 then p
    else if field 32 8 w = 0x08 then (semOpnd w).2
    else if field 32 8 w = 0x09 then p + (semOpnd w).2
    else p - (semOpnd w).2) + (if k = cl.ssem then clauseAmt cl.ssem cl.scnt else 0)

/-- A semaphore word of the SYS engine (R84). -/
def isSemWord (w : Word) : Prop := engOf w = 7 ∧ (field 32 8 w = 0x08 ∨ field 32 8 w = 0x09 ∨ field 32 8 w = 0x0A)

/-- The cores that FMT and EXPECT act on: those selected, whatever state they are in (R81). -/
def actsOn (x : Chair) (m : BitVec 6) (c : Nat) : Prop := c ∈ maskCores (selected x.gf m)

/-- The reductions of GPOP, on the integers that the entries hold (R88). -/
def reduced (op : BitVec 3) (vs : List Word) : Word :=
  if op = 0 then .ofNat 64 (vs.map (·.toNat)).sum
  else if op = 1 then .ofInt 64 ((vs.map (·.toInt)).foldl Min.min (2 ^ 63 - 1))
  else if op = 2 then .ofInt 64 ((vs.map (·.toInt)).foldl Max.max (-2 ^ 63))
  else if op = 3 then .ofNat 64 ((vs.map (·.toNat)).foldl (· ||| ·) 0)
  else if ∃ v ∈ vs, v ≠ 0 then 1 else 0

/-- Popping the lanes of some cores: each loses its oldest entry, and the other cores and memory stay (R88). -/
def lanesPopped (s t : State) (cores : List Nat) : Prop :=
  ∀ c, t.here.core c = if c ∈ cores then
    { s.here.core c with x := { (s.here.core c).x with lane := (s.here.core c).x.lane.drop 1 } } else s.here.core c

end Sys2Proof.Claims

/-- R25, R35, R57, R80, R61: an emitted word whose checks pass, with room in the ring, takes the next slot and ESN under
its mask; the promise counters are those that R84 gives, a DETACH opens a span for every core it selects that is not away at
emission, and no register and no memory changes. -/
def Sys2Proof.Claims.emissionsTakeTheNextSlot : Prop :=
  ∀ (i : Instr) (s : State) (w : Word) (m : BitVec 6) (g : Gaffer), emits s.gf i = some (w, m) →
    1 ≤ engOf w → engOf w ≤ 7 → s.gf.litBad w (selected s.gf m) = false →
    s.gf.promoteAll w (s.here.counted (selected s.gf m)) = .ok g → s.here.ringRoom = true →
    ∃ t, exec i s = .next t ∧ onlyChair s.act.chair s t ∧ sameMemory s t ∧
      t.gf.head = s.gf.head + 1 ∧
      SMap.get {} t.here.ring (s.gf.head.toNat % 256) =
        { item := .word w, esn := s.gf.head, cores := selected s.gf m, gpc := s.gf.pc, lis := s.gf.lis } ∧
      (∀ k, k ≠ s.gf.head.toNat % 256 → SMap.get {} t.here.ring k = SMap.get {} s.here.ring k) ∧
      t.gf.prom = g.prom ∧ (∀ r, t.gf.reg r = s.gf.reg r) ∧
      t.gf.breaks.map (fun b => (b.core, b.tag, b.d, b.joinEsn)) =
        s.gf.breaks.map (fun b => (b.core, b.tag, b.d, b.joinEsn)) ++
          (if isDetach w then ((maskCores (selected s.gf m)).filter fun c => (s.gf.openBreak c).isNone).map fun c =>
            (c, field 24 8 w, s.gf.head, none) else []) ∧
      (s.gf.plain → t.gf.pc = s.gf.pc + 1)

/-- R35, R58, R71, R84: an emission that a check turns down faults with the check's cause, and one without room waits; in
neither case does a counter or the ring change. -/
def Sys2Proof.Claims.emissionsThatCannotBePlaced : Prop :=
  ∀ (i : Instr) (s : State) (w : Word) (m : BitVec 6), emits s.gf i = some (w, m) →
    (engOf w = 0 ∨ 7 < engOf w → exec i s = .next (raiseG 0x03 s)) ∧
    (1 ≤ engOf w → engOf w ≤ 7 → s.gf.litBad w (selected s.gf m) = true → exec i s = .next (raiseG 0x03 s)) ∧
    (1 ≤ engOf w → engOf w ≤ 7 → s.gf.litBad w (selected s.gf m) = false →
      (∀ e, s.gf.promoteAll w (s.here.counted (selected s.gf m)) = .error e → exec i s = .next (raiseG e s)) ∧
      (∀ g, s.gf.promoteAll w (s.here.counted (selected s.gf m)) = .ok g → s.here.ringRoom = false →
        exec i s = .next s))

/-- R25, R35, R57, R58, R61, R71, R80, R84: an emission whose checks pass takes the next slot; one that a check turns down faults,
and one without room waits. -/
def Obligations.EmissionsTakeTheNextSlotOrFaultOrWait : Prop :=
  emissionsTakeTheNextSlot ∧ emissionsThatCannotBePlaced

/-- R84: what an emission does to the counters of one selected core: a wait that its counter does not cover is a forward
wait, a raise above 0xFFFF is an illegal emit, and otherwise the wait's amount is taken and the signal's added. -/
def Sys2Proof.Claims.promiseCountersFollowTheClauses : Prop :=
  ∀ (g : Gaffer) (w : Word) (c : Nat), ¬isSemWord w →
    let cl := clauseOf w
    (g.promise c cl.wsem.toNat < clauseAmt cl.wsem cl.wcnt → g.promote w c = .error 2) ∧
    (clauseAmt cl.wsem cl.wcnt ≤ g.promise c cl.wsem.toNat → 0xFFFF < promised g w c cl.ssem → cl.ssem ≠ 0 →
      g.promote w c = .error 3) ∧
    (clauseAmt cl.wsem cl.wcnt ≤ g.promise c cl.wsem.toNat → (cl.ssem = 0 ∨ promised g w c cl.ssem ≤ 0xFFFF) →
      ∃ h, g.promote w c = .ok h ∧ h = { g with prom := h.prom } ∧
        (∀ k : BitVec 8, k ≠ 0 → h.promise c k.toNat = promised g w c k) ∧
        ∀ (e : Nat) (k : BitVec 8), e ≠ c → h.promise e k.toNat = g.promise e k.toNat)

/-- R84: what the emission of SEMINIT, SEMADD or SEMWAIT does to the counters of one selected core: a wait clause or a
SEMWAIT that its counter does not cover is a forward wait, a raise above 0xFFFF is an illegal emit, and otherwise the
counters are those that the wait, the operand and the signal give in this order. -/
def Sys2Proof.Claims.promiseCountersFollowTheSemaphoreWords : Prop :=
  ∀ (g : Gaffer) (w : Word) (c : Nat), isSemWord w →
    let cl := clauseOf w
    let k := (semOpnd w).1
    let v := (semOpnd w).2
    let short := g.promise c cl.wsem.toNat < clauseAmt cl.wsem cl.wcnt ∨
      (field 32 8 w = 0x0A ∧ k ≠ 0 ∧ waitTaken g w c k < v)
    let above := (field 32 8 w = 0x09 ∧ k ≠ 0 ∧ 0xFFFF < waitTaken g w c k + v) ∨
      (cl.ssem ≠ 0 ∧ 0xFFFF < semPromised g w c cl.ssem)
    (short → g.promote w c = .error 2) ∧
    (¬short → above → g.promote w c = .error 3) ∧
    (¬short → ¬above → ∃ h, g.promote w c = .ok h ∧ h = { g with prom := h.prom } ∧
      (∀ j : BitVec 8, j ≠ 0 → h.promise c j.toNat = semPromised g w c j) ∧
      ∀ (e : Nat) (j : BitVec 8), e ≠ c → h.promise e j.toNat = g.promise e j.toNat)

/-- R81: FMT pushes g_a, stamped with head, into the format queue of each selected core, where none of them is away or
full; EXPECT raises the counter of each by g_a. -/
def Sys2Proof.Claims.formatsAndExpectationsReachTheirCores : Prop :=
  ∀ (s : State) (m a : BitVec 6) (k : BitVec 8),
    ((∀ c, actsOn s.here m c → s.gf.openBreak c = none ∧ (s.here.core c).m.fmtq.length < 16) →
      ∃ t, exec (.fmt m a) s = .next t ∧ onlyChair s.act.chair s t ∧ sameMemory s t ∧
        (∀ c, actsOn s.here m c → t.here.core c = { (s.here.core c).pushNote keyFmt 1 s.here.cycle with m := { (s.here.core c).m with
          fmtq := (s.here.core c).m.fmtq ++ [{ val := s.gf.reg a, stamp := s.gf.head }] } }) ∧
        (∀ c, ¬actsOn s.here m c → t.here.core c = s.here.core c) ∧ sameButFlow (s.gf.spent s.here.cycle) t.gf) ∧
    ((∃ c, actsOn s.here m c ∧ (s.gf.openBreak c).isSome) → exec (.fmt m a) s = .next (raiseG 0x03 s)) ∧
    ((s.gf.reg a).toNat ≤ 0xFFFF → k ≠ 0 →
      (∀ c, actsOn s.here m c → s.gf.expected c k.toNat + (s.gf.reg a).toNat ≤ 0xFFFF) →
      ∃ t, exec (.expect m a k) s = .next t ∧ gafWord s t { s.gf with prom := t.gf.prom, breaks := t.gf.breaks } ∧
        (∀ c, actsOn s.here m c → t.gf.expected c k.toNat = s.gf.expected c k.toNat + (s.gf.reg a).toNat) ∧
        ∀ (c : Nat) (j : BitVec 8), ¬actsOn s.here m c ∨ j ≠ k → t.gf.expected c j.toNat = s.gf.expected c j.toNat) ∧
    (0xFFFF < (s.gf.reg a).toNat → exec (.expect m a k) s = .next (raiseG 0x01 s))

/-- R84: what an emission does to the promise counters, by its clauses and as a semaphore word. -/
def Sys2Proof.Claims.promiseCountersFollowTheWord : Prop :=
  promiseCountersFollowTheClauses ∧ promiseCountersFollowTheSemaphoreWords

/-- R84, R81: what an emission does to the promise counters, that of SEMINIT, SEMADD and SEMWAIT among them, and what FMT
and EXPECT do to the cores they select.
It rests on the model's choices of assumption 21. -/
def Obligations.PromisesFormatsAndExpectations : Prop :=
  promiseCountersFollowTheWord ∧ formatsAndExpectationsReachTheirCores

/-- R65, R60, R61, R87: JOINPT takes a slot with its marker and ends the open spans of its tag there; JOINW and CHAIRW go on
once every core they name has arrived, and JOINW to a core whose marker has not been emitted is a join-wait fault.
It rests on the model's choices of assumption 20. -/
def Obligations.JoinsAndChairWaitsGoOnWhenTheCoresArrive : Prop :=
  ∀ (s : State) (t8 : BitVec 8) (a : BitVec 6) (mode : BitVec 1),
    (s.gf.litPending = false → s.here.ringRoom = true →
      ∃ t, exec (.joinpt t8) s = .next t ∧ onlyChair s.act.chair s t ∧ sameMemory s t ∧ t.gf.head = s.gf.head + 1 ∧
        SMap.get {} t.here.ring (s.gf.head.toNat % 256) =
          { item := .joinpt t8, esn := s.gf.head, cores := 0, gpc := s.gf.pc, lis := s.gf.lis } ∧
        t.gf.breaks = s.gf.breaks.map fun b =>
          if b.tag = t8 ∧ b.joinEsn = none then { b with joinEsn := some s.gf.head } else b) ∧
    ((∀ c ∈ maskCores ((s.gf.reg a).setWidth 16), s.here.arrived c = true ∧ s.gf.openBreak c = none) →
      ∃ t, exec (.joinw a) s = .next t ∧ gafWord s t s.gf) ∧
    ((∃ c ∈ maskCores ((s.gf.reg a).setWidth 16), (s.here.core c).phase ≠ .exited ∧ (s.gf.openBreak c).isSome) →
      exec (.joinw a) s = .next (raiseG 0x07 s)) ∧
    ((∀ c ∈ maskCores (selected s.gf a), (s.here.core c).phase = .exited ∨
        ((s.here.core c).phase = .drafting ∧ s.gf.openBreak c = none ∧ (s.here.core c).pos = s.gf.head ∧
          (mode = 1 → (s.here.core c).still = true))) →
      ∃ t, exec (.chairw a mode) s = .next t ∧ gafWord s t s.gf)

/-- R88, R94: GPOP pops one entry, pushed before this cycle, from the lane of every selected core and writes their reduction;
GPOPN pops the lane of one core; a pop that waits on an EXITED core is a return-queue wait fault, and any other pop without
an entry waits. -/
def Obligations.ReturnQueuePops : Prop :=
  ∀ (s : State) (d a : BitVec 6) (op : BitVec 3) (cores : List Nat), op.toNat ≤ 4 →
    cores = (if a = 0 then (List.range 16).filter (fun c => (s.here.core c).phase ≠ .exited)
      else maskCores ((s.gf.reg a).setWidth 16)) →
    let n := (s.gf.reg a).toNat % 16
    ((∀ c ∈ cores, (s.here.core c).ripe keyLane (s.here.core c).x.lane.length s.here.cycle ≠ 0) →
      ∃ t, exec (.gpop d a op) s = .next t ∧ sameMemory s t ∧ lanesPopped s t cores ∧
        ∀ r, t.gf.reg r = if r = d ∧ d ≠ 0 then reduced op (cores.map fun c => (s.here.core c).x.lane.headD 0)
          else s.gf.reg r) ∧
    ((s.here.core n).ripe keyLane (s.here.core n).x.lane.length s.here.cycle ≠ 0 →
      ∃ t, exec (.gpopn d a) s = .next t ∧ sameMemory s t ∧ lanesPopped s t [n] ∧
        ∀ r, t.gf.reg r = if r = d ∧ d ≠ 0 then (s.here.core n).x.lane.headD 0 else s.gf.reg r) ∧
    ((∃ c ∈ cores, (s.here.core c).x.lane = [] ∧ (s.here.core c).phase = .exited) →
      exec (.gpop d a op) s = .next (raiseG 0x08 s)) ∧
    ((∀ c ∈ cores, (s.here.core c).x.lane ≠ [] ∨ (s.here.core c).phase ≠ .exited) →
      (∃ c ∈ cores, (s.here.core c).ripe keyLane (s.here.core c).x.lane.length s.here.cycle = 0) →
      exec (.gpop d a op) s = .next s) ∧
    ((s.here.core n).x.lane = [] → exec (.gpopn d a) s =
      .next (if (s.here.core n).phase = .exited then raiseG 0x08 s else s)) ∧
    ((s.here.core n).x.lane ≠ [] → (s.here.core n).ripe keyLane (s.here.core n).x.lane.length s.here.cycle = 0 →
      exec (.gpopn d a) s = .next s)

/-- R90, R319: GRAB, outside replay, gives the next chunk of the launch's range: its first index in g_d and its count in
g_(d+1), and the range moves on by the count; without a range, or with d = 0 or 63, it is GRAB misuse.  STEP, once the cores
have gathered, gives 0 to a chair of the marked die's group and 1 to any other (R89, R318).
It rests on the model's choices of assumption 4. -/
def Obligations.GrabAndStepServeTheLaunch : Prop :=
  ∀ (s : State) (d : BitVec 6) (ld : Nat) (z : Kernel), s.kernelOf (s.ctxOf s.act.chair) = some (ld, z) →
    (d ≠ 0 → d ≠ 63 → z.rcount ≠ 0 → (s.ctx (s.ctxOf s.act.chair)).desc1 1 54 1 = 0 →
      (s.ctx (s.ctxOf s.act.chair)).desc1 1 55 1 = 0 →
      let n := if s.here.withdrawn then 0 else
        grabCount (z.rcount - z.given) z.minChunk (activeChairs s (s.ctxOf s.act.chair))
      ∃ t, exec (.grab d) s = .next t ∧ sameMemory s t ∧
        (∀ r, t.gf.reg r = if r = d then .ofNat 64 (z.rbase + z.given) else if r = d + 1 then .ofNat 64 n
          else s.gf.reg r) ∧
        t.kernelOf (s.ctxOf s.act.chair) = some (ld, { z with given := z.given + n })) ∧
    (d = 0 ∨ d = 63 ∨ z.rcount = 0 → exec (.grab d) s = .next (raiseG 0x05 s)) ∧
    ((∀ c, c < 16 → (s.here.core c).phase = .exited ∨ ((s.here.core c).phase = .drafting ∧
        s.gf.openBreak c = none ∧ (s.here.core c).pos = s.gf.head ∧ (s.here.core c).still = true)) →
      ((s.here.withdrawn = true ∨ z.marked = some (s.here.idx / z.chairs)) →
        ∃ t, exec (.step d) s = .next t ∧ t.here.withdrawn = true ∧
          ∀ r, t.gf.reg r = if r = d ∧ d ≠ 0 then 0 else s.gf.reg r) ∧
      (s.here.withdrawn = false → z.marked ≠ some (s.here.idx / z.chairs) → z.groups.length ≥ z.maxDie →
        ∃ t, exec (.step d) s = .next t ∧ gafWrites s t d 1 1))

/-- R91, R20, R67, R307: YIELD restarts the budget, and outside every loop with a request it asks for the save; EXIT, with
no literal pending and no core joining without its marker, finishes the gaffer; WQUIET registers with the first wave that
may prove it once every core has caught up, and goes on when the proof is there.
It rests on the model's choices of assumptions 20, 38 and 67. -/
def Obligations.YieldExitAndWaitQuiet : Prop :=
  ∀ (s : State) (sc : BitVec 3),
    (∃ t, exec .yield s = .next t ∧ sameMemory s t ∧ t.here.budget = 0 ∧ (∀ r, t.gf.reg r = s.gf.reg r) ∧
      (s.gf.depth = 0 → s.here.st = .run → s.gf.drain = none → s.gf.ds = false → s.here.softReady = true →
        t.gf.save = some none)) ∧
    (s.gf.litPending = false → (∀ c, c < 16 → (s.here.core c).phase ≠ .joining) →
      exec .exit s = .next (s.setHere { s.here with
        req := false, gf := { s.gf.spent s.here.cycle with exited := true } })) ∧
    (s.gf.litPending = true → exec .exit s = .next (raiseG 0x03 s)) ∧
    (s.gf.quiet = none → (∀ c, c < 16 → (s.here.core c).phase ≠ .drafting ∨
        ((s.here.core c).pos = s.gf.head ∧ (s.here.core c).queue 6 = [])) →
      exec (.wquiet sc) s = .next (s.setGf { s.gf with
        quiet := some { sc := sc.toNat, wave := s.waveNum, done := false } })) ∧
    (∀ q, s.gf.quiet = some q → q.done = true →
      ∃ t, exec (.wquiet sc) s = .next t ∧ gafWord s t { s.gf with quiet := none }) ∧
    (∀ q, s.gf.quiet = some q → q.done = false → exec (.wquiet sc) s = .next s)

/-- R92, R227, R228: TRAP is a program-trap fault that carries its code; CSRW writes HSCRATCH; in handler mode FSEL takes
its core number and REINJECT the mode; the handler's words outside handler mode are illegal gaffer instructions. -/
def Sys2Proof.Claims.systemWordsOfTheGaffer : Prop :=
  ∀ (s : State) (a : BitVec 6) (k : BitVec 20) (b : BitVec 1),
    (s.gf.waited = false → s.here.halt = none →
      ∃ t, exec (.trap k) s = .next t ∧ t.here.gfault = some (9, k) ∧
        t.here.halt = some { cycle := s.here.cycle } ∧ (∀ r, t.gf.reg r = s.gf.reg r) ∧ t.gf.pc = s.gf.pc ∧
        sameMemory s t) ∧
    (∃ t, exec (.csrw a 0x00A) s = .next t ∧ sameMemory s t ∧ t.here.frame.hscratch = s.gf.reg a ∧
      (∀ r, t.gf.reg r = s.gf.reg r)) ∧
    (∃ t, exec (.fselWrite a) s = .next t ∧ sameMemory s t ∧ (∀ r, t.gf.reg r = s.gf.reg r) ∧
      t.here.frame.fsel = if s.here.frame.handler then (s.gf.reg a).toNat % 16 else s.here.frame.fsel) ∧
    (s.here.frame.handler = true →
      ∃ t, exec (.reinject b) s = .next t ∧ sameMemory s t ∧ (∀ r, t.gf.reg r = s.gf.reg r) ∧
        t.here.frame.mode = if s.here.recCores = 0 then s.here.frame.mode else b == 1) ∧
    (s.here.frame.handler = false →
      exec (.reinject b) s = .next (raiseG 0x01 s) ∧ exec .resume s = .next (raiseG 0x01 s) ∧
      exec (.savectx a k) s = .next (raiseG 0x01 s) ∧ exec (.restctx a k) s = .next (raiseG 0x01 s))

/-- R228, R226, R232: RESUME of a frame whose cause it has served puts the chair back in RUN at the continuation, one cycle
on, with g56 to g63 as the frame kept them, the loop levels of the frame, a restarted budget and no record left. -/
def Sys2Proof.Claims.resumeGoesOnFromTheFrame : Prop :=
  ∀ s : State, s.here.frame.handler = true → s.here.frame.levelC = true ∨ s.here.frame.both = false →
    s.here.frame.mode = false → s.here.frame.held = none → s.here.frame.inner = none →
    s.here.frame.cont.trap = false →
    (List.range 8).map (fun i => 56 + i) = s.here.frame.savedG.map (·.1) →
    ∃ t, exec .resume s = .next t ∧ sameMem s t ∧ t.here.st = .run ∧ t.here.frame.handler = false ∧
      t.here.cycle = s.here.cycle + 1 ∧ t.here.budget = 0 ∧
      t.gf.pc = s.here.frame.cont.pc ∧ t.gf.ds = s.here.frame.cont.ds ∧ t.gf.dt = s.here.frame.cont.dt ∧
      t.gf.depth = s.here.frame.depth ∧ t.gf.levels = s.here.frame.levels ∧
      (∀ r : BitVec 6, 56 ≤ r.toNat → t.gf.reg r = SMap.get 0 s.here.frame.savedG r.toNat) ∧
      (∀ r : BitVec 6, r.toNat < 56 → t.gf.reg r = s.gf.reg r) ∧
      ∀ c, c < 16 → (t.here.core c).rec_ = none

/-- R92, R226, R227, R228, R232: TRAP, CSRW, FSEL and REINJECT, and RESUME, which goes on from the frame.
It rests on the model's choices of assumptions 27 and 47. -/
def Obligations.TrapHandlerWordsAndResume : Prop :=
  systemWordsOfTheGaffer ∧ resumeGoesOnFromTheFrame

/-- R229: in handler mode SAVECTX stores the gaffer image, 74 words, at an 8-aligned address that holds it all, and
RESTCTX from such an image brings the program's registers g1 to g55 and the frame's continuation back; any other address is
a local-access fault.
It rests on the model's choices of assumption 24. -/
def Obligations.ContextImagesMoveThroughDataSram : Prop :=
  ∀ (s : State) (a : BitVec 6) (k : BitVec 20) (p : Nat), s.here.frame.handler = true →
    (s.gf.reg a).toNat + k.toNat = p →
    (p % 8 = 0 → p + 592 ≤ 0x10000 →
      ∃ t, exec (.savectx a k) s = .next t ∧ gafWord s t { s.gf with dsram := t.gf.dsram } ∧
        (∀ i, i < 74 → BitVec.ofNat 64 (t.gf.sram (p + 8 * i) 8) = s.here.image.getD i 0) ∧
        ∀ q, q < p ∨ p + 592 ≤ q → SMap.get 0 t.gf.dsram q = SMap.get 0 s.gf.dsram q) ∧
    (p % 8 = 0 → p + 592 ≤ 0x10000 →
      let ws := (List.range 74).map fun i => BitVec.ofNat 64 (s.gf.sram (p + 8 * i) 8)
      (imageOk ws = true →
        ∃ t, exec (.restctx a k) s = .next t ∧ sameMemory s t ∧
          (∀ r : BitVec 6, 0 < r.toNat → r.toNat < 56 → t.gf.reg r = ws.getD r.toNat 0) ∧
          (∀ r : BitVec 6, 56 ≤ r.toNat → t.gf.reg r = s.gf.reg r ∧
            SMap.get 0 t.here.frame.savedG r.toNat = ws.getD r.toNat 0) ∧
          t.here.frame.cont.pc = (ws.getD 64 0).setWidth 13 ∧
          t.here.frame.cont.ds = (ws.getD 64 0).getLsbD 16 ∧ t.here.frame.depth = (ws.getD 65 0).toNat % 8) ∧
      (imageOk ws = false → exec (.restctx a k) s = .next (raiseG 0x01 s))) ∧
    (p % 8 ≠ 0 ∨ 0x10000 < p + 592 →
      exec (.savectx a k) s = .next (raiseG 0x06 s) ∧ exec (.restctx a k) s = .next (raiseG 0x06 s))

/-! ## The access side -/

namespace Sys2Proof.Claims

/-- What the words of R118, R122 and R131 that write an A-side register at issue write, and where. -/
def asideValue (s : State) : Instr → Option (BitVec 5 × Word)
  | .aadd d a b => some (d, .ofInt 64 ((s.aside.reg a).toInt + (s.aside.reg b).toInt))
  | .asub d a b => some (d, .ofInt 64 ((s.aside.reg a).toInt - (s.aside.reg b).toInt))
  | .amul d a b mode =>
    some (d, if mode = 0 then .ofInt 64 ((s.aside.reg a).toInt * (s.aside.reg b).toInt)
      else if mode = 1 then .ofInt 64 ((s.aside.reg a).toInt * (s.aside.reg b).toInt / 2 ^ 64)
      else .ofNat 64 ((s.aside.reg a).toNat * (s.aside.reg b).toNat / 2 ^ 64))
  | .ashl d a b => some (d, .ofNat 64 ((s.aside.reg a).toNat * 2 ^ ((s.aside.reg b).toNat % 64)))
  | .ashr d a b mode =>
    some (d, if mode = 0 then .ofNat 64 ((s.aside.reg a).toNat / 2 ^ ((s.aside.reg b).toNat % 64))
      else .ofInt 64 ((s.aside.reg a).toInt / 2 ^ ((s.aside.reg b).toNat % 64)))
  | .aand d a b => some (d, .ofNat 64 ((s.aside.reg a).toNat &&& (s.aside.reg b).toNat))
  | .aor d a b => some (d, .ofNat 64 ((s.aside.reg a).toNat ||| (s.aside.reg b).toNat))
  | .amin d a b mode =>
    some (d, if mode = 0 then .ofInt 64 (Min.min (s.aside.reg a).toInt (s.aside.reg b).toInt)
      else .ofNat 64 (Min.min (s.aside.reg a).toNat (s.aside.reg b).toNat))
  | .amax d a b mode =>
    some (d, if mode = 0 then .ofInt 64 (Max.max (s.aside.reg a).toInt (s.aside.reg b).toInt)
      else .ofNat 64 (Max.max (s.aside.reg a).toNat (s.aside.reg b).toNat))
  | .aslt d a b mode =>
    some (d, if mode = 0 then (if (s.aside.reg a).toInt < (s.aside.reg b).toInt then 1 else 0)
      else if (s.aside.reg a).toNat < (s.aside.reg b).toNat then 1 else 0)
  | .aaddi d a x =>
    some (d, .ofInt 64 ((s.aside.reg a).toInt + match x with
      | .imm i => i.toInt
      | .lit1 l => l.toInt
      | .lit2 l => l.toInt))
  | .agrd d g sel =>
    let x := s.aside.gen g
    some (d, if sel = 0 then x.base else if sel = 1 then x.stride else if sel = 2 then .ofNat 64 x.pos.toNat
      else .ofNat 64 x.lim.toNat)
  | .hquery d h =>
    let v := s.here.handle h
    let at_ (st c t : Nat) : Word :=
      .ofNat 64 (st * 2 ^ 62 + c * 2 ^ 58 + t * 2 ^ 54 + v.home * 2 ^ 50 + v.len * 2 ^ 14 + v.base)
    some (d, match v.st with
      | .free => 0
      | .held c => at_ 1 c 0
      | .offered c t => at_ 2 c t)
  | _ => none

/-- What the generator words of R118 set. -/
def genValue (y : ASide) : Instr → Option (BitVec 4 × AGen)
  | .agset g a b c => some (g, { base := y.reg a, stride := y.reg b, pos := 0, lim := .ofNat 32 (y.reg c).toNat })
  | .agsetB g a =>
    some (g, { base := y.reg a, stride := (y.gen g).stride, pos := (y.gen g).pos, lim := (y.gen g).lim })
  | .agnext g a =>
    some (g, { base := (y.gen g).base, stride := (y.gen g).stride, lim := (y.gen g).lim,
               pos := .ofNat 32 ((y.gen g).pos.toNat + (y.reg a).toNat) })
  | .agnextW g a =>
    some (g, { base := (y.gen g).base, stride := (y.gen g).stride, lim := (y.gen g).lim,
               pos := .ofNat 32 (((y.gen g).pos.toNat + (y.reg a).toNat) %
                 (if (y.gen g).lim = 0 then 2 ^ 32 else (y.gen g).lim.toNat)) })
  | .agpos g a =>
    some (g, { base := (y.gen g).base, stride := (y.gen g).stride, lim := (y.gen g).lim,
               pos := .ofNat 32 (y.reg a).toNat })
  | _ => none

/-- An access as the tables of R119 to R121 and R127 give it: its operation, the bytes it touches in order, its store
data or operands, the register it loads, the queue entries it reserves or pops, how far its generator moves, whether a
position is at or past the limit, and its alignment. -/
structure Acc where
  op : AOp
  segs : List (Word × Nat)
  mv : Bool := false
  data : List Byte := []
  dst : ADst := .none
  sc : Scope := .core
  load : Option (BitVec 2 × Nat) := none
  pop : Option (BitVec 1 × Nat) := none
  gen : Option (BitVec 4 × Nat) := none
  past : Prop := False
  align : Nat

/-- The generator address A(i) (R117). -/
def genAt (g : AGen) (i : Int) : Word := .ofInt 64 (g.base.toInt + i * g.stride.toInt)

/-- The bytes of the n entries of LDQ and STQ, or of LDQS and STQS (R119). -/
def entrySegs (g : AGen) (strided : Bool) (n : Nat) : List (Word × Nat) :=
  (List.range n).map fun (e : Nat) =>
    (if strided then genAt g (g.pos.toNat + e) else genAt g g.pos.toNat + .ofNat 64 (128 * e), 128)

/-- Some position used is at or past a limit that stands (R117). -/
def atLimit (g : AGen) (strided : Bool) (n : Nat) : Prop :=
  g.lim ≠ 0 ∧ g.lim.toNat ≤ g.pos.toNat + (if strided then n - 1 else 0)

/-- The bytes that a store data queue's first n entries hold (R119). -/
def sqBytes (y : ASide) (q : BitVec 1) (n : Nat) : List Byte :=
  ((y.sqs q.toNat).take n).flatMap fun v => (List.range 128).map fun i => v.extractLsb' (8 * i) 8

/-- The indices of LDQG: lanes of the first n index entries (R120). -/
def gatherAt (y : ASide) (sq : BitVec 1) (n m : Nat) : List (BitVec 32) :=
  ((y.sqs sq.toNat).take n).flatMap fun v => (List.range m).map fun i => v.extractLsb' (32 * i) 32

def ldqAcc (y : ASide) (mv strided : Bool) (q : BitVec 2) (ag cnt : BitVec 4) : Acc :=
  let n := cnt.toNat + 1
  { op := .load, mv := mv, align := 32, segs := entrySegs (y.gen ag) strided n, load := some (q, n),
    gen := some (ag, if strided then n else 1), past := atLimit (y.gen ag) strided n }

def stqAcc (y : ASide) (strided : Bool) (q : BitVec 1) (ag cnt : BitVec 4) : Acc :=
  let n := cnt.toNat + 1
  { op := .store, align := 32, segs := entrySegs (y.gen ag) strided n, pop := some (q, n), data := sqBytes y q n,
    gen := some (ag, if strided then n else 1), past := atLimit (y.gen ag) strided n }

def ldqgAcc (y : ASide) (mv : Bool) (q : BitVec 2) (ag cnt : BitVec 4) (sq size : BitVec 1) : Acc :=
  let n := cnt.toNat + 1
  let w := if size = 0 then 4 else 32
  let is := gatherAt y sq n (128 / w)
  { op := .load, mv := mv, align := w, segs := is.map fun i => (genAt (y.gen ag) i.toInt, w), load := some (q, n),
    pop := some (sq, n), past := (y.gen ag).lim ≠ 0 ∧ ∃ i ∈ is, (y.gen ag).lim.toNat ≤ i.toNat }

def atAcc (y : ASide) (op : AOp) (n : Nat) (d a : BitVec 5) (vs : List (BitVec 5)) (sc : Scope) : Acc :=
  { op := op, align := n, segs := [(y.reg a, n)], dst := .reg d, sc := sc,
    data := vs.flatMap fun r => (List.range 8).map fun i => (y.reg r).extractLsb' (8 * i) 8 }

def scalarAt (y : ASide) (a : BitVec 5) (imm : BitVec 22) : List (Word × Nat) :=
  [(.ofInt 64 ((y.reg a).toInt + imm.toInt), 8)]

/-- The access of each A-side word that makes one (R119 to R121, R127). -/
def accOf (y : ASide) : Instr → Option Acc
  | .ldq q ag cnt => some (ldqAcc y false false q ag cnt)
  | .ldqMv q ag cnt => some (ldqAcc y true false q ag cnt)
  | .ldqs q ag cnt => some (ldqAcc y false true q ag cnt)
  | .ldqsMv q ag cnt => some (ldqAcc y true true q ag cnt)
  | .ldqg q ag cnt sq size => some (ldqgAcc y false q ag cnt sq size)
  | .ldqgMv q ag cnt sq => some (ldqgAcc y true q ag cnt sq 1)
  | .stq q ag cnt => some (stqAcc y false q ag cnt)
  | .stqs q ag cnt => some (stqAcc y true q ag cnt)
  | .lds d a imm => some { op := .load, align := 8, segs := scalarAt y a imm, dst := .reg d }
  | .sts d a imm =>
    some { op := .store, align := 8, segs := scalarAt y a imm,
           data := (List.range 8).map fun i => (y.reg d).extractLsb' (8 * i) 8 }
  | .ldsq q a imm => some { op := .load, align := 8, segs := scalarAt y a imm, load := some (q, 1) }
  | .atadd d a b sc => some (atAcc y .atadd 8 d a [b] sc)
  | .atfadd d a b sc => some (atAcc y .atfadd 4 d a [b] sc)
  | .atmin d a b sc => some (atAcc y .atmin 8 d a [b] sc)
  | .atmax d a b sc => some (atAcc y .atmax 8 d a [b] sc)
  | .atxch d a b sc => some (atAcc y .atxch 8 d a [b] sc)
  | .atcas d a b c sc => some (atAcc y .atcas 8 d a [b, c] sc)
  | .ator d a b sc => some (atAcc y .ator 8 d a [b] sc)
  | .atand d a b sc => some (atAcc y .atand 8 d a [b] sc)
  | _ => none

/-- There is room in the data queue, and the index or data entries are there from an earlier cycle (R94, R95). -/
def Acc.ready (x : Acc) (s : State) : Prop :=
  (∀ q n, x.load = some (q, n) → (s.aside.dqs q.toNat).length + n ≤ 16) ∧
    ∀ q n, x.pop = some (q, n) →
      n ≤ s.me.ripe (keySq q.toNat) (s.aside.sqs q.toNat).length s.here.cycle

/-- What the access's issue takes: its generator's position before and after, and the entries it pops. -/
def Acc.took (x : Acc) (y : ASide) : ATaken :=
  { gen := x.gen.map fun g => (g.1, (y.gen g.1).pos, (y.gen g.1).pos + BitVec.ofNat 32 g.2)
    sq := x.pop.map fun q => (q.1.toNat, (y.sqs q.1.toNat).take q.2) }

/-- What issue itself does to the A-side: entries are reserved under the access's number and popped, the generator moves
on, and the access is pending with its signal and what its issue took; it takes a cycle at least (R95, R113, R119). -/
def Acc.issued (x : Acc) (y : ASide) (id : Nat) (s : State) : ASide :=
  let took := x.took y
  let y : ASide := match x.load with
    | some (q, n) => { y with dq := SMap.put [] y.dq q.toNat (y.dqs q.toNat ++ List.replicate n { id := id }) }
    | none => y
  let y : ASide := match x.pop with
    | some (q, n) => { y with sq := SMap.put [] y.sq q.toNat ((y.sqs q.toNat).drop n) }
    | none => y
  let y : ASide := match x.gen with
    | some (g, n) =>
      { y with ag := SMap.put {} y.ag g.toNat { y.gen g with pos := (y.gen g).pos + BitVec.ofNat 32 n } }
    | none => y
  { y with pend := y.pend ++ [{ id := id, op := x.op, segs := x.segs, mv := x.mv, data := x.data, dst := x.dst,
                                sc := x.sc, took := took, sig := s.sig, n := s.act.n,
                                at_ := s.here.cycle + 1 }] }

/-- The permissions of an access (R115): read for a load, write for a store, both for an atomic and a load .MV. -/
def Acc.need (x : Acc) : Need :=
  { r := x.op ≠ .store, w := x.op ≠ .load ∨ x.mv = true, vac := x.mv }

/-- Nothing the counting of pages or a watch slot does is due: no epoch or window ends, no slot is on (R132, R210). -/
def quietPages (s : State) (ts : List Tr) : Prop :=
  (∀ t ∈ ts, (s.page t).epoch < 4096 ∧ (s.page t).window < 65536) ∧ ∀ n, (SMap.get {} s.aside.watch n).kind = 0

/-- What translating an access changes: the leaves of its pages (A, D, and INFL where a page was DEPARTING), its TLB, and
the page records; every other byte and every atom reads as before. -/
def onlyLeaves (s t : State) (leaves : List Nat) : Prop :=
  (∀ a, (∀ l ∈ leaves, a < l ∨ l + 8 ≤ a) → t.mem.byte a = s.mem.byte a) ∧
    t.me = { s.me with a := { s.aside with tlb := t.aside.tlb } } ∧ t.deep = s.deep

/-- A condition's outcome and the A-side `y` of `s` without the entry it pops (R99); none where it waits, an entry pushed in
this cycle among what it waits for (R94), or underflows. -/
def outcome (s : State) (y : ASide) : Cond → Option (Bool × ASide)
  | .xa1 => if s.me.ripe keyXa y.xa.length s.here.cycle = 0 then none
    else some (y.xa.headD false, { y with xa := y.xa.drop 1 })
  | .xa0 => if s.me.ripe keyXa y.xa.length s.here.cycle = 0 then none
    else some (!y.xa.headD false, { y with xa := y.xa.drop 1 })
  | .nz r => some (decide (y.reg r ≠ 0), y)
  | .z r => some (decide (y.reg r = 0), y)
  | .vs => if y.still then some (y.v, y) else none
  | .vc => if y.still then some (!y.v, y) else none
  | .hit => if y.po = [] then none else some (y.po.headD false, { y with po := y.po.drop 1 })

/-- The bytes that a load delivers: what memory holds, two bytes of a NARROW page as the FP32 they widen to (R55, R116). -/
def seen (m : Space) (ps : List Piece) : List Byte :=
  ps.flatMap fun p =>
    let bs := (List.range p.len).map fun i => m.byte (p.pa + i)
    if p.narrow then leBytes 4 (widen (leNat bs)) else bs

/-- Pending access `id` of core `c` may be performed: the chair is alive, no record names the access, it did not stop at a
freeze, its first cycle has come, and nothing earlier holds it back (R113, R129, R224). -/
def mayPerform (s : State) (ch c : Nat) (p : APend) : Prop :=
  (s.core ch c).a.pend.find? (·.id = p.id) = some p ∧ (s.chair ch).alive = true ∧
    (s.core ch c).recorded 1 p.id = false ∧ p.stuck = false ∧ p.at_ ≤ (s.chair ch).cycle ∧ APend.clear s (s.ctxOf ch) p.id (s.core ch c).a.pend = true

/-- The A-side after load `id` of `ps`: the vacant report sets V and VACR at the first VACANT atom unless V is set, but for
a later access's report, which the report of an earlier access replaces (R116, R186). -/
def reported (id : Nat) (m : Space) (ps : List Piece) (y : ASide) : ASide :=
  match ps.find? fun p => m.atom p.atom == .vacant with
  | some p =>
    if y.v = false ∨ ∃ k, y.vacId = some k ∧ id < k then { y with v := true, vacr := p.va, vacId := some id } else y
  | none => y

/-- A pin entry's range does not lie wholly inside a range (R126). -/
def outside (base len : Word) (p : Word × Nat) : Bool :=
  decide (p.1.toNat < base.toNat ∨ base.toNat + len.toNat < p.1.toNat + p.2)

/-- The page fault of a range probe at a page, in a chair whose core has no record yet: a record of code 0x19 with the point,
the reason and the rest of the range; no register and no pin changes (R126, R213, R214). -/
def probeFaults (i : Instr) (s : State) (base : Word) (len : Nat) (k : AErr) (va : Word) : Prop :=
  ∃ t r p, exec i s = .next t ∧ t.me.rec_ = some r ∧ r.code = 0x19 ∧ r.eng = s.act.eng ∧ r.page = some p ∧
    p.point = 0 ∧ p.need = 1 ∧ p.reason = k.reason ∧ p.base = va ∧ p.rem = len - (va - base).toNat ∧
    t.aside.pins = s.aside.pins ∧ ∀ r, t.aside.reg r = s.aside.reg r

/-- The range of RPROBE, RUNPIN (R126). -/
def probeRangeOk (base len : Word) : Prop :=
  1 ≤ len.toNat ∧ len.toNat ≤ 2 ^ 30 ∧ canonical base = true ∧ canonical (base + len - 1) = true ∧
    base.toNat + len.toNat ≤ 2 ^ 64

end Sys2Proof.Claims

/-- R122, R118, R131: the arithmetic words of the A-side, AGRD and HQUERY write their register, a0 excepted, and the
generator words set their generator, with the values the tables give, and signal at issue; nothing else of the core, no
other core and no memory changes.
That AGNEXT.W reads a_a as an unsigned number is the model's choice of assumption 71. -/
def Obligations.AsideWordsWriteTheirRegisterOrGenerator : Prop :=
  ∀ (i : Instr) (s : State),
    (∀ d v, asideValue s i = some (d, v) →
      ∃ t, exec i s = .next t ∧ engWord s t { s.me with a := { s.aside with a := t.aside.a } } ∧
        ∀ r, t.aside.reg r = if r = d ∧ d ≠ 0 then v else s.aside.reg r) ∧
    (∀ g x, genValue s.aside i = some (g, x) →
      ∃ t, exec i s = .next t ∧ engWord s t { s.me with a := { s.aside with ag := t.aside.ag } } ∧
        ∀ h, t.aside.gen h = if h = g then x else s.aside.gen h)

/-- R119, R120, R121, R127, R95, R115, R117: a load, store or atomic whose queue entries and room are there is a
generator-limit fault past the limit and an alignment or atomics-misuse fault at a misaligned address; where its pages
admit it, it issues: it is pending with its signal, its queue entries are reserved or popped and its
generator moves on, and with no count and no watch slot due nothing else changes but the leaves of its pages.
It rests on the model's choices of assumptions 29 and 71 (the limit before the alignment, and positions past 2^32 − 1). -/
def Obligations.AccessesIssueTheirBytes : Prop :=
  ∀ (i : Instr) (s : State) (x : Acc), accOf s.aside i = some x →
    (¬x.ready s → exec i s = .next s) ∧ (x.ready s →
    (x.past → exec i s = .next (raiseC 0x20 s)) ∧
    (¬x.past → (∃ g ∈ x.segs, g.1.toNat % x.align ≠ 0) →
      exec i s = .next (raiseC (if x.op = .load ∨ x.op = .store then 0x1F else 0x21) s)) ∧
    (¬x.past → (∀ g ∈ x.segs, g.1.toNat % x.align = 0) → ∀ (ps : List (Piece × Tr)) (u : State),
      resolve s.act.chair s.act.core x.need x.segs s = (.ok ps, u) →
      ∃ t id, exec i s = .next t ∧
        t.me = { s.me with a := { x.issued s.aside id s with tlb := t.aside.tlb } }.retire s.act.eng s.here.cycle ∧
        onlyLeaves s u (ps.map fun q => q.2.leaf) ∧
        (quietPages u (ps.map (·.2)) →
          engTaken { u with pages := t.pages, tick := u.tick + 1 } t { u.me with a := x.issued u.aside id s })))

/-- R116, R113, R119, R127, R225: a pending load whose pages still admit it and whose atoms hold no error delivers the bytes of
memory to its register or its reserved entries, with the vacant report, and a .MV load vacates its atoms; an atomic gives
the old value and writes the new one, and what a register receives in a frozen chair lands a cycle after the restart; a pending store writes its bytes and makes its atoms HOME.  Each leaves the pending
accesses. -/
def Sys2Proof.Claims.pendingAccessesArePerformedWhole : Prop :=
  ∀ (s u : State) (ch c : Nat) (p : APend) (qs : List (Piece × Tr)), mayPerform s ch c p →
    resolve ch c { r := p.op ≠ .store, w := p.op ≠ .load ∨ p.mv = true, vac := p.mv } p.segs s = (.ok qs, u) →
    (∀ q ∈ qs, u.ganged q.1.pa = false) →
    checkAtoms u.mem (p.op ≠ .load ∨ p.mv = true) (qs.map (·.1)) = none → p.op ≠ .fence → p.op ≠ .rel → p.op ≠ .acq →
    let ps := qs.map (·.1)
    let y := reported p.id u.mem ps (s.core ch c).a
    let old : Word := .ofNat 64 (leNat (seen u.mem ps))
    let leaves (t : State) : Prop := (t.core ch c).a.pend = (s.core ch c).a.pend.filter (·.id ≠ p.id)
    let gives (t : State) : Prop := (t.core ch c).a.v = y.v ∧ (t.core ch c).a.vacr = y.vacr ∧
      (∀ d, p.dst = .reg d →
        ((u.chair ch).open_ = true →
          ∀ r, (t.core ch c).a.reg r = if r = d ∧ d ≠ 0 then old else (s.core ch c).a.reg r) ∧
        ((u.chair ch).open_ = false → (t.core ch c).a.a = (s.core ch c).a.a ∧
          (t.core ch c).a.late = (s.core ch c).a.late ++ [{ d := d, at_ := (u.chair ch).cycle + 1, v := old }])) ∧
      (p.dst = .none → (t.core ch c).a.dq = (y.fill p.id (seen u.mem ps) (s.chair ch).cycle).dq ∧
        (t.core ch c).a.a = (s.core ch c).a.a)
    (p.op = .load →
      ∃ t, exec (.loadDataReturn ch c p.id) s = .next t ∧ leaves t ∧ gives t ∧
        (∀ j, t.mem.atom j = if p.mv = true ∧ ∃ q ∈ ps, q.atom = j then .vacant else u.mem.atom j) ∧
        (∀ a, t.mem.byte a = if p.mv = true ∧ ∃ q ∈ ps, q.atom = a / 32 then 0 else u.mem.byte a)) ∧
    (p.op = .store →
      ∃ t, exec (.storePerformed ch c p.id) s = .next t ∧ leaves t ∧ t.mem = writePieces ps p.data u.mem ∧
        (∀ j, t.mem.atom j = if ∃ q ∈ ps, q.atom = j then .home else u.mem.atom j) ∧
        (∀ a, (∀ q ∈ ps, q.narrow = false ∧ q.pa % 32 + q.len ≤ 32) → (∀ q ∈ ps, a < q.pa ∨ q.pa + q.len ≤ a) →
          t.mem.byte a = u.mem.byte a) ∧
        (∀ q, ps = [q] → q.narrow = false → q.pa % 32 + q.len ≤ 32 → p.data.length = q.len →
          ∀ k, k < q.len → t.mem.byte (q.pa + k) = p.data.getD k 0)) ∧
    (p.op ≠ .load → p.op ≠ .store →
      ∃ t, exec (.loadDataReturn ch c p.id) s = .next t ∧ leaves t ∧ gives t ∧
        t.mem = writePieces ps (leBytes (seen u.mem ps).length (atomicNew p.op old
          (.ofNat 64 (leNat (p.data.take 8))) (.ofNat 64 (leNat ((p.data.drop 8).take 8)))).toNat) u.mem)

/-- R127: what each atomic but ATFADD leaves in memory, from the old value and its operands. -/
def Sys2Proof.Claims.atomicsComputeTheirNewValue : Prop :=
  ∀ old b c : Word,
    atomicNew .atadd old b c = .ofInt 64 (old.toInt + b.toInt) ∧
    atomicNew .atmin old b c = .ofInt 64 (Min.min old.toInt b.toInt) ∧
    atomicNew .atmax old b c = .ofInt 64 (Max.max old.toInt b.toInt) ∧
    atomicNew .atxch old b c = b ∧
    atomicNew .atcas old b c = (if old = c then b else old) ∧
    atomicNew .ator old b c = .ofNat 64 (old.toNat ||| b.toNat) ∧
    atomicNew .atand old b c = .ofNat 64 (old.toNat &&& b.toNat)

/-- R116, R113, R119, R127, R225: what performing a pending load, store or atomic does, and what each atomic but ATFADD writes.
It rests on the model's choices of assumptions 5 and 29. -/
def Obligations.PendingAccessesAndAtomicsArePerformed : Prop :=
  pendingAccessesArePerformedWhole ∧ atomicsComputeTheirNewValue

/-- R128: FENCE, REL and ACQ issue at once and are pending with their signal; when nothing earlier holds them back they
leave. -/
def Sys2Proof.Claims.orderingWordsIssueAndComplete : Prop :=
  ∀ (s : State) (sc : Scope) (i : Instr) (op : AOp),
    (i = .fence sc ∧ op = .fence) ∨ (i = .rel sc ∧ op = .rel) ∨ (i = .acq sc ∧ op = .acq) →
    exec i s = .next (retire { s.setMe { s.me with
      a := { s.aside with pend := s.aside.pend ++ [{ id := s.tick, op := op, sc := sc, sig := s.sig, n := s.act.n }] } } with
        tick := s.tick + 1 }) ∧
    (∀ (ch c : Nat) (p : APend), p.op = op → mayPerform s ch c p →
      ∃ t, exec (.storePerformed ch c p.id) s = .next t ∧ t.mem = s.mem ∧
        (t.core ch c).a = { (s.core ch c).a with pend := (s.core ch c).a.pend.filter (·.id ≠ p.id) })

/-- R99, R100, R101, R94: BQPUSH pushes its condition's outcome for the X-side, and BQSKIP adds n to the skip count where the
condition holds; each signals.  With the queue full BQPUSH keeps the outcome it has taken and waits for room.  Without an
outcome both wait, and `hit` with no outcome and no PROBE in progress to give one underflows.  A skipped word leaves with
its signal and lowers the count. -/
def Sys2Proof.Claims.branchOutcomesArePushedAndSkipped : Prop :=
  ∀ (s : State) (c : Cond) (n : BitVec 8),
    let pushes := fun (y : ASide) (b : Bool) => ∃ t, exec (.bqpush c) s = .next t ∧
      engWord s t { s.me.pushNote keyAx 1 s.here.cycle with a := { y with ax := s.aside.ax ++ [b], bq := none } }
    (∀ b y, outcome s s.aside c = some (b, y) →
      (s.aside.bq = none → s.aside.ax.length < 32 → pushes y b) ∧
      (s.aside.bq = none → 32 ≤ s.aside.ax.length →
        exec (.bqpush c) s = .next (s.setAside { y with bq := some b })) ∧
      ∃ t, exec (.bqskip c n) s = .next t ∧
        engWord s t { s.me with a := { y with skip := s.aside.skip + if b then n.toNat else 0 } }) ∧
    (∀ b, s.aside.bq = some b → (s.aside.ax.length < 32 → pushes s.aside b) ∧
      (32 ≤ s.aside.ax.length → exec (.bqpush c) s = .next s)) ∧
    (outcome s s.aside c = none → (c ≠ .hit ∨ (s.aside.tags.any fun t => t.2.probing) = true) →
      exec (.bqskip c n) s = .next s ∧ (s.aside.bq = none → exec (.bqpush c) s = .next s)) ∧
    (s.aside.po = [] → (s.aside.tags.any fun t => t.2.probing) = false →
      exec (.bqskip .hit n) s = .next (raiseC 0x26 s) ∧
        (s.aside.bq = none → exec (.bqpush .hit) s = .next (raiseC 0x26 s))) ∧
    engWord s (skipWord s) { s.me with a := { s.aside with skip := s.aside.skip - 1 } }

/-- R128, R99, R100, R101: FENCE, REL and ACQ issue and complete; BQPUSH and BQSKIP take their outcome. -/
def Sys2Proof.Claims.orderingWordsAndBranchOutcomes : Prop :=
  orderingWordsIssueAndComplete ∧ branchOutcomesArePushedAndSkipped

/-- R123, R124, R125: PROBE of a block that a VALID or FILLING entry holds gives its slot offset and outcome 1 and touches
it; a miss in a set with an INVALID way takes the lowest one, FILLING, with outcome 0; PEVICT makes a VALID entry EVICTING
and has no effect without an entry; a miss or a PEVICT whose slot is not the core's is an ownership violation (R130); with the probe cache off both are probe-configuration faults. -/
def Sys2Proof.Claims.probeAndPevictMoveTagEntries : Prop :=
  ∀ (s : State) (d a : BitVec 5) (x : Word) (st : Nat), x = .ofNat 64 ((s.aside.reg a).toNat / 2048 * 2048) →
    st = x.toNat / 2048 % 2 ^ (field 8 3 s.aside.pcfg).toNat →
    let y := s.aside
    let slot := fun w => (field 0 8 y.pcfg).toNat * 2048 + (4 * st + w) * 2048
    (y.pcfg.getLsbD 11 = false →
      exec (.probe d a) s = .next (raiseC 0x22 s) ∧ exec (.pevict a) s = .next (raiseC 0x22 s)) ∧
    (y.pcfg.getLsbD 11 = true →
      (∀ w, w < 4 → (y.tag st w).block = x → ((y.tag st w).st = .valid ∨ (y.tag st w).st = .filling) →
        (∀ v, v < w → (y.tag st v).block ≠ x ∨ ((y.tag st v).st ≠ .valid ∧ (y.tag st v).st ≠ .filling)) →
        (y.po.length < 32 → ∃ t, exec (.probe d a) s = .next t ∧ sameMemory s t ∧ t.aside.po = y.po ++ [true] ∧
          (∀ r, t.aside.reg r = if r = d ∧ d ≠ 0 then .ofNat 64 (slot w) else y.reg r) ∧
          (t.aside.tag st w).st = (y.tag st w).st ∧ (t.aside.tag st w).touched = s.here.cycle ∧
          ∀ k, k ≠ 4 * st + w → SMap.get {} t.aside.tags k = SMap.get {} y.tags k) ∧
        (32 ≤ y.po.length → exec (.probe d a) s = .next (raiseC 0x25 s))) ∧
      (∀ w u ts, w < 4 → (y.tag st w).st = .invalid → (∀ v, v < w → (y.tag st v).st ≠ .invalid) →
        (∀ v, v < 4 → ((y.tag st v).block ≠ x ∨ (y.tag st v).st = .invalid) ∧
          ∀ n, (y.tag st v).next = some n → n.1 ≠ x) →
        probeRange s.act.chair s.act.core { r := true, w := true } x 2048 s = ((ts, none), u) →
        (∀ t ∈ ts, pteNarrow t.pte = false) → y.po.length < 32 → s.here.ownOk s.act.core (slot w) 2048 = true →
        ∃ t, exec (.probe d a) s = .next t ∧ t.aside.po = y.po ++ [false] ∧
          (∀ r, t.aside.reg r = if r = d ∧ d ≠ 0 then .ofNat 64 (slot w) else y.reg r) ∧
          (t.aside.tag st w).st = .filling ∧ (t.aside.tag st w).block = x ∧
          ∀ k, k ≠ 4 * st + w → SMap.get {} t.aside.tags k = SMap.get {} y.tags k) ∧
      (∀ w, w < 4 → (y.tag st w).block = x → (y.tag st w).st = .valid →
        (∀ v, v < w → (y.tag st v).block ≠ x ∨ (y.tag st v).st = .invalid) →
        (s.here.ownOk s.act.core (slot w) 2048 = true →
          ∃ t, exec (.pevict a) s = .next t ∧ sameMemory s t ∧ (t.aside.tag st w).st = .evicting ∧
            ∀ k, k ≠ 4 * st + w → SMap.get {} t.aside.tags k = SMap.get {} y.tags k) ∧
        (s.here.ownOk s.act.core (slot w) 2048 = false → exec (.pevict a) s = .next (raiseC 0x18 s))) ∧
      ((∀ v, v < 4 → ((y.tag st v).block ≠ x ∨ (y.tag st v).st = .invalid) ∧
          ∀ n, (y.tag st v).next = some n → n.1 ≠ x) →
        ∃ t, exec (.pevict a) s = .next t ∧ engWord s t s.me))

/-- R124, R125, R130, R160, R263: in a slot that is the core's, with no ganged channel or missing link in the way, a fill whose atoms that have not moved yet move without an error leaves its entry VALID and an eviction leaves it INVALID, or
FILLING for the block that waits for it; the HOME atoms of the block have moved, and the side they came from is VACANT.
With no watch slot on, memory is as the moves leave it. -/
def Sys2Proof.Claims.fillsAndEvictionsComplete : Prop :=
  ∀ (s u v : State) (ch c st w : Nat) (tr : Tr), w < 4 → (s.chair ch).alive = true →
    (s.core ch c).tagRecorded (4 * st + w) = false →
    blockWaits ch c ((s.core ch c).a.tag st w).block s = false →
    translate ch c ((s.core ch c).a.tag st w).block s = (some tr, u) →
    (s.chair ch).ownOk c ((s.core ch c).a.slot st w) 2048 = true → ∀ n,
    let e := (s.core ch c).a.tag st w
    let pairs := blockPairs ch c (tr.pa e.block) ((s.core ch c).a.slot st w)
    (e.st = .filling → moveAll (s.ctxOf ch) e.word.prov ((pairs true).drop e.moved) u = (v, n, none) →
      ∃ t, exec (.probeFillComplete ch c st w) s = .next t ∧ t.mem = (blockWatch ch c e n v).mem ∧
        ((∀ k, (SMap.get {} (v.core ch c).a.watch k).kind = 0) → t.mem = v.mem) ∧
        ((t.core ch c).a.tag st w).st = .valid ∧ ((t.core ch c).a.tag st w).block = e.block ∧
        (t.core ch c).spad = (v.core ch c).spad) ∧
    (e.st = .evicting → moveAll (s.ctxOf ch) e.word.prov ((pairs false).drop e.moved) u = (v, n, none) →
      ∃ t, exec (.probeEvictionComplete ch c st w) s = .next t ∧
        ((e.next = none → (t.core ch c).a.tag st w = {}) ∧
        ∀ x g, e.next = some (x, g) → ((t.core ch c).a.tag st w).st = .filling ∧
          ((t.core ch c).a.tag st w).block = x))

/-- R123, R124, R125, R160: PROBE and PEVICT move tag entries, and the fills and evictions they begin complete. -/
def Sys2Proof.Claims.probesFillsAndEvictions : Prop :=
  probeAndPevictMoveTagEntries ∧ fillsAndEvictionsComplete

/-- R128, R99, R100, R101, R123, R124, R125, R160: FENCE, REL and ACQ issue and complete; BQPUSH and BQSKIP take their outcome;
PROBE and PEVICT move tag entries, and the fills and evictions they begin complete.
It rests on the model's choices of assumptions 30, 31 and 59. -/
def Obligations.OrderingWordsOutcomesAndProbes : Prop :=
  Sys2Proof.Claims.orderingWordsAndBranchOutcomes ∧ Sys2Proof.Claims.probesFillsAndEvictions

/-- R126: RPROBE and RPROBE.WAIT of a range whose pages are all there pin it and write 0; RPROBE.WAIT of a range with a page
in the deep tier or in flight to a stack writes 1 and pins nothing; any other page that is not there is a page fault with
the rest of the range, and for RPROBE those pages too; RUNPIN drops the entries that lie inside its range; a
range that R126 does not admit is a probe-range fault, and a full pin table a pin-table fault.
It rests on the model's choices of assumption 69. -/
def Obligations.RangeProbesPinTheirRange : Prop :=
  ∀ (s : State) (d a b : BitVec 5),
    let base := s.aside.reg a
    let len := s.aside.reg b
    (s.aside.still = true → probeRangeOk base len → ∀ ts e u,
      probeRange s.act.chair s.act.core { r := true } base len.toNat s = ((ts, e), u) →
      (e = none → s.aside.pins.length < 16 → ∀ i, i = .rprobe d a b ∨ i = .rprobeWait d a b →
        ∃ t, exec i s = .next t ∧ t.aside.pins = s.aside.pins ++ [(base, len.toNat)] ∧ t.mem = u.mem ∧
          ∀ r, t.aside.reg r = if r = d then 0 else s.aside.reg r) ∧
      (e = none → 16 ≤ s.aside.pins.length → ∀ i, i = .rprobe d a b ∨ i = .rprobeWait d a b →
        exec i s = .next (raiseC 0x24 u)) ∧
      (∀ va k, e = some (k, va) → k ≠ .migrating → u.here.open_ = true → u.me.rec_ = none →
        probeFaults (.rprobe d a b) s base len.toNat k va ∧
          (k ≠ .deep → k ≠ .arriving → probeFaults (.rprobeWait d a b) s base len.toNat k va)) ∧
      (∀ va k, e = some (k, va) → k = .deep ∨ k = .arriving →
        ∃ t, exec (.rprobeWait d a b) s = .next t ∧ t.aside.pins = s.aside.pins ∧ t.mem = u.mem ∧
          ∀ r, t.aside.reg r = if r = d ∧ d ≠ 0 then 1 else s.aside.reg r)) ∧
    (probeRangeOk base len → ∃ t, exec (.runpin a b) s = .next t ∧
      engWord s t { s.me with a := { s.aside with pins := s.aside.pins.filter (outside base len) } }) ∧
    (¬probeRangeOk base len → exec (.runpin a b) s = .next (raiseC 0x23 s) ∧
      (s.aside.still = true → exec (.rprobe d a b) s = .next (raiseC 0x23 s) ∧
        exec (.rprobeWait d a b) s = .next (raiseC 0x23 s)))

/-- R130, R131, R132: HGIVE of a handle the core holds, with its earlier work done, offers it to another core that is not
EXITED, and to itself leaves it; HTAKE of a handle offered to the core holds it; any other HGIVE is an ownership violation
and any other HTAKE waits.  WATCH sets its slot or turns it off, and signals. -/
def Obligations.HandlesPassBetweenCoresAndWatchSlotsAreSet : Prop :=
  ∀ (s : State) (h : BitVec 6) (a b : BitVec 5) (n kind : BitVec 2),
    let c := s.act.core
    let g := (s.aside.reg a).toNat
    (s.me.stillBefore s.act.n 1 = true →
      ((s.here.handle h).st = .held c → g ≤ 15 → (s.here.core g).phase ≠ .exited →
        ∃ t, exec (.hgive h a) s = .next t ∧ sameMemory s t ∧ t.me.a = s.aside ∧
          t.here.handle h = { s.here.handle h with st := if g = c then .held c else .offered c g } ∧
          ∀ k, k ≠ h → t.here.handle k = s.here.handle k) ∧
      ((s.here.handle h).st ≠ .held c ∨ 15 < g ∨ (s.here.core g).phase = .exited →
        exec (.hgive h a) s = .next (raiseC 0x18 s))) ∧
    (∀ o, (s.here.handle h).st = .offered o c →
      ∃ t, exec (.htake h) s = .next t ∧ sameMemory s t ∧ t.me.a = s.aside ∧
        t.here.handle h = { s.here.handle h with st := .held c } ∧ ∀ k, k ≠ h → t.here.handle k = s.here.handle k) ∧
    ((∀ o, (s.here.handle h).st ≠ .offered o c) → exec (.htake h) s = .next s) ∧
    (let len := (s.aside.reg b).toNat
     (kind = 0 ∨ (1 ≤ len ∧ len ≤ 2 ^ 30) →
       ∃ t, exec (.watch n a b kind) s = .next t ∧
         engWord s t { s.me with a := { s.aside with watch := t.aside.watch } } ∧
         ∀ k, SMap.get {} t.aside.watch k = if k ≠ n.toNat then SMap.get {} s.aside.watch k
           else if kind = 0 then {} else { kind := kind, base := s.aside.reg a, len := len }) ∧
     (kind ≠ 0 → len = 0 ∨ 2 ^ 30 < len → exec (.watch n a b kind) s = .next (raiseC 0x23 s)))

/-! ## The X-side -/

namespace Sys2Proof.Claims

/-- The word has issued in its pipe: its result is in flight, to land `lat` cycles on with the word's signal, and the
running core is `y` apart from that (R139, R140, R141). -/
def flies (s t : State) (y : Core) (scalar : Bool) (lat : Nat) (r : Inflight) : Prop :=
  engTaken s t { y with x := { y.x with
    scalarAt := if scalar then some s.here.cycle else y.x.scalarAt
    vectorAt := if scalar then y.x.vectorAt else some s.here.cycle
    fly := y.x.fly ++ [{ r with at_ := s.here.cycle + lat, sig := s.sig }] } }

/-- The word has issued in its pipe with no result, and has signalled (R140, R141). -/
def acts (s t : State) (y : Core) (scalar : Bool) : Prop :=
  engWord s t { y with x := { y.x with
    scalarAt := if scalar then some s.here.cycle else y.x.scalarAt
    vectorAt := if scalar then y.x.vectorAt else some s.here.cycle } }

/-- A result for a scalar register, and one for a predicate. -/
def toS (d : BitVec 6) (v : Word) (fl : Fl := 0) : Inflight := { dest := .s d, val := v.setWidth 1024, flags := fl }
def toP (d : BitVec 5) (v : BitVec 32) : Inflight := { dest := .p d, pval := v }

/-- The FP32 value in the low half of a scalar register (R142). -/
def sfp (x : XSide) (r : BitVec 6) : FVal := unpack fp32 ((x.sreg r).toNat % 2 ^ 32)

/-- The integers of the active elements of a register (R138, R153). -/
def activeInts (x : XSide) (p : BitVec 5) (a : BitVec 9) : List Int :=
  ((List.range (1024 / VType.w x.vtype)).filter fun e => activeElem (x.preg p) (VType.w x.vtype) e).map fun e =>
    VType.int x.vtype (elem (x.vreg a) (VType.w x.vtype) e)

/-- The words whose one result the tables of R142, R147, R149, R152, R153 and R156 give outright: whether the scalar pipe
takes the word, its latency (R139, R140) and the result. -/
def xResult (x : XSide) : Instr → Option (Bool × Nat × Inflight)
  | .sadd d a b => some (true, 2, toS d (.ofInt 64 ((x.sreg a).toInt + (x.sreg b).toInt)))
  | .ssub d a b => some (true, 2, toS d (.ofInt 64 ((x.sreg a).toInt - (x.sreg b).toInt)))
  | .smul d a b => some (true, 2, toS d (.ofInt 64 ((x.sreg a).toInt * (x.sreg b).toInt)))
  | .sand d a b => some (true, 2, toS d (.ofNat 64 ((x.sreg a).toNat &&& (x.sreg b).toNat)))
  | .sor d a b => some (true, 2, toS d (.ofNat 64 ((x.sreg a).toNat ||| (x.sreg b).toNat)))
  | .sxor d a b => some (true, 2, toS d (.ofNat 64 ((x.sreg a).toNat ^^^ (x.sreg b).toNat)))
  | .sshl d a b => some (true, 2, toS d (.ofNat 64 ((x.sreg a).toNat * 2 ^ ((x.sreg b).toNat % 64))))
  | .sshr d a b => some (true, 2, toS d (.ofNat 64 ((x.sreg a).toNat / 2 ^ ((x.sreg b).toNat % 64))))
  | .sfadd d a b =>
    let r := fAdd fp32 (RMode.ofCode x.frm.toNat) (sfp x a) (sfp x b)
    some (true, 4, toS d (.ofNat 64 r.1) r.2)
  | .sfmul d a b =>
    let r := fMul fp32 (RMode.ofCode x.frm.toNat) (sfp x a) (sfp x b)
    some (true, 4, toS d (.ofNat 64 r.1) r.2)
  | .smov d v => some (true, 2, toS d (match v with
      | .reg a => x.sreg a
      | .lit l => .ofInt 64 l.toInt))
  | .dqcnt d =>
    some (true, 2, toS d (.ofNat 64 ((x.defq.map fun b => b.lanes.length).sum % 2 ^ 16 +
      2 ^ 16 * (x.defq.length % 2 ^ 16))))
  | .pand d a b => some (false, 2, toP d (.ofNat 32 ((x.preg a).toNat &&& (x.preg b).toNat)))
  | .por d a b => some (false, 2, toP d (.ofNat 32 ((x.preg a).toNat ||| (x.preg b).toNat)))
  | .pxor d a b => some (false, 2, toP d (.ofNat 32 ((x.preg a).toNat ^^^ (x.preg b).toNat)))
  | .pnot d a => some (false, 2, toP d (.ofNat 32 (2 ^ 32 - 1 - (x.preg a).toNat)))
  | .pany d a => some (false, 2, toS d (if x.preg a = 0 then 0 else 1))
  | .pcnt d a => some (false, 2, toS d (.ofNat 64 ((List.range 32).countP fun n => (x.preg a).getLsbD n)))
  | .vext d a k =>
    let t := x.vtype
    let v := elem (x.vreg a) (VType.w t) (k.toNat % (1024 / VType.w t))
    some (false, 2, toS d (if t = .i8 ∨ t = .i16 ∨ t = .i32 then .ofInt 64 (VType.int t v) else .ofNat 64 v))
  | .vpack d a h =>
    let lo := (x.vreg a).toNat % 2 ^ 512
    let old := (x.vreg d).toNat
    some (false, 3, { dest := .v d, val := .ofNat 1024 (if h = 0 then old / 2 ^ 512 * 2 ^ 512 + lo
      else lo * 2 ^ 512 + old % 2 ^ 512) })
  | .vunpk d a h =>
    some (false, 3, { dest := .v d, val := .ofNat 1024 ((x.vreg a).toNat / 2 ^ (512 * h.toNat) % 2 ^ 512) })
  | .vrsum p d a => some (false, 6, toS d (.ofInt 64 (activeInts x p a).sum))
  | _ => none

/-- The element-wise integer, logical, shift and movement words (R143, R149): the predicate, the destination, and what
each active element becomes, with the flags it raises; integers wrap to the width. -/
def vecInt (x : XSide) : Instr → Option (BitVec 5 × BitVec 9 × (Nat → Int × Fl)) :=
  let t := x.vtype
  let w := VType.w t
  let el (r : BitVec 9) (e : Nat) : Nat := elem (x.vreg r) w e
  let int (r : BitVec 9) (e : Nat) : Int := VType.int t (el r e)
  fun
  | .vadd p d a b => some (p, d, fun e => (int a e + int b e, 0))
  | .vsub p d a b => some (p, d, fun e => (int a e - int b e, 0))
  | .vmul p d a b => some (p, d, fun e => (int a e * int b e, 0))
  | .vmulh p d a b => some (p, d, fun e => (int a e * int b e / 2 ^ w, 0))
  | .vmin p d a b => some (p, d, fun e => (Min.min (int a e) (int b e), 0))
  | .vmax p d a b => some (p, d, fun e => (Max.max (int a e) (int b e), 0))
  | .vabs p d a => some (p, d, fun e => (|int a e|, 0))
  | .vneg p d a => some (p, d, fun e => (-int a e, 0))
  | .vand p d a b => some (p, d, fun e => ((el a e &&& el b e : Nat), 0))
  | .vor p d a b => some (p, d, fun e => ((el a e ||| el b e : Nat), 0))
  | .vxor p d a b => some (p, d, fun e => ((el a e ^^^ el b e : Nat), 0))
  | .vnot p d a => some (p, d, fun e => (-1 - (el a e : Int), 0))
  | .vshl p d a b => some (p, d, fun e => ((el a e : Int) * 2 ^ (el b e % w), 0))
  | .vshr p d a b => some (p, d, fun e => ((el a e : Int) / 2 ^ (el b e % w), 0))
  | .vsar p d a b => some (p, d, fun e =>
      (((el a e : Int) - if 2 ^ (w - 1) ≤ el a e then 2 ^ w else 0) / 2 ^ (el b e % w), 0))
  | .vadds p d a b => some (p, d, fun e =>
      (Max.max (VType.lo t) (Min.min (VType.hi t) (int a e + int b e)),
        flIf (decide (int a e + int b e < VType.lo t ∨ VType.hi t < int a e + int b e)) flSAT))
  | .vbcast p d a => some (p, d, fun _ => ((x.sreg a).toNat, 0))
  | .vperm p d a b => some (p, d, fun e => (el a (el b e % (1024 / w)), 0))
  | .vrot p d a k => some (p, d, fun e => (el a ((e + k.toNat) % (1024 / w)), 0))
  | .vmov p d a => some (p, d, fun e => (el a e, 0))
  | .vins d a k => some (0, d, fun e => (if e = k.toNat % (1024 / w) then ((x.sreg a).toNat : Int) else el d e, 0))
  | _ => none

/-- The element-wise float words (R144): the latency, the predicate, the destination, and each active element with its
flags. -/
def vecFlt (x : XSide) (m : FFmt) : Instr → Option (Nat × BitVec 5 × BitVec 9 × (Nat → Nat × Fl)) :=
  let w := VType.w x.vtype
  let md := RMode.ofCode x.frm.toNat
  let el (r : BitVec 9) (e : Nat) : Nat := elem (x.vreg r) w e
  let val (r : BitVec 9) (e : Nat) : FVal := unpack m (el r e)
  fun
  | .vfadd p d a b => some (4, p, d, fun e => fAdd m md (val a e) (val b e))
  | .vfsub p d a b => some (4, p, d, fun e => fAdd m md (val a e) (val b e).neg)
  | .vfmul p d a b => some (4, p, d, fun e => fMul m md (val a e) (val b e))
  | .vfma p d a b => some (4, p, d, fun e => fFma m md (val a e) (val b e) (val d e))
  | .vfmin p d a b => some (4, p, d, fun e => fMinMax m false (el a e) (el b e))
  | .vfmax p d a b => some (4, p, d, fun e => fMinMax m true (el a e) (el b e))
  | .vfabs p d a => some (2, p, d, fun e => (el a e % 2 ^ (w - 1), 0))
  | .vfneg p d a => some (2, p, d, fun e => (el a e ^^^ 2 ^ (w - 1), 0))
  | .vrcp p d a => some (8, p, d, fun e => fRcp m md (val a e))
  | .vrsq p d a => some (8, p, d, fun e => fRsq m md (val a e))
  | .vexp2 p d a => some (8, p, d, fun e => fExp2 m md (val a e))
  | .vlog2 p d a => some (8, p, d, fun e => fLog2 m md (val a e))
  | _ => none

/-- A register and flags are what the active elements become; the others are the old destination's (R137). -/
def elemsAre (x : XSide) (p : BitVec 5) (d : BitVec 9) (f : Nat → Nat × Fl) (v : Vec) (fl : Fl) : Prop :=
  let w := VType.w x.vtype
  (∀ e, e < 1024 / w → elem v w e =
    if activeElem (x.preg p) w e then (f e).1 % 2 ^ w else elem (x.vreg d) w e) ∧
  ∀ k, fl.getLsbD k = true ↔
    ∃ e, e < 1024 / w ∧ activeElem (x.preg p) w e = true ∧ (f e).2.getLsbD k = true

/-- The compares (R146): whether it is a float compare, the predicate, the destination, the relation of two elements and
the flags it raises. -/
def vecCmp (x : XSide) (m : FFmt) : Instr → Option (Bool × BitVec 5 × BitVec 5 × (Nat → Prop) × (Nat → Bool)) :=
  let t := x.vtype
  let w := VType.w t
  let int (r : BitVec 9) (e : Nat) : Int := VType.int t (elem (x.vreg r) w e)
  let val (r : BitVec 9) (e : Nat) : FVal := unpack m (elem (x.vreg r) w e)
  let num (a b : BitVec 9) (e : Nat) : Prop := (val a e).isNan = false ∧ (val b e).isNan = false
  let snan (a b : BitVec 9) (e : Nat) : Bool := (val a e).snan || (val b e).snan
  let anan (a b : BitVec 9) (e : Nat) : Bool := (val a e).isNan || (val b e).isNan
  fun
  | .vceq p pd a b => some (false, p, pd, fun e => int a e = int b e, fun _ => false)
  | .vclt p pd a b => some (false, p, pd, fun e => int a e < int b e, fun _ => false)
  | .vcle p pd a b => some (false, p, pd, fun e => int a e ≤ int b e, fun _ => false)
  | .vfceq p pd a b => some (true, p, pd, fun e => num a b e ∧ (val a e).cmp (val b e) = .eq, snan a b)
  | .vfclt p pd a b => some (true, p, pd, fun e => num a b e ∧ (val a e).cmp (val b e) = .lt, anan a b)
  | .vfcle p pd a b => some (true, p, pd, fun e => num a b e ∧ (val a e).cmp (val b e) ≠ .gt, anan a b)
  | .vfcun p pd a b => some (true, p, pd, fun e => ¬num a b e, snan a b)
  | _ => none

/-- The X-side words that an integer element type makes a vector-type fault (R138). -/
def needsFloat : Instr → Bool
  | .vfadd .. | .vfsub .. | .vfmul .. | .vfma .. | .vfmin .. | .vfmax .. | .vfabs .. | .vfneg .. | .vrcp .. | .vrsq ..
  | .vexp2 .. | .vlog2 .. | .vfceq .. | .vfclt .. | .vfcle .. | .vfcun .. | .vfrsum .. | .vcvtd .. => true
  | _ => false

/-- What VCVT and VCVTD write: n elements of the destination type, converted, with zero above them, and the flags that
any of them raises (R150). -/
def convertedTo (t u : VType) (md : Nat → RMode) (a v : Vec) (fl : Fl) : Prop :=
  let n := 1024 / Nat.max (VType.w t) (VType.w u)
  (∀ e, e < n → elem v (VType.w u) e = (convert t u (md e) (elem a (VType.w t) e)).1 % 2 ^ VType.w u) ∧
    v.toNat < 2 ^ (n * VType.w u) ∧
    ∀ k, fl.getLsbD k = true ↔ ∃ e, e < n ∧ (convert t u (md e) (elem a (VType.w t) e)).2.getLsbD k = true

/-- The lanes of the deferral queue in order: value, and tag with lane number (R155). -/
def deferredLanes (q : List Batch) : List (BitVec 32 × Nat) :=
  q.flatMap fun b => b.lanes.map fun l => (l.2, b.tag.toNat * 256 + l.1)

end Sys2Proof.Claims

/-- R142, R147, R149, R152, R153, R156, R139, R140: the scalar words, the predicate words, VEXT, VPACK, VUNPK, VRSUM and
DQCNT issue with the result their tables give, in their pipe and with their latency; nothing else of the state changes. -/
def Obligations.XsideWordsIssueWithTheirResult : Prop :=
  ∀ (i : Instr) (s : State) (scalar : Bool) (lat : Nat) (r : Inflight), xResult s.xside i = some (scalar, lat, r) →
    ∃ t, exec i s = .next t ∧ flies s t s.me scalar lat r

/-- R137, R138, R143, R144, R149: an element-wise vector word computes every active element, keeps the others, and raises
the flags of the active ones; a float word under an integer element type is a vector-type fault. -/
def Obligations.VectorWordsComputeTheirActiveElements : Prop :=
  ∀ (i : Instr) (s : State),
    (∀ p d f, vecInt s.xside i = some (p, d, f) →
      ∃ t v fl, exec i s = .next t ∧ flies s t s.me false 2 { dest := .v d, val := v, flags := fl } ∧
        elemsAre s.xside p d (fun e => (((f e).1 % 2 ^ VType.w s.xside.vtype).toNat, (f e).2)) v fl) ∧
    (∀ m lat p d f, VType.fmt s.xside.vtype = some m → vecFlt s.xside m i = some (lat, p, d, f) →
      ∃ t v fl, exec i s = .next t ∧ flies s t s.me false lat { dest := .v d, val := v, flags := fl } ∧
        elemsAre s.xside p d f v fl) ∧
    (VType.fmt s.xside.vtype = none → needsFloat i = true → exec i s = .next (raiseC 0x2A s))

/-- R146, R137: a compare gives bit n of an active lane the value 1 exactly where the relation holds for every element of
the lane, keeps the bits of the other lanes, and sets NV where an element of an active lane raises it. -/
def Obligations.ComparesWriteTheirActiveLanes : Prop :=
  ∀ (i : Instr) (s : State) (m : FFmt) (flt : Bool) (p pd : BitVec 5) (rel : Nat → Prop) (nv : Nat → Bool),
    vecCmp s.xside m i = some (flt, p, pd, rel, nv) → (flt = true → VType.fmt s.xside.vtype = some m) →
    let k := 32 / VType.w s.xside.vtype
    let active := fun n => (s.xside.preg p).getLsbD n = true
    ∃ t v fl, exec i s = .next t ∧ flies s t s.me false 2 { dest := .p pd, pval := v, flags := fl } ∧
      (∀ n, n < 32 → (active n → (v.getLsbD n = true ↔ ∀ j, j < k → rel (n * k + j))) ∧
        (¬active n → v.getLsbD n = (s.xside.preg pd).getLsbD n)) ∧
      (fl = flNV ∨ fl = 0) ∧ (fl = flNV ↔ ∃ n, n < 32 ∧ active n ∧ ∃ j, j < k ∧ nv (n * k + j) = true)

/-- R150, R151: VCVT converts by FRM and VCVTD by the ordered dither of DROW, which moves on by n / 32 rows at issue. -/
def Obligations.ConversionsConvertEveryElement : Prop :=
  ∀ (s : State) (d a : BitVec 9) (u : VType),
    let x := s.xside
    let i0 := x.drow.toNat % 32
    let ph := x.drow.toNat / 32
    let rows := 1024 / Nat.max (VType.w x.vtype) (VType.w u) / 32
    (∃ t v fl, exec (.vcvt d a u) s = .next t ∧
      flies s t s.me false 3 { dest := .v d, val := v, flags := fl } ∧
      convertedTo x.vtype u (fun _ => RMode.ofCode x.frm.toNat) (x.vreg a) v fl) ∧
    (VType.fmt x.vtype ≠ none → ∃ t v fl, exec (.vcvtd d a u) s = .next t ∧
      flies s t { s.me with x := { x with
          drow := .ofNat 10 ((ph + (i0 + rows) / 32) % 32 * 32 + (i0 + rows) % 32) } }
        false 3 { dest := .v d, val := v, flags := fl } ∧
      convertedTo x.vtype u (fun e => .dith (dither ((i0 + e / 32) % 32) (e % 32) ph)) (x.vreg a) v fl)

/-- R153, R145: VRMAX and VRMIN give the greatest and the least of the active elements, the far end of the type where none
is active, and under a float type the number that the others do not exceed, NaNs being left out while one element is a
number; VFRSUM gives the exact sum of the active elements rounded once, the same in every order, with NV where both
infinities are among them. -/
def Sys2Proof.Claims.reductionsReduceTheActiveElements : Prop :=
  ∀ (s : State) (p : BitVec 5) (d : BitVec 6) (a : BitVec 9) (greater : Bool),
    let x := s.xside
    let i : Instr := if greater then .vrmax p d a else .vrmin p d a
    let bits := activeElems (VType.w x.vtype) (x.preg p) (x.vreg a)
    (VType.fmt x.vtype = none →
      ∃ t v, exec i s = .next t ∧ flies s t s.me false 6 (toS d (.ofInt 64 v)) ∧
        (activeInts x p a = [] → v = if greater then VType.lo x.vtype else VType.hi x.vtype) ∧
        (activeInts x p a ≠ [] → v ∈ activeInts x p a ∧
          ∀ e ∈ activeInts x p a, if greater then e ≤ v else v ≤ e)) ∧
    (∀ m, VType.fmt x.vtype = some m →
      (∃ t v fl, exec i s = .next t ∧ flies s t s.me false 6 (toS d (.ofNat 64 v) fl) ∧
        fl = flIf (bits.any fun e => (unpack m e).snan) flNV ∧
        (bits = [] → v = m.inf greater) ∧
        (bits ≠ [] → (∀ e ∈ bits, (unpack m e).isNan = true) → v = m.nan) ∧
        ((∃ e ∈ bits, (unpack m e).isNan = false) → v ∈ bits ∧ (unpack m v).isNan = false ∧
          ∀ e ∈ bits, (unpack m e).isNan = false → (unpack m e).cmp (unpack m v) ≠ if greater then .gt else .lt)) ∧
      ∃ t, exec (.vfrsum p d a) s = .next t ∧
        let sum (es : List Nat) : Nat × Fl :=
          let r := (es.foldl (fun (z : ExactSum) e => z.add (unpack m e)) {}).round fp32
            (RMode.ofCode x.frm.toNat) (zeroSign m (RMode.ofCode x.frm.toNat) es)
          (r.1, r.2 ||| flIf (decide (m.inf false ∈ es ∧ m.inf true ∈ es)) flNV)
        flies s t s.me false 6 (toS d (.ofNat 64 (sum bits).1) (sum bits).2) ∧
          ∀ es, es.Perm bits → sum es = sum bits)

/-- R157: VCOMPNM keeps of every group of M = 2N elements the N of greatest magnitude in rising order, ties to the lower
index, packs them and their indices, and sets CN where a kept element is a NaN. -/
def Sys2Proof.Claims.compressKeepsTheGreatest : Prop :=
  ∀ (s : State) (d a : BitVec 9) (mode : BitVec 2), mode ≠ 3 →
    let t := s.xside.vtype
    let w := VType.w t
    let n := 2 * 2 ^ mode.toNat
    let b := mode.toNat + 2
    let el := fun e => elem (s.xside.vreg a) w e
    let rank := fun e => VType.rank t (el e)
    ∃ u v idx fl, exec (.vcompnm d a mode) s = .next u ∧
      flies s u s.me false 6 { dest := .vv d, val := v, val2 := idx, flags := fl } ∧
      (∀ g, g < 1024 / w / (2 * n) → ∃ sel : List Nat, sel.length = n ∧ sel.Pairwise (· < ·) ∧
        (∀ r ∈ sel, r < 2 * n) ∧
        (∀ r ∈ sel, ∀ q, q < 2 * n → q ∉ sel →
          rank (g * (2 * n) + q) < rank (g * (2 * n) + r) ∨
            (rank (g * (2 * n) + q) = rank (g * (2 * n) + r) ∧ r < q)) ∧
        ∀ j, j < n → elem v w (g * n + j) = el (g * (2 * n) + sel.getD j 0) ∧
          elem idx b (g * n + j) = sel.getD j 0) ∧
      v.toNat < 2 ^ 512 ∧ idx.toNat < 2 ^ (1024 / w / 2 * b) ∧
      fl = flIf (match VType.fmt t with
        | some m => (List.range (1024 / w / 2)).any fun k => (unpack m (elem v w k)).isNan
        | none => false) flCN

/-- R153, R145, R157: VRMAX, VRMIN and VFRSUM reduce the active elements, and VCOMPNM keeps the greatest of each group.
It rests on the model's choices of assumption 14. -/
def Obligations.ReductionsAndCompression : Prop :=
  reductionsReduceTheActiveElements ∧ compressKeepsTheGreatest

/-- R94, R95, R102, R140, R142, R148, R149, R136: the pops take the head entry once its data is there from an earlier cycle,
and no later word reads the old value; the pushes append to their queue while it has room, and otherwise they wait; VSEL chooses lane by lane, and VSETT sets the element type. -/
def Sys2Proof.Claims.xsideQueueWordsAndSelect : Prop :=
  ∀ (s : State) (p : BitVec 5) (d a b : BitVec 9) (sd : BitVec 6) (q : BitVec 2) (sq : BitVec 1) (ty : VType),
    let x := s.xside
    let y := s.aside
    let on := fun n => (x.preg p).getLsbD n = true
    (∀ id v c es, y.dqs q.toNat = { id := id, data := some v, at_ := c } :: es → c ≤ s.here.cycle →
      let me (x : XSide) : Core := { s.me with a := { y with dq := SMap.put [] y.dq q.toNat es }, x := x }
      (∃ t, exec (.spopq sd q) s = .next t ∧
        flies s t (me (x.setS sd (.ofNat 64 v.toNat))) true 1 (toS sd (.ofNat 64 v.toNat))) ∧
      ∃ t r, exec (.vpopq p d q) s = .next t ∧ flies s t (me (x.setV d r)) false 1 { dest := .v d, val := r } ∧
        ∀ n, n < 32 → (on n → lane32 r n = lane32 v n) ∧ (¬on n → lane32 r n = lane32 (x.vreg d) n)) ∧
    ((y.dqs q.toNat = [] ∨ ∃ e es, y.dqs q.toNat = e :: es ∧ (e.data = none ∨ s.here.cycle < e.at_)) →
      exec (.spopq sd q) s = .next s ∧ exec (.vpopq p d q) s = .next s) ∧
    ((y.sqs sq.toNat).length < 16 → ∃ t r, exec (.vpushq p sq a) s = .next t ∧
      acts s t { s.me.pushNote (keySq sq.toNat) 1 s.here.cycle with
        a := { y with sq := SMap.put [] y.sq sq.toNat (y.sqs sq.toNat ++ [r]) } } false ∧
      ∀ n, n < 32 → (on n → lane32 r n = lane32 (x.vreg a) n) ∧ (¬on n → lane32 r n = 0)) ∧
    (x.lane.length < 16 → ∃ t, exec (.spushg sd) s = .next t ∧
      acts s t { s.me.pushNote keyLane 1 s.here.cycle with x := { x with lane := x.lane ++ [x.sreg sd] } } true) ∧
    (y.xa.length < 32 → ∃ t, exec (.bqout sd) s = .next t ∧
      acts s t { s.me.pushNote keyXa 1 s.here.cycle with a := { y with xa := y.xa ++ [decide (x.sreg sd ≠ 0)] } } true) ∧
    (16 ≤ (y.sqs sq.toNat).length → exec (.vpushq p sq a) s = .next s) ∧
    (16 ≤ x.lane.length → exec (.spushg sd) s = .next s) ∧ (32 ≤ y.xa.length → exec (.bqout sd) s = .next s) ∧
    (∃ t r, exec (.vsel p d a b) s = .next t ∧ flies s t s.me false 2 { dest := .v d, val := r } ∧
      ∀ n, n < 32 → (on n → lane32 r n = lane32 (x.vreg a) n) ∧ (¬on n → lane32 r n = lane32 (x.vreg b) n)) ∧
    ∃ t, exec (.vsett ty) s = .next t ∧ acts s t { s.me with x := { x with vtype := ty } } false

/-- R154, R155: DEFER appends the active lanes as one batch, faults where the queue is full and does nothing without an
active lane; DRAIN takes up to 32 lanes in order, with their tags and numbers, and the rest stay. -/
def Sys2Proof.Claims.deferredLanesLeaveInOrder : Prop :=
  ∀ (s : State) (p pd : BitVec 5) (d a : BitVec 9) (tag : BitVec 8),
    let x := s.xside
    let ls := ((List.range 32).filter fun n => (x.preg p).getLsbD n).map fun n => (n, lane32 (x.vreg a) n)
    let k := Nat.min 32 (deferredLanes x.defq).length
    (ls = [] → ∃ t, exec (.defer p a tag) s = .next t ∧ acts s t s.me false) ∧
    (ls ≠ [] → x.defq.length < 256 → ∃ t, exec (.defer p a tag) s = .next t ∧
      acts s t { s.me with x := { x with defq := x.defq ++ [{ tag := tag, lanes := ls }] } } false) ∧
    (ls ≠ [] → 256 ≤ x.defq.length → exec (.defer p a tag) s = .next (raiseC 0x27 s)) ∧
    (∃ t v w rest, exec (.drain d pd) s = .next t ∧
      flies s t { s.me with x := { x with defq := rest } } false 2
        { dest := .vvp d pd, val := v, val2 := w, pval := .ofNat 32 (2 ^ k - 1) } ∧
      (∀ n, n < 32 → lane32 v n = ((deferredLanes x.defq).getD n (0, 0)).1 ∧
        lane32 w n = .ofNat 32 ((deferredLanes x.defq).getD n (0, 0)).2) ∧
      deferredLanes rest = (deferredLanes x.defq).drop 32 ∧
      ((∀ b ∈ x.defq, b.lanes ≠ []) → ∀ b ∈ rest, b.lanes ≠ []))

/-- R94, R95, R102, R140, R142, R148, R149, R136, R154, R155: the X-side words on queues, VSEL and VSETT, and the deferral queue. -/
def Obligations.XsideQueuesSelectAndDeferral : Prop :=
  xsideQueueWordsAndSelect ∧ deferredLanesLeaveInOrder

/-- R141, R44, R134: a due result lands, the earliest first and of two in one cycle the earlier issued: its register is
written, s0 and p0 excepted, its flags are raised, and it is in flight no more. -/
def Obligations.ResultsLandInTheirRegister : Prop :=
  ∀ (s : State) (ch c : Nat) (r : Inflight) (pre post : List Inflight), (s.chair ch).st = .run →
    (s.core ch c).x.fly = pre ++ r :: post → r.at_ ≤ (s.chair ch).cycle → (∀ q ∈ pre, r.at_ < q.at_) →
    (∀ q ∈ post, r.at_ ≤ q.at_) →
    ∃ t, exec (.resultLanding ch c) s = .next t ∧ sameMemory s t ∧
      (t.core ch c).x.fly = pre ++ post ∧ (t.core ch c).x.flags = (s.core ch c).x.flags ||| r.flags ∧
      (∀ q, (t.core ch c).x.sreg q = match r.dest with
        | .s d => if q = d ∧ d ≠ 0 then r.val.setWidth 64 else (s.core ch c).x.sreg q
        | _ => (s.core ch c).x.sreg q) ∧
      (∀ q, (t.core ch c).x.vreg q = match r.dest with
        | .v d => if q = d then r.val else (s.core ch c).x.vreg q
        | .vvp d _ => if q = d + 1 then r.val2 else if q = d then r.val else (s.core ch c).x.vreg q
        | .vv d => if q = d + 1 then r.val2 else if q = d then r.val else (s.core ch c).x.vreg q
        | _ => (s.core ch c).x.vreg q) ∧
      (∀ q, (t.core ch c).x.preg q = match r.dest with
        | .p d => if q = d ∧ d ≠ 0 then r.pval else (s.core ch c).x.preg q
        | .vvp _ d => if q = d ∧ d ≠ 0 then r.pval else (s.core ch c).x.preg q
        | _ => (s.core ch c).x.preg q) ∧
      ((s.core ch c).semv r.sig.sem.toNat + r.sig.amt ≤ 0xFFFF →
        SMap.get 0 (s.core ch c).took r.sig.sem.toNat ≠ (s.chair ch).cycle + 1 → ∀ j, (t.core ch c).semv j =
        if j = r.sig.sem.toNat ∧ j ≠ 0 then (s.core ch c).semv j + r.sig.amt else (s.core ch c).semv j)

/-! ## The furnace and the accumulators -/

namespace Sys2Proof.Claims

/-- The running word has left its queue, its engine having started it: its core is `y` apart from that, and no other core,
no other chair and no memory has changed (R13). -/
def starts (s t : State) (y : Core) : Prop :=
  t.me = y.retire s.act.eng s.here.cycle ∧ (∀ e, e ≠ s.act.core → t.here.core e = s.here.core e) ∧
    (∀ e, e ≠ s.act.chair → t.chair e = s.chair e) ∧ t.mem = s.mem ∧ t.deep = s.deep ∧
    t.here.gf = s.here.gf ∧ t.here.ring = s.here.ring ∧ t.here.handles = s.here.handles ∧ t.here.halt = s.here.halt

/-- The lease after a command that started under r (R189). -/
def spent (r : Nat) : Lease := if r ≤ 1 then .none else .holding (r - 1)

/-- Width in bits and bytes of an operand format's elements, rows and blocks, and its furnace cycles (R196, R197). -/
def fmtBits (k : Nat) : Nat := if k = 3 then 6 else if k = 4 then 8 else 16
def fmtBlock (k : Nat) : Nat := 128 * fmtBits k
def fmtCycles (k : Nat) : Nat := if k = 3 then 4 else if k = 4 then 8 else 16

/-- Element (r, e) of a block of the scratchpad (R196). -/
def blockAt (m : Space) (off k r e : Nat) : Nat :=
  leNat ((List.range (4 * fmtBits k)).map fun i => m.byte (off + 4 * fmtBits k * r + i)) / 2 ^ (fmtBits k * e) %
    2 ^ fmtBits k

/-- The group of element (i, j): the sum over n of A(i, n) B(n, j), A transposed for MMAT (R50, R51, R196). -/
def groupAt (m : Space) (f : Word) (t : Bool) (a b i j : Nat) : Nat × Fl :=
  let k := (field 59 4 f).toNat
  let sc (off : Nat) : Nat := if k = 3 then (m.byte off).toNat else 127
  mmaGroup k (sc (field 19 19 f).toNat) (sc (field 0 19 f).toNat) ((List.range 32).map fun n =>
    (if t then blockAt m a k n i else blockAt m a k i n, blockAt m b k n j))

/-- The head of the format queue is there for the running word, from an earlier cycle (R81, R94). -/
def formatHead (s : State) (f : Word) : Prop := s.fmtNew = false ∧ s.mside.fmtHead s.act.prov.esn = some f

/-- The extents that an operand word and two pointers read (R196). -/
def reads (f : Word) (a b : Nat) : List (Nat × Nat) :=
  let k := (field 59 4 f).toNat
  [(a, fmtBlock k), (b, fmtBlock k)] ++ if k = 3 then [((field 19 19 f).toNat, 1), ((field 0 19 f).toNat, 1)] else []

/-- A block lies in the scratchpad and in one bank group (R196). -/
def oneGroup (off n : Nat) : Prop := off + n ≤ 0x50000 ∧ off / 0x14000 = (off + n - 1) / 0x14000

/-- The checks of MMA and MMAT up to the operands' atoms have passed (R195, R196, R197, R198). -/
def mmaAdmits (s : State) (acc : BitVec 9) (f : Word) (a b : Nat) : Prop :=
  let n := fmtBlock (field 59 4 f).toNat
  operandWordOk f = true ∧ oneGroup a n ∧ oneGroup b n ∧ a / 0x14000 ≠ b / 0x14000 ∧
    (∀ e ∈ reads f a b, s.here.ownOk s.act.core e.1 e.2 = true) ∧ (s.mside.tile acc.toNat).st ≠ .poison ∧
    (s.mside.tile acc.toNat).bad = false ∧
    ∀ e ∈ reads f a b, ∀ i ∈ atomsOf e.1 e.2, s.me.spad.atom i ≠ .poison ∧ s.me.spad.bad i = false

/-- No tile of a word is HELD (R188, R199). -/
def tilesFree (m : MSide) (ts : List Nat) : Prop := ∀ t ∈ ts, (m.tile t).st ≠ .held

/-- A word has left a tile in a state, apart from a hold by a later ACCWB, which stays (R198). -/
def nowIs (a b : Tile) (st : TileState) : Prop := b.real = st ∧ (b.st = .held ↔ a.st = .held)

/-- The tiles acc to acc + k (R199). -/
def tilesOf (acc : BitVec 9) (k : BitVec 5) : List Nat := (List.range (k.toNat + 1)).map fun i => acc.toNat + i

/-- The words on tiles, as they stand once they have started (R199). -/
def tileWord (m : MSide) : Instr → Option MOp
  | .accz acc k => some (.accz acc k)
  | .accrd acc p k => some (.accrd acc (SMap.get 0 m.mp p.toNat).toNat k 0)
  | .accwr acc p k => some (.accwr acc (SMap.get 0 m.mp p.toNat).toNat k 0)
  | .accmv acc t k => some (.accmv acc t k)
  | _ => none

/-- The checks of a word on tiles (R198, R199): no tile is POISON, and an extent lies in the scratchpad, is the core's,
and holds no POISON or REPLICA atom and no error. -/
def tileAdmits (x : Chair) (c : Nat) (op : MOp) : Prop :=
  (∀ t ∈ op.tiles, ((x.core c).m.tile t).real ≠ .poison ∧ ((x.core c).m.tile t).bad = false) ∧
    ∀ off n, op.extent = some (off, n) → off + n ≤ 0x50000 ∧ x.ownOk c off n = true ∧
      ∀ i ∈ atomsOf off n, (x.core c).spad.atom i ≠ .poison ∧ (x.core c).spad.atom i ≠ .replica ∧
        (x.core c).spad.bad i = false

/-- The bytes of an output row by OFMT (R200). -/
def rowBytes (f : Word) : Nat :=
  let o := (field 59 4 f).toNat
  if o = 0 ∨ o = 7 then 128 else if o = 3 then 24 else if o = 4 then 32 else 64

/-- The rows of ACCWB in order: whether they lie in memory, and where (R200). -/
def wbRows (m : MSide) (a : ASide) (f : Word) (dst : AccDst) (k : BitVec 5) : Bool × List (Word × Nat) :=
  let n := 32 * (k.toNat + 1)
  let b := rowBytes f
  match dst with
  | .sp p => (false, (List.range n).map fun r => (BitVec.ofNat 64 ((SMap.get 0 m.mp p.toNat).toNat + b * r), b))
  | .mem r => (true, (List.range n).map fun i => (a.reg r + BitVec.ofNat 64 (b * i), b))
  | .gen g => (true, (List.range n).map fun (i : Nat) => (genAt (a.gen g) ((a.gen g).pos.toNat + i), b))

/-- The bytes of the rows, each element with its bias converted as the output word says (R200). -/
def wbBytes (m : MSide) (f : Word) (bias : Vec) (ts : List Nat) : List Byte :=
  ts.zipIdx.flatMap fun (t : Nat × Nat) => (List.range 32).flatMap fun i => (outRowBytes f bias (m.tile t.1).data t.2 i).1

/-- A started word of a core has completed: it is pending no more and its signal is added (R202). -/
def completes (s t : State) (ch c : Nat) (p : MPend) : Prop :=
  (t.core ch c).m.pend = (s.core ch c).m.pend.filter (·.id ≠ p.id) ∧
    ((s.core ch c).semv p.sig.sem.toNat + p.sig.amt ≤ 0xFFFF →
      SMap.get 0 (s.core ch c).took p.sig.sem.toNat ≠ (s.chair ch).cycle + 1 → ∀ j, (t.core ch c).semv j =
      if j = p.sig.sem.toNat ∧ j ≠ 0 then (s.core ch c).semv j + p.sig.amt else (s.core ch c).semv j)

/-- The completion step of words on tiles runs for a core. -/
def atTiles (s : State) (ch c : Nat) : State := { s with act := { chair := ch, core := c, eng := 3 } }

end Sys2Proof.Claims

/-- R189, R190: LEASE asks for the furnace and stays at the head; a free furnace goes to the first core that asks, after
the last holder in cyclic order, which then holds its lease, a waiting LEASE being done; a holder whose idle count has
reached 256 lapses; UNLEASE gives the furnace or the request up; a LEASE of a core that holds or has lapsed is a lease
fault. -/
def Sys2Proof.Claims.leasesAreAskedForGrantedAndGivenUp : Prop :=
  ∀ (s : State) (n : BitVec 7) (ch q c : Nat),
    (s.mside.lease = .none → exec (.lease n) s = .next (s.setMe { s.me with m := { s.mside with
      lease := .waiting n.toNat } })) ∧
    (∀ r, s.mside.lease = .holding r ∨ s.mside.lease = .lapsed r → exec (.lease n) s = .next (raiseC 0x13 s)) ∧
    (let x := s.chair ch
     x.st = .run → (s.ctx (s.ctxOf ch)).desc1 1 54 1 = 0 → (s.ctx (s.ctxOf ch)).desc1 1 55 1 = 0 →
     (∀ d, d / 4 = q → (x.core d).m.lease.holds = false) → (x.quad q).busy ≤ x.cycle → (x.quad q).freeAt < x.cycle →
     c / 4 = q → (x.core c).m.lease.asks = true →
     (∀ d, d / 4 = q → (x.core d).m.lease.asks = true →
       (c % 4 + 3 - (x.quad q).last % 4) % 4 ≤ (d % 4 + 3 - (x.quad q).last % 4) % 4) →
     (∀ r, (x.core c).m.lease = .waiting r → headUnit ((x.core c).queue 3) ≠ none →
       ∃ t, exec (.leaseGrant ch q) s = .next t ∧ sameMemory s t ∧ (t.core ch c).m.lease = .holding r ∧
         ((t.chair ch).quad q).last = c % 4 ∧
         (t.core ch c).queue 3 = ((headUnit ((x.core c).queue 3)).map (·.2.2)).getD []) ∧
     (∀ r, (x.core c).m.lease = .lapsed r →
       ∃ t, exec (.leaseGrant ch q) s = .next t ∧ sameMemory s t ∧ (t.core ch c).m.lease = .holding r ∧
         ((t.chair ch).quad q).last = c % 4 ∧ (t.core ch c).queue 3 = (x.core c).queue 3)) ∧
    (∀ r, (s.chair ch).st = .run → (s.core ch c).m.lease = .holding r → 256 ≤ (s.core ch c).m.idle →
      ∃ t, exec (.leaseLapse ch c) s = .next t ∧ (t.core ch c).m = { (s.core ch c).m with lease := .lapsed r } ∧
        ((t.chair ch).quad (c / 4)).freeAt = (s.chair ch).cycle) ∧
    ((∀ r, s.mside.lease ≠ .waiting r) → ∃ t, exec .unlease s = .next t ∧ sameMemory s t ∧
      t.mside = { s.mside with lease := .none } ∧
      ∀ r, s.mside.lease = .holding r → (t.here.quad (s.act.core / 4)).freeAt = s.here.cycle)

/-- R192, R195, R81, R202: MSET and MINC write their pointer, FMTSKIP pops the head entry, and MWAIT goes on when no earlier
word goes on; MINC out of the scratchpad is an operand-range fault and FMTSKIP without an entry format underflow. -/
def Sys2Proof.Claims.pointersFormatsAndMwait : Prop :=
  ∀ (s : State) (p : BitVec 4) (off : BitVec 19),
    let at_ (m : MSide) (q : BitVec 4) : Nat := (SMap.get 0 m.mp q.toNat).toNat
    (∃ t, exec (.mset p off) s = .next t ∧ engWord s t { s.me with m := { s.mside with mp := t.mside.mp } } ∧
      ∀ q, at_ t.mside q = if q = p then off.toNat else at_ s.mside q) ∧
    (0 ≤ (at_ s.mside p : Int) + off.toInt → (at_ s.mside p : Int) + off.toInt < 0x50000 →
      ∃ t, exec (.minc p off) s = .next t ∧ engWord s t { s.me with m := { s.mside with mp := t.mside.mp } } ∧
        ∀ q, (at_ t.mside q : Int) = if q = p then at_ s.mside p + off.toInt else at_ s.mside q) ∧
    ((at_ s.mside p : Int) + off.toInt < 0 ∨ 0x50000 ≤ (at_ s.mside p : Int) + off.toInt →
      exec (.minc p off) s = .next (raiseC 0x15 s)) ∧
    (s.fmtNew = true → exec .fmtskip s = .next s) ∧
    (∀ e es, s.mside.fmtq = e :: es → s.fmtNew = false → (e.old = true ∨ ¬(1 ≤ (e.stamp - s.act.prov.esn).toNat ∧
        (e.stamp - s.act.prov.esn).toNat < 2 ^ 27)) →
      ∃ t, exec .fmtskip s = .next t ∧ engWord s t { s.me with m := { s.mside with fmtq := es } }) ∧
    (s.mside.fmtq = [] → exec .fmtskip s = .next (raiseC 0x16 s)) ∧
    (s.mside.pend = [] → ∃ t, exec .mwait s = .next t ∧ engWord s t s.me) ∧
    (s.mside.pend ≠ [] → exec .mwait s = .next s)

/-- R189, R190, R192, R195, R81, R202: LEASE, its grant and lapse and UNLEASE move the lease; MSET and MINC write their pointer,
FMTSKIP pops the head entry, and MWAIT goes on when no earlier word goes on. -/
def Obligations.LeasesPointersFormatsAndMwait : Prop :=
  Sys2Proof.Claims.leasesAreAskedForGrantedAndGivenUp ∧ Sys2Proof.Claims.pointersFormatsAndMwait

/-- R197, R188, R189, R196, R195, R94: MMA and MMAT of a core that holds the lease, with a tile that is not HELD, a free
furnace, a format head from an earlier cycle and every check passed, pop the format word, lower the lease's count, occupy the furnace for their cycles and are pending with the groups
of the operand blocks; without the lease they are a lease fault, and each check that fails has its fault. -/
def Sys2Proof.Claims.furnaceCommandsStart : Prop :=
  ∀ (s : State) (acc : BitVec 9) (ma mb : BitVec 4) (i : Instr) (t : Bool),
    (i = .mma acc ma mb ∧ t = false) ∨ (i = .mmat acc ma mb ∧ t = true) →
    let at_ (q : BitVec 4) : Nat := (SMap.get 0 s.mside.mp q.toNat).toNat
    let u := s.here.quad (s.act.core / 4)
    (s.mside.lease = .none → exec i s = .next (raiseC 0x13 s)) ∧
    (∀ r, s.mside.lease = .waiting r ∨ s.mside.lease = .lapsed r → exec i s = .next s) ∧
    (∀ r, s.mside.lease = .holding r →
      (s.mside.tile acc.toNat).st = .held ∨ s.here.cycle < u.busy ∨ s.fmtNew = true → exec i s = .next s) ∧
    (∀ r f, s.mside.lease = .holding r → (s.mside.tile acc.toNat).st ≠ .held → u.busy ≤ s.here.cycle → formatHead s f →
      let k := (field 59 4 f).toNat
      let n := fmtBlock k
      let fin := s.here.cycle + fmtCycles k
      (operandWordOk f = false → exec i s = .next (raiseC 0x17 s)) ∧
      (operandWordOk f = true → ¬(oneGroup (at_ ma) n ∧ oneGroup (at_ mb) n) → exec i s = .next (raiseC 0x15 s)) ∧
      (operandWordOk f = true → oneGroup (at_ ma) n → oneGroup (at_ mb) n → at_ ma / 0x14000 = at_ mb / 0x14000 →
        exec i s = .next (raiseC 0x14 s)) ∧
      (operandWordOk f = true → oneGroup (at_ ma) n → oneGroup (at_ mb) n → at_ ma / 0x14000 ≠ at_ mb / 0x14000 →
        let own := ∀ e ∈ reads f (at_ ma) (at_ mb), s.here.ownOk s.act.core e.1 e.2 = true
        let kept := ∀ p ∈ s.mside.pend, p.op.isRel = true → acc.toNat ∉ p.op.tiles
        let tile := s.mside.tile acc.toNat
        let atoms := (reads f (at_ ma) (at_ mb)).flatMap fun e => atomsOf e.1 e.2
        (¬own → exec i s = .next (raiseC 0x18 s)) ∧
        (own → kept → tile.bad = false → tile.st = .poison → exec i s = .next (raiseC 0x1A s)) ∧
        (own → kept → tile.bad = true →
          exec i s = .next (raiseC 0x1A (poisonTile s.act.chair s.act.core s.act.prov acc.toNat s))) ∧
        (own → tile.bad = false → tile.st ≠ .poison →
          (∃ j ∈ atoms, s.me.spad.atom j = .poison ∨ s.me.spad.bad j = true) →
          exec i s = .next (raiseC 0x1A
            (poisonSpad s.act.chair s.act.core (atoms.filter fun j => s.me.spad.bad j) s)))) ∧
      (mmaAdmits s acc f (at_ ma) (at_ mb) →
        ∃ v g fl, exec i s = .next v ∧
          starts s v { s.me with m := { s.mside with
            fmtq := s.mside.fmtq.drop 1
            lease := spent r
            idle := 0
            startAt := some s.here.cycle
            pend := s.mside.pend ++ [{ id := s.tick, op := .mma acc g (k == 4) fl fin, sig := s.sig }] } } ∧
          (v.here.quad (s.act.core / 4)).busy = fin ∧
          (∀ e, e < 1024 → (SMap.get 0 g e).toNat =
            (groupAt s.me.spad f t (at_ ma) (at_ mb) (e / 32) (e % 32)).1 % 2 ^ 32) ∧
          ∀ z, fl.getLsbD z = true ↔
            ∃ e, e < 1024 ∧ (groupAt s.me.spad f t (at_ ma) (at_ mb) (e / 32) (e % 32)).2.getLsbD z = true))

/-- R197, R188, R50, R51, R202: when the cycles of a core's oldest started command whose turn it is are done its groups are
added to its tile, in FP32 with RNE or as 32-bit integers, the tile is HOME, its flags are raised, and it signals. -/
def Sys2Proof.Claims.furnaceCommandsLandInTheirTile : Prop :=
  ∀ (s : State) (ch c : Nat) (p : MPend) (acc : BitVec 9) (g : SMap (BitVec 32)) (int : Bool) (fl : Fl) (fin : Nat),
    (s.chair ch).st = .run → (s.core ch c).m.nextMma = some p → p.op = .mma acc g int fl fin →
    fin ≤ (s.chair ch).cycle → ((s.core ch c).m.tile acc.toNat).real ≠ .poison →
    let old (e : Nat) : BitVec 32 := SMap.get 0 ((s.core ch c).m.tile acc.toNat).data e
    let sum (e : Nat) : Nat × Fl := fAdd fp32 .rne (unpack fp32 (old e).toNat) (unpack fp32 (SMap.get 0 g e).toNat)
    ∃ t, exec (.furnaceCommandComplete ch c) s = .next t ∧ sameMemory s t ∧ completes s t ch c p ∧
      nowIs ((s.core ch c).m.tile acc.toNat) ((t.core ch c).m.tile acc.toNat) .home ∧
      (∀ e, e < 1024 → SMap.get 0 ((t.core ch c).m.tile acc.toNat).data e =
        if int then .ofInt 32 ((old e).toInt + (SMap.get 0 g e).toInt) else .ofNat 32 (sum e).1) ∧
      (∀ n, n ≠ acc.toNat → (t.core ch c).m.tile n = (s.core ch c).m.tile n) ∧
      ∀ z, (t.core ch c).x.flags.getLsbD z = true ↔ (s.core ch c).x.flags.getLsbD z = true ∨ fl.getLsbD z = true ∨
        (int = false ∧ ∃ e, e < 1024 ∧ (sum e).2.getLsbD z = true)

/-- R197, R189, R196, R195, R50, R51, R202: MMA and MMAT start under their checks, and land in their tile when their cycles are
done.
It rests on the model's choices of assumption 14. -/
def Obligations.FurnaceCommandsStartAndLand : Prop :=
  furnaceCommandsStart ∧ furnaceCommandsLandInTheirTile

/-- R188, R199, R198, R200: a word on tiles waits while one is HELD, and starts when its checks pass; ACCREL starts at once
and marks a HELD tile; ACCWB pops its output word, reads its bias, moves its generator on and holds the tiles that are HOME
once the words started before it have acted. -/
def Sys2Proof.Claims.tileWordsStart : Prop :=
  ∀ (s : State) (acc : BitVec 9) (k : BitVec 5),
    (∀ i op, tileWord s.mside i = some op →
      (tilesFree s.mside op.tiles → tileAdmits s.here s.act.core op →
        ∃ t, exec i s = .next t ∧ starts s t { s.me with m := { s.mside with
          pend := s.mside.pend ++ [{ id := s.tick, op := op, sig := s.sig }] } }) ∧
      (¬tilesFree s.mside op.tiles → exec i s = .next s) ∧
      (tilesFree s.mside op.tiles → (∃ t ∈ op.tiles, (s.mside.tile t).st = .poison ∧
          ∀ p ∈ s.mside.pend, p.op.isRel = true → t ∉ p.op.tiles) → op.extent = none →
        (∀ t ∈ op.tiles, (s.mside.tile t).bad = false) → exec i s = .next (raiseC 0x1A s))) ∧
    (∃ (t : State) (m : MSide), exec (.accrel acc k) s = .next t ∧ starts s t { s.me with m := { m with
        pend := s.mside.pend ++ [{ id := s.tick, op := .accrel acc k, sig := s.sig }] } } ∧
      m = { s.mside with tiles := m.tiles } ∧
      ∀ n, m.tile n = if n ∈ tilesOf acc k ∧ (s.mside.tile n).st = .held
        then { s.mside.tile n with pendingRel := true } else s.mside.tile n) ∧
    (∀ dst f, tilesFree s.mside (tilesOf acc k) → formatHead s f →
      let n := 32 * (k.toNat + 1)
      let past := ∃ g, dst = .gen g ∧ (s.aside.gen g).lim ≠ 0 ∧
        (s.aside.gen g).lim.toNat ≤ (s.aside.gen g).pos.toNat + n - 1
      (outputWordOk f = false → exec (.accwb acc dst k) s = .next (raiseC 0x17 s)) ∧
      (outputWordOk f = true → past → exec (.accwb acc dst k) s = .next (raiseC 0x20 s)) ∧
      (outputWordOk f = true → ¬past →
        (∀ t ∈ tilesOf acc k, (s.mside.tile t).st ≠ .poison ∧ (s.mside.tile t).bad = false) →
        ∃ (t : State) (m : MSide) (y : ASide), exec (.accwb acc dst k) s = .next t ∧
          starts s t { s.me with
            a := y
            m := { m with fmtq := s.mside.fmtq.drop 1, pend := s.mside.pend ++ [{
              id := s.tick, sig := s.sig,
              op := .accwb acc k (wbRows s.mside s.aside f dst k).1 (wbRows s.mside s.aside f dst k).2 f
                (if (field 41 1 f) = 1 then s.xside.vreg (field 32 9 f) else 0)
                ((tilesOf acc k).filter fun t => s.mside.after t == .home) }] } } ∧
          m = { s.mside with tiles := m.tiles } ∧
          (∀ n, m.tile n = if n ∈ tilesOf acc k ∧ s.mside.after n = .home
            then { s.mside.tile n with st := .held, under := (s.mside.tile n).st } else s.mside.tile n) ∧
          y = { s.aside with ag := y.ag } ∧
          ∀ g, y.gen g = if dst = .gen g then { s.aside.gen g with pos := (s.aside.gen g).pos + BitVec.ofNat 32 n }
            else s.aside.gen g))

/-- R199, R198, R202: a started word on tiles whose checks still pass takes its effect: ACCZ zeroes, ACCREL vacates, ACCMV
moves tiles, ACCRD moves them to the scratchpad and ACCWR from it, byte for byte with the atoms' states, from the first
atom that has not moved yet; it completes. -/
def Sys2Proof.Claims.tileWordsTakeTheirEffect : Prop :=
  ∀ (s : State) (ch c : Nat) (p : MPend), (s.chair ch).open_ = true → (s.core ch c).recorded 3 p.id = false →
    (s.core ch c).m.pend.find? (·.id = p.id) = some p →
    (∀ q ∈ (s.core ch c).m.pend.takeWhile (·.id ≠ p.id), ∀ t ∈ q.op.tiles, t ∉ p.op.tiles) →
    let m := (s.core ch c).m
    let word (n e : Nat) : BitVec 32 := SMap.get 0 (m.tile n).data e
    let sp := (s.core ch c).spad
    let does (e : State → Prop) : Prop := ∃ t, exec (.accumulatorWordComplete ch c p.id) s = .next t ∧
      completes s t ch c p ∧ e t ∧ sameMem s t ∧ ∀ n, n ∉ p.op.tiles → (t.core ch c).m.tile n = m.tile n
    (∀ acc k, p.op = .accrel acc k → does fun t => (t.core ch c).spad = sp ∧ ∀ n ∈ tilesOf acc k,
      nowIs (m.tile n) ((t.core ch c).m.tile n) .vacant) ∧
    (tileAdmits (s.chair ch) c p.op →
      (∀ acc k, p.op = .accz acc k → does fun t => (t.core ch c).spad = sp ∧ ∀ n ∈ tilesOf acc k,
        nowIs (m.tile n) ((t.core ch c).m.tile n) .home ∧ ∀ e, SMap.get 0 ((t.core ch c).m.tile n).data e = 0) ∧
      (∀ acc q k, p.op = .accmv acc q k → (∀ n ∈ tilesOf acc k, n ∉ tilesOf q k) →
        does fun t => (t.core ch c).spad = sp ∧
          (∀ n ∈ tilesOf q k, nowIs (m.tile n) ((t.core ch c).m.tile n) .vacant) ∧
          ∀ j, j ≤ k.toNat →
            nowIs (m.tile (acc.toNat + j)) ((t.core ch c).m.tile (acc.toNat + j)) (m.tile (q.toNat + j)).real ∧
            ((m.tile (q.toNat + j)).real ≠ .vacant →
              ((t.core ch c).m.tile (acc.toNat + j)).data = (m.tile (q.toNat + j)).data)) ∧
      (∀ acc off k i, p.op = .accrd acc off k i → off % 32 = 0 → i < 128 * (k.toNat + 1) →
        does fun t =>
          (∀ j, i / 128 ≤ j → j ≤ k.toNat →
            nowIs (m.tile (acc.toNat + j)) ((t.core ch c).m.tile (acc.toNat + j)) .vacant) ∧
          (∀ j e b, j ≤ k.toNat → e < 1024 → b < 4 → i ≤ 128 * j + e / 8 → (t.core ch c).spad.byte (off + 4096 * j + 4 * e + b) =
            if (m.tile (acc.toNat + j)).real = .vacant then 0 else (word (acc.toNat + j) e).extractLsb' (8 * b) 8) ∧
          (∀ j n, j ≤ k.toNat → n < 128 → i ≤ 128 * j + n → (t.core ch c).spad.atom (off / 32 + 128 * j + n) =
            if (m.tile (acc.toNat + j)).real = .vacant then .vacant else .home) ∧
          ∀ a, a < off + 32 * i ∨ off + 4096 * (k.toNat + 1) ≤ a → (t.core ch c).spad.byte a = sp.byte a) ∧
      (∀ acc off k i, p.op = .accwr acc off k i → off % 32 = 0 → i < 128 * (k.toNat + 1) →
        does fun t =>
          (∀ j, i / 128 ≤ j → j ≤ k.toNat →
            nowIs (m.tile (acc.toNat + j)) ((t.core ch c).m.tile (acc.toNat + j)) .home) ∧
          (∀ j e, j ≤ k.toNat → e < 1024 → SMap.get 0 ((t.core ch c).m.tile (acc.toNat + j)).data e =
            if i ≤ 128 * j + e / 8 then
              .ofNat 32 (leNat ((List.range 4).map fun b => sp.byte (off + 4096 * j + 4 * e + b)))
            else word (acc.toNat + j) e) ∧
          (∀ n, i ≤ n → n < 128 * (k.toNat + 1) → (t.core ch c).spad.atom (off / 32 + n) = .vacant) ∧
          ∀ a, a < off + 32 * i ∨ off + 4096 * (k.toNat + 1) ≤ a → (t.core ch c).spad.byte a = sp.byte a))

/-- R198, R199, R200: the words on tiles start when their tiles are free and their checks pass, and take their effect.
It rests on the model's choices of assumption 15. -/
def Obligations.TileWordsStartAndTakeEffect : Prop :=
  tileWordsStart ∧ tileWordsTakeTheirEffect

/-- R200, R201, R198: an ACCWB whose store probe passes ends the hold, each HELD tile being HOME or, with its release
pending, VACANT, and writes its rows, to the scratchpad or to memory. -/
def Obligations.AccwbWritesItsRows : Prop :=
  ∀ (s : State) (ch c : Nat) (p : MPend) (acc : BitVec 9) (k : BitVec 5) (mem : Bool) (rows : List (Word × Nat))
    (f : Word) (bias : Vec) (held : List Nat), (s.chair ch).open_ = true → (s.core ch c).recorded 3 p.id = false →
    (s.core ch c).m.pend.find? (·.id = p.id) = some p → p.op = .accwb acc k mem rows f bias held →
    (∀ q ∈ (s.core ch c).m.pend.takeWhile (·.id ≠ p.id), ∀ t ∈ q.op.tiles, t ∉ p.op.tiles) →
    (∀ t ∈ tilesOf acc k, ((s.core ch c).m.tile t).real ≠ .poison ∧ ((s.core ch c).m.tile t).bad = false) →
    let m := (s.core ch c).m
    let bytes := wbBytes m f bias (tilesOf acc k)
    let ended (t : State) : Prop := completes s t ch c p ∧ ∀ n, (t.core ch c).m.tile n =
      if n ∈ held ∧ (m.tile n).st = .held then
        (if (m.tile n).pendingRel then {} else { m.tile n with st := .home }) else m.tile n
    (mem = true → ∀ ps u, probeRows ch c p f rows (atTiles s ch c) = (some ps, u) →
      ∃ t, exec (.accumulatorWordComplete ch c p.id) s = .next t ∧ ended t ∧ t.mem = writePieces ps bytes u.mem) ∧
    (mem = false → let off := (rows.headD (0, 0)).1.toNat
      let n := (rows.map (·.2)).sum
      off + n ≤ 0x50000 → (s.chair ch).ownOk c off n = true →
      (∀ i ∈ atomsOf off n, (s.core ch c).spad.atom i ≠ .poison ∧ (s.core ch c).spad.atom i ≠ .replica ∧
        (s.core ch c).spad.bad i = false) →
      ∃ t, exec (.accumulatorWordComplete ch c p.id) s = .next t ∧ ended t ∧ sameMem s t ∧
        ∀ a, (t.core ch c).spad.byte a =
          if off ≤ a ∧ a < off + bytes.length then bytes.getD (a - off) 0 else (s.core ch c).spad.byte a)

/-! ## The transfer engine -/

namespace Sys2Proof.Claims

/-- A memory operand: its address, the generator it advances, and whether its position is at or past the limit (R163). -/
def memOpnd (y : ASide) : XAddr → Word × Option (BitVec 4) × Bool
  | .reg r => (y.reg r, none, false)
  | .gen g => (genAt (y.gen g) (y.gen g).pos.toNat, some g,
      decide ((y.gen g).lim ≠ 0 ∧ (y.gen g).lim.toNat ≤ (y.gen g).pos.toNat))

/-- The two sides of a tile operand, from and to (R167). -/
def tileSides (kind : XKind) (y : ASide) (t : XTile) (len : Nat) : XOpnd :=
  match t with
  | .toSp h spo an => { kind := kind, src := .mem (memOpnd y an).1, dst := .sp h (32 * spo.toNat), len := len,
                        gen := (memOpnd y an).2.1, limitBad := (memOpnd y an).2.2 }
  | .toMem an h spo => { kind := kind, src := .sp h (32 * spo.toNat), dst := .mem (memOpnd y an).1, len := len,
                         gen := (memOpnd y an).2.1, limitBad := (memOpnd y an).2.2 }
  | .memMem ad an => { kind := kind, src := .mem (memOpnd y an).1, dst := .mem (y.reg ad), len := len,
                       gen := (memOpnd y an).2.1, limitBad := (memOpnd y an).2.2 }

/-- Bytes of a shaped move: ROWLEN × ROWS atoms, × PLANES for MOVE3D (R171, R172). -/
def shapedLen (d : Word) (planes : Bool) : Nat :=
  32 * (d.toNat / 2 ^ 52 * (d.toNat / 2 ^ 40 % 2 ^ 12) * if planes then d.toNat / 2 ^ 32 % 2 ^ 8 else 1)

/-- The command words: the execution queue, whether a chain may record the word, and the operands captured (R162, R163,
R167, R172 to R174, R177). -/
def xCommandOf (y : Core) : Instr → Option (BitVec 2 × Bool × XOpnd)
  | .move t xq len => some (xq, true, tileSides .move y.a t len.toNat)
  | .dup t xq len => some (xq, true, tileSides .dup y.a t len.toNat)
  | .promote t xq len => some (xq, true, tileSides .promote y.a t len.toNat)
  | .movePull h spo xq len => some (xq, true, { kind := .pull, dst := .sp h (32 * spo.toNat), len := len.toNat })
  | .drop (.mem an) xq len =>
    some (xq, true, { kind := .drop, src := .mem (memOpnd y.a an).1, len := len.toNat, gen := (memOpnd y.a an).2.1,
                      limitBad := (memOpnd y.a an).2.2 })
  | .drop (.sp h spo) xq len => some (xq, true, { kind := .drop, src := .sp h (32 * spo.toNat), len := len.toNat })
  | .move2d t xq slot =>
    let d := SMap.get 0 y.t.shapes slot.toNat
    some (xq, true, { tileSides .move y.a t (shapedLen d false) with shape := some d })
  | .move3d t xq slot =>
    let d := SMap.get 0 y.t.shapes slot.toNat
    some (xq, true, { tileSides .move y.a t (shapedLen d true) with shape := some d, planes := true })
  | .xfill an val xq len =>
    some (xq, true, { kind := .fill val, dst := .mem (memOpnd y.a an).1, len := len.toNat,
                      gen := (memOpnd y.a an).2.1, limitBad := (memOpnd y.a an).2.2 })
  | .kick chn xq => some (xq, false, { kind := .kick chn })
  | .arrive a h xq target => some (xq, false, { kind := .arrive target, src := .sp h (y.a.reg a).toNat })
  | _ => none

/-- A command as it stands in its execution queue: its operands, with the position its generator had, and its signal
(R163). -/
def asQueued (s : State) (o : XOpnd) : XCmd :=
  { op := { o with pos := (o.gen.map fun g => (s.aside.gen g).pos).getD 0 }, sig := s.sig }

/-- A generator operand has moved on by one (R163). -/
def bumped (y z : ASide) (g : Option (BitVec 4)) : Prop :=
  z = { y with ag := z.ag } ∧ ∀ h, z.gen h = if g = some h then { y.gen h with pos := (y.gen h).pos + 1 } else y.gen h

/-- The place of an atom in stack or host memory, or in a scratchpad, is not that of another. -/
def apart : Loc → Loc → Prop
  | .mem a, .mem b => a / 32 ≠ b / 32
  | .sp ch c a, .sp dh d b => ch ≠ dh ∨ c ≠ d ∨ a / 32 ≠ b / 32
  | _, _ => True

/-- The state of an atom and its bytes (R158). -/
def atomIs (s : State) (l : Loc) (st : AtomState) (bs : List Byte) : Prop := s.atomOf l = st ∧ s.bytesAt l = bs

/-- The transfer engine of a core moves. -/
def atXfer (s : State) (ch c : Nat) : State := { s with act := { chair := ch, core := c, eng := 4 } }

/-- The head command of an execution queue. -/
def headCmd (s : State) (ch c q : Nat) : Option XCmd := ((s.core ch c).t.queue q).cmds.head?

/-- A command of a queue has left it, signalled. -/
def xferDone (s t : State) (ch c q : Nat) (k : XCmd) : Prop :=
  ((t.core ch c).t.queue q).cmds = ((s.core ch c).t.queue q).cmds.drop 1 ∧
    ((s.core ch c).semv k.sig.sem.toNat + k.sig.amt ≤ 0xFFFF →
      SMap.get 0 (s.core ch c).took k.sig.sem.toNat ≠ (s.chair ch).cycle + 1 → ∀ j, (t.core ch c).semv j =
      if j = k.sig.sem.toNat ∧ j ≠ 0 then (s.core ch c).semv j + k.sig.amt else (s.core ch c).semv j)

/-- The head command has stopped with a level C fault as its cause, its memory, scratchpads and handles as they were (R164,
R166, R179). -/
def xferStopped (s t : State) (ch c q code : Nat) : Prop :=
  sameMemory s t ∧ (t.chair ch).handles = (s.chair ch).handles ∧
    ((headCmd t ch c q).map fun k => (k.st, k.cause)) = some (.stopped, some (.fault code)) ∧
    ((s.core ch c).rec_ = none → ((t.core ch c).rec_.map fun r => (r.code, r.eng, r.pid)) = some (code, 4, some q))

end Sys2Proof.Claims

/-- R162, R163, R174: a transfer command enters its execution queue with its operands as the registers give them, and its
generator moves on; it waits while the queue is full, and past a limit it is a generator-limit fault.  While a chain is
being recorded a command for queue 0 without clauses is recorded instead, and any other word of the engine empties the
chain and is a chain fault. -/
def Sys2Proof.Claims.transferCommandsEnterTheirQueue : Prop :=
  ∀ (i : Instr) (s : State) (xq : BitVec 2) (can : Bool) (o : XOpnd), xCommandOf s.me i = some (xq, can, o) →
    let q := s.tside.queue xq.toNat
    (s.tside.record = none →
      (q.cmds.length < 8 → o.limitBad = false → ∃ t y, exec i s = .next t ∧ bumped s.aside y o.gen ∧
        starts s t { s.me with a := y, t := { s.tside with
          xq := SMap.put {} s.tside.xq xq.toNat { q with cmds := q.cmds ++ [asQueued s o] } } }) ∧
      (q.cmds.length < 8 → o.limitBad = true → exec i s = .next (raiseC 0x20 s)) ∧
      (8 ≤ q.cmds.length → exec i s = .next s)) ∧
    (∀ chn n, s.tside.record = some (chn, n) →
      (can = true → xq = 0 → s.act.clause = {} → ∃ t, exec i s = .next t ∧
        starts s t { s.me with t := { s.tside with
          chains := SMap.put [] s.tside.chains chn.toNat (SMap.get [] s.tside.chains chn.toNat ++ [i])
          record := if n ≤ 1 then none else some (chn, n - 1) } }) ∧
      (can = false ∨ xq ≠ 0 ∨ s.act.clause ≠ {} → exec i s = .next (raiseC 0x1D (s.setMe { s.me with t := { s.tside with
        chains := SMap.put [] s.tside.chains chn.toNat [], record := none } }))))

/-- R162, R163, R167, R171 to R174, R176, R177, R13: in the turn of engine 4 and outside recording every word of the transfer engine runs: MOVE, PULL,
DUP, DROP, PROMOTE, MOVE2D, MOVE3D, XFILL, KICK and ARRIVE enter their execution queue behind its commands where it has
room and the limit of their generator admits its position, and leave engine 4's queue; XSHAPE has set its slot, CHLINK
records its chain from then on, XSTAT has read its queue and XCANCEL has left nothing in it but a STOPPED command. -/
def Sys2Proof.Claims.transferWordsComplete : Prop :=
  ∀ (s : State) (tl : XTile) (e : XDrop) (an : XAddr) (h : BitVec 6) (spo : BitVec 14) (xq : BitVec 2) (len target : BitVec 32)
    (slot : BitVec 3) (d : BitVec 64) (val : BitVec 8) (chn : BitVec 4) (n : BitVec 6) (a : BitVec 5),
    s.act.eng = 4 → s.tside.record = none →
    let y := s.aside
    let shape := SMap.get 0 s.tside.shapes slot.toNat
    let gone (t : State) : Prop := t.me.queue 4 = ((headUnit (s.me.queue 4)).map (·.2.2)).getD (s.me.queue 4)
    let enters (i : Instr) (o : XOpnd) : Prop :=
      (s.tside.queue xq.toNat).cmds.length < 8 → o.limitBad = false →
      ∃ t, exec i s = .next t ∧ gone t ∧
        (t.tside.queue xq.toNat).cmds = (s.tside.queue xq.toNat).cmds ++ [asQueued s o] ∧ sameMemory s t
    enters (.move tl xq len) (tileSides .move y tl len.toNat) ∧
    enters (.movePull h spo xq len) { kind := .pull, dst := .sp h (32 * spo.toNat), len := len.toNat } ∧
    enters (.dup tl xq len) (tileSides .dup y tl len.toNat) ∧
    enters (.drop e xq len) (match e with
      | .mem an => { kind := .drop, src := .mem (memOpnd y an).1, len := len.toNat, gen := (memOpnd y an).2.1,
                     limitBad := (memOpnd y an).2.2 }
      | .sp g off => { kind := .drop, src := .sp g (32 * off.toNat), len := len.toNat }) ∧
    enters (.promote tl xq len) (tileSides .promote y tl len.toNat) ∧
    enters (.move2d tl xq slot) { tileSides .move y tl (shapedLen shape false) with shape := some shape } ∧
    enters (.move3d tl xq slot) { tileSides .move y tl (shapedLen shape true) with shape := some shape, planes := true } ∧
    enters (.xfill an val xq len) {
      kind := .fill val, dst := .mem (memOpnd y an).1, len := len.toNat,
      gen := (memOpnd y an).2.1, limitBad := (memOpnd y an).2.2 } ∧
    enters (.kick chn xq) { kind := .kick chn } ∧
    enters (.arrive a h xq target) { kind := .arrive target, src := .sp h (y.reg a).toNat } ∧
    (∃ t, exec (.xshape slot d) s = .next t ∧ gone t ∧ SMap.get 0 t.tside.shapes slot.toNat = d ∧ sameMemory s t) ∧
    (∃ t, exec (.chlink chn n) s = .next t ∧ gone t ∧ SMap.get [] t.tside.chains chn.toNat = [] ∧
      t.tside.record = some (chn, n.toNat) ∧ sameMemory s t) ∧
    (∃ t, exec (.xstat a xq) s = .next t ∧ gone t ∧ (t.tside.queue xq.toNat).vac = false ∧
      (t.tside.queue xq.toNat).loss = false ∧ sameMemory s t) ∧
    ∃ t, exec (.xcancel xq) s = .next t ∧ gone t ∧ (∀ k ∈ (t.tside.queue xq.toNat).cmds, k.st = .stopped) ∧ sameMemory s t

/-- R171, R174, R176: outside recording XSHAPE writes its shape slot, CHLINK empties its chain and begins to record, XSTAT
reads the status of its queue and clears VAC and LOSS, and XCANCEL empties its queue of all but a STOPPED command, with the
count, whether a command in progress was stopped and the bytes it left for XSTAT. -/
def Sys2Proof.Claims.shapesChainsStatusAndCancel : Prop :=
  ∀ (s : State) (slot : BitVec 3) (d : BitVec 64) (chn : BitVec 4) (n : BitVec 6) (a : BitVec 5) (xq : BitVec 2),
    s.tside.record = none →
    let q := s.tside.queue xq.toNat
    let b (f : Bool) (k : Nat) : Nat := if f then 2 ^ k else 0
    (∃ t, exec (.xshape slot d) s = .next t ∧ engWord s t { s.me with t := { s.tside with shapes := t.tside.shapes } } ∧
      ∀ k, SMap.get 0 t.tside.shapes k = if k = slot.toNat then d else SMap.get 0 s.tside.shapes k) ∧
    (∃ t, exec (.chlink chn n) s = .next t ∧ engWord s t { s.me with t := { s.tside with
        chains := t.tside.chains, record := some (chn, n.toNat) } } ∧
      ∀ k, SMap.get [] t.tside.chains k = if k = chn.toNat then [] else SMap.get [] s.tside.chains k) ∧
    (∃ t, exec (.xstat a xq) s = .next t ∧
      engWord s t { s.me with a := { s.aside with a := t.aside.a }, t := { s.tside with xq := t.tside.xq } } ∧
      (∀ r, t.aside.reg r = if r = a ∧ a ≠ 0 then .ofNat 64 (q.cmds.length * 2 ^ 60 + q.canc * 2 ^ 56 + b q.vac 55 +
        b q.loss 54 + b q.stop 53 + q.rem % 2 ^ 32) else s.aside.reg r) ∧
      ∀ k, t.tside.queue k = if k = xq.toNat then { q with vac := false, loss := false } else s.tside.queue k) ∧
    ∃ t, exec (.xcancel xq) s = .next t ∧ sameMemory s t ∧
      (let going := q.cmds.head?.any fun k => k.st == .moving || k.st == .probing
       ∀ k, t.tside.queue k = if k = xq.toNat then { q with
          cmds := q.cmds.filter fun k => k.st == .stopped
          canc := q.cmds.countP fun k => k.st ≠ .stopped
          stop := going
          rem := if going then (q.cmds.head?.map fun k => (k.sub.getD k.op).len - 32 * k.next).getD 0 else 0 }
        else s.tside.queue k)

/-- R162, R163, R174, R171, R176: every word of the transfer engine completes at issue: the transfer commands enter their
queue or a chain; XSHAPE, CHLINK, XSTAT and XCANCEL act at once.
It rests on the model's choices of assumptions 19 and 33. -/
def Obligations.TransferWordsEnterAndControlQueues : Prop :=
  transferWordsComplete ∧ transferCommandsEnterTheirQueue ∧ shapesChainsStatusAndCancel

/-- R164, R165, R166: a command whose turn has come is an ownership violation where a handle check fails and a
transfer-extent fault where a limit is broken, and stops with nothing changed; where every check and every page passes it
is MOVING, and a FREE destination handle is held with the extent as its region. -/
def Sys2Proof.Claims.transferCommandsStart : Prop :=
  ∀ (s : State) (ch c q : Nat) (k : XCmd), (s.chair ch).open_ = true → headCmd s ch c q = some k →
    (k.st = .queued ∨ k.st = .probing) → (∀ n, k.op.kind ≠ .kick n) → (∀ n, k.op.kind ≠ .arrive n) → k.sub = none →
    k.op.limitBad = false → k.op.back = false →
    let x := s.chair ch
    let o := k.op
    let handles := sideOk x c o false (o.source x) && sideOk x c o true o.dst
    (handles = false → ∃ t, exec (.xfrCommandStart ch c q) s = .next t ∧ xferStopped s t ch c q 0x18) ∧
    (handles = true → limitsOk x c o = false →
      ∃ t, exec (.xfrCommandStart ch c q) s = .next t ∧ xferStopped s t ch c q 0x1C) ∧
    (handles = true → limitsOk x c o = true → ∀ ts us u v,
      probeAll ch c (o.need false) (o.ranges k.next o.src)
        (updHead ch c q (fun k => { k with st := .probing }) (atXfer s ch c)) = ((ts, none), u) →
      probeAll ch c (o.need true) (o.ranges k.next o.dst) u = ((us, none), v) →
      narrowOk o ts o.src = true → narrowOk o us o.dst = true →
      ∃ t, exec (.xfrCommandStart ch c q) s = .next t ∧
        (headCmd t ch c q).map (fun k => (k.st, k.op, k.next, k.sig)) = some (.moving, o, k.next, k.sig) ∧
        ∀ h, (t.chair ch).handle h = match o.dst with
          | .sp g off => if h = g ∧ (x.handle g).st = .free
            then { st := .held c, home := c, base := off / 32, len := o.len / 32 } else x.handle h
          | _ => x.handle h)

/-- R177, R174: an ARRIVE whose turn has come arms its word, TARGET set and COUNT zero, and leaves its queue; a KICK of an
empty chain completes at once, and one of a chain still being recorded is a chain fault. -/
def Sys2Proof.Claims.arriveArmsAndKickRuns : Prop :=
  ∀ (s : State) (ch c q : Nat) (k : XCmd), (s.chair ch).open_ = true → headCmd s ch c q = some k → k.st = .queued →
    let x := s.chair ch
    let y := s.core ch c
    (∀ target h off, k.op.kind = .arrive target → k.op.src = .sp h off → target ≠ 0 → off % 16 = 0 →
      off + 16 ≤ 0x50000 → x.inRegion c off 16 = false → y.a.meetsRegion off 16 = false →
      (y.spad.atomAt off = .home ∨ y.spad.atomAt off = .vacant) → y.spad.bad (off / 32) = false →
      (spadNat s ch c off / 2 ^ 31 % 2 = 0 →
        ∃ t, exec (.xfrCommandStart ch c q) s = .next t ∧ sameMem s t ∧
          ((t.core ch c).t.queue q).cmds = (y.t.queue q).cmds.drop 1 ∧
          (t.core ch c).t.armed = y.t.armed ++ [{ off := off, h := h, sig := k.sig }] ∧
          spadNat t ch c (off + 12) = target.toNat ∧ spadNat t ch c (off + 8) = 0 ∧
          spadNat t ch c (off + 4) = spadNat s ch c (off + 4) ∧ spadNat t ch c off = 2 ^ 31 + h.toNat) ∧
      (spadNat s ch c off / 2 ^ 31 % 2 = 1 →
        ∃ t, exec (.xfrCommandStart ch c q) s = .next t ∧ xferStopped s t ch c q 0x1E)) ∧
    (∀ chn, k.op.kind = .kick chn → k.sub = none → k.chidx = 0 →
      (SMap.get [] y.t.chains chn.toNat = [] → y.t.record = none →
        ∃ t, exec (.xfrCommandStart ch c q) s = .next t ∧ sameMemory s t ∧ xferDone s t ch c q k) ∧
      (∀ n, y.t.record = some (chn, n) →
        ∃ t, exec (.xfrCommandStart ch c q) s = .next t ∧ xferStopped s t ch c q 0x1D))

/-- R164, R165, R166, R174, R177: a command whose turn has come is checked and starts moving; an ARRIVE arms, a KICK runs.
It rests on the model's choices of assumptions 19 and 28. -/
def Obligations.TransferCommandsStartTheirTurn : Prop :=
  transferCommandsStart ∧ arriveArmsAndKickRuns

/-- R159, R160, R168, R169, R170, R173, R180: what one pair of MOVE and DUP, and one atom of DROP, PROMOTE and XFILL, does
in each state of its atoms.
That an atom that becomes POISON holds zero bytes is the model's choice of assumption 12. -/
def Obligations.AtomEventsFollowTheTable : Prop :=
  ∀ (s : State) (a b : Loc) (dup : Bool) (bs : List Byte), apart a b →
    let m := movePair dup { srcs := [a], dsts := [b] } s
    let fill := fillAtom bs b s
    let drop := dropAtom a s
    let pro := promotePair { srcs := [a], dsts := [b] } s
    let zero := List.replicate 32 (0 : Byte)
    (s.badAt b = true → m.err = some .poison ∧ atomIs m.s b .poison zero ∧ fill.err = some .poison ∧
      atomIs fill.s b .poison zero) ∧
    (s.badAt b = false →
      (s.atomOf b = .replica → m.err = some (.ctx 2) ∧ m.s = s ∧ fill.err = some (.ctx 2) ∧ fill.s = s) ∧
      (s.atomOf b = .poison → m.err = some .poison ∧ m.s = s ∧ fill.err = some .poison ∧ fill.s = s) ∧
      (s.atomOf b = .home ∨ s.atomOf b = .vacant →
        (bs.length = 32 → fill.err = none ∧ atomIs fill.s b .home bs) ∧
        (s.atomOf a = .poison → m.err = some .poison ∧ m.s = s) ∧
        (s.atomOf a = .vacant → m.err = none ∧ m.vac = true ∧ atomIs m.s b .vacant zero ∧
          atomIs m.s a .vacant (s.bytesAt a)) ∧
        (s.atomOf a = .home ∨ s.atomOf a = .replica →
          (s.badAt a = false → m.err = none ∧ m.vac = false ∧
            atomIs m.s b (if dup = true ∨ s.atomOf a = .replica then .replica else .home) (s.bytesAt a) ∧
            (dup = true → atomIs m.s a (s.atomOf a) (s.bytesAt a)) ∧ (dup = false → atomIs m.s a .vacant zero)) ∧
          (s.badAt a = true → m.err = none ∧
            (dup = false → atomIs m.s a .vacant zero ∧ atomIs m.s b .poison zero ∧ m.loss = some (a.report, b.report)) ∧
            (dup = true → atomIs m.s a .poison zero ∧ atomIs m.s b (s.atomOf b) (s.bytesAt b) ∧
              m.loss = some (a.report, a.report)))))) ∧
    (s.atomOf a = .home → drop.err = some .state ∧ drop.s = s) ∧
    (s.atomOf a ≠ .home → drop.err = none ∧ atomIs drop.s a .vacant zero) ∧
    (s.atomOf a = .replica → s.atomOf b = .poison → pro.err = none ∧ atomIs pro.s a .home (s.bytesAt a) ∧
      atomIs pro.s b .vacant zero) ∧
    (s.atomOf a ≠ .replica ∨ s.atomOf b ≠ .poison → pro.err = some .state ∧ pro.s = s)

/-- R166, R168, R175, R165, R167: a MOVING command that has done its last pair leaves its queue and signals, a handle whose
region it emptied is FREE, and a pulled region has its new place; a MOVE of one atom from memory to the scratchpad has then
moved its datum, where a link leads there and nothing in its way is ganged: the scratchpad atom is HOME with the bytes and the
memory atom VACANT.
It rests on the model's choices of assumptions 28 and 59. -/
def Obligations.TransferCommandsComplete : Prop :=
  ∀ (s : State) (ch c q : Nat) (k : XCmd), (s.chair ch).open_ = true → headCmd s ch c q = some k → k.st = .moving →
    (∀ n, k.op.kind ≠ .kick n) → k.sub = none →
    (k.op.len ≤ 32 * k.next → ∃ t, exec (.xfrCommandComplete ch c q) s = .next t ∧ sameMemory s t ∧
      xferDone s t ch c q k ∧
      (∀ h off, k.op.kind = .pull → k.op.dst = .sp h off →
        (t.chair ch).handle h = { (s.chair ch).handle h with base := off / 32, home := c }) ∧
      (∀ h off, k.op.kind = .move → k.op.src = .sp h off → ((s.chair ch).handle h).st ≠ .free →
        (t.chair ch).handle h =
          if ∀ i, i < ((s.chair ch).handle h).len →
            ((s.chair ch).core ((s.chair ch).handle h).home).spad.atom (((s.chair ch).handle h).base + i) = .vacant
          then {} else (s.chair ch).handle h)) ∧
    (∀ va h off tr u, k.op = { kind := .move, src := .mem va, dst := .sp h off, len := 32 } → k.next = 0 →
      translate ch c va s = (some tr, u) → pteNarrow tr.pte = false → u.ganged (tr.pa va) = false →
      tablesWait ch c va { r := true } s = false → s.reaches (dieOf ch) (tr.pa va) = true →
      ((s.chair ch).handle h).st = .held c → ((s.chair ch).handle h).home = c → off % 32 = 0 →
      (∀ e, e < 16 → (s.core ch e).t.armed = []) → (∀ b ∈ s.binds, b.ch ≠ ch) →
      u.mem.atom (tr.pa va / 32) = .home → u.mem.bad (tr.pa va / 32) = false →
      ((s.core ch c).spad.atom (off / 32) = .home ∨ (s.core ch c).spad.atom (off / 32) = .vacant) →
      (s.core ch c).spad.bad (off / 32) = false →
      ∃ t, exec (.xfrCommandComplete ch c q) s = .next t ∧ xferDone s t ch c q k ∧
        (t.core ch c).spad.atom (off / 32) = .home ∧
        (∀ i, i < 32 → (t.core ch c).spad.byte (off + i) = u.mem.byte (tr.pa va / 32 * 32 + i)) ∧
        t.mem.atom (tr.pa va / 32) = .vacant ∧
        ∀ j, j ≠ tr.pa va / 32 → t.mem.atom j = u.mem.atom j ∧ t.mem.atomBytes j = u.mem.atomBytes j)

/-! ## Near memory -/

namespace Sys2Proof.Claims

/-- A signal clause that a later event adds has been added, where it does not overflow and no wait on its semaphore has
passed in this cycle (R16, R105, R106). -/
def signalled (s t : State) (ch c : Nat) (g : Sig) : Prop :=
  (s.core ch c).semv g.sem.toNat + g.amt ≤ 0xFFFF →
    SMap.get 0 (s.core ch c).took g.sem.toNat ≠ (s.chair ch).cycle + 1 → ∀ j, (t.core ch c).semv j =
    if j = g.sem.toNat ∧ j ≠ 0 then (s.core ch c).semv j + g.amt else (s.core ch c).semv j

/-- The descriptor that memory holds, as 64-bit words (R244). -/
def descriptor (m : Space) (ps : List Piece) : List Word :=
  (chunksOf 8 (seen m ps)).map fun b => .ofNat 64 (leNat b)

/-- The commands with a descriptor: its length, the checks on it, the command and its unit (R245, R254, R256, R259, R261). -/
def descriptorWord (d : List Word) : Instr → Option (BitVec 5 × Nat × Bool × NOp × Nat)
  | .nmred u a => some (a, 64, nmredOk d, .nmred d, u.toNat)
  | .nmatt u a => some (a, 64, nmattOk d, .nmatt d, u.toNat)
  | .nmopt u a => some (a, 128, nmoptOk d, .nmopt d, u.toNat)
  | .nmmask u a => some (a, 64, nmmaskOk d, .nmmask d, u.toNat)
  | _ => none

/-- The port can take a command (R246). -/
def portFree (s : State) : Prop := s.me.n.ready = true

/-- The vacant report of a descriptor read, which is made at issue (R116, R244). -/
def reportedAtIssue (m : Space) (ps : List Piece) (y : ASide) : ASide :=
  match ps.find? fun p => m.atom p.atom == .vacant with
  | some p => if y.v then y else { y with v := true, vacr := p.va, vacId := none }
  | none => y

/-- A command without a descriptor, and what its word asks of the state: the gang, the address, the arena (R263 to R265). -/
def portWord (s : State) : Instr → Option (NOp × Prop)
  | .nmbankOff pc => some (.bankOff pc.toNat, ownGang pc.toNat s = none)
  | .nmbankOn pc => some (.bankOn pc.toNat, onFault s s.act.chair pc.toNat = none)
  | .nmbrd pc k => some (.brd pc.toNat k.toNat, ownGang pc.toNat s = none ∧ s.me.n.fifo.length < 8)
  | .nmpool a n =>
    some (.pool (s.aside.reg a) n.toNat, (s.aside.reg a).toNat % 0x10000 = 0 ∧
      ∃ r ∈ (s.ctx (s.ctxOf s.act.chair)).arenas, r.base.toNat ≤ (s.aside.reg a).toNat ∧
        (s.aside.reg a).toNat + 0x10000 * n.toNat ≤ r.base.toNat + r.len)
  | .nmarena a base =>
    let len := (s.aside.reg a).toNat
    some (.arena base len, canonical base = true ∧ base.toNat % 0x10000 = 0 ∧ len % 0x10000 = 0 ∧ len ≤ 2 ^ 40 ∧
      arenaBad s (s.ctxOf s.act.chair) base len = false)
  | _ => none

/-- The command has issued: it is pending behind the port's others, and a result slot is reserved where it gives one. -/
def nmPending (y : Core) (op : NOp) (id die unit : Nat) (s : State) : Core :=
  { y with n := {
      pend := y.n.pend ++ [{ id := id, op := op, die := die, unit := unit, sig := s.sig, n := s.act.n }]
      fifo := if op.hasResult then y.n.fifo ++ [{ id := id }] else y.n.fifo } }

/-- Command `p` of a core is at work and may go on. -/
def nmAtWork (s : State) (ch c : Nat) (p : NPend) : Prop :=
  (s.core ch c).n.pend.find? (·.id = p.id) = some p ∧ nmGoes ch c p s = true

/-- A command has ended: it is pending no more, its result stands in its slot, and its signal is added (R246). -/
def nmEnded (s t : State) (ch c : Nat) (p : NPend) (r : Option Vec) : Prop :=
  (t.core ch c).n.pend = (s.core ch c).n.pend.filter (·.id ≠ p.id) ∧ signalled s t ch c p.sig ∧
    (t.core ch c).n.fifo.map (·.id) = (s.core ch c).n.fifo.map (·.id) ∧
    (r = none → (t.core ch c).n.fifo = (s.core ch c).n.fifo) ∧
    ∀ v e, r = some v → (s.core ch c).n.fifo.find? (·.id = p.id) = some e →
      (t.core ch c).n.fifo.find? (·.id = p.id) = some { e with result := some v, at_ := (s.chair ch).cycle + 1 }

/-- Element `e` of bank `b` of a chunk at `pa`, in FP16 (R264). -/
def bankElem (m : Space) (pa b e : Nat) : Nat :=
  (m.byte (pa + 1024 * b + 2 * e)).toNat + 256 * (m.byte (pa + 1024 * b + 2 * e + 1)).toNat

/-- The accumulator of a bank after a row: sixteen groups of 32 products are added in turn, in FP32 (R264). -/
def bankSum (m : Space) (g : Gang) (k b pa : Nat) : Nat :=
  (List.range 16).foldl (fun x i =>
    let group := fGroup fp16 false ((List.range 32).map fun e =>
      (bankElem m pa b (32 * i + e), (SMap.get 0 g.buf (32 * i + e)).toNat))
    (fAdd fp32 .rne (unpack fp32 x) (unpack fp32 group.1)).1) (SMap.get 0 g.acc (16 * k + b)).toNat

end Sys2Proof.Claims

/-- R94, R244, R246, R249, R263, R264, R265, R267: a near-memory word whose port is free and whose checks pass issues: it is
pending with its operands and its signal, and a result slot is reserved where it gives a result.  A descriptor's address is
read first; the descriptor is read as an ordinary load, and the word waits while an access that has issued holds that load
back, and while the table entries that give its stack lie in a ganged pseudo-channel; with no count and no watch
slot due nothing else changes but the leaves of its pages.  While the port is not free a word waits; NMPOP takes the oldest
result into its data queue, and waits while there is none; a misaligned or ill-formed descriptor is an operand-range fault, and so is an NMBMAC address that
translates to no page in memory.
It rests on the model's choices of assumptions 42 and 43. -/
def Obligations.NearMemoryWordsIssue : Prop :=
  ∀ (s : State),
    (∀ (i : Instr) (d : List Word) (a : BitVec 5) (n : Nat) (ok : Bool) (op : NOp) (unit : Nat),
      descriptorWord d i = some (a, n, ok, op, unit) →
      (¬portFree s ∨ 8 ≤ s.me.n.fifo.length → exec i s = .next s) ∧
      (portFree s → s.me.n.fifo.length < 8 → descBehind (nmBase a s) n s = true →
        exec i s = .next (nmWaits (nmBase a s) s)) ∧
      (portFree s → s.me.n.fifo.length < 8 → descBehind (nmBase a s) n s = false →
        (nmBase a s).toNat % n ≠ 0 → exec i s = .next (raiseC 0x15 s)) ∧
      (portFree s → s.me.n.fifo.length < 8 → descBehind (nmBase a s) n s = false → (nmBase a s).toNat % n = 0 → ∀ (ps : List (Piece × Tr)) (u : State),
        resolve s.act.chair s.act.core { r := true } [(nmBase a s, n)] s = (.ok ps, u) →
        (∀ q ∈ ps, u.ganged q.1.pa = false) → checkAtoms u.mem false (ps.map (·.1)) = none →
        d = descriptor u.mem (ps.map (·.1)) →
        (ok = false → exec i s = .next (raiseC 0x15 u)) ∧
        (ok = true → homeWaits u d = true → exec i s = .next u) ∧
        (ok = true → homeWaits u d = false → ∃ t id die, exec i s = .next t ∧
          t.me.n = (nmPending s.me op id die unit s).n ∧
          t.me.queue 5 = (s.me.retire s.act.eng s.here.cycle).queue 5 ∧
          (quietPages u (ps.map (·.2)) → onlyLeaves s u (ps.map fun q => q.2.leaf) ∧
            engTaken { u with pages := t.pages, tick := u.tick + 1 } t
              (nmPending { u.me with a := reportedAtIssue u.mem (ps.map (·.1)) u.aside } op u.tick die unit s))))) ∧
    (∀ (i : Instr) (op : NOp) (may : Prop), portWord s i = some (op, may) → portFree s →
      (∀ pc, op.bank = some pc → s.me.n.turning pc = false) → may →
      ∃ t, exec i s = .next t ∧
        engTaken { s with tick := s.tick + 1 } t (nmPending s.me op s.tick (dieOf s.act.chair) 0 s)) ∧
    (∀ (pc : BitVec 8) (k : BitVec 3) (a : BitVec 5) (x : Tr) (u : State), portFree s →
      s.me.n.turning pc.toNat = false → ownGang pc.toNat s = none →
      access s.act.chair s.act.core (s.aside.reg a) { r := true } s = (.ok x, u) → pteNarrow x.pte = false →
      let va := s.aside.reg a
      let d := dieOf s.act.chair
      (va.toNat % 1024 = 0 → ∃ t, exec (.nmbcst pc a) s = .next t ∧
        engTaken { u with tick := u.tick + 1 } t (nmPending u.me (.bcst pc.toNat va) u.tick d 0 s)) ∧
      (va.toNat % 16384 = 0 → pteTier x.pte = 0 → 0x10000 ≤ x.size → chanOf (x.pa va) = (d, pc.toNat) →
        ∃ t, exec (.nmbmac pc k a) s = .next t ∧ (t.page x).holds = (u.page x).holds + 1 ∧
          engTaken { u with pages := t.pages, tick := u.tick + 1 } t
            (nmPending u.me (.bmac pc.toNat k.toNat va (x.pa va) x.leaf) u.tick d 0 s))) ∧
    (∀ (pc : BitVec 8) (k : BitVec 3) (a : BitVec 5) (e : AErr) (u : State), portFree s →
      s.me.n.turning pc.toNat = false → ownGang pc.toNat s = none → (s.aside.reg a).toNat % 16384 = 0 →
      access s.act.chair s.act.core (s.aside.reg a) { r := true } s = (.error e, u) →
      e = .none ∨ e = .deep ∨ e = .arriving → exec (.nmbmac pc k a) s = .next (raiseC 0x15 u)) ∧
    (∀ q : BitVec 2, (s.me.n.fifo = [] ∨ ∃ e rest, s.me.n.fifo = e :: rest ∧ e.result = none) →
      exec (.nmpop q) s = .next s) ∧
    ∀ (q : BitVec 2) (id c : Nat) (v : Vec) (rest : List NmEntry), s.me.n.ready = true →
      (s.aside.dqs q.toNat).length < 16 → s.me.n.fifo = { id := id, result := some v, at_ := c } :: rest →
      let full := s.aside.dqs q.toNat ++ [{ id := id, data := some v, at_ := s.here.cycle + 1 }]
      (s.here.cycle < c → exec (.nmpop q) s = .next s) ∧
      (c ≤ s.here.cycle → ∃ t, exec (.nmpop q) s = .next t ∧ engWord s t { s.me with
        n := { s.me.n with fifo := rest }, a := { s.aside with dq := SMap.put [] s.aside.dq q.toNat full } })

/-- R246, R249, R255, R257, R260, R261, R264: a waiting command is accepted when its unit is free and a link leads to its
die; an accepted one with a result ends, after those before it but for what waits for a restart, with
what its unit computed: NMOPT with NANROWS and the new GEN, which it adds to memory in one
event, NMMASK with NANROWS, NMRED and NMATT with 128 bytes, those of an empty bag or shard as the rules give them, and NMBRD
with the sixteen accumulators of the core's gang, which are then zero.
It rests on the model's choices of assumptions 40, 42 and 59. -/
def Obligations.NearMemoryResults : Prop :=
  ∀ (s : State) (ch c : Nat) (p : NPend),
    ((s.chair ch).open_ = true → (s.core ch c).n.pend.find? (fun q => !q.accepted) = some p →
      (unitBusy s p = true ∨ s.joined (dieOf ch) p.die = false → exec (.nmCommandAccept ch c) s = .next s) ∧
      (unitBusy s p = false → s.joined (dieOf ch) p.die = true →
        ∃ t, exec (.nmCommandAccept ch c) s = .next t ∧ sameMemory s t ∧
          (t.core ch c).n.fifo = (s.core ch c).n.fifo ∧
          (t.core ch c).n.pend.find? (·.id = p.id) =
            ((s.core ch c).n.pend.find? (·.id = p.id)).map fun q => { q with accepted := true })) ∧
    (nmAtWork s ch c p → resultsStand ch c p.id s = true →
      let gives (r : Vec) : Prop := ∃ t, exec (.nmResult ch c p.id) s = .next t ∧ nmEnded s t ch c p (some r)
      let word (r : Vec) (i : Nat) : BitVec 32 := r.extractLsb' (32 * i) 32
      (∀ d q u, p.op = .nmred d → nmRows ch c p.op.moves p s = (.ok q, u) →
        gives (bytesVec ((redResult d q.cnt q.acc).flatMap (leBytes 4)))) ∧
      (∀ d bs ts u, p.op = .nmatt d → nmattRun ch c d s = (.ok (bs, ts), u) → gives (bytesVec bs)) ∧
      (∀ d, p.op = .nmred d → dw d 3 48 16 = 0 → p.cnt = 0 → ∃ r, gives r ∧ ∀ i, i < 32 → word r i =
        if dw d 3 42 2 = 2 ∧ i ≤ dw d 3 32 5 then 0xFF800000 else 0) ∧
      (∀ d, p.op = .nmatt d → shard s (s.ctxOf ch) d = [] → ∃ r, gives r ∧ word r 0 = 0xFF800000 ∧
        ∀ i, 0 < i → i < 32 → word r i = 0) ∧
      (∀ d x u, p.op = .nmopt d → p.next = dw d 4 32 32 / 32 →
        unitPieces ch c { r := true, w := true } [(d.getD 12 0, 8)] none s = (.ok x, u) →
        let gen := (leNat (seen u.mem x.1) + 1) % 2 ^ 64
        ∃ t r, exec (.nmResult ch c p.id) s = .next t ∧ nmEnded s t ch c p (some r) ∧
          r.extractLsb' 0 64 = BitVec.ofNat 64 p.nanrows ∧ (r.extractLsb' 64 64).toNat = gen ∧ r.toNat < 2 ^ 128 ∧
          (quietPages u x.2 → t.mem = writePieces x.1 (leBytes 8 gen) u.mem)) ∧
      (∀ d, p.op = .nmmask d → p.next = dw d 3 32 32 / 32 → ∃ t r, exec (.nmResult ch c p.id) s = .next t ∧
        nmEnded s t ch c p (some r) ∧ r.toNat = p.nanrows % 2 ^ 64 ∧ sameMemory s t) ∧
      (∀ pc k g, p.op = .brd pc k → bankBehind pc p.id (s.core ch c).n.pend = false →
        (s.chan (dieOf ch, pc)).gang = some g → gangFault s ch c pc = none →
        ∃ t r, exec (.nmResult ch c p.id) s = .next t ∧ nmEnded s t ch c p (some r) ∧ sameMemory s t ∧
          (∀ b, b < 16 → word r b = SMap.get 0 g.acc (16 * k + b)) ∧ r.toNat < 2 ^ 512 ∧
          ∃ h, (t.chan (dieOf ch, pc)).gang = some h ∧ h.buf = g.buf ∧ h.ch = g.ch ∧ h.core = g.core ∧
            ∀ j, SMap.get 0 h.acc j = if 16 * k ≤ j ∧ j < 16 * k + 16 then 0 else SMap.get 0 g.acc j))

/-- R263, R264, R265, R267: the accepted bank, pool and arena commands take their effect and signal: NMBANK gives the
pseudo-channel to the core as a gang, with no access in flight to it, or takes the gang away; NMBCST fills the gang buffer and
NMBMAC adds each bank's row into its accumulator; NMPOOL frees the backed pages of its range that nothing holds, and NMARENA
registers its arena.
It rests on the model's choices of assumptions 43 and 48. -/
def Obligations.BankPoolAndArenaCommandsComplete : Prop :=
  ∀ (s : State) (ch c : Nat) (p : NPend), nmAtWork s ch c p →
    let die := dieOf ch
    let k := s.ctxOf ch
    let done (e : State → Prop) : Prop := ∃ t, exec (.nearMemoryCommandComplete ch c p.id) s = .next t ∧
      nmEnded s t ch c p none ∧ e t
    (∀ pc, p.op.bank = some pc → bankBehind pc p.id (s.core ch c).n.pend = false →
      (p.op = .bankOn pc → onFault s ch pc = none → inFlight s (die, pc) = false →
        done fun t => sameMemory s t ∧
          t.chan (die, pc) = { s.chan (die, pc) with gang := some { ch := ch, core := c } }) ∧
      (p.op = .bankOff pc → gangFault s ch c pc = none → (∀ e ∈ s.ctxs, e.2.logHeld = []) →
        done fun t => sameMemory s t ∧ t.chan (die, pc) = { s.chan (die, pc) with gang := none }) ∧
      (∀ va g bs ts u, p.op = .bcst pc va → (s.chan (die, pc)).gang = some g → gangFault s ch c pc = none →
        unitRead ch c [(va, 1024)] (some (die, pc)) s = (.ok (bs, ts), u) →
        done fun t => ∃ h, (t.chan (die, pc)).gang = some h ∧ h.acc = g.acc ∧
          ∀ e, e < 512 → bs.length = 1024 → SMap.get 0 h.buf e = .ofNat 16 (leNat ((bs.drop (2 * e)).take 2))) ∧
      (∀ a va pa leaf g, p.op = .bmac pc a va pa leaf → (s.chan (die, pc)).gang = some g → gangFault s ch c pc = none →
        (∀ i ∈ atomsOf pa 16384, s.mem.damaged i = false) →
        done fun t => ∃ h, (t.chan (die, pc)).gang = some h ∧ h.buf = g.buf ∧
          ∀ j, SMap.get 0 h.acc j = if 16 * a ≤ j ∧ j < 16 * a + 16 then .ofNat 32 (bankSum s.mem g a (j - 16 * a) pa)
            else SMap.get 0 g.acc j)) ∧
    (∀ va, p.op = .pool va 1 → poolHeld s k va 0x10000 = false → poolGanged s k 1 va = false →
      (∀ x, walk s k va = some x → x.size = 0x10000 → pteTier x.pte = 0 → pteNarrow x.pte = false →
        done fun t => ptePfn x.pte * 4096 ∈ (t.die (homeDie (ptePfn x.pte * 4096))).pool ∧
          t.core ch c = { t.core ch c with spad := (s.core ch c).spad } ∧
          ((x.leaf + 8 ≤ ptePfn x.pte * 4096 ∨ ptePfn x.pte * 4096 + 0x10000 ≤ x.leaf) →
            s.mem.atomAt x.leaf = .home → x.leaf % 8 = 0 →
            t.mem.word x.leaf = pteBit x.pte 0 false ∧
            ∀ i, i < 2048 → t.mem.atom (ptePfn x.pte * 128 + i) = .vacant)) ∧
      (walk s k va = none → done fun t => sameMemory s t ∧ t.dies = s.dies)) ∧
    (∀ base len, p.op = .arena base len → len ≠ 0 → arenaBad s k base len = false →
      done fun t => sameMemory s t ∧ (t.ctx k).arenas = (s.ctx k).arenas ++ [{ base := base, len := len }]) ∧
    (∀ base a, p.op = .arena base 0 → (s.ctx k).arenas.find? (·.base == base) = some a → a.len = 0x10000 →
      walk s k base = none → poolHeld s k base 0x10000 = false → poolGanged s k 1 base = false →
      done fun t => sameMemory s t ∧ (t.ctx k).arenas = (s.ctx k).arenas.filter (·.base ≠ base))

/-! ## The fabric port and the barriers -/

namespace Sys2Proof.Claims

/-- The context, job, rank and number of the running core. -/
def myCtx (s : State) : Ctx := s.ctx (s.ctxOf s.act.chair)
def myKey (s : State) : Nat := pairKey (myCtx s).job (coreIndex s.act.chair s.act.core)

/-- A job's counter pair has counted `n` operations injected, or consumed (R297). -/
def injected (s t : State) (key n : Nat) (pkg : Bool) : Prop :=
  SMap.get {} t.pairs key = (SMap.get {} s.pairs key).inject n pkg
def consumed (s t : State) (key n : Nat) (pkg : Bool) : Prop :=
  SMap.get {} t.pairs key = (SMap.get {} s.pairs key).consume n pkg

/-- The port takes a word that releases, and one that does not (R284, R300). -/
def fabFree (s : State) (release : Bool) : Prop :=
  s.me.f.ready = true ∧ (release = true → s.me.released s.act.n = true)

/-- What a packet takes of an atom, and what the atom leaves (R159, R301). -/
def travels (m : Space) (pa : Nat) : AtomState × List Byte :=
  match m.atom (pa / 32) with
  | .vacant => (.vacant, [])
  | .poison => (.poison, [])
  | st => (st, m.atomBytes (pa / 32))

/-- Atoms of memory, all different and without an error. -/
def soundAtoms (m : Space) (pas : List Nat) : Prop :=
  (pas.map (· / 32)).Nodup ∧ ∀ pa ∈ pas, m.bad (pa / 32) = false

/-- The atoms have been taken out of memory: each is VACANT, and every other atom is as before. -/
def takenOut (s t : State) (pas : List Nat) : Prop :=
  ∀ j, (j ∈ pas.map (· / 32) → t.mem.atom j = .vacant) ∧
    (j ∉ pas.map (· / 32) → t.mem.atom j = s.mem.atom j ∧ t.mem.atomBytes j = s.mem.atomBytes j)

/-- The running word has left its queue and owes its signal until `left` events have come. -/
def owes (s t : State) (left : Nat) : Prop :=
  t.me.queue 6 = (s.me.retire s.act.eng s.here.cycle).queue 6 ∧
    ∃ id, t.me.f.pend = s.me.f.pend ++ [{ id := id, left := left, sig := s.sig }]

/-- A packet of the running core (R295). -/
def fromMe (s : State) (p : Pkt) (rank : Nat) (sc : Scope) : Prop :=
  p.job = (myCtx s).job ∧ p.srank = (myCtx s).rank ∧ p.drank = rank ∧ p.sc = sc ∧
    p.score = 16 * s.here.idx + s.act.core ∧ p.pkg = (rank == (myCtx s).rank)

/-- The last event that an issued FAB word waited for has come: it is pending no more and its signal is added. -/
def acknowledged (s t : State) (ch c id : Nat) : Prop :=
  ∀ q, (s.core ch c).f.pend.find? (·.id = id) = some q → q.left = 1 →
    (t.core ch c).f.pend = (s.core ch c).f.pend.filter (·.id ≠ id) ∧ signalled s t ch c q.sig

/-- The chair that holds a package's core number now. -/
def destChair (s : State) (p : Pkt) (num : Nat) : Option Nat :=
  (rankCtx s p.job p.drank).bind fun k => placeOf s k num

/-- A barrier word of these fields (R279). -/
def barFields (w : BitVec 128) (target count gen : Nat) (phase bytes : Bool) (scope core chair handle : Nat) : Prop :=
  w.toNat = target * 2 ^ 96 + count * 2 ^ 64 + gen * 2 ^ 32 + phase.toNat * 2 ^ 31 + bytes.toNat * 2 ^ 30 +
    scope * 2 ^ 27 + core * 2 ^ 20 + chair * 2 ^ 12 + handle

/-- The word after an arrival of a (R281). -/
def arrived (w v : BitVec 128) (a : Nat) : Prop :=
  bwTarget v = bwTarget w ∧ field 0 31 v = field 0 31 w ∧
    if bwTarget w ≤ bwCount w + a then
      bwCount v = 0 ∧ bwGen v = (bwGen w + 1) % 2 ^ 32 ∧ bwPhase v = !bwPhase w
    else bwCount v = bwCount w + a ∧ bwGen v = bwGen w ∧ bwPhase v = bwPhase w

/-- A barrier word of the running core's own package, at `pa`, that may be worked on: its page has been translated and
the operation counted, with the watch slots' events, in `u` (R133, R280, R284, R285, R297). -/
def atBarrier (s : State) (o : BarOp) (a : BitVec 5) (pa : Nat) (u : State) : Prop :=
  fabFree s o.writes ∧ s.me.f.frank.toNat = (myCtx s).rank ∧ pa % 16 = 0 ∧
    ∃ v, barPlace o (fabRegs a 0 0 s).a s = (.ok pa, v) ∧ u = barLocal o (fabRegs a 0 0 s).a pa v

/-- The FAB side but for the registers that the running word has read, which go with it (R284). -/
def fabSide (f : FSide) : FSide := { f with cap := none }

end Sys2Proof.Claims

/-- R94, R284, R295, R297, R298, R299, R300, R301, R304, R309: a word of the port takes its registers as it read them when
it issued: a word that releases waits with them until the accesses taken before it are performed.  PUT sends its atoms in packets of eight and leaves them VACANT; GET sends one
request and takes a FREE handle; AMSEND sends its message and signals; each counts what it injects, and PUT and GET owe their
signal until every packet is acknowledged or received.  MRECV gives the oldest message that is not held, MDONE drops the
oldest held one and counts it consumed, and QREPAIR counts its loss consumed.
It rests on the model's choices of assumptions 18, 22, 23 and 44. -/
def Obligations.FabricWordsSendAndReceive : Prop :=
  ∀ (s : State) (a b d : BitVec 5) (h r : BitVec 6) (sc : Scope) (len : BitVec 32) (rank : Nat),
    let v := fabRegs a b r s
    (s.me.f.ready = true → s.me.released s.act.n = false →
      exec (.put a b sc len) s = .next (fabWaits (fabRegs a b 0 s) s) ∧
        exec (.amsend a b r sc) s = .next (fabWaits v s)) ∧
    (fabFree s true → lenOk len.toNat = true → v.a.toNat % 32 = 0 → v.b.toNat % 32 = 0 →
      destRank sc s = some rank → ∀ pas u, sourceAtoms v.b len.toNat s = (some pas, u) →
      soundAtoms u.mem pas →
      let n := (pas.length + 7) / 8
      ∃ t, exec (.put a b sc len) s = .next t ∧ owes s t n ∧ takenOut u t pas ∧
        injected s t (myKey s) n (rank == (myCtx s).rank) ∧ t.net.length = s.net.length + n ∧
        ∀ i, i < n → ∃ p ∈ t.net, p.ty = .putData ∧ fromMe s p rank sc ∧
          p.addr = v.a + BitVec.ofNat 64 (256 * i) ∧
          p.data = ((pas.map (travels u.mem)).drop (8 * i)).take 8) ∧
    (fabFree s false → lenOk len.toNat = true → (s.aside.reg a).toNat % 32 = 0 → (s.aside.reg b).toNat % 32 = 0 →
      destRank sc s = some rank →
      let off := (s.aside.reg a).toNat
      let o : XOpnd := { kind := .move, dst := .sp h off, len := len.toNat }
      sideOk s.here s.act.core o true o.dst = true → sideLimit s.here s.act.core o true o.dst = true →
      ∃ t, exec (.getw h a b sc len) s = .next t ∧ sameMemory s t ∧ owes s t ((len.toNat + 255) / 256) ∧
        injected s t (myKey s) 1 (rank == (myCtx s).rank) ∧
        (∃ p, t.net = s.net ++ [p] ∧ p.ty = .getReq ∧ fromMe s p rank sc ∧ p.addr = s.aside.reg b ∧
          p.len = len.toNat ∧ p.h = h ∧ p.arg = s.aside.reg a) ∧
        ∀ g, t.here.handle g = if g = h ∧ (s.here.handle h).st = .free
          then { st := .held s.act.core, home := s.act.core, base := off / 32, len := len.toNat / 32 }
          else s.here.handle g) ∧
    (let w := v.a
     let atoms := (field 12 4 w).toNat
     fabFree s true → field 48 16 w = 0 → field 24 8 w = 0 → atoms ≤ 8 → destRank sc s = some rank →
      destOk sc rank (field 0 12 w).toNat s = true → ∀ pas u,
      (if atoms = 0 then (some [], s) else sourceAtoms v.b (32 * atoms) s) = (some pas, u) →
      (atoms = 0 ∨ v.b.toNat % 32 = 0) → soundAtoms u.mem pas →
      ∃ t p, exec (.amsend a b r sc) s = .next t ∧ takenOut u t pas ∧ t.net = s.net ++ [p] ∧ p.ty = .message ∧
        fromMe s p rank sc ∧ p.dcore = (field 0 12 w).toNat ∧ p.nsem = field 16 8 w ∧ p.tag = field 32 16 w ∧
        p.arg = v.s ∧ p.data = pas.map (travels u.mem) ∧
        injected s t (myKey s) 1 (rank == (myCtx s).rank) ∧ signalled s t s.act.chair s.act.core s.sig) ∧
    (fabFree s false →
      let q := s.me.f.inbox
      let oldest := (q.take (s.me.ripe keyInbox q.length s.here.cycle)).find? fun m => !m.held
      (∀ m, oldest = some m → m.payload = [] →
        ∃ t, exec (.mrecv d a b) s = .next t ∧ sameMemory s t ∧
          (∀ q, t.aside.reg q = if q = a ∧ a ≠ 0 then m.arg else if q = d ∧ d ≠ 0 then
            .ofNat 64 (m.tag.toNat * 2 ^ 32 + m.srank * 2 ^ 16 + m.score) else s.aside.reg q) ∧
          t.me.f.inbox = updFirst (fun m => !m.held) (fun m => { m with held := true }) s.me.f.inbox ∧
          signalled s t s.act.chair s.act.core s.sig) ∧
      (oldest = none → exec (.mrecv d a b) s = .next (fabWaits (fabRegs 0 b 0 s) s)) ∧
      (∀ m rest, takeFirst (·.held) s.me.f.inbox = some (m, rest) →
        ∃ t, exec .mdone s = .next t ∧ sameMemory s t ∧ t.me.f.inbox = rest ∧ consumed s t (myKey s) 1 m.pkg) ∧
      (takeFirst (·.held) s.me.f.inbox = none → exec .mdone s = .next (raiseC 0x1E s)) ∧
      (∀ l, s.losses.find? (fun l => l.id == (s.aside.reg a).toNat && l.job == myJob s) = some l →
        ∃ t, exec (.qrepair a) s = .next t ∧ t.losses = s.losses.filter (·.id ≠ (s.aside.reg a).toNat) ∧
          consumed s t (myKey s) l.count (!l.sysOnly) ∧ signalled s t s.act.chair s.act.core s.sig) ∧
      (s.losses.find? (fun l => l.id == (s.aside.reg a).toNat && l.job == myJob s) = none →
        exec (.qrepair a) s = .next (raiseC 0x1E s)))

/-- R297, R300, R303, R304: a data packet is written at its destination home by the MOVE destination row and acknowledged; a
request takes its atoms at their home and answers with packets of eight; a response is written into its handle's region, and
the last one completes its GET; a message enters its inbox and raises its notify semaphore; an acknowledgement completes its
word, and that of a BARINIT of another package makes or ends its binding.  Each is counted consumed where it arrives. -/
def Sys2Proof.Claims.fabricPacketsAreApplied : Prop :=
  ∀ (s : State) (num : Nat) (p : Pkt), pktAt s num = some p → num = p.num →
    (∀ k pas u, p.ty = .putData → rankCtx s p.job p.drank = some k →
      homeAtoms p.pos k { w := true } p.addr p.data.length s = (.ok pas, u) → soundAtoms u.mem pas →
      (∀ pa ∈ pas, u.mem.atom (pa / 32) = .home ∨ u.mem.atom (pa / 32) = .vacant) →
      ∃ t, exec (.putData num) s = .next t ∧
        (∀ j, j < p.data.length → let e := p.data.getD j (.vacant, [])
          t.mem.atom (pas.getD j 0 / 32) = e.1 ∧ ((e.1 = .home ∨ e.1 = .replica) → e.2.length = 32 →
            t.mem.atomBytes (pas.getD j 0 / 32) = e.2)) ∧
        consumed s t (pairKey p.job (stackPort (pas.headD 0))) 1 p.pkg ∧
        ∃ r ∈ t.net, r.ty = .reply ∧ r.fid = p.fid ∧ r.code = 0 ∧ r.drank = p.srank ∧ r.score = p.score) ∧
    (∀ k pas u, p.ty = .getReq → rankCtx s p.job p.drank = some k →
      homeAtoms p.pos k { r := true, w := true, vac := true } p.addr (p.len / 32) s = (.ok pas, u) → soundAtoms u.mem pas →
      ∃ t, exec (.getRequest num) s = .next t ∧ takenOut u t pas ∧
        SMap.get {} t.pairs (pairKey p.job (stackPort (pas.headD 0))) =
          ((SMap.get {} s.pairs (pairKey p.job (stackPort (pas.headD 0)))).inject ((pas.length + 7) / 8) p.pkg).consume 1
            p.pkg ∧
        ∀ i, i < (pas.length + 7) / 8 → ∃ r ∈ t.net, r.ty = .getResp ∧ r.drank = p.srank ∧ r.score = p.score ∧
          r.fid = p.fid ∧ r.h = p.h ∧ r.arg = p.arg + BitVec.ofNat 64 (256 * i) ∧
          r.data = ((pas.map (travels u.mem)).drop (8 * i)).take 8) ∧
    (∀ ch, p.ty = .getResp → destChair s p p.score = some ch → (s.chair ch).takesPackets = true →
      let c := p.score % 16
      let v := (s.chair ch).handle p.h
      let home := if v.st = .free then c else v.home
      let at_ (j : Nat) : Nat := p.arg.toNat / 32 + j
      (∀ j, j < p.data.length → ((s.core ch home).spad.atom (at_ j) = .home ∨
        (s.core ch home).spad.atom (at_ j) = .vacant) ∧ (s.core ch home).spad.bad (at_ j) = false) →
      (∀ e, e < 16 → (s.core ch e).t.armed = []) → (∀ b ∈ s.binds, b.ch ≠ ch) →
      ∃ t, exec (.getResponse num) s = .next t ∧ acknowledged s t ch c p.fid ∧
        consumed s t (pairKey p.job (coreIndex ch c)) 1 p.pkg ∧
        ∀ j, j < p.data.length → let e := p.data.getD j (.vacant, [])
          (t.core ch home).spad.atom (at_ j) = e.1 ∧ ((e.1 = .home ∨ e.1 = .replica) → e.2.length = 32 →
            (t.core ch home).spad.atomBytes (at_ j) = e.2)) ∧
    (∀ ch, p.ty = .message → destChair s p p.dcore = some ch → (s.chair ch).takesPackets = true →
      let c := p.dcore % 16
      (s.core ch c).f.inbox.length < 64 → messageBefore s p = false →
      (s.ctx (s.ctxOf ch)).desc1 1 54 1 = 0 → (s.ctx (s.ctxOf ch)).desc1 1 55 1 = 0 →
      ∃ t, exec (.messageArrival num) s = .next t ∧ sameMemory s t ∧
        (t.core ch c).f.inbox = (s.core ch c).f.inbox ++ [{
          tag := p.tag, srank := p.srank, score := p.score, arg := p.arg, pkg := p.pkg, sc := p.sc, payload := p.data }] ∧
        signalled s t ch c { sem := p.nsem, amt := 1 } ∧ t.net = s.net.filter (·.num ≠ num)) ∧
    (∀ ch, p.ty = .reply → destChair s p p.score = some ch → p.code = 0 → p.bar.counts = false →
      replyDue ch (p.score % 16) p s = true → (∀ k ph, p.bar ≠ .link ph k) → (∀ ph, p.bar ≠ .wait ph) → p.lost = [] →
      ∃ t, exec (.reply num) s = .next t ∧ sameMemory s t ∧ acknowledged s t ch (p.score % 16) p.fid ∧
        t.net = s.net.filter (·.num ≠ num) ∧
        ∀ target sc h, p.bar = .init target sc h → ∀ b, b ∈ t.binds ↔
          (b ∈ s.binds ∧ (b.ctx ≠ s.ctxOf ch ∨ b.far ≠ some (p.srank, p.addr))) ∨ ∃ g, h = some g ∧
            b = { pa := 0, far := some (p.srank, p.addr), ctx := s.ctxOf ch, ch := ch, named := p.chair, h := g })

/-- R279, R280, R281, R282, R284, R285, R297, R299: BARINIT writes a fresh word and makes or ends its binding; BARV arrives with n;
BARW passes where the phase is there, else it registers with G0 = GEN and holds the FAB queue; BARSEM adds one or arms its
link.  The operation is counted where it is injected and applied.  A word that is not valid is an arrival fault and a core
outside the group an ownership violation, and a faulting instruction changes nothing.  An arrival from
another package does the same at a word of system scope, where its tenant is served.
It rests on the model's choices of assumptions 17, 18, 45, 46 and 75. -/
def Obligations.BarrierWordsAct : Prop :=
  ∀ (s : State) (a : BitVec 5) (pa : Nat) (u : State),
    let w := u.barWord pa
    let ch := s.act.chair
    let c := s.act.core
    let checked (o : BarOp) : Prop := barCheck o pa (fun w => bwGroup w ch c) s = none
    (∀ sc h target, atBarrier s (.init target sc h) a pa u → checked (.init target sc h) → ch < 256 → c < 16 →
      ∃ t, exec (.barinit a sc h target) s = .next t ∧
        barFields (t.barWord pa) target.toNat 0 0 false h.isSome
          (match sc with | .core => 0 | .chair => 1 | .die => 2 | .package => 3 | .system => 4) c ch
          ((h.map BitVec.toNat).getD 0) ∧
        (∀ x, x < pa ∨ pa + 16 ≤ x → t.mem.byte x = u.mem.byte x) ∧
        (∀ b, b ∈ t.binds ↔ (b ∈ s.binds ∧ (b.far.isSome = true ∨ b.pa ≠ pa)) ∨ ∃ g, h = some g ∧
          b = { pa := pa, ctx := s.ctxOf ch, ch := ch, named := ch, h := g }) ∧ signalled s t ch c s.sig) ∧
    (∀ n, atBarrier s (.arrive n.toNat) a pa u → checked (.arrive n.toNat) →
      ∃ t, exec (.barv a n) s = .next t ∧ arrived w (t.barWord pa) n.toNat ∧ signalled s t ch c s.sig ∧
        (ch < 256 → c < 16 → injected s t (myKey s) 1 true ∧
          consumed s t (pairKey (myCtx s).job (stackPort pa)) 1 true) ∧
        ∀ x, x < pa ∨ pa + 16 ≤ x → t.mem.byte x = u.mem.byte x) ∧
    (∀ ph : BitVec 1, atBarrier s (.wait (ph == 1)) a pa u → checked (.wait (ph == 1)) →
      (bwPhase w = (ph == 1) → ∃ t, exec (.barw a ph) s = .next t ∧ sameMem u t ∧ signalled s t ch c s.sig ∧
        fabSide t.me.f = fabSide s.me.f) ∧
      (bwPhase w ≠ (ph == 1) → ∃ t, exec (.barw a ph) s = .next t ∧ sameMem u t ∧ owes s t 1 ∧
        t.me.f.barw = some { pa := pa, g0 := bwGen w } ∧ t.me.semv = s.me.semv)) ∧
    (∀ (k : BitVec 8) (ph : BitVec 1), atBarrier s (.link (ph == 1) k) a pa u → checked (.link (ph == 1) k) →
      (bwPhase w = (ph == 1) → s.act.clause.ssem = 0 → ∃ t, exec (.barsem a k ph) s = .next t ∧ sameMem u t ∧
        fabSide t.me.f = fabSide s.me.f ∧ signalled s t ch c { sem := k, amt := 1 }) ∧
      (bwPhase w ≠ (ph == 1) → s.me.f.links.length < 8 → ∃ t, exec (.barsem a k ph) s = .next t ∧ sameMem u t ∧
        t.me.f.links = s.me.f.links ++ [{ pa := pa, g0 := bwGen w, sem := some k, sig := s.sig }] ∧ signalled s t ch c s.sig) ∧
      (bwPhase w ≠ (ph == 1) → 8 ≤ s.me.f.links.length → exec (.barsem a k ph) s = .next (raiseC 0x1E s))) ∧
    (∀ n, atBarrier s (.arrive n.toNat) a pa u → s.mem.atom (pa / 32) ≠ .poison → s.mem.bad (pa / 32) = false →
      s.mem.atom (pa / 32) ≠ .replica →
      let w := s.barWord pa
      (bwTarget w = 0 ∨ 5 ≤ bwScope w → exec (.barv a n) s = .next (raiseC 0x1E s)) ∧
      (bwValid w = true → bwGroup w ch c = false → exec (.barv a n) s = .next (raiseC 0x18 s))) ∧
    (∀ p k x n, pktAt s p.num = some p → p.ty = .barrier → rankCtx s p.job p.drank = some k → p.code = 0 →
      p.bar = .arrive n → p.addr.toNat % 16 = 0 → walk s k p.addr = some x → pteR x.pte = true → pteW x.pte = true →
      pteNarrow x.pte = false → pteTier x.pte = 0 → (s.page x).st = .resident → s.ganged (x.pa p.addr) = false →
      walkWaits s k p.addr = false → s.served k (x.pa p.addr) = true →
      u = markLeaf x.leaf true s → pa = x.pa p.addr → pa % 16 = 0 →
      barCheck p.bar pa (fun w => bwScope w == 4) s = none →
      ∃ t, exec (.barrierOperation p.num) s = .next t ∧ arrived w (t.barWord pa) n ∧
        consumed s t (pairKey p.job (stackPort pa)) 1 p.pkg ∧
        ∃ r ∈ t.net, r.ty = .reply ∧ r.fid = p.fid ∧ r.code = 0)

/-- R306, R307: a wave begins when a WQUIET of its job is registered, pass 1 keeping the sums, which for a system wave of a job
with other packages take in what they report; pass 2 with equal sums, I equal
to C and no loss outstanding proves quiet for every WQUIET of the job and scope that registered before the wave began, and
any other pass 2 proves nothing. -/
def Sys2Proof.Claims.wavesProveQuiet : Prop :=
  ∀ (s : State) (job i c loss : Nat) (sys : Bool),
    let m := waveSums job sys s
    let sums := if sys && jobSpans s job then ((m.1 + i) % 2 ^ 64, (m.2.1 + c) % 2 ^ 64, m.2.2 + loss) else m
    let mine (w : Wave) : Bool := w.job == job && w.sys == sys
    (s.waves.find? mine = none → waveAsked job sys s = true →
      exec (.wavePass job sys i c loss) s = .next { s with
        waves := s.waves ++ [{ job := job, sys := sys, num := s.waveNum, pass1 := some sums }]
        waveNum := s.waveNum + 1 }) ∧
    (∀ w p, s.waves.find? mine = some w → w.pass1 = some p →
      ∃ t, exec (.wavePass job sys i c loss) s = .next t ∧ t.waves = s.waves.filter (fun v => !mine v) ∧
        sameMemory s t ∧
        ∀ ch k q, (s.chair ch).ctx = some k → (s.chair ch).gf.quiet = some q →
          (t.chair ch).gf.quiet = some (if p.1 = sums.1 ∧ p.2.1 = sums.2.1 ∧ sums.1 = sums.2.1 ∧ p.2.2 = 0 ∧
            sums.2.2 = 0 ∧ (s.ctx k).job = job ∧ (q.sc == 4) = sys ∧ q.wave ≤ w.num then { q with done := true } else q))

/-- R297, R300, R303, R304, R306, R307: the packets are applied where they arrive and counted, and waves prove quiet by the counts.
It rests on the model's choices of assumptions 44, 45, 46 and 67. -/
def Obligations.FabricPacketsAndWaves : Prop :=
  fabricPacketsAreApplied ∧ wavesProveQuiet

/-! ## Core control -/

namespace Sys2Proof.Claims

/-- BRS's outcome and the A-side without the entry it pops (R64), which stood in its queue before this cycle (R94); none
where it waits. -/
def brsOutcome (y : Core) (cycle : Nat) : BrsCond → Option (Bool × ASide)
  | .xa1 => if y.ripe keyXa y.a.xa.length cycle = 0 ∨ y.popsBefore = true then none
    else some (y.a.xa.headD false, { y.a with xa := y.a.xa.drop 1 })
  | .xa0 => if y.ripe keyXa y.a.xa.length cycle = 0 ∨ y.popsBefore = true then none
    else some (!y.a.xa.headD false, { y.a with xa := y.a.xa.drop 1 })
  | .ax1 => if y.ripe keyAx y.a.ax.length cycle = 0 then none
    else some (y.a.ax.headD false, { y.a with ax := y.a.ax.drop 1 })
  | .ax0 => if y.ripe keyAx y.a.ax.length cycle = 0 then none
    else some (!y.a.ax.headD false, { y.a with ax := y.a.ax.drop 1 })
  | .vs => if y.queue 1 = [] ∧ y.a.still then some (y.a.v, y.a) else none
  | .vc => if y.queue 1 = [] ∧ y.a.still then some (!y.a.v, y.a) else none

/-- A displacement of words from a stream address (R63). -/
def displaced (pc : Word) (off : BitVec 24) : Word := .ofInt 64 (pc.toNat + 8 * off.toInt)

/-- A core's semaphores are as before but for one. -/
def semIs (y z : Core) (k v : Nat) : Prop := ∀ j, z.semv j = if j = k ∧ j ≠ 0 then v else y.semv j

/-- A core CSR's value (R237). -/
def csrValue (s : State) : Nat → Option Word
  | 0x001 => some (.ofNat 64 (16 * s.act.chair + s.act.core))
  | 0x002 => some (.ofNat 64 (s.ctxOf s.act.chair))
  | 0x003 => some (.ofNat 64 s.here.clock)
  | 0x010 => some (.ofNat 64 s.xside.flags.toNat)
  | 0x011 => some (.ofNat 64 s.xside.frm.toNat)
  | 0x012 => some (.ofNat 64 (Machine.VType.code s.xside.vtype))
  | 0x013 => some (.ofNat 64 s.xside.drow.toNat)
  | 0x030 => some s.aside.vacr
  | 0x031 => some (if s.aside.v then 1 else 0)
  | 0x032 => some (.ofNat 64 s.aside.pcfg.toNat)
  | 0x033 => some s.aside.pqva
  | 0x038 => some (.ofNat 64 (myCtx s).rank)
  | 0x039 => some (.ofNat 64 s.me.f.frank.toNat)
  | 0x03A => some (.ofNat 64 (myCtx s).job)
  | _ => none

/-- Bytes of an image as a number. -/
def at8 (bs : List Byte) (o : Nat) : Word := .ofNat 64 (leNat ((bs.drop o).take 8))
def at4 (bs : List Byte) (o : Nat) : BitVec 32 := .ofNat 32 (leNat ((bs.drop o).take 4))

/-- The registers of a part of a core are what its image holds (R236). -/
def imageIs (part : Nat) (bs : List Byte) (y : Core) : Prop :=
  (part = 0 → ∀ i : BitVec 6, i ≠ 0 → y.x.sreg i = at8 bs (8 * i.toNat)) ∧
    (part = 1 → (∀ i : BitVec 5, i ≠ 0 → y.a.reg i = at8 bs (8 * i.toNat)) ∧ ∀ g : BitVec 4,
      let o := 256 + 32 * g.toNat
      y.a.gen g = { base := at8 bs o, stride := at8 bs (o + 8), pos := at4 bs (o + 16), lim := at4 bs (o + 20) }) ∧
    (part = 2 → (∀ i : BitVec 5, i ≠ 0 → y.x.preg i = at4 bs (4 * i.toNat)) ∧ y.x.flags = field 0 9 (at8 bs 128) ∧
      y.x.drow = field 0 10 (at8 bs 152)) ∧
    (part = 3 → ∀ (i : BitVec 9) (n : Nat), n < 128 →
      (y.x.vreg i).extractLsb' (8 * n) 8 = bs.getD (128 * i.toNat + n) 0)

/-- A slot's word has passed to a core's queue (R13, R57). -/
def queued (y z : Core) (w : Word) (p : Prov) (lis : List Nat) : Prop :=
  z.queue (engOf w) = y.queue (engOf w) ++ [{ w := w, n := y.taken, prov := p, lis := lis }] ∧
    z.taken = y.taken + 1 ∧ ∀ e, e ≠ engOf w → z.queue e = y.queue e

end Sys2Proof.Claims

/-- R13, R19, R57, R60, R61, R63, R64: a drafting core passes a slot that does not select it and takes one that does, to its
engine's queue; taking a DETACH it leaves with its tag and stream address, and running it it is detached.  A detached core
fetches the word at its stream PC, where the loader has measured that word (R333), and any other word is a context error; JMPS, BRS and CEXIT move or end its stream, JOIN joins, and at its marker the core drafts
again.  A wrong tag, a promise not kept and an illegal word are faults; act.lawful is the word's legality, which the core's
turn sets from R34 and R35.
It rests on the model's choices of assumptions 35, 36, 37 and 49. -/
def Obligations.CoresTakeFetchLeaveAndRejoin : Prop :=
  ∀ (s : State) (ch c : Nat),
    let x := s.chair ch
    let y := s.core ch c
    let sl := SMap.get {} x.ring (y.pos.toNat % 256)
    (x.mayTake c = true → y.phase = .drafting → y.pos ≠ x.gf.head →
      let step (e : Core → Prop) : Prop := ∃ t, exec (.ringTake ch c) s = .next t ∧ onlyChair ch s t ∧ sameMemory s t ∧
        e (t.core ch c)
      (((∃ t8, sl.item = .joinpt t8) ∨ (∃ w, sl.item = .word w ∧ sl.cores.getLsbD c = false)) →
        step fun z => z = { y with pos := y.pos + 1, issued := z.issued }) ∧
      (∀ w, sl.item = .word w → sl.cores.getLsbD c = true → (y.queue (engOf w)).length < 32 → s.act.lawful = true →
        step fun z => z.pos = y.pos + 1 ∧ queued y z w { kind := 0, gpc := sl.gpc, esn := sl.esn } sl.lis ∧
          (isDetach w = false → z.phase = .drafting) ∧
          (isDetach w = true → z.phase = .leaving ∧ z.tag = some (field 24 8 w) ∧ z.d = sl.esn ∧
            ∀ lo hi ls, tailLits (y.queue 7) = lo :: hi :: ls → z.spc.toNat = hi.toNat * 2 ^ 32 + lo.toNat)) ∧
      (∀ w, sl.item = .word w → sl.cores.getLsbD c = true → (y.queue (engOf w)).length < 32 → s.act.lawful = false →
        y.rec_ = none → step fun z => z.pos = y.pos ∧ z.rec_.map (·.code) = some 0x10) ∧
      (∀ w, sl.item = .word w → sl.cores.getLsbD c = true → 32 ≤ (y.queue (engOf w)).length →
        exec (.ringTake ch c) s = .next s)) ∧
    (x.mayTake c = true → y.phase = .detached → y.buf = none → ∀ t u,
      access ch c y.spc { x := true } s = (.ok t, u) → u.ganged (t.pa y.spc) = false →
      u.mem.damaged (t.pa y.spc / 32) = false →
      let w := u.mem.word (t.pa y.spc)
      ((u.ctx (u.ctxOf ch)).measured y.spc w = false →
        exec (.streamFetch ch c) s = .next (contextError (u.ctxOf ch) 4 y.streamProv y.spc u)) ∧
      ((u.ctx (u.ctxOf ch)).measured y.spc w = true →
      ((y.queue (engOf w)).length < 32 ∨ isControl w = true) → s.act.lawful = true →
      (∀ sp, promoteStream w y.sp = some sp → ∃ v, exec (.streamFetch ch c) s = .next v ∧ v.mem = u.mem ∧
        (v.core ch c).sp = sp ∧
        (isControl w = false → queued y (v.core ch c) w y.streamProv y.dlis ∧ (v.core ch c).spc = y.spc + 8) ∧
        (isControl w = true → (v.core ch c).buf = some { w := w, n := y.taken, prov := y.streamProv, lis := y.dlis } ∧
          (v.core ch c).spc = y.spc)) ∧
      (promoteStream w y.sp = none → y.rec_ = none → ∃ v, exec (.streamFetch ch c) s = .next v ∧
        (v.core ch c).rec_.map (·.code) = some 0x12 ∧ (v.core ch c).spc = y.spc))) ∧
    (x.open_ = true → y.phase = .joining →
      (∀ j, x.joinEsn c = some j → ∃ t, exec (.coreRejoin ch c) s = .next t ∧ onlyChair ch s t ∧ sameMemory s t ∧
        t.core ch c = { y with phase := .drafting, pos := j + 1, tag := none }) ∧
      (x.joinEsn c = none → exec (.coreRejoin ch c) s = .next s)) ∧
    (∀ (t8 : BitVec 8) (addr : BitVec 64), ∃ t, exec (.detach t8 addr) s = .next t ∧
      engTaken s t { s.me with phase := if s.me.phase = .leaving then .detached else s.me.phase }) ∧
    (∀ t8 : BitVec 8,
      let kept := ∀ k, k < 256 → SMap.get 0 s.me.pin k ≤ SMap.get 0 s.me.sp k
      (s.me.tag = some t8 → kept → exec (.join t8) s = .next (s.setMe { s.me.clearBuf with phase := .joining })) ∧
      (s.me.tag ≠ some t8 → exec (.join t8) s = .next (controlFault 0x11 s)) ∧
      (s.me.tag = some t8 → ¬kept → exec (.join t8) s = .next (controlFault 0x12 s))) ∧
    (∀ off : BitVec 24, exec (.jmps off) s = .next (s.setMe { s.me.clearBuf with spc := displaced s.me.spc off }) ∧
      ∀ cd, (∀ taken z, brsOutcome s.me s.here.cycle cd = some (taken, z) → exec (.brs cd off) s = .next (s.setMe { s.me.clearBuf with
          a := z, spc := if taken then displaced s.me.spc off else s.me.spc + 8 })) ∧
        (brsOutcome s.me s.here.cycle cd = none → exec (.brs cd off) s = .next s)) ∧
    exec .cexit s = .next (s.setMe { s.me.clearBuf with
      phase := .exited, tag := none, a := { s.aside with skip := 0 } })

/-- R105, R106, R108, R109, R110, R114, R135, R237, R299: SEMINIT sets, SEMADD adds, saturating with an overflow fault, or adds
in the next cycle where a wait on the semaphore has passed in this one, and SEMWAIT takes; CFENCE waits until every earlier word has completed; CSRRC's value lands a cycle later; CSRWC writes its CSR
once the earlier words of the engine it orders are done, and a write of a read-only CSR is ignored. -/
def Sys2Proof.Claims.semaphoresFencesAndCsrs : Prop :=
  ∀ (s : State) (k : BitVec 8) (v : BitVec 16) (sc : Scope) (a : BitVec 5) (csr : BitVec 12),
    let w := s.aside.reg a
    let sem (i : Instr) (val : Nat) : Prop := ∃ t y, exec i s = .next t ∧ engWord s t y ∧
      y = { s.me with sem := y.sem, took := y.took } ∧ semIs s.me y k.toNat val
    let late := SMap.get 0 s.me.took k.toNat = s.here.cycle + 1
    (SMap.get (0, 0) s.me.adds k.toNat = (s.here.cycle, 0) ∨ (SMap.get (0, 0) s.me.adds k.toNat).1 ≠ s.here.cycle →
      ¬late → sem (.seminit k v) v.toNat) ∧
    (s.me.semv k.toNat + v.toNat ≤ 0xFFFF → ¬late → sem (.semadd k v) (s.me.semv k.toNat + v.toNat)) ∧
    (late → s.here.st = .run → k ≠ 0 → v ≠ 0 → ∃ t, exec (.semadd k v) s = .next t ∧
      engWord s t { s.me with later := s.me.later ++ [(k.toNat, v.toNat, s.sig, 7)] }) ∧
    (0xFFFF < s.me.semv k.toNat + v.toNat → ¬late → k ≠ 0 → v ≠ 0 → s.here.open_ = true → s.me.rec_ = none →
      s.act.clause.ssem = 0 → ∃ t, exec (.semadd k v) s = .next t ∧ t.me.semv k.toNat = 0xFFFF ∧
        t.me.rec_.map (fun r => (r.code, r.sem)) = some (0x29, k.toNat)) ∧
    (k ≠ 0 → v ≠ 0 → s.here.waitPasses s.act.core 7 k.toNat v.toNat = true →
      sem (.semwait k v) (s.me.semv k.toNat - v.toNat)) ∧
    (k = 0 ∨ v = 0 → ∃ t, exec (.semwait k v) s = .next t ∧ engWord s t s.me) ∧
    (k ≠ 0 → v ≠ 0 → s.here.waitPasses s.act.core 7 k.toNat v.toNat = false →
      exec (.semwait k v) s = .next (s.setMe (s.me.beginWait 7 s.here.cycle))) ∧
    (s.me.stillBefore s.act.n 7 = true → ∃ t, exec (.cfence sc) s = .next t ∧ engWord s t s.me) ∧
    (s.me.stillBefore s.act.n 7 = false → exec (.cfence sc) s = .next s) ∧
    (s.aside.busy a = false → ∃ t z, exec (.csrrc a csr) s = .next t ∧
      engTaken s t { s.me with a := { s.aside with
        late := s.aside.late ++ [{ d := a, at_ := s.here.cycle + 1, v := z, sig := s.sig }] } } ∧
      ∀ q, csrValue s csr.toNat = some q → z = q) ∧
    (s.me.xsideBefore s.act.n = true →
      let onX (n : BitVec 12) (x : XSide) : Prop := ∃ t, exec (.csrwc n a) s = .next t ∧ engWord s t { s.me with x := x }
      onX 0x010 { s.xside with flags := .ofNat 9 w.toNat } ∧
      onX 0x011 (if w.toNat % 8 < 4 then { s.xside with frm := .ofNat 3 w.toNat } else s.xside) ∧
      (∀ ty, VType.ofCode (w.toNat % 16) = some ty → onX 0x012 { s.xside with vtype := ty }) ∧
      onX 0x013 { s.xside with drow := .ofNat 10 w.toNat }) ∧
    (s.me.asideBefore s.act.n = true →
      let onA (i : Instr) (y : ASide) : Prop := ∃ t, exec i s = .next t ∧ engWord s t { s.me with a := y }
      let ls := w.toNat / 256 % 8
      onA (.csrwc 0x030 a) { s.aside with vacr := w, vacId := none } ∧
      onA (.acondWrite a) { s.aside with v := w.getLsbD 0, vacId := none } ∧ onA (.pqvaWrite a) { s.aside with pqva := w } ∧
      onA (.pcfgWrite a) (if ls < 6 ∧ w.toNat % 256 * 2048 + 2 ^ ls * 8192 ≤ 0x50000 ∧
        (∀ t ∈ s.aside.tags, t.2.st = .invalid) then { s.aside with pcfg := .ofNat 12 w.toNat } else s.aside)) ∧
    (s.me.issuedBefore 6 s.act.n = true → ∃ t, exec (.frankWrite a) s = .next t ∧
      engWord s t { s.me with f := { s.me.f with frank := .ofNat 10 w.toNat } }) ∧
    (csr = 0x001 ∨ csr = 0x002 ∨ csr = 0x003 ∨ csr = 0x034 ∨ csr = 0x038 ∨ csr = 0x03A →
      ∃ t, exec (.csrwc csr a) s = .next t ∧ engWord s t s.me)

/-- R236: once every earlier word has completed, XSAVE stores the registers of its part at an aligned address, in part order,
and XREST loads them, a0, s0 and p0 excepted; a misaligned address is an alignment fault. -/
def Sys2Proof.Claims.registerPartsAreSavedAndRestored : Prop :=
  ∀ (s : State) (a : BitVec 5) (part : BitVec 2),
    let va := s.aside.reg a
    (s.me.stillBefore s.act.n 7 = false → exec (.xsave a part) s = .next s ∧ exec (.xrest a part) s = .next s) ∧
    (s.me.stillBefore s.act.n 7 = true →
      (va.toNat % 128 ≠ 0 → exec (.xsave a part) s = .next (raiseC 0x1F s) ∧
        exec (.xrest a part) s = .next (raiseC 0x1F s)) ∧
      (va.toNat % 128 = 0 → ∀ (ps : List (Piece × Tr)) (u : State),
        let qs := ps.map (·.1)
        (resolve s.act.chair s.act.core { w := true } [(va, partLen part.toNat)] s = (.ok ps, u) →
          (∀ q ∈ qs, u.ganged q.pa = false) → checkAtoms u.mem true qs = none → quietPages u (ps.map (·.2)) →
          ∃ t bs, exec (.xsave a part) s = .next t ∧ t.mem = writePieces qs bs u.mem ∧ imageIs part.toNat bs s.me ∧
            bs.length = partLen part.toNat ∧ signalled s t s.act.chair s.act.core s.sig) ∧
        (resolve s.act.chair s.act.core { r := true } [(va, partLen part.toNat)] s = (.ok ps, u) →
          (∀ q ∈ qs, u.ganged q.pa = false) → checkAtoms u.mem false qs = none → quietPages u (ps.map (·.2)) →
          ∃ t, exec (.xrest a part) s = .next t ∧ t.mem = u.mem ∧ imageIs part.toNat (seen u.mem qs) t.me ∧
            (part ≠ 0 → ∀ i, t.xside.sreg i = s.xside.sreg i) ∧ (part ≠ 3 → ∀ i, t.xside.vreg i = s.xside.vreg i) ∧
            signalled s t s.act.chair s.act.core s.sig)))

/-- R105, R106, R108, R109, R110, R114, R135, R236, R237, R299: the semaphore words, CFENCE, the CSR words, and XSAVE and XREST.
It rests on the model's choices of assumptions 22, 41 and 64. -/
def Obligations.SystemWordsOfTheCore : Prop :=
  semaphoresFencesAndCsrs ∧ registerPartsAreSavedAndRestored

/-- R67, R97, R224, R225, R226, R231, R232, R235: a finished chair is EXITED, one that leaves the launch free; a deadlock
records its stalled cores, or one core where none stalls; an expired budget asks for a hard halt; a request reaches the chairs that have not ended.  A halt that is due, or that finds the gaffer
waiting at a delay-slot word, with the work outside the engines done, freezes the chair with its cause, the freeze cycle and the place, and enters the handler where HMASK routes the cause, the
context being FAULTED where it does not.  A chair at its soft point and a halted one that waits for no one are saved in their
context and free, and a saved one goes on in another chair; a wait at a soft point that could never end is a join-wait fault.
It rests on the model's choices of assumptions 16, 27, 38, 39, 40, 47, 54, 70 and 77. -/
def Obligations.ChairsHaltSaveAndRestore : Prop :=
  ∀ (s : State) (ch k n : Nat),
    let x := s.chair ch
    let id := s.ctxOf ch
    (x.st = .run → x.halt = none → x.finished = true → ∃ t, exec (.chairFinish ch) s = .next t ∧ sameMem s t ∧
      (t.ctx id).gone = (s.ctx id).gone ++ [x.idx] ∧ (x.leaves id s = false → (t.chair ch).st = .exited ∧
        (t.chair ch).req = false) ∧ (x.leaves id s = true → t.chair ch = { tenant := x.tenant, clock := x.clock })) ∧
    (deadlocked ch s = true → ∃ t, exec (.queueDeadlock ch) s = .next t ∧ sameMemory s t ∧
      let stalls (c : Nat) : Prop := ∃ e, 1 ≤ e ∧ e ≤ 7 ∧ (s.core ch c).localStall e = true
      ∀ c, c < 16 → stalls c ∨ ((∀ d, d < 16 → ¬stalls d) ∧ c = x.live.headD 0) → (s.core ch c).rec_ = none →
        (t.core ch c).rec_.map (·.code) = some 0x28 ∧ (t.chair ch).halt = some { cycle := x.cycle }) ∧
    (x.working = true → x.halt = none → (s.ctx id).desc1 1 0 44 ≤ x.budget + 1 → exec (.yieldBudgetExpiry ch) s =
      .next (s.setChair ch { x with halt := some { cycle := x.cycle, hard := true } })) ∧
    ((s.ctx k).st ≠ .free → (s.ctx k).st ≠ .dead → ∃ t, exec (.preemptionRequest k) s = .next t ∧ sameMemory s t ∧
      ∀ e, t.chair e = if (s.chair e).ctx = some k ∧ (s.chair e).hasExited = false ∧ (s.chair e).live ≠ [] then
        { s.chair e with req := true } else s.chair e) ∧
    ((s.ctx k).st = .free ∨ (s.ctx k).st = .dead → exec (.preemptionRequest k) s = .next s) ∧
    (∀ h, x.halt = some h → x.haltDue = true ∨ slotHalts ch s = true → x.st = .run → x.frame.handler = false → (s.ctx id).st = .running →
      bankWork id s = false → (∀ c, c < 16 → Core.outside ch c (dropGangs id s) = false) →
      ∃ t, exec (.chairHalt ch) s = .next t ∧ (t.chair ch).st = .halted ∧ (t.chair ch).halt = none ∧
        (∀ r, (t.chair ch).gf.reg r = x.gf.reg r) ∧
        (∀ cause code, x.gfault = some (cause, code) → (t.chair ch).frame.levelC = false ∧
          (t.chair ch).frame.cause = cause ∧ (t.chair ch).frame.trapCode = code ∧
          (t.chair ch).frame.cycle = h.cycle + 1 ∧ (t.chair ch).frame.cont.pc = x.gf.pc ∧
          (t.chair ch).frame.cont.ds = x.gf.ds ∧ (t.chair ch).frame.cont.dt = x.gf.dt) ∧
        (x.gfault = none → x.recCores ≠ 0 → (t.chair ch).frame.levelC = true ∧
          (t.chair ch).frame.cycle = h.cycle + 1 ∧
          some (t.chair ch).frame.cause = (x.core x.lowestRec).rec_.map (·.code)) ∧
        (x.gfault ≠ none ∨ x.recCores ≠ 0 →
          ((s.ctx id).routes (t.chair ch).frame.cause = true → (t.chair ch).frame.handler = true ∧
            (t.ctx id).st = .frozen ∧ (t.chair ch).gf.pc = BitVec.ofNat 13 ((s.ctx id).desc1 3 0 13) ∧
            (t.chair ch).gf.depth = 0 ∧ (t.chair ch).frame.fsel = x.lowestRec ∧
            ∀ r : BitVec 6, 56 ≤ r.toNat → SMap.get 0 (t.chair ch).frame.savedG r.toNat = x.gf.reg r) ∧
          ((s.ctx id).routes (t.chair ch).frame.cause = false → (t.chair ch).frame.handler = false ∧
            (t.ctx id).st = .faulted)) ∧
        (h.hard = true → x.gfault = none → x.recCores = 0 → (t.chair ch).frame.hard = true ∧ (t.ctx id).st = .frozen)) ∧
    (∀ p, x.st = .run → x.halt = none → x.gf.save = some p → (∀ c, c < 16 → x.neverArrives c = false) →
      x.gathered true (List.range 16) = true → (∀ c, c < 16 → (x.core c).n.pend = []) → blockGanged id x.idx s = false →
      ∃ t, exec (.softSave ch) s = .next t ∧ t.chair ch = { tenant := x.tenant, clock := x.clock } ∧
        let v := SMap.get {} (t.ctx id).saved x.idx
        v.from_ = ch ∧ v.chair.st = .saved ∧ v.chair.gf = (x.pastSave p true).gf ∧
          (∀ q, p = some q → v.chair.gf = { x.gf with save := none, resume := some q }) ∧
          (p = none → x.gf.ds = false → x.gf.depth = 0 → x.gf.pc.toNat < 8191 → v.chair.gf.pc = x.gf.pc + 1) ∧
          v.chair.req = false ∧ ∀ c, c < 16 → (v.chair.core c).x = (s.core ch c).x ∧
            (v.chair.core c).sem = (s.core ch c).sem ∧ (v.chair.core c).queues = (s.core ch c).queues) ∧
    (∀ p c, x.st = .run → x.halt = none → x.gf.save = some p → c < 16 → x.neverArrives c = true → ∃ t,
      exec (.softSave ch) s = .next t ∧ (t.chair ch).gf.save = none ∧ (t.chair ch).gfault = some (0x07, 0)) ∧
    (x.st = .halted → x.frame.handler = false → x.halt = none → blockGanged id x.idx s = false →
      (s.ctx id).st = .faulted ∨ (x.frame.hard = true ∧ (s.ctx id).st ≠ .dead) →
      ∃ t, exec (.chairSave ch) s = .next t ∧ t.chair ch = { tenant := x.tenant, clock := x.clock } ∧
        let v := SMap.get {} (t.ctx id).saved x.idx
        v.from_ = ch ∧ v.chair.st = .halted ∧ v.chair.frame = x.frame ∧ v.chair.gf = x.gf) ∧
    ((s.ctx k).st = .running → x.tenant = some ((s.ctx k).desc1 1 58 6) → x.ctx = none → blockGanged k n s = false → s.mem.errs = [] →
      (∀ i, s.mem.atom i ≠ .poison) → ∀ v, (s.ctx k).saved.find? (fun e => e.1 == n) = some (n, v) →
      v.chair.st = .saved →
      ∃ t, exec (.chairRestore k n ch) s = .next t ∧ (t.chair ch).st = .run ∧ (t.chair ch).budget = 0 ∧
        (t.chair ch).gf = { (loadChair ((s.ctx k).block n) s.mem v).gf with issued := none } ∧
        (t.chair ch).tenant = x.tenant ∧ (t.chair ch).clock = x.clock ∧
        (t.ctx k).chairs = (s.ctx k).chairs ++ [ch] ∧ (t.ctx k).saved = SMap.del (s.ctx k).saved n)

/-! ## Contexts, kernels and graphs -/

namespace Sys2Proof.Claims

/-- The graph of a die under its sequence number, and a node of it. -/
def nodeAt (s : State) (die gn i : Nat) : Option Node := ((s.die die).graph gn).map fun g => g.node i

/-- A die's kernel has this state. -/
def kernelIs (s : State) (die n : Nat) (st : KernelState) : Prop := ((s.die die).kernel n).map (·.st) = some st

/-- Bytes `o` to `o + n` of a string as a number. -/
def strNat (bs : List Byte) (o n : Nat) : Nat := leNat ((bs.drop o).take n)

end Sys2Proof.Claims

/-- R220, R221, R223, R238, R296, R329, R331, R332, R333, R335, R350: a descriptor that is admitted makes its FREE context
LOADING with a zero record, and any other changes nothing; a container that is ill-formed, names an empty key slot, or whose
digest or signature fails, a zero signature among them, makes it DEAD with the reason, and a code segment that passes is
measured and placed and makes it READY; a PREEMPTED or FAULTED context resumes; a kill makes a context DEAD, with its first
reason, and stops its chairs; and release of a DEAD context vacates its frames and frees it.  The log's read index advances to
the write index at most.
It rests on the model's choices of assumptions 8, 49, 50 and 52. -/
def Obligations.ContextsLoadResumeDieAndFree : Prop :=
  ∀ (s : State) (k n : Nat),
    (∀ die words job rank ranks, let id := wordField words 0 0 12
      ((s.die die).serves = true → descOk words = true → (s.ctx id).st = .free → jobOk s job rank = true →
        rankOk rank ranks = true →
        ∃ t, exec (.descriptorLoad die words job rank ranks) s = .next t ∧ sameMemory s t ∧
          t.ctx id = { st := .loading, die := die, desc := words, job := job, rank := rank, ranks := ranks } ∧
          (∀ e, e ≠ id → t.ctx e = s.ctx e) ∧ ∀ p, SMap.get {} t.pairs (8192 * job + p % 8192) = {}) ∧
      ((s.die die).serves = false ∨ descOk words = false ∨ (s.ctx id).st ≠ .free ∨ jobOk s job rank = false ∨
        rankOk rank ranks = false → exec (.descriptorLoad die words job rank ranks) s = .next s)) ∧
    (∀ bs, (s.ctx k).st ≠ .loading ∨ ((s.ctx k).image ≠ [] ∧ (s.ctx k).image ≠ bs) →
      exec (.containerLoad k bs) s = .next s) ∧
    (∀ bs, (s.ctx k).st = .loading → (s.ctx k).image = [] → (s.ctx k).placed = 0 → (s.ctx k).next = 0 →
      let dead (r : Nat) : Prop := ∃ t, exec (.containerLoad k bs) s = .next t ∧ (t.ctx k).st = .dead ∧
        (t.ctx k).reason = r
      let key (g : Segment) : List Byte := (s.die (s.ctx k).die).key g.key
      (containerOk bs = false → dead 6) ∧
      (containerOk bs = true → (∃ g ∈ segments bs, key g = []) → dead 8) ∧
      (∀ g, containerOk bs = true → segments bs = [g] → key g ≠ [] → let data := (bs.drop g.off).take g.len
        (leNat g.digest ≠ (Config.sha384 data).toNat → dead 7) ∧
        (leNat g.digest = (Config.sha384 data).toNat → (∀ b ∈ g.sig, b = 0) ∨
          Config.ecdsaValid (key g) (Config.sha384 g.signed) g.sig = false → dead 8) ∧
        (leNat g.digest = (Config.sha384 data).toNat → (∃ b ∈ g.sig, b ≠ 0) → Config.ecdsaValid (key g) (Config.sha384 g.signed) g.sig = true →
          ∃ t, exec (.containerLoad k bs) s = .next t ∧ sameMemory s t ∧ (t.ctx k).st = .ready ∧
            (t.ctx k).entry.toNat = strNat bs 6 2 ∧ (t.ctx k).next = 1 ∧ (t.ctx k).image = [] ∧
            (∀ i, i < g.len / 8 → SMap.get 0 (t.ctx k).code i = .ofNat 64 (strNat data (8 * i) 8)) ∧
            (t.ctx k).mr = Config.sha384 (leBytes 48 (s.ctx k).mr.toNat ++ [0] ++
              leBytes 48 (Config.sha384 (key g)).toNat ++ g.digest)))) ∧
    ((s.ctx k).st = .preempted ∨ (s.ctx k).st = .faulted → unsaved s k = false →
      ∃ t, exec (.contextResume k) s = .next t ∧ sameMemory s t ∧
        t.ctx k = { s.ctx k with st := .running } ∧ ∀ d m, (s.ctx k).kernel = some (d, m) → kernelIs s d m .waiting →
          kernelIs t d m .running) ∧
    ((s.ctx k).st ≠ .free → ∃ t, exec (.contextKill k) s = .next t ∧ (t.ctx k).st = .dead ∧
        (t.ctx k).reason = (if (s.ctx k).st = .dead then (s.ctx k).reason else 12) ∧
        ∀ ch, (s.chair ch).ctx = some k → (s.chair ch).st ≠ .idle → (t.chair ch).st = .exited ∧
          (t.chair ch).halt = none) ∧
    ((s.ctx k).st = .free → exec (.contextKill k) s = .next s) ∧
    ((s.ctx k).st = .dead → ∃ t, exec (.contextRelease k) s = .next t ∧ t.ctx k = {} ∧
      (∀ ch, (s.chair ch).ctx = some k → t.chair ch = { tenant := (s.chair ch).tenant, clock := (s.chair ch).clock }) ∧
      ∀ f, (f, k + 1) ∈ s.frames → SMap.get 0 t.frames f = 0 ∧ ∀ j, j < 128 → t.mem.atom (128 * f + j) = .vacant) ∧
    ∃ t, exec (.logReadIndexAdvance k n) s = .next t ∧ sameMemory s t ∧ (t.ctx k).logW = (s.ctx k).logW ∧
      (t.ctx k).logR = Nat.min (s.ctx k).logW ((s.ctx k).logR + n)

/-- R314, R315, R316, R317, R318: an admitted launch record takes the next sequence number and its queue's tail, and any other
changes nothing; the oldest record leaves the queue for a free scoreboard entry: a kernel takes it, its streams' pages held, or
FAILS without them, and a graph begins; a ready kernel that nothing holds back is granted an admitted choice of chairs; with the argument block loaded its chairs run; it
retires when every chair has ended, its context FREE; a cancelled kernel FAILS and its chairs stop; and the last die to join is
marked for withdrawal where a kernel of higher priority lacks chairs, its chairs that have executed EXIT being free.  A record whose stream's table entries lie in a ganged
pseudo-channel waits in the queue.
It rests on the model's choices of assumptions 10, 50, 52, 53 and 54. -/
def Obligations.KernelsAreLaunchedIssuedAndRetired : Prop :=
  ∀ (s : State) (die n : Nat),
    let d := s.die die
    (∀ ws, wordField ws 0 60 4 ≠ 1 →
      (d.launches = true → d.launchQ.length < 64 → recordOk s ws = true →
        ∃ t, exec (.launchRecord die ws) s = .next t ∧ sameMemory s t ∧
          (t.die die).launchQ = d.launchQ ++ [d.nextSeq] ∧ (t.die die).nextSeq = (d.nextSeq + 1) % 2 ^ 64 ∧
          (t.die die).kernels = d.kernels ++ [{ seq := d.nextSeq, words := ws }]) ∧
      (d.launches = false ∨ 64 ≤ d.launchQ.length ∨ recordOk s ws = false →
        exec (.launchRecord die ws) s = .next s)) ∧
    (∀ rest, d.launchQ = n :: rest → d.queuedGraph n = true → d.entries < 256 → ∃ t, exec (.scoreboardTake die) s = .next t ∧
      sameMemory s t ∧ (t.die die).launchQ = rest ∧ ∀ g, d.graph n = some g →
        (t.die die).graph n = some { g with queued := false }) ∧
    (∀ rest, d.launchQ = n :: rest → 256 ≤ d.entries →
      d.queuedGraph n = true ∨ kernelIs s die n .queued → exec (.scoreboardTake die) s = .next s) ∧
    (∀ rest z, d.launchQ = n :: rest → d.queuedGraph n = false → d.kernel n = some z → z.st = .queued → d.entries < 256 →
      streamsWait s z = true → exec (.scoreboardTake die) s = .next s) ∧
    (∀ rest z, d.launchQ = n :: rest → d.queuedGraph n = false → d.kernel n = some z → z.st = .queued → d.entries < 256 →
      streamsWait s z = false →
      (∀ ts, streamPages s z = some ts → ∃ t, exec (.scoreboardTake die) s = .next t ∧ (t.die die).launchQ = rest ∧
        (t.die die).kernel n = some { z with st := .waiting, held := ts.map fun t => t.1.leaf }) ∧
      (streamPages s z = none → ∃ t, exec (.scoreboardTake die) s = .next t ∧ (t.die die).launchQ = rest ∧
        kernelIs t die n .failed)) ∧
    (∀ z, d.kernel n = some z →
      (∀ chs, kernelReady s z = true → heldBack s d z = false → (s.ctx z.ctxId).st = .ready →
        (s.ctx z.ctxId).kernel = none → chairsFree s z = true → choiceOk s z die chs = true →
        ∃ t, exec (.kernelIssue die n chs) s = .next t ∧ sameMem s t ∧ kernelIs t die n .issuing ∧
          (t.ctx z.ctxId).kernel = some (die, n) ∧ (t.ctx z.ctxId).chairs = (s.ctx z.ctxId).chairs ++ chs ∧
          ∀ i, i < chs.length → let x := t.chair (chs.getD i 0)
            x.ctx = some z.ctxId ∧ x.idx = i ∧ x.st = .idle ∧ x.gf.pc = (s.ctx z.ctxId).entry ∧
              x.gf.isram = (s.ctx z.ctxId).code ∧ (∀ r, x.gf.reg r = 0) ∧
              x.tenant = (s.chair (chs.getD i 0)).tenant ∧ x.clock = (s.chair (chs.getD i 0)).clock ∧
              ∀ c, c < 16 → (x.core c).f.frank = .ofNat 10 (s.ctx z.ctxId).rank) ∧
      (z.st = .issuing → (s.ctx z.ctxId).st = .ready → (∀ i ∈ atomsOf z.arg z.argLen, s.mem.damaged i = false) →
        ∃ t, exec (.argumentBlockLoaded die n) s = .next t ∧ sameMemory s t ∧ kernelIs t die n .running ∧
          (t.ctx z.ctxId).st = .running ∧ ∀ ch ∈ (s.ctx z.ctxId).chairs, (t.chair ch).st = .run ∧
            ∀ i, SMap.get 0 (t.chair ch).gf.dsram i = if i < z.argLen then s.mem.byte (z.arg + i) else 0) ∧
      (z.st = .running → (s.ctx z.ctxId).st = .running → (s.ctx z.ctxId).kernel = some (die, n) →
        allExited s z.ctxId = true → ∃ t, exec (.kernelRetire die n) s = .next t ∧ kernelIs t die n .retired ∧
          t.ctx z.ctxId = {} ∧
          ∀ ch, (s.chair ch).ctx = some z.ctxId →
            t.chair ch = { tenant := (s.chair ch).tenant, clock := (s.chair ch).clock }) ∧
      (z.st ≠ .retired → ∃ t, exec (.kernelCancel die n) s = .next t ∧ sameMemory s t ∧ kernelIs t die n .failed ∧
        ((s.ctx z.ctxId).kernel = some (die, n) →
          ∀ ch, (s.chair ch).ctx = some z.ctxId → (s.chair ch).st ≠ .idle → (t.chair ch).st = .exited)) ∧
      (z.st = .running → z.marked = none → z.minDie < z.groups.length → (∃ e, e < 8 ∧ wanted s (s.die e) z = true) →
        let out (x : Chair) : Prop := x.ctx = some z.ctxId ∧ x.st = .exited ∧ z.groups.getLast? = some (z.group x.idx)
        ∃ t, exec (.dieWithdraw die n) s = .next t ∧ sameMem s t ∧
          ((∀ e ∈ s.chairs, ¬out e.2) → sameMemory s t ∧
            (t.die die).kernel n = some { z with marked := z.groups.getLast? }) ∧
          ∀ ch, out (s.chair ch) → (t.chair ch).ctx = none))

/-- R314, R320, R321, R322: an admitted graph takes the next sequence number and its launch queue's tail, and a refused one is
reported; a ready node acts by its type: a kernel node's record
is WAITING in the scoreboard, a transfer node runs, a decision counts its chosen successor, or readies the while of
a BACK edge, a while runs its body or leaves it, and is done in a graph that has failed, a condition word that is lost fails
the graph, and the sink writes the completion record, where its atom is HOME or VACANT, and ends the graph.  A transfer node's
end makes it done, or fails the graph, once the die's transfer engines serve its tenant; cancelling stops what has not begun.
It rests on the model's choices of assumptions 10, 11, 50, 55, 56 and 75. -/
def Obligations.GraphsRunTheirNodes : Prop :=
  ∀ (s : State) (die gn i : Nat),
    let d := s.die die
    (∀ ws, d.launches = true → d.launchQ.length < 64 → graphOk s ws = true →
      ∃ t, exec (.graphLaunch die ws) s = .next t ∧ sameMemory s t ∧ (t.die die).nextSeq = (d.nextSeq + 1) % 2 ^ 64 ∧
        (t.die die).launchQ = d.launchQ ++ [d.nextSeq] ∧
        ∃ g, (t.die die).graphs = d.graphs ++ [g] ∧ g.seq = d.nextSeq ∧ g.queued = true ∧ g.finished = false ∧
          g.nodes.length = wordField ws 0 0 12 + 1 ∧ ∀ e ∈ g.nodes, e.2.st = .idle ∧ e.2.count = 0) ∧
    (∀ ws, d.launches = false ∨ 64 ≤ d.launchQ.length ∨ graphOk s ws = false →
      exec (.graphLaunch die ws) s = .next (s.setDie die { d with refusals := d.refusals + 1 })) ∧
    (∀ ws, wordField ws 0 60 4 = 1 → exec (.launchRecord die ws) s = exec (.graphLaunch die ws) s) ∧
    (∀ g, d.graph gn = some g → g.ready i = true → i < g.nodes.length → g.finished = false →
      let x := g.node i
      let a := wordField x.words 2 0 64
      let v := s.mem.word a
      let plain := s.ganged a = false ∧ rangeInMem a 8 = true ∧ s.mem.damaged (a / 32) = false ∧ graphCtx s g = none
      let lost := s.ganged a = false ∧ s.mem.damaged (a / 32) = true
      let acts (e : State → Graph → Prop) : Prop := ∃ t h, exec (.nodeReady die gn i) s = .next t ∧
        (t.die die).graph gn = some h ∧ e t h
      (x.typ = 0 → d.entries < 256 → s.gangedIn a 64 = false →
        streamsWait s { seq := 0, words := recordAt s a } = false → acts fun t h => (h.node i).ran = true ∧ (t.die die).nextSeq = (d.nextSeq + 1) % 2 ^ 64 ∧
        (t.die die).kernels.length = d.kernels.length + 1) ∧
      (x.typ = 1 → d.entries < 256 → acts fun t h => sameMemory s t ∧ (h.node i).st = .running ∧ (h.node i).ran = true) ∧
      let takes (e : Bool × Nat) : Prop := acts fun t h => sameMemory s t ∧ (h.node i).ran = true ∧
        (e.1 = false → (g.node e.2).count < (h.node e.2).count) ∧
        (e.1 = true → g.halted = false → g.nodes.map (·.1) = List.range g.nodes.length →
          (∃ q, q < g.nodes.length ∧ q ≠ e.2 ∧ (g.node q).st = .done ∧ e.2 ∈ (g.node q).forward) →
          (h.node e.2).st = .idle ∧ (h.node e.2).again = true)
      (x.typ = 2 → plain → takes (x.succ (if v ≠ 0 then 0 else 1))) ∧
      (x.typ = 3 → plain → v ≠ 0 → g.halted = false → acts fun t h => sameMemory s t ∧
        (h.node (x.succ 0).2).again = true) ∧
      (x.typ = 3 → plain → v ≠ 0 → g.halted = true → acts fun t h => sameMemory s t ∧ (h.node i).st = .done ∧
        ∀ e ∈ x.succs, e.1 = false → (g.node e.2).count < (h.node e.2).count) ∧
      (x.typ = 3 → plain → v = 0 → acts fun t h => sameMemory s t ∧ let e := x.succ 1
        (e.1 = false → (g.node e.2).count < (h.node e.2).count) ∧
        (e.1 = true → g.halted = false → (h.node e.2).st = .idle ∧ (h.node e.2).again = true)) ∧
      (x.typ = 4 → plain → takes (x.succ (if v.toNat < x.nsucc - 1 then v.toNat else x.nsucc - 1))) ∧
      (x.typ = 2 ∨ x.typ = 3 ∨ x.typ = 4 → lost → g.halted = false → acts fun t h => h.failed = some (i, 0) ∧
        ∀ j, t.mem.atom j = if j = a / 32 then .poison else s.mem.atom j) ∧
      (x.typ = 5 → s.ganged a = false → a % 32 = 0 → acts fun t h => h.finished = true ∧
        h.irq = some (wordField x.words 0 0 16) ∧
        let status := if g.failed.isSome then 1 else if g.cancelled then 2 else 0
        let f := g.failed.getD (0, 0)
        (s.mem.bad (a / 32) = false → s.mem.atom (a / 32) = .home ∨ s.mem.atom (a / 32) = .vacant →
          t.mem.atom (a / 32) = .home ∧ leNat (t.mem.getBytes a 32) = (status + 2 ^ 56 * f.2 + 2 ^ 68 * f.1 +
            2 ^ 128 * (h.nodes.filter fun e => e.2.ran).length + 2 ^ 192 * g.seq) % 2 ^ 256) ∧
        (s.mem.bad (a / 32) = false → s.mem.atom (a / 32) = .poison ∨ s.mem.atom (a / 32) = .replica →
          t.mem.atom (a / 32) = s.mem.atom (a / 32) ∧ t.mem.atomBytes (a / 32) = s.mem.atomBytes (a / 32)) ∧
        (s.mem.bad (a / 32) = true → t.mem.atom (a / 32) = .poison))) ∧
    (∀ g, d.graph gn = some g → g.served s die = false → exec (.transferNodeComplete die gn i) s = .next s) ∧
    (∀ g, d.graph gn = some g → (g.node i).st = .running → (g.node i).typ = 1 → (∀ e ∈ (g.node i).succs, e.2 ≠ i) →
      g.served s die = true →
      let w := wordField (g.node i).words
      let held := rangeInMem (w 2 0 64) (w 0 0 32) = true ∧ rangeInMem (w 3 0 64) (w 0 0 32) = true
      (¬held → ∃ t h, exec (.transferNodeComplete die gn i) s = .next t ∧ sameMemory s t ∧ (t.die die).graph gn = some h ∧
        (g.halted = false → h.failed = some (i, 0))) ∧
      (∀ u, held → nodePairs (w 0 32 4 == 1) (w 2 0 64) (w 3 0 64) (w 0 0 32 / 32) s = (none, u) →
        ∃ t h, exec (.transferNodeComplete die gn i) s = .next t ∧ t.mem = u.mem ∧ (t.die die).graph gn = some h ∧
          (h.node i).st = .done ∧ h.failed = g.failed) ∧
      (∀ e u, held → nodePairs (w 0 32 4 == 1) (w 2 0 64) (w 3 0 64) (w 0 0 32 / 32) s = (some e, u) → e ≠ .wait →
        ∃ t h, exec (.transferNodeComplete die gn i) s = .next t ∧ t.mem = u.mem ∧ (t.die die).graph gn = some h ∧
          (g.halted = false → h.failed = some (i, 0)))) ∧
    (∀ g, d.graph gn = some g →
      (g.halted = false → g.finished = false → ∃ t h, exec (.graphCancel die gn) s = .next t ∧ sameMemory s t ∧
        (t.die die).graph gn = some h ∧ h.cancelled = true ∧ h.finished = false) ∧
      (g.halted = true ∨ g.finished = true → exec (.graphCancel die gn) s = .next s))

/-! ## Pages, links and the die controllers -/

namespace Sys2Proof.Claims

/-- A leaf's page as it stands: its record, where that fits the leaf (R208). -/
def pageOf (s : State) (leaf : Nat) : Page := s.page (trOf s leaf)

/-- The record that is kept of a leaf's page, and its place and size. -/
def recordOf (s : State) (leaf : Nat) : Page := SMap.get {} s.pages leaf
def frameAt (s : State) (leaf : Nat) : Nat := ptePfn (s.mem.word leaf) * 4096
def sizeAt (s : State) (leaf : Nat) : Nat := (trOf s leaf).physSize

/-- The leaf is a word of memory that lies outside a range. -/
def leafSound (s : State) (leaf lo n : Nat) : Prop :=
  leaf % 8 = 0 ∧ s.mem.atomAt leaf = .home ∧ (leaf + 8 ≤ lo / 32 * 32 ∨ lo / 32 * 32 + n + 32 ≤ leaf)

/-- The atoms of a range stand, each with its state and bytes, at another place of another space. -/
def movedTo (m w : Space) (lo n dest : Nat) : Prop :=
  ∀ j, j < n / 32 → w.atom (dest / 32 + j) = m.atom (lo / 32 + j) ∧
    w.atomBytes (dest / 32 + j) = m.atomBytes (lo / 32 + j)

/-- A range of memory is VACANT. -/
def emptied (w : Space) (lo n : Nat) : Prop := ∀ j, j < n / 32 → w.atom (lo / 32 + j) = .vacant

/-- Two ranges have no byte in common. -/
def disjoint (a n b m : Nat) : Prop := a + n ≤ b ∨ b + m ≤ a

/-- A frame and a size that pages have: whole multiples of 4 KiB. -/
def paged (a n : Nat) : Prop := a % 4096 = 0 ∧ n % 4096 = 0

/-- After a step the dies whose links have all ended their training, and which wait for nothing else, are READY, and no other
die has changed (R352). -/
def readied (s t : State) : Prop := ∀ e, e < 8 → t.die e =
  if (s.die e).stage = 4 ∧ (s.die e).stuck = false ∧ (∀ l ∈ trainedBy t e, linkTrained t l = true)
  then { s.die e with stage := 5, ready := true } else s.die e

end Sys2Proof.Claims

/-- R205, R207, R208, R210, R211, R216, R218, R333: an epoch's end starts the migration of a page that one other die
dominates, where that die has a free frame; a window's end gives the budget back and clears SETTLED; a stack short of frames demotes its least used page; a
migration, a departure and an arrival end with every atom, and its state, at the new place and the old one VACANT, and the
leaf naming it; a failed write leaves the page RESIDENT; remap writes a leaf that R333 admits, a pinned page's only where it
keeps its home; and the scrubber makes a bad atom POISON for its owner, and without one frees its whole frame or line.
It rests on the model's choices of assumptions 10 (a leaf in a ganged pseudo-channel), 33 (the place of a scratchpad in a loss
record), 51, 57, 58, 59 (the links that a page moves by) and 75 (whose arrivals need a turn). -/
def Obligations.PagesMoveAndAtomsAreScrubbed : Prop :=
  ∀ (s : State) (leaf frame : Nat), s.wf = true →
    let p := pageOf s leaf
    let lo := frameAt s leaf
    let n := sizeAt s leaf
    (4096 ≤ p.epoch → s.ganged leaf = false →
      let restarts : Prop := ∃ t, exec (.epochEnd leaf frame) s = .next t ∧ sameMemory s t ∧
        recordOf t leaf = { p with epoch := 0, dies := [] }
      (∀ d, d < 8 → d ≠ homeDie lo → 3072 ≤ SMap.get 0 p.dies d → (∀ e, e ≠ d → SMap.get 0 p.dies e < 3072) →
        let target := if homeDie frame = d ∧ frameOk s frame n = true then some frame else freeFrame s d n
        (∀ f, movable s (trOf s leaf) p = true → target = some f →
          ∃ t, exec (.epochEnd leaf frame) s = .next t ∧ (recordOf t leaf).st = .migrating ∧
            (recordOf t leaf).target = f ∧ (recordOf t leaf).used = p.used + 1 ∧ (recordOf t leaf).epoch = 0) ∧
        (movable s (trOf s leaf) p = false ∨ target = none → restarts)) ∧
      ((∀ d, d < 8 → d ≠ homeDie lo → SMap.get 0 p.dies d < 3072) → restarts)) ∧
    (s.ganged leaf = true → exec (.epochEnd leaf frame) s = .next s ∧ exec (.windowEnd leaf) s = .next s) ∧
    (65536 ≤ p.window → s.ganged leaf = false → ∃ t, exec (.windowEnd leaf) s = .next t ∧
      recordOf t leaf = { p with window := 0, epoch := 0, dies := [], used := 0 } ∧
      (leaf % 8 = 0 → s.mem.atomAt leaf = .home → (t.mem.word leaf).getLsbD 60 = false)) ∧
    (∀ die host, let d := s.die die
      let low := d.flow.toNat % 2 ^ 32
      let high := d.flow.toNat / 2 ^ 32
      (high ≤ freeFrames s die → ∃ t, exec (.freeFramesLow die leaf host frame) s = .next t ∧ sameMemory s t ∧
        t.die die = { d with demoting := false }) ∧
      let q := pageRec s leaf
      (freeFrames s die < high → d.demoting = true ∨ freeFrames s die < low → leaf ∈ pageLeaves s →
        demotable s die leaf = true → (∀ e ∈ pageLeaves s, demotable s die e = true → host = true ∨ streamHeld s e = false →
          q.window ≤ (pageRec s e).window) →
        s.ganged leaf = false → frame % n = 0 → claimed s (!host) frame n = false →
        (host = true → inHost frame && inHost (frame + n - 1) && emptyIn s.mem frame n) →
        (host = false → frame + n ≤ 2 ^ 43 ∧ streamHeld s leaf = false) →
        ∃ t, exec (.freeFramesLow die leaf host frame) s = .next t ∧ (t.die die).demoting = true ∧
          (recordOf t leaf).st = (if host then .migrating else .departing) ∧ (recordOf t leaf).target = frame ∧
          (recordOf t leaf).used = q.used + 1)) ∧
    (p.st = .migrating → s.ganged leaf = false → s.gangedIn lo n = false → s.gangedIn p.target n = false →
      s.reaches (homeDie lo) p.target = true → paged lo n → paged p.target n →
      leafSound s leaf lo n → leafSound s leaf p.target n →
      ∃ t, exec (.migrationComplete leaf) s = .next t ∧ (recordOf t leaf).st = .resident ∧
        movedTo s.mem t.mem lo n p.target ∧ (disjoint lo n p.target n → emptied t.mem lo n) ∧
        t.mem.word leaf = pteBit (pteMove (s.mem.word leaf) (if inStack p.target then 0 else 1) (p.target / 4096)) 7
          false) ∧
    (p.st = .departing → s.ganged leaf = false → s.gangedIn lo n = false → streamHeld s leaf = false →
      deepReach s (homeDie lo) p.target = true → paged lo n → paged p.target n → leafSound s leaf lo n →
      ∃ t, exec (.deepWriteCommit leaf) s = .next t ∧ (recordOf t leaf).st = .deep ∧
        movedTo s.mem t.deep lo n p.target ∧ emptied t.mem lo n ∧
        t.mem.word leaf = pteBit (pteMove (s.mem.word leaf) 2 (p.target / 4096)) 7 true) ∧
    (p.st = .departing → s.ganged leaf = false → ∃ t, exec (.deepWriteFail leaf) s = .next t ∧ (recordOf t leaf).st = .resident ∧
      (t.die (homeDie lo)).errlog = (s.die (homeDie lo)).errlog + 1) ∧
    (p.st = .arriving → arrivalDie s p.asker n = some (homeDie frame) → frameOk s frame n = true →
      s.ganged leaf = false → s.gangedIn frame n = false → deepReach s (homeDie frame) lo = true →
      xferServed s leaf = true → paged lo n → paged frame n → leafSound s leaf frame n →
      ∃ t, exec (.arrivalComplete leaf frame []) s = .next t ∧ (recordOf t leaf).st = .resident ∧
        movedTo s.deep t.mem lo n frame ∧ emptied t.deep lo n ∧
        t.mem.word leaf = pteBit (pteMove (s.mem.word leaf) 0 (frame / 4096)) 7 false) ∧
    (∀ k va pte x, (s.ctx k).st ≠ .free → walk s k va = some x →
      (remapOk x.pte pte = false → exec (.remap k va pte) s = .next s) ∧
      (remapOk x.pte pte = true → (s.page x).st = .resident ∨ (s.page x).st = .deep → (s.page x).holds = 0 →
        s.ganged x.leaf = false → walkWaits s k va = false →
        (sameHome x.pte pte = false → pinnedAt s x = true → exec (.remap k va pte) s = .next s) ∧
        (sameHome x.pte pte = true ∨ pinnedAt s x = false → ∃ t, exec (.remap k va pte) s = .next t ∧
          (x.leaf % 8 = 0 → s.mem.atomAt x.leaf = .home → t.mem.word x.leaf = pte)))) ∧
    (∀ pa bad, inStack pa = true → s.ganged pa = false → (bad = true ∨ s.mem.bad (pa / 32) = true) →
      (s.mem.atom (pa / 32) = .home ∨ s.mem.atom (pa / 32) = .replica) →
      (ownerAt s pa = none → ∃ t, exec (.scrub (.stack pa bad)) s = .next t ∧ SMap.get 0 t.frames (pa / 4096) = 0 ∧
        ∀ j, j < 128 → t.mem.atom (pa / 4096 * 128 + j) = .vacant) ∧
      ∀ k, ownerAt s pa = some k → exec (.scrub (.stack pa bad)) s =
        .next (lossRecord k { kind := 0 } pa pa 0 (s.putLoc (.mem pa) .poison []))) ∧
    ∀ ch c off t, off < 0x50000 → ((s.core ch c).spad.atom (off / 32) = .home ∨
        (s.core ch c).spad.atom (off / 32) = .replica) → ((s.core ch c).m.tile t).st = .home →
      let at_ := 2 ^ 63 + (16 * ch + c) * 2 ^ 32 + off
      ((s.chair ch).ctx = none →
        (∃ v, exec (.scrub (.scratchpad ch c off true)) s = .next v ∧
          ∀ j, j < 4 → (v.core ch c).spad.atom (off / 128 * 4 + j) = .vacant) ∧
        (∃ v, exec (.scrub (.tile ch c t true)) s = .next v ∧ (v.core ch c).m.tile t = {}) ∧
        ∃ v, exec (.scrub (.inside ch true)) s = .next v ∧ v.chair ch = { tenant := (s.chair ch).tenant, clock := (s.chair ch).clock }) ∧
      ∀ k, (s.chair ch).ctx = some k →
        exec (.scrub (.scratchpad ch c off true)) s =
          .next (lossRecord k { kind := 0 } at_ at_ 0 (s.putLoc (.sp ch c off) .poison [])) ∧
        (∃ v, exec (.scrub (.tile ch c t true)) s = .next v ∧ ((v.core ch c).m.tile t).st = .poison) ∧
        exec (.scrub (.inside ch true)) s = .next (contextError k 5 {} 0 s)

/-- R294, R308, R309, R312, R352: a link of the package trains, is UP, retries from its first unacknowledged flit, trains again after the eighth
replay and loses what was unacknowledged, and is FAILED after the third failed training;
a die whose links have all ended their training is READY; a receiver takes the next flit only;
a resent loss goes into the fabric again with no count; a stop stops every moving link and every unit, and each link goes on
from its next flit, the units with the last of them.
It rests on the model's choices of assumptions 59, 60 and 62 (which links a die trains, and what READY waits for). -/
def Obligations.LinksTrainRetryStopAndResume : Prop :=
  ∀ (s : State) (l dir seq id : Nat), dir ≤ 1 →
    let x := s.link l
    let d := x.side dir
    (exec (.linkEnable l) s = .next (if linkExists l = true ∧ (x.st = .down ∨ x.st = .failed)
      then s.setLink l { x with st := .training, tries := 0 } else s)) ∧
    (x.st = .training → ∃ t, exec (.trainingSuccess l) s = .next t ∧ sameMemory s t ∧
      t.link l = { st := .up } ∧ (∀ e, e ≠ l → t.link e = s.link e) ∧ readied s t) ∧
    (x.st ≠ .training → exec (.trainingSuccess l) s = .next s ∧ exec (.trainingFailure l) s = .next s) ∧
    (x.st = .training → ∃ t, exec (.trainingFailure l) s = .next t ∧ sameMemory s t ∧
      (x.tries < 2 → t.link l = { x with tries := x.tries + 1 }) ∧
      (2 ≤ x.tries → (t.link l).st = .failed ∧ ∀ e ∈ linkDies l, (t.die e).errlog = (s.die e).errlog + 1)) ∧
    (let replayed (t : State) : Prop := (t.link l).st = .retry ∧ ((t.link l).side dir).replays = d.replays + 1 ∧
        ((t.link l).side dir).sent = d.sent + d.unacked.length ∧
        ((t.link l).side dir).unacked.map (fun f => (f.seq, f.pkt)) = d.unacked.map fun f => (f.seq, f.pkt)
     (x.st = .up ∨ (x.st = .retry ∧ d.replays < 8) → ∃ t, exec (.flitCrcFail l dir) s = .next t ∧ sameMemory s t ∧
       replayed t) ∧
     (x.st = .retry → 8 ≤ d.replays → ∃ t, exec (.flitCrcFail l dir) s = .next t ∧ (t.link l).st = .training ∧
       ∀ p ∈ t.net, p ∈ s.net ∧ ∀ f ∈ d.unacked, f.pkt ≠ p.num) ∧
     (x.st = .up → d.missing = true → ∃ t, exec (.ackMissing l dir) s = .next t ∧ sameMemory s t ∧ replayed t)) ∧
    (x.st = .retry → d.replaying = false → (x.side (1 - dir)).replays = 0 → ∃ t, exec (.replayAcknowledged l dir) s = .next t ∧
      sameMemory s t ∧ (t.link l).st = .up ∧ ((t.link l).side dir).replays = 0) ∧
    (x.moves = true →
      (∀ f, (seq = match d.got with | some g => g + 1 | none => 0) → d.unacked.find? (·.seq = seq) = some f →
        ∃ t, exec (.flitReceived l dir seq) s = .next t ∧ sameMemory s t ∧ ((t.link l).side dir).got = some seq ∧
          ((t.link l).side (1 - dir)).unacked = (x.side (1 - dir)).unacked.filter (fun f => !(x.side (1 - dir)).holds f)) ∧
      ((seq ≠ match d.got with | some g => g + 1 | none => 0) →
        ∃ t, exec (.flitReceived l dir seq) s = .next t ∧ t.net = s.net ∧ ((t.link l).side dir).got = d.got)) ∧
    (∀ q, s.losses.find? (·.id = id) = some q → exec (.lossResend id) s =
      .next { s with losses := s.losses.filter (·.id ≠ id), net := s.net ++ q.pkts }) ∧
    (∃ t, exec .stopRequest s = .next t ∧ sameMemory s t ∧ t.stopped = true ∧ t.net = s.net ∧
      ∀ e, (s.link e).moves = true → (t.link e).st = .stopped) ∧
    (x.st = .stopped → ∃ t, exec (.linkResume l) s = .next t ∧ sameMemory s t ∧
      t.link l = { x with st := .up, fwd := x.fwd.resume, back := x.back.resume } ∧
      ((∀ e ∈ s.links, e.1 ≠ l → e.2.st ≠ .stopped) → SMap.sortedFrom 0 s.links = true → t.stopped = false))

/-- R238, R263, R276, R323, R328, R331, R334, R351, R352, R353: power-on measures the firmware and, where its signature holds,
empties the stack, resets the chairs and trains the links, and stops at a step that fails; else the die is in recovery mode;
a host write to sound memory stores its bytes; temperature slows
the clock, stops launches and asks for pre-emption, and restores; a READY die takes writes of its registers, grants, key
slots, tenants and slot tables, within their limits; and an attestation request leaves a signed report.
It rests on the model's choices of assumptions 8, 61, 62, 63 and 72. -/
def Obligations.DieControllersServeTheHost : Prop :=
  ∀ (s : State) (die n temp : Nat) (bs : List Byte) (val : Word) (ten : Option Nat),
    let d := s.die die
    (∀ sig fails, die < 8 → d.stage = 0 →
      let e := { d with fwm := Config.sha384 bs, stage := 1 }
      let stops (t : State) (k : Nat) : Prop := t.die die = { e with stage := k, stuck := true, errlog := d.errlog + 1 }
      let empty (t : State) : Prop := emptied t.mem (die * Config.stackBytes) Config.stackBytes
      let fresh (t : State) : Prop := ∀ ch, dieOf ch = die → t.chair ch = {}
      let on (f : State → Prop) : Prop := ∃ t, exec (.powerOn die ⟨bs, sig⟩ fails) s = .next t ∧ f t
      (Config.ecdsaValid Config.rootKey (Config.sha384 bs) sig = false → on fun t => sameMemory s t ∧
        t.die die = { e with stuck := true, errlog := d.errlog + 1, recovery := true }) ∧
      (Config.ecdsaValid Config.rootKey (Config.sha384 bs) sig = true →
        (fails = some 2 → on fun t => sameMemory s t ∧ stops t 2) ∧
        (fails = some 3 → on fun t => empty t ∧ stops t 3) ∧
        (fails = some 4 → on fun t => empty t ∧ fresh t ∧ stops t 4) ∧
        (fails = none → on fun t => empty t ∧ fresh t ∧
          (∀ l ∈ trainedBy s die, (t.link l).st = if (s.link l).st = .down then .training else (s.link l).st) ∧
          t.die die = if d.stuck = false ∧ (∀ l ∈ trainedBy t die, linkTrained t l = true)
            then { e with stage := 5, ready := true } else { e with stage := 4 }))) ∧
    (∀ sig fails, d.stage ≠ 0 → exec (.powerOn die ⟨bs, sig⟩ fails) s = .next s) ∧
    (∀ pa b, rangeInMem pa 1 = true → s.gangedIn pa 1 = false → hostWay pa s = true → (inStack pa = true → (s.die (homeDie pa)).ready = true) →
      hostTarget s pa = none → (s.mem.atomAt pa = .home ∨ s.mem.atomAt pa = .vacant) → s.mem.bad (pa / 32) = false →
      ∃ t, exec (.hostWrite pa [b]) s = .next t ∧ t.mem.byte pa = b ∧ t.mem.atomAt pa = .home ∧
        ∀ a, a ≠ pa → t.mem.byte a = s.mem.byte a) ∧
    let asked (t : State) : Prop := ∀ k ∈ ctxsOn s die, ∀ ch, (s.chair ch).ctx = some k → (s.chair ch).hasExited = false →
      (s.chair ch).live ≠ [] → (t.chair ch).req = true
    (840 ≤ temp → temp < 2 ^ 16 → ∃ t, exec (.thermalThrottle die temp) s = .next t ∧ sameMemory s t ∧
      t.die die = { d with therm := .ofNat 16 temp, slow := Nat.min 6 (d.slow + 1), noLaunch := d.noLaunch || decide (920 ≤ temp) } ∧
      (920 ≤ temp → asked t)) ∧
    (920 ≤ temp → temp < 2 ^ 16 → ∃ t, exec (.thermalPreempt die temp) s = .next t ∧ sameMemory s t ∧
      t.die die = { d with therm := .ofNat 16 temp, noLaunch := true } ∧ asked t) ∧
    (temp < 760 → ∃ t, exec (.thermalRestore die temp) s = .next t ∧ sameMemory s t ∧
      t.die die = { d with therm := .ofNat 16 temp, slow := 0, noLaunch := false }) ∧
    (d.serves = true →
      let sets (i : Instr) (e : Die) : Prop := ∃ t, exec i s = .next t ∧ sameMemory s t ∧ t.die die = e
      (val.toNat % 2 ^ 32 < val.toNat / 2 ^ 32 → sets (.mgmtRegisterWrite die 0x00 val []) { d with flow := val }) ∧
      (1 ≤ val.toNat → val.toNat ≤ 65535 →
        sets (.mgmtRegisterWrite die 0x08 val []) { d with scrubn := .ofNat 16 val.toNat }) ∧
      (∀ fs, val.toNat < 2 ^ 32 → val.toNat = d.pooln.toNat + fs.length → poolOk s die fs = true →
        sets (.mgmtRegisterWrite die 0x10 val fs) { d with pooln := .ofNat 32 val.toNat, pool := d.pool ++ fs }) ∧
      (val.toNat < d.pooln.toNat → let back := d.pooln.toNat - val.toNat
        (back ≤ d.pool.length → sets (.mgmtRegisterWrite die 0x10 val []) { d with
          pooln := .ofNat 32 val.toNat, pool := d.pool.take (d.pool.length - back) }) ∧
        (d.pool.length < back → exec (.mgmtRegisterWrite die 0x10 val []) s = .next s)) ∧
      (val.toNat / 2 ^ 32 ≤ val.toNat % 2 ^ 32 → exec (.mgmtRegisterWrite die 0x00 val []) s = .next s) ∧
      (val.toNat = 0 ∨ 65535 < val.toNat → exec (.mgmtRegisterWrite die 0x08 val []) s = .next s) ∧
      (n ≠ 0x00 → n ≠ 0x08 → n ≠ 0x10 → n ≠ 0x18 → exec (.mgmtRegisterWrite die n val []) s = .next s) ∧
      (let pc := val.toNat % 256
       let k := val.toNat / 2 ^ 52
       pc ≤ 191 → val.toNat / 256 % 2 ^ 44 = 0 → (k = 0xFFF → (s.chan (die, pc)).gang = none) →
         ∃ t, exec (.ggrantWrite die val) s = .next t ∧ sameMemory s t ∧ (t.die die).ggrant = val ∧
           t.chan (die, pc) = { s.chan (die, pc) with grant := if k = 0xFFF then none else some k }) ∧
      (n < 16 → (bs = [] ∨ bs.length = 97) → (∀ e ∈ s.ctxs, e.2.st = .loading → e.2.die ≠ die) →
        ∃ t, exec (.keySlotWrite die n bs) s = .next t ∧ sameMemory s t ∧
          ∀ k, (t.die die).key k = if k = n then bs else d.key k) ∧
      (∀ ch, dieOf ch = die → ch < 256 → (∀ t, ten = some t → t < 64) → (s.chair ch).ctx = none →
        ∃ t, exec (.tenantAssign ch ten) s = .next t ∧ sameMemory s t ∧
          t.chair ch = { s.chair ch with tenant := ten }) ∧
      (∀ xfer, n < 64 → (∀ t, ten = some t → t < 64) → (∀ t, tenantRuns s die t = false) →
        ∃ t, exec (.slotTableWrite die xfer n ten) s = .next t ∧ sameMemory s t ∧
          SMap.get 0 (if xfer then (t.die die).xferSlots else (t.die die).stackSlots) n = (ten.map (· + 1)).getD 0) ∧
      (bs.length = 48 → n < 4096 → ∃ t, exec (.attestationRequest die n bs) s = .next t ∧ sameMemory s t ∧
        let r := (t.die die).report
        (t.die die).repSeq = (d.repSeq + 1) % 2 ^ 64 ∧ strNat r 0 4 = 1 ∧ strNat r 4 2 = n ∧
          (r.drop 16).take 48 = leBytes 48 d.fwm.toNat ∧ (r.drop 112).take 48 = bs ∧
          ((s.ctx n).st ≠ .free → (r.drop 64).take 48 = leBytes 48 (s.ctx n).mr.toNat)))

/-! ## The machine as a whole -/

/-- R41, R158, R187, R220, R294, R323, R352: right after reset every atom of memory, of the deep tier and of
every scratchpad is VACANT, every tile is VACANT and every handle FREE, no chair has a tenant, a context or a running
gaffer, every context is FREE, every link is DOWN, no die is READY, and FRM is 0.  That the host tier and the deep tier are VACANT is the
model's choice (assumption 2).  What else the manual gives no reset value, assumption 3 names; this statement says nothing of it. -/
def Obligations.ResetLeavesEveryPlaceVacantAndNoChairAssigned : Prop :=
  (∀ i, State.reset.mem.atom i = .vacant) ∧ (∀ i, State.reset.deep.atom i = .vacant) ∧
  (∀ ch c i, (State.reset.core ch c).spad.atom i = .vacant) ∧
  (∀ ch c t, ((State.reset.core ch c).m.tile t).st = .vacant) ∧
  (∀ ch h, ((State.reset.chair ch).handle h).st = .free) ∧
  (∀ ch, (State.reset.chair ch).tenant = none ∧ (State.reset.chair ch).ctx = none ∧
    (State.reset.chair ch).st = .idle ∧ (State.reset.chair ch).gafferMoves = false) ∧
  (∀ k, (State.reset.ctx k).st = .free) ∧
  (∀ l, (State.reset.link l).st = .down) ∧
  (∀ d, (State.reset.die d).ready = false) ∧
  (∀ ch c, (State.reset.core ch c).x.frm = 0) ∧
  State.reset.wf = true

/-- R15 to R33: words written out bit by bit from the manual's forms decode to the instructions they stand for, with
their literals. -/
def Obligations.WordsWrittenFromTheManualDecode : Prop :=
  decode 0x00000210000C0202 [] = .ok ⟨{}, .vadd 0 3 1 2⟩ ∧
  decode 0x0007040004605000 [0x800] = .ok ⟨{ ssem := 7 }, .move (.toSp 1 0xA00 (.reg 6)) 0 0x800⟩ ∧
  decode 0x000C110382000000 [] = .ok ⟨{ ssem := 0xC, scnt := 1 }, .stq 0 2 0⟩ ∧
  decode 0x0000050634888000 [] = .ok ⟨{}, .nmbmac 17 3 9⟩ ∧
  decode 0x0000060308C20000 [] = .ok ⟨{}, .mrecv 1 2 3⟩ ∧
  decode 0x0000060B202C0000 [] = .ok ⟨{}, .barsem 4 5 1⟩ ∧
  decode 0x0000024F00A00600 [] = .ok ⟨{}, .vfrsum 0 5 3⟩ ∧
  decode 0x000303090021C001 [] = .ok ⟨{ ssem := 3 }, .accwb 0 (.mem 7) 1⟩ ∧
  decode 0x000001321A130000 [] = .ok ⟨{}, .rprobeWait 3 8 9⟩ ∧
  decode 0x0000004800000000 [0x04605000, 0x00070400] = .ok ⟨{}, .emit 0 0x0007040004605000⟩

/-- R15 to R33: the encoder and the decoder are each other's inverse.  Every well-formed instruction that a word performs,
with every clause it admits, is what the decoder reads from its encoding, no operand bit lost; and a word with its
literals that decodes is the encoding of what it decodes to, so no two words with their literals mean the same. -/
def Obligations.EncodingAndDecodingAreInverse : Prop :=
  (∀ d : Decoded, d.instr.engine.isSome = true → wellFormed d.instr = true → clauseOk d.clause d.instr = true →
    decodeUnit (encode d) = .ok d) ∧
  (∀ (w : Word) (lits : List (BitVec 32)) (d : Decoded), decode w lits = .ok d →
    encode d = lits.map (litWord (field 40 4 w)) ++ [w])

/-- The word at a chair's PC. -/
def Claims.wordAt (x : Chair) : Word := SMap.get 0 x.gf.isram x.gf.pc.toNat

/-- A gaffer LIT counts for no stage; every other word is met at its own (R78). -/
def Claims.isLitInstr : Instr → Bool
  | .lit .. => true
  | _ => false

/-- The chair as the gaffer has met its word. -/
def Claims.met (x : Chair) (d : Decoded) : Chair :=
  if Claims.isLitInstr d.instr then x else { x with gf := x.gf.meetStage d.clause.stage }

/-- The gaffer of the chair may issue, and the word at its PC decodes to `d`, which stands where it may and whose stage is
active (R17, R20, R77, R78). -/
def Claims.gafMeets (x : Chair) (d : Decoded) : Prop :=
  x.gafferMoves = true ∧ gafDecode (Claims.wordAt x) x.gf.lits = some d ∧ x.gf.misplaced d = false ∧
    (Claims.isLitInstr d.instr = true ∨ (Claims.met x d).gf.stageOn d.clause.stage = true)

/-- R17, R20, R73, R77, R78, R85: a gaffer turn whose word decodes to `d`, stands where it may and is of an active stage runs
exactly `d` once its chair wait has passed (`z` is the chair with the wait's amounts taken) and the registers it reads have
landed; around it stand the met stage and the passed wait, and nothing else. -/
def Claims.gafferTurnsRunTheDecodedWord : Prop :=
  ∀ (s : State) (ch : Nat) (ts : List Turn) (d : Decoded) (z : Chair),
    s.agenda = .gaffer ch :: ts → s.stopped = false → Claims.gafMeets (s.chair ch) d →
    ((s.chair ch).gf.ds = false ∨ slotForbids d.instr = false) →
    (Claims.met (s.chair ch) d).waitClause d.clause = .pass z →
    z.gf.landed z.cycle d.instr = true → (z.advance.isSome = true ∨ staysPut d.instr = true) →
    step s = exec d.instr
      { (s.setChair ch { z with started := true }) with
        agenda := ts
        act := { chair := ch, w := Claims.wordAt (s.chair ch), lits := (s.chair ch).gf.lits,
                 clause := clauseOf (Claims.wordAt (s.chair ch)) } }

/-- The chair, the gaffer word and its literals as the running word of a state. -/
def Claims.atWord (s : State) (ch : Nat) (ts : List Turn) : State :=
  { s with
    agenda := ts
    act := { chair := ch, w := Claims.wordAt (s.chair ch), lits := (s.chair ch).gf.lits,
             clause := clauseOf (Claims.wordAt (s.chair ch)) } }

/-- R20, R73, R77, R78, R85: the gaffer words that do not run.  A word that decodes to nothing, or stands where it may not, raises
the level G fault of an illegal gaffer instruction (code 0x01); a control word in a delay slot raises code 0x04; a forward
chair wait raises code 0x02; a word of an inactive stage takes its cycle and does nothing else, or faults (code 0x0A) where
control would leave instruction SRAM; a word whose chair wait has not passed, or whose
registers have not landed, waits; and a word that runs is one control can leave, or it faults (code 0x0A).
It rests on the model's choices of assumptions 24 and 27. -/
def Obligations.GafferWordsThatDoNotRun : Prop :=
  ∀ (s : State) (ch : Nat) (ts : List Turn), s.agenda = .gaffer ch :: ts → s.stopped = false →
    (s.chair ch).gafferMoves = true →
    ((∀ d, gafDecode (Claims.wordAt (s.chair ch)) (s.chair ch).gf.lits = some d → (s.chair ch).gf.misplaced d = true) →
      step s = .next (raiseG 0x01 (Claims.atWord s ch ts))) ∧
    (∀ d, gafDecode (Claims.wordAt (s.chair ch)) (s.chair ch).gf.lits = some d → (s.chair ch).gf.misplaced d = false →
      let t := (Claims.atWord s ch ts).setChair ch (Claims.met (s.chair ch) d)
      ((Claims.isLitInstr d.instr = false ∧ (Claims.met (s.chair ch) d).gf.stageOn d.clause.stage = false) →
        step s = .next (if t.here.advance.isNone then raiseG 0x0A t else gafDone t)) ∧
      (Claims.gafMeets (s.chair ch) d →
        ((s.chair ch).gf.ds = true ∧ slotForbids d.instr = true → step s = .next (raiseG 0x04 t)) ∧
        ((s.chair ch).gf.ds = false ∨ slotForbids d.instr = false →
          (t.here.waitClause d.clause = .forward → step s = .next (raiseG 0x02 t)) ∧
          (∀ z, t.here.waitClause d.clause = .wait z → step s = .next (t.setHere z)) ∧
          (∀ z, t.here.waitClause d.clause = .pass z →
            (z.gf.landed z.cycle d.instr = false → step s = .next (t.setHere z)) ∧
            (z.gf.landed z.cycle d.instr = true → z.advance.isNone = true → staysPut d.instr = false →
              step s = .next (raiseG 0x0A (t.setHere z)))))))

/-- A word that R34 admits before a core, behind the LITs `lits` of its engine's queue: a word of ENG 1 to 7, not the third LIT
in a row, which decodes and stands where the Where column of R33 lets it. -/
def Claims.lawfulWord (inStream : Bool) (w : Word) (lits : List (BitVec 32)) : Prop :=
  engOf w ≠ 0 ∧
  if isLit w then lits.length < 2 ∧ ∃ d, decode w [] = .ok d
  else ∃ d, decode w lits = .ok d ∧ match d.instr with
    | .detach .. => inStream = false
    | .join .. | .jmps .. | .brs .. | .cexit => inStream = true
    | _ => True

/-- R34, R35, R63: a core's turn to take a ring word, or to fetch a word of its stream, runs with the legality of exactly the
word it takes: O42 says what the core then does. -/
def Claims.takingTurnsCheckTheirWord : Prop :=
  ∀ (s : State) (ch c : Nat) (ts : List Turn) (w : Word), s.stopped = false →
    let y := s.core ch c
    (s.agenda = .event (.ringTake ch c) :: ts → (SMap.get {} (s.chair ch).ring (y.pos.toNat % 256)).item = .word w →
      ∃ a : Act, step s = exec (.ringTake ch c) { s with agenda := ts, act := a } ∧
        (a.lawful = true ↔ Claims.lawfulWord false w (tailLits (y.queue (engOf w))))) ∧
    (∀ x, s.agenda = .event (.streamFetch ch c) :: ts → walk s (s.ctxOf ch) y.spc = some x →
      s.mem.word (x.pa y.spc) = w →
      ∃ a : Act, step s = exec (.streamFetch ch c) { s with agenda := ts, act := a } ∧
        (a.lawful = true ↔ Claims.lawfulWord true w (tailLits (y.queue (engOf w)))))

/-- R13, R16, R19, R63, R94, R113, R139: an engine's turn runs exactly the instruction that its head word with the LITs before it
decodes to, once the word may start in this cycle and its wait has passed (`z` is the chair with the wait's
amount taken); a core's turn on a fetched control word does the same with that word; and an event that no word performs
runs as itself. -/
def Claims.engineControlAndEventTurnsRunTheirInstruction : Prop :=
  (∀ (s : State) (ch c e : Nat) (ts : List Turn) (lits : List (BitVec 32)) (q : QWord) (rest : List QWord) (d : Decoded)
      (z : Chair),
    s.agenda = .engine ch c e :: ts → s.stopped = false → (s.chair ch).open_ = true → 1 ≤ e → e ≤ 7 →
    headUnit ((s.core ch c).queue e) = some (lits, q, rest) →
    (s.core ch c).mayStart e (s.chair ch).cycle q = true →
    (s.chair ch).engineWait c e (clauseOf q.w) = (true, z) → decode q.w lits = .ok d →
    (e = 1 → (z.core c).a.skip = 0 ∧ (z.core c).a.landed d.instr = true) →
    step s = exec d.instr { (s.setChair ch z) with
      agenda := ts
      act := { chair := ch, core := c, eng := e, clause := clauseOf q.w, prov := q.prov, lis := q.lis, w := q.w,
               lits := lits, n := q.n } }) ∧
  (∀ (s : State) (ch c : Nat) (ts : List Turn) (q : QWord) (d : Decoded) (z : Chair),
    s.agenda = .control ch c :: ts → s.stopped = false → (s.chair ch).open_ = true → (s.core ch c).buf = some q →
    (s.chair ch).engineWait c 8 (clauseOf q.w) = (true, z) → decode q.w [] = .ok d →
    step s = exec d.instr { (s.setChair ch z) with
      agenda := ts
      act := { chair := ch, core := c, clause := clauseOf q.w, prov := q.prov, lis := q.lis, w := q.w, n := q.n } }) ∧
  (∀ (s : State) (i : Instr) (ts : List Turn), s.agenda = .event i :: ts →
    (s.stopped = false ∨ whileStopped i = true) → i.engine = none →
    ∃ a : Act, step s = exec i { s with agenda := ts, act := a })

/-- R13, R16, R17, R19, R20, R34, R35, R63, R73, R77, R78, R85, R113, R139: a step runs the instruction it decodes: the gaffer's
word at PC, the head word of an engine's queue, a fetched control word, or the event itself; and a core's turn to take or to
fetch a word runs with that word's legality.
It rests on the model's choices of assumptions 1, 24, 27, 34 and 64. -/
def Obligations.StepRunsTheDecodedInstruction : Prop :=
  Claims.gafferTurnsRunTheDecodedWord ∧ Claims.engineControlAndEventTurnsRunTheirInstruction ∧
    Claims.takingTurnsCheckTheirWord

/-- Every step goes on: whatever the state, a step answers a next state.  The manual has no event that stops the package as a
whole: a fault halts a chair, kills a context or stops a die, and all these are next states.
It rests on the model's choices of assumption 6. -/
def Obligations.EveryStepGoesOn : Prop := ∀ s : State, ∃ t : State, step s = .next t

/-- Every step keeps memory and the deep tier in their canonical form, from any state, whichever turn is taken: nothing that
a word, an event, a packet, a transfer or a page move does leaves a place listed twice or listed at what it reads as
unlisted. -/
def Obligations.EveryStepKeepsMemoryCanonical : Prop :=
  ∀ s t : State, s.wf = true → step s = .next t → t.wf = true

/-- How far apart two finite values are: a magnitude and its exponent. -/
def Claims.gap : FVal → FVal → Nat × Int
  | .fin n1 m1 e1, .fin n2 m2 e2 => ((addFin n1 m1 e1 (!n2) m2 e2).1.natAbs, (addFin n1 m1 e1 (!n2) m2 e2).2)
  | _, _ => (0, 0)

/-- One magnitude is at most another. -/
def Claims.atMost (x y : Nat × Int) : Prop :=
  let e := if x.2 ≤ y.2 then x.2 else y.2
  x.1 * 2 ^ (x.2 - e).toNat ≤ y.1 * 2 ^ (y.2 - e).toNat

/-- A value is finite. -/
def Claims.finite : FVal → Bool
  | .fin .. => true
  | _ => false

/-- The result is a finite value of the exact value's sign and of no greater magnitude, and no such value of the format is
nearer. -/
def Claims.towardZero (f : FFmt) (neg : Bool) (m : Nat) (e : Int) (r : Nat) : Prop :=
  ∃ m' e', unpack f r = .fin neg m' e' ∧ Claims.atMost (m', e') (m, e) ∧
    ∀ p, p < 2 ^ f.width → ∀ k q, unpack f p = .fin neg k q → Claims.atMost (k, q) (m, e) → Claims.atMost (k, q) (m', e')

/-- The result is a value of the exact value's sign and of no smaller magnitude, an infinity where the format has no such
finite value, and no such value of the format is nearer. -/
def Claims.fromZero (f : FFmt) (neg : Bool) (m : Nat) (e : Int) (r : Nat) : Prop :=
  (unpack f r = .inf neg ∧
    ∀ p, p < 2 ^ f.width → ∀ k q, unpack f p = .fin neg k q → ¬ Claims.atMost (m, e) (k, q)) ∨
  ∃ m' e', unpack f r = .fin neg m' e' ∧ Claims.atMost (m, e) (m', e') ∧
    ∀ p, p < 2 ^ f.width → ∀ k q, unpack f p = .fin neg k q → Claims.atMost (m, e) (k, q) → Claims.atMost (m', e') (k, q)

/-- A part `x` of a step `u` of the format, with `d` 1,024ths of the step added, makes a whole step. -/
def Claims.carries (x u : Nat × Int) (d : Nat) : Prop :=
  let e := if x.2 ≤ u.2 then x.2 else u.2
  1024 * (x.1 * 2 ^ (x.2 - e).toNat) + d * (u.1 * 2 ^ (u.2 - e).toNat) ≥ 1024 * (u.1 * 2 ^ (u.2 - e).toNat)

/-- R41, R54: rounding is what the mode names, for each of the five modes and for FP32, BF16 and FP16.  Under RNE and no
overflow, no finite value of the format is nearer to the exact value than the result, and one as near differs from it only if
the result's last bit is zero.  RTZ goes toward zero: the result is no larger in magnitude than the exact value, and no finite
value of the format of its sign lies between them.  RDN goes toward −∞ and RUP toward +∞, which is toward zero for one sign
and from zero for the other, up to an infinity.  DITH with the dither value D goes from the value toward zero to the next one
exactly where the part discarded and D 1,024ths of the step between the two make a whole step. -/
def Obligations.RoundingPicksTheValueItsModeNames : Prop :=
  ∀ f, f = fp32 ∨ f = bf16 ∨ f = fp16 → ∀ (neg : Bool) (m : Nat) (e : Int),
    (∀ r fl, roundTo f .rne neg m e = (r, fl) → fl &&& flOF = 0 →
      Claims.finite (unpack f r) = true ∧
      ∀ p, p < 2 ^ f.width → Claims.finite (unpack f p) = true →
        Claims.atMost (Claims.gap (unpack f r) (.fin neg m e)) (Claims.gap (unpack f p) (.fin neg m e)) ∧
        (Claims.atMost (Claims.gap (unpack f p) (.fin neg m e)) (Claims.gap (unpack f r) (.fin neg m e)) →
          (Claims.gap (unpack f p) (unpack f r)).1 = 0 ∨ r % 2 = 0)) ∧
    (∀ r fl, roundTo f .rtz neg m e = (r, fl) → Claims.towardZero f neg m e r) ∧
    (∀ r fl, roundTo f .rdn neg m e = (r, fl) →
      if neg then Claims.fromZero f neg m e r else Claims.towardZero f neg m e r) ∧
    (∀ r fl, roundTo f .rup neg m e = (r, fl) →
      if neg then Claims.towardZero f neg m e r else Claims.fromZero f neg m e r) ∧
    (∀ d r fl lo gl, d < 1024 → roundTo f (.dith d) neg m e = (r, fl) → roundTo f .rtz neg m e = (lo, gl) →
      (fl &&& flOF = 0 → r = lo ∨ r = lo + 1) ∧
      (Claims.finite (unpack f (lo + 1)) = true →
        (r = lo + 1 ↔ Claims.carries (Claims.gap (unpack f lo) (.fin neg m e))
          (Claims.gap (unpack f (lo + 1)) (unpack f lo)) d)))

/-- R281: an arrival adds its amount to COUNT, as one event at the home.  A COUNT that reaches TARGET goes back to 0, GEN goes
on by one modulo 2^32 and PHASE flips, one generation whatever the amount; else COUNT is the sum.  The other fields of the
word, and the atom's state, are as before. -/
def Obligations.ArrivalsCompleteAtMostOneGeneration : Prop :=
  ∀ (s : State) (pa a : Nat), pa % 16 = 0 → s.mem.atomAt pa = .home →
    let w := s.barWord pa
    let u := (arriveAt pa a s).barWord pa
    (bwCount w + a ≥ bwTarget w → bwCount u = 0 ∧ field 32 32 u = field 32 32 w + 1 ∧ bwPhase u = !bwPhase w) ∧
    (bwCount w + a < bwTarget w → bwCount u = bwCount w + a ∧ field 32 32 u = field 32 32 w ∧ bwPhase u = bwPhase w) ∧
    bwTarget u = bwTarget w ∧ field 0 31 u = field 0 31 w ∧ (arriveAt pa a s).mem.atomAt pa = .home

/-- R38: the fields of a floating-point format.  The sign is the top bit, the exponent has its width and bias, and the
fraction the rest: a pattern with a normal exponent is (1 + fraction) at that power of two; the largest finite value and
the smallest normal one are the patterns named; and a NaN is quiet when the top fraction bit is 1. -/
def Obligations.FloatFormatsHaveTheirFields : Prop :=
  (∀ (f : FFmt) (eb fb bias top low : Nat),
    (f, eb, fb, bias, top, low) ∈ [(fp32, 8, 23, 127, 0x7F7FFFFF, 0x00800000), (bf16, 8, 7, 127, 0x7F7F, 0x0080),
      (fp16, 5, 10, 15, 0x7BFF, 0x0400)] →
    f.bias = bias ∧
    (∀ (neg : Bool) (ex frac : Nat), frac < 2 ^ fb → 0 < ex → ex < 2 ^ eb - 1 →
      unpack f ((if neg then 2 ^ (eb + fb) else 0) + ex * 2 ^ fb + frac) =
        .fin neg (2 ^ fb + frac) ((ex : Int) - bias - fb)) ∧
    (∀ (neg : Bool) (frac : Nat), 0 < frac → frac < 2 ^ fb →
      unpack f ((if neg then 2 ^ (eb + fb) else 0) + (2 ^ eb - 1) * 2 ^ fb + frac) =
        .nan (!(frac / 2 ^ (fb - 1) % 2 == 1))) ∧
    unpack f top = .fin false (2 ^ (fb + 1) - 1) (bias - fb) ∧
    unpack f low = .fin false (2 ^ fb) (1 - (bias : Int) - fb) ∧
    (∀ p, p < 2 ^ (eb + fb) → Claims.finite (unpack f p) = true → p ≤ top))
end

