-- ==== Sys2Proof/Laws/Maps.lean ====
section
/-!
SUPPORT. The laws of the sparse maps: reading after writing, and the canonical form.
-/

namespace Sys2Proof.SMap

variable {α : Type}

@[simp] theorem get_nil (d : α) (k : Nat) : get d ([] : SMap α) k = d := rfl

theorem get_cons (d : α) (j : Nat) (v : α) (m : SMap α) (k : Nat) :
    get d ((j, v) :: m) k = if k = j then v else get d m k := rfl

/-- Below the first key nothing is listed. -/
theorem get_below {d : α} {m : SMap α} {lo k : Nat} (h : sortedFrom lo m = true) (hk : k < lo) :
    get d m k = d := by
  induction m generalizing lo with
  | nil => rfl
  | cons e m ih =>
    obtain ⟨j, v⟩ := e
    simp only [sortedFrom, Bool.and_eq_true, decide_eq_true_eq] at h
    rw [get_cons, if_neg (by omega), ih h.2 (by omega)]

@[simp] theorem get_ins_self (d : α) (m : SMap α) (k : Nat) (v : α) : get d (ins m k v) k = v := by
  induction m with
  | nil => simp [ins, get_cons]
  | cons e m ih =>
    obtain ⟨j, w⟩ := e
    simp only [ins]
    split
    · simp [get_cons]
    · split
      · simp [get_cons]
      · rw [get_cons, if_neg ‹_›, ih]

@[simp] theorem get_ins_ne (d : α) (m : SMap α) {k j : Nat} (v : α) (h : j ≠ k) :
    get d (ins m k v) j = get d m j := by
  induction m with
  | nil => simp [ins, get_cons, h]
  | cons e m ih =>
    obtain ⟨i, w⟩ := e
    simp only [ins]
    split
    · rw [get_cons, if_neg h]
    · split
      · rename_i hk
        rw [get_cons, get_cons, if_neg h, if_neg (hk ▸ h)]
      · rw [get_cons, get_cons, ih]

theorem get_ins (d : α) (m : SMap α) (k j : Nat) (v : α) :
    get d (ins m k v) j = if j = k then v else get d m j := by
  by_cases h : j = k
  · subst h; simp
  · simp [h]

@[simp] theorem get_del_self (d : α) (m : SMap α) (k : Nat) : get d (del m k) k = d := by
  induction m with
  | nil => rfl
  | cons e m ih =>
    obtain ⟨j, v⟩ := e
    simp only [del]
    split
    · exact ih
    · rw [get_cons, if_neg ‹_›, ih]

@[simp] theorem get_del_ne (d : α) (m : SMap α) {k j : Nat} (h : j ≠ k) : get d (del m k) j = get d m j := by
  induction m with
  | nil => rfl
  | cons e m ih =>
    obtain ⟨i, v⟩ := e
    simp only [del]
    split
    · rename_i hk
      rw [ih, get_cons, if_neg (hk ▸ h)]
    · rw [get_cons, get_cons, ih]

theorem get_put [DecidableEq α] (d : α) (m : SMap α) (k j : Nat) (v : α) :
    get d (put d m k v) j = if j = k then v else get d m j := by
  unfold put
  by_cases hv : v = d
  · by_cases h : j = k
    · subst h; simp [hv]
    · simp [hv, h]
  · rw [if_neg hv, get_ins]

@[simp] theorem get_put_self [DecidableEq α] (d : α) (m : SMap α) (k : Nat) (v : α) :
    get d (put d m k v) k = v := by simp [get_put]

@[simp] theorem get_put_ne [DecidableEq α] (d : α) (m : SMap α) {k j : Nat} (v : α) (h : j ≠ k) :
    get d (put d m k v) j = get d m j := by simp [get_put, h]

@[simp] theorem ins_ins (m : SMap α) (k : Nat) (v w : α) : ins (ins m k v) k w = ins m k w := by
  induction m with
  | nil => simp [ins]
  | cons e m ih =>
    obtain ⟨j, u⟩ := e
    by_cases h1 : k < j
    · simp [ins, h1]
    · by_cases h2 : k = j
      · subst h2; simp [ins]
      · simp [ins, h1, h2, ih]

/-! ## The canonical form -/

theorem sortedFrom_le {m : SMap α} {lo lo' : Nat} (h : sortedFrom lo m = true) (hle : lo' ≤ lo) :
    sortedFrom lo' m = true := by
  cases m with
  | nil => rfl
  | cons e m =>
    simp only [sortedFrom, Bool.and_eq_true, decide_eq_true_eq] at h ⊢
    exact ⟨by omega, h.2⟩

theorem sortedFrom_ins {m : SMap α} {lo k : Nat} (v : α) (h : sortedFrom lo m = true) (hk : lo ≤ k) :
    sortedFrom lo (ins m k v) = true := by
  induction m generalizing lo with
  | nil => simp [ins, sortedFrom, hk]
  | cons e m ih =>
    obtain ⟨j, w⟩ := e
    simp only [sortedFrom, Bool.and_eq_true, decide_eq_true_eq] at h
    simp only [ins]
    split
    · simp only [sortedFrom, Bool.and_eq_true, decide_eq_true_eq]
      exact ⟨hk, by omega, h.2⟩
    · split
      · rename_i hj
        subst hj
        simp only [sortedFrom, Bool.and_eq_true, decide_eq_true_eq]
        exact ⟨hk, h.2⟩
      · simp only [sortedFrom, Bool.and_eq_true, decide_eq_true_eq]
        exact ⟨h.1, ih h.2 (by omega)⟩

theorem sortedFrom_del {m : SMap α} {lo : Nat} (k : Nat) (h : sortedFrom lo m = true) :
    sortedFrom lo (del m k) = true := by
  induction m generalizing lo with
  | nil => rfl
  | cons e m ih =>
    obtain ⟨j, w⟩ := e
    simp only [sortedFrom, Bool.and_eq_true, decide_eq_true_eq] at h
    simp only [del]
    split
    · exact sortedFrom_le (ih h.2) (by omega)
    · simp only [sortedFrom, Bool.and_eq_true, decide_eq_true_eq]
      exact ⟨h.1, ih h.2⟩

theorem mem_ins {m : SMap α} {k : Nat} {v : α} {e : Nat × α} (h : e ∈ ins m k v) : e = (k, v) ∨ e ∈ m := by
  induction m with
  | nil => simpa [ins] using h
  | cons x m ih =>
    obtain ⟨j, w⟩ := x
    simp only [ins] at h
    split at h
    · simpa using h
    · split at h
      · rcases List.mem_cons.1 h with h | h
        · exact .inl h
        · exact .inr (List.mem_cons_of_mem _ h)
      · rcases List.mem_cons.1 h with h | h
        · exact .inr (h ▸ List.mem_cons_self)
        · exact (ih h).imp_right (List.mem_cons_of_mem _)

theorem mem_del {m : SMap α} {k : Nat} {e : Nat × α} (h : e ∈ del m k) : e ∈ m := by
  induction m with
  | nil => simp [del] at h
  | cons x m ih =>
    obtain ⟨j, w⟩ := x
    simp only [del] at h
    split at h
    · exact List.mem_cons_of_mem _ (ih h)
    · rcases List.mem_cons.1 h with h | h
      · exact h ▸ List.mem_cons_self
      · exact List.mem_cons_of_mem _ (ih h)

/-- Storing keeps the canonical form. -/
theorem canon_put [DecidableEq α] {d : α} {m : SMap α} (k : Nat) (v : α) (h : canon d m = true) :
    canon d (put d m k v) = true := by
  simp only [canon, Bool.and_eq_true, List.all_eq_true, decide_eq_true_eq] at h ⊢
  unfold put
  split
  · exact ⟨sortedFrom_del k h.1, fun e he => h.2 e (mem_del he)⟩
  · refine ⟨sortedFrom_ins v h.1 (Nat.zero_le _), fun e he => ?_⟩
    rcases mem_ins he with rfl | he
    · assumption
    · exact h.2 e he

@[simp] theorem canon_nil [DecidableEq α] (d : α) : canon d ([] : SMap α) = true := rfl

/-- Two maps in canonical form that read alike everywhere are equal data. -/
theorem ext_of_canon [DecidableEq α] {d : α} {m n : SMap α} (hm : canon d m = true) (hn : canon d n = true)
    (h : ∀ k, get d m k = get d n k) : m = n := by
  simp only [canon, Bool.and_eq_true, List.all_eq_true, decide_eq_true_eq] at hm hn
  obtain ⟨hm, vm⟩ := hm
  obtain ⟨hn, vn⟩ := hn
  generalize 0 = lo at hm hn
  induction m generalizing n lo with
  | nil =>
    cases n with
    | nil => rfl
    | cons e n =>
      obtain ⟨i, w⟩ := e
      exact absurd (by simpa [get_cons] using (h i).symm) (vn (i, w) List.mem_cons_self)
  | cons e m ih =>
    obtain ⟨j, v⟩ := e
    have hv : v ≠ d := vm (j, v) List.mem_cons_self
    cases n with
    | nil => exact absurd (by simpa [get_cons] using h j) hv
    | cons e n =>
      obtain ⟨i, w⟩ := e
      have hw : w ≠ d := vn (i, w) List.mem_cons_self
      simp only [sortedFrom, Bool.and_eq_true, decide_eq_true_eq] at hm hn
      have hij : i = j := by
        rcases Nat.lt_trichotomy i j with hlt | heq | hgt
        · have := h i
          rw [get_cons, get_cons, if_neg (by omega), if_pos rfl, get_below hm.2 (by omega)] at this
          exact absurd this.symm hw
        · exact heq
        · have := h j
          rw [get_cons, get_cons, if_neg (by omega : j ≠ i), if_pos rfl, get_below hn.2 (by omega)] at this
          exact absurd this hv
      subst hij
      have hvw : v = w := by simpa [get_cons] using h i
      subst hvw
      refine congrArg _ (ih (n := n) ?_ (fun e he => vm e (List.mem_cons_of_mem _ he))
        (fun e he => vn e (List.mem_cons_of_mem _ he)) (i + 1) hm.2 hn.2)
      intro k
      have := h k
      rw [get_cons, get_cons] at this
      by_cases hk : k = i
      · subst hk
        rw [get_below hm.2 (by omega), get_below hn.2 (by omega)]
      · simpa [hk] using this

end Sys2Proof.SMap
end

