-- ==== Sys2Proof/Laws/State.lean ====
section
/-!
SUPPORT. What each update of the state leaves as it was, field by field, and what it makes read: so that no later proof
unfolds an update.
-/

namespace Sys2Proof.Machine

open Sys2Proof

/-! ## The state -/

@[simp] theorem State.setChair_mem (s : State) (ch : Nat) (x : Chair) : (s.setChair ch x).mem = s.mem := rfl
@[simp] theorem State.setChair_deep (s : State) (ch : Nat) (x : Chair) : (s.setChair ch x).deep = s.deep := rfl
@[simp] theorem State.setChair_pages (s : State) (ch : Nat) (x : Chair) : (s.setChair ch x).pages = s.pages := rfl
@[simp] theorem State.setChair_frames (s : State) (ch : Nat) (x : Chair) : (s.setChair ch x).frames = s.frames := rfl
@[simp] theorem State.setChair_ctxs (s : State) (ch : Nat) (x : Chair) : (s.setChair ch x).ctxs = s.ctxs := rfl
@[simp] theorem State.setChair_dies (s : State) (ch : Nat) (x : Chair) : (s.setChair ch x).dies = s.dies := rfl
@[simp] theorem State.setChair_links (s : State) (ch : Nat) (x : Chair) : (s.setChair ch x).links = s.links := rfl
@[simp] theorem State.setChair_net (s : State) (ch : Nat) (x : Chair) : (s.setChair ch x).net = s.net := rfl
@[simp] theorem State.setChair_pktNum (s : State) (ch : Nat) (x : Chair) : (s.setChair ch x).pktNum = s.pktNum := rfl
@[simp] theorem State.setChair_pairs (s : State) (ch : Nat) (x : Chair) : (s.setChair ch x).pairs = s.pairs := rfl
@[simp] theorem State.setChair_losses (s : State) (ch : Nat) (x : Chair) : (s.setChair ch x).losses = s.losses := rfl
@[simp] theorem State.setChair_lossNum (s : State) (ch : Nat) (x : Chair) : (s.setChair ch x).lossNum = s.lossNum := rfl
@[simp] theorem State.setChair_waves (s : State) (ch : Nat) (x : Chair) : (s.setChair ch x).waves = s.waves := rfl
@[simp] theorem State.setChair_waveNum (s : State) (ch : Nat) (x : Chair) : (s.setChair ch x).waveNum = s.waveNum := rfl
@[simp] theorem State.setChair_stopped (s : State) (ch : Nat) (x : Chair) : (s.setChair ch x).stopped = s.stopped := rfl
@[simp] theorem State.setChair_binds (s : State) (ch : Nat) (x : Chair) : (s.setChair ch x).binds = s.binds := rfl
@[simp] theorem State.setChair_agenda (s : State) (ch : Nat) (x : Chair) : (s.setChair ch x).agenda = s.agenda := rfl
@[simp] theorem State.setChair_tick (s : State) (ch : Nat) (x : Chair) : (s.setChair ch x).tick = s.tick := rfl
@[simp] theorem State.setChair_act (s : State) (ch : Nat) (x : Chair) : (s.setChair ch x).act = s.act := rfl

@[simp] theorem State.updChair_mem (s : State) (ch : Nat) (f : Chair → Chair) : (s.updChair ch f).mem = s.mem := rfl
@[simp] theorem State.updChair_deep (s : State) (ch : Nat) (f : Chair → Chair) : (s.updChair ch f).deep = s.deep := rfl
@[simp] theorem State.updChair_pages (s : State) (ch : Nat) (f : Chair → Chair) : (s.updChair ch f).pages = s.pages := rfl
@[simp] theorem State.updChair_frames (s : State) (ch : Nat) (f : Chair → Chair) : (s.updChair ch f).frames = s.frames := rfl
@[simp] theorem State.updChair_ctxs (s : State) (ch : Nat) (f : Chair → Chair) : (s.updChair ch f).ctxs = s.ctxs := rfl
@[simp] theorem State.updChair_dies (s : State) (ch : Nat) (f : Chair → Chair) : (s.updChair ch f).dies = s.dies := rfl
@[simp] theorem State.updChair_links (s : State) (ch : Nat) (f : Chair → Chair) : (s.updChair ch f).links = s.links := rfl
@[simp] theorem State.updChair_net (s : State) (ch : Nat) (f : Chair → Chair) : (s.updChair ch f).net = s.net := rfl
@[simp] theorem State.updChair_pktNum (s : State) (ch : Nat) (f : Chair → Chair) : (s.updChair ch f).pktNum = s.pktNum := rfl
@[simp] theorem State.updChair_pairs (s : State) (ch : Nat) (f : Chair → Chair) : (s.updChair ch f).pairs = s.pairs := rfl
@[simp] theorem State.updChair_losses (s : State) (ch : Nat) (f : Chair → Chair) : (s.updChair ch f).losses = s.losses := rfl
@[simp] theorem State.updChair_lossNum (s : State) (ch : Nat) (f : Chair → Chair) : (s.updChair ch f).lossNum = s.lossNum := rfl
@[simp] theorem State.updChair_waves (s : State) (ch : Nat) (f : Chair → Chair) : (s.updChair ch f).waves = s.waves := rfl
@[simp] theorem State.updChair_waveNum (s : State) (ch : Nat) (f : Chair → Chair) : (s.updChair ch f).waveNum = s.waveNum := rfl
@[simp] theorem State.updChair_stopped (s : State) (ch : Nat) (f : Chair → Chair) : (s.updChair ch f).stopped = s.stopped := rfl
@[simp] theorem State.updChair_binds (s : State) (ch : Nat) (f : Chair → Chair) : (s.updChair ch f).binds = s.binds := rfl
@[simp] theorem State.updChair_agenda (s : State) (ch : Nat) (f : Chair → Chair) : (s.updChair ch f).agenda = s.agenda := rfl
@[simp] theorem State.updChair_tick (s : State) (ch : Nat) (f : Chair → Chair) : (s.updChair ch f).tick = s.tick := rfl
@[simp] theorem State.updChair_act (s : State) (ch : Nat) (f : Chair → Chair) : (s.updChair ch f).act = s.act := rfl

@[simp] theorem State.setCore_mem (s : State) (ch c : Nat) (y : Core) : (s.setCore ch c y).mem = s.mem := rfl
@[simp] theorem State.setCore_deep (s : State) (ch c : Nat) (y : Core) : (s.setCore ch c y).deep = s.deep := rfl
@[simp] theorem State.setCore_pages (s : State) (ch c : Nat) (y : Core) : (s.setCore ch c y).pages = s.pages := rfl
@[simp] theorem State.setCore_frames (s : State) (ch c : Nat) (y : Core) : (s.setCore ch c y).frames = s.frames := rfl
@[simp] theorem State.setCore_ctxs (s : State) (ch c : Nat) (y : Core) : (s.setCore ch c y).ctxs = s.ctxs := rfl
@[simp] theorem State.setCore_dies (s : State) (ch c : Nat) (y : Core) : (s.setCore ch c y).dies = s.dies := rfl
@[simp] theorem State.setCore_links (s : State) (ch c : Nat) (y : Core) : (s.setCore ch c y).links = s.links := rfl
@[simp] theorem State.setCore_net (s : State) (ch c : Nat) (y : Core) : (s.setCore ch c y).net = s.net := rfl
@[simp] theorem State.setCore_pktNum (s : State) (ch c : Nat) (y : Core) : (s.setCore ch c y).pktNum = s.pktNum := rfl
@[simp] theorem State.setCore_pairs (s : State) (ch c : Nat) (y : Core) : (s.setCore ch c y).pairs = s.pairs := rfl
@[simp] theorem State.setCore_losses (s : State) (ch c : Nat) (y : Core) : (s.setCore ch c y).losses = s.losses := rfl
@[simp] theorem State.setCore_lossNum (s : State) (ch c : Nat) (y : Core) : (s.setCore ch c y).lossNum = s.lossNum := rfl
@[simp] theorem State.setCore_waves (s : State) (ch c : Nat) (y : Core) : (s.setCore ch c y).waves = s.waves := rfl
@[simp] theorem State.setCore_waveNum (s : State) (ch c : Nat) (y : Core) : (s.setCore ch c y).waveNum = s.waveNum := rfl
@[simp] theorem State.setCore_stopped (s : State) (ch c : Nat) (y : Core) : (s.setCore ch c y).stopped = s.stopped := rfl
@[simp] theorem State.setCore_binds (s : State) (ch c : Nat) (y : Core) : (s.setCore ch c y).binds = s.binds := rfl
@[simp] theorem State.setCore_agenda (s : State) (ch c : Nat) (y : Core) : (s.setCore ch c y).agenda = s.agenda := rfl
@[simp] theorem State.setCore_tick (s : State) (ch c : Nat) (y : Core) : (s.setCore ch c y).tick = s.tick := rfl
@[simp] theorem State.setCore_act (s : State) (ch c : Nat) (y : Core) : (s.setCore ch c y).act = s.act := rfl

@[simp] theorem State.updCore_mem (s : State) (ch c : Nat) (f : Core → Core) : (s.updCore ch c f).mem = s.mem := rfl
@[simp] theorem State.updCore_deep (s : State) (ch c : Nat) (f : Core → Core) : (s.updCore ch c f).deep = s.deep := rfl
@[simp] theorem State.updCore_pages (s : State) (ch c : Nat) (f : Core → Core) : (s.updCore ch c f).pages = s.pages := rfl
@[simp] theorem State.updCore_frames (s : State) (ch c : Nat) (f : Core → Core) : (s.updCore ch c f).frames = s.frames := rfl
@[simp] theorem State.updCore_ctxs (s : State) (ch c : Nat) (f : Core → Core) : (s.updCore ch c f).ctxs = s.ctxs := rfl
@[simp] theorem State.updCore_dies (s : State) (ch c : Nat) (f : Core → Core) : (s.updCore ch c f).dies = s.dies := rfl
@[simp] theorem State.updCore_links (s : State) (ch c : Nat) (f : Core → Core) : (s.updCore ch c f).links = s.links := rfl
@[simp] theorem State.updCore_net (s : State) (ch c : Nat) (f : Core → Core) : (s.updCore ch c f).net = s.net := rfl
@[simp] theorem State.updCore_pktNum (s : State) (ch c : Nat) (f : Core → Core) : (s.updCore ch c f).pktNum = s.pktNum := rfl
@[simp] theorem State.updCore_pairs (s : State) (ch c : Nat) (f : Core → Core) : (s.updCore ch c f).pairs = s.pairs := rfl
@[simp] theorem State.updCore_losses (s : State) (ch c : Nat) (f : Core → Core) : (s.updCore ch c f).losses = s.losses := rfl
@[simp] theorem State.updCore_lossNum (s : State) (ch c : Nat) (f : Core → Core) : (s.updCore ch c f).lossNum = s.lossNum := rfl
@[simp] theorem State.updCore_waves (s : State) (ch c : Nat) (f : Core → Core) : (s.updCore ch c f).waves = s.waves := rfl
@[simp] theorem State.updCore_waveNum (s : State) (ch c : Nat) (f : Core → Core) : (s.updCore ch c f).waveNum = s.waveNum := rfl
@[simp] theorem State.updCore_stopped (s : State) (ch c : Nat) (f : Core → Core) : (s.updCore ch c f).stopped = s.stopped := rfl
@[simp] theorem State.updCore_binds (s : State) (ch c : Nat) (f : Core → Core) : (s.updCore ch c f).binds = s.binds := rfl
@[simp] theorem State.updCore_agenda (s : State) (ch c : Nat) (f : Core → Core) : (s.updCore ch c f).agenda = s.agenda := rfl
@[simp] theorem State.updCore_tick (s : State) (ch c : Nat) (f : Core → Core) : (s.updCore ch c f).tick = s.tick := rfl
@[simp] theorem State.updCore_act (s : State) (ch c : Nat) (f : Core → Core) : (s.updCore ch c f).act = s.act := rfl

@[simp] theorem State.setHere_mem (s : State) (x : Chair) : (s.setHere x).mem = s.mem := rfl
@[simp] theorem State.setHere_deep (s : State) (x : Chair) : (s.setHere x).deep = s.deep := rfl
@[simp] theorem State.setHere_pages (s : State) (x : Chair) : (s.setHere x).pages = s.pages := rfl
@[simp] theorem State.setHere_frames (s : State) (x : Chair) : (s.setHere x).frames = s.frames := rfl
@[simp] theorem State.setHere_ctxs (s : State) (x : Chair) : (s.setHere x).ctxs = s.ctxs := rfl
@[simp] theorem State.setHere_dies (s : State) (x : Chair) : (s.setHere x).dies = s.dies := rfl
@[simp] theorem State.setHere_links (s : State) (x : Chair) : (s.setHere x).links = s.links := rfl
@[simp] theorem State.setHere_net (s : State) (x : Chair) : (s.setHere x).net = s.net := rfl
@[simp] theorem State.setHere_pktNum (s : State) (x : Chair) : (s.setHere x).pktNum = s.pktNum := rfl
@[simp] theorem State.setHere_pairs (s : State) (x : Chair) : (s.setHere x).pairs = s.pairs := rfl
@[simp] theorem State.setHere_losses (s : State) (x : Chair) : (s.setHere x).losses = s.losses := rfl
@[simp] theorem State.setHere_lossNum (s : State) (x : Chair) : (s.setHere x).lossNum = s.lossNum := rfl
@[simp] theorem State.setHere_waves (s : State) (x : Chair) : (s.setHere x).waves = s.waves := rfl
@[simp] theorem State.setHere_waveNum (s : State) (x : Chair) : (s.setHere x).waveNum = s.waveNum := rfl
@[simp] theorem State.setHere_stopped (s : State) (x : Chair) : (s.setHere x).stopped = s.stopped := rfl
@[simp] theorem State.setHere_binds (s : State) (x : Chair) : (s.setHere x).binds = s.binds := rfl
@[simp] theorem State.setHere_agenda (s : State) (x : Chair) : (s.setHere x).agenda = s.agenda := rfl
@[simp] theorem State.setHere_tick (s : State) (x : Chair) : (s.setHere x).tick = s.tick := rfl
@[simp] theorem State.setHere_act (s : State) (x : Chair) : (s.setHere x).act = s.act := rfl

@[simp] theorem State.setGf_mem (s : State) (g : Gaffer) : (s.setGf g).mem = s.mem := rfl
@[simp] theorem State.setGf_deep (s : State) (g : Gaffer) : (s.setGf g).deep = s.deep := rfl
@[simp] theorem State.setGf_pages (s : State) (g : Gaffer) : (s.setGf g).pages = s.pages := rfl
@[simp] theorem State.setGf_frames (s : State) (g : Gaffer) : (s.setGf g).frames = s.frames := rfl
@[simp] theorem State.setGf_ctxs (s : State) (g : Gaffer) : (s.setGf g).ctxs = s.ctxs := rfl
@[simp] theorem State.setGf_dies (s : State) (g : Gaffer) : (s.setGf g).dies = s.dies := rfl
@[simp] theorem State.setGf_links (s : State) (g : Gaffer) : (s.setGf g).links = s.links := rfl
@[simp] theorem State.setGf_net (s : State) (g : Gaffer) : (s.setGf g).net = s.net := rfl
@[simp] theorem State.setGf_pktNum (s : State) (g : Gaffer) : (s.setGf g).pktNum = s.pktNum := rfl
@[simp] theorem State.setGf_pairs (s : State) (g : Gaffer) : (s.setGf g).pairs = s.pairs := rfl
@[simp] theorem State.setGf_losses (s : State) (g : Gaffer) : (s.setGf g).losses = s.losses := rfl
@[simp] theorem State.setGf_lossNum (s : State) (g : Gaffer) : (s.setGf g).lossNum = s.lossNum := rfl
@[simp] theorem State.setGf_waves (s : State) (g : Gaffer) : (s.setGf g).waves = s.waves := rfl
@[simp] theorem State.setGf_waveNum (s : State) (g : Gaffer) : (s.setGf g).waveNum = s.waveNum := rfl
@[simp] theorem State.setGf_stopped (s : State) (g : Gaffer) : (s.setGf g).stopped = s.stopped := rfl
@[simp] theorem State.setGf_binds (s : State) (g : Gaffer) : (s.setGf g).binds = s.binds := rfl
@[simp] theorem State.setGf_agenda (s : State) (g : Gaffer) : (s.setGf g).agenda = s.agenda := rfl
@[simp] theorem State.setGf_tick (s : State) (g : Gaffer) : (s.setGf g).tick = s.tick := rfl
@[simp] theorem State.setGf_act (s : State) (g : Gaffer) : (s.setGf g).act = s.act := rfl

@[simp] theorem State.setMe_mem (s : State) (y : Core) : (s.setMe y).mem = s.mem := rfl
@[simp] theorem State.setMe_deep (s : State) (y : Core) : (s.setMe y).deep = s.deep := rfl
@[simp] theorem State.setMe_pages (s : State) (y : Core) : (s.setMe y).pages = s.pages := rfl
@[simp] theorem State.setMe_frames (s : State) (y : Core) : (s.setMe y).frames = s.frames := rfl
@[simp] theorem State.setMe_ctxs (s : State) (y : Core) : (s.setMe y).ctxs = s.ctxs := rfl
@[simp] theorem State.setMe_dies (s : State) (y : Core) : (s.setMe y).dies = s.dies := rfl
@[simp] theorem State.setMe_links (s : State) (y : Core) : (s.setMe y).links = s.links := rfl
@[simp] theorem State.setMe_net (s : State) (y : Core) : (s.setMe y).net = s.net := rfl
@[simp] theorem State.setMe_pktNum (s : State) (y : Core) : (s.setMe y).pktNum = s.pktNum := rfl
@[simp] theorem State.setMe_pairs (s : State) (y : Core) : (s.setMe y).pairs = s.pairs := rfl
@[simp] theorem State.setMe_losses (s : State) (y : Core) : (s.setMe y).losses = s.losses := rfl
@[simp] theorem State.setMe_lossNum (s : State) (y : Core) : (s.setMe y).lossNum = s.lossNum := rfl
@[simp] theorem State.setMe_waves (s : State) (y : Core) : (s.setMe y).waves = s.waves := rfl
@[simp] theorem State.setMe_waveNum (s : State) (y : Core) : (s.setMe y).waveNum = s.waveNum := rfl
@[simp] theorem State.setMe_stopped (s : State) (y : Core) : (s.setMe y).stopped = s.stopped := rfl
@[simp] theorem State.setMe_binds (s : State) (y : Core) : (s.setMe y).binds = s.binds := rfl
@[simp] theorem State.setMe_agenda (s : State) (y : Core) : (s.setMe y).agenda = s.agenda := rfl
@[simp] theorem State.setMe_tick (s : State) (y : Core) : (s.setMe y).tick = s.tick := rfl
@[simp] theorem State.setMe_act (s : State) (y : Core) : (s.setMe y).act = s.act := rfl

@[simp] theorem State.setAside_mem (s : State) (a : ASide) : (s.setAside a).mem = s.mem := rfl
@[simp] theorem State.setAside_deep (s : State) (a : ASide) : (s.setAside a).deep = s.deep := rfl
@[simp] theorem State.setAside_pages (s : State) (a : ASide) : (s.setAside a).pages = s.pages := rfl
@[simp] theorem State.setAside_frames (s : State) (a : ASide) : (s.setAside a).frames = s.frames := rfl
@[simp] theorem State.setAside_ctxs (s : State) (a : ASide) : (s.setAside a).ctxs = s.ctxs := rfl
@[simp] theorem State.setAside_dies (s : State) (a : ASide) : (s.setAside a).dies = s.dies := rfl
@[simp] theorem State.setAside_links (s : State) (a : ASide) : (s.setAside a).links = s.links := rfl
@[simp] theorem State.setAside_net (s : State) (a : ASide) : (s.setAside a).net = s.net := rfl
@[simp] theorem State.setAside_pktNum (s : State) (a : ASide) : (s.setAside a).pktNum = s.pktNum := rfl
@[simp] theorem State.setAside_pairs (s : State) (a : ASide) : (s.setAside a).pairs = s.pairs := rfl
@[simp] theorem State.setAside_losses (s : State) (a : ASide) : (s.setAside a).losses = s.losses := rfl
@[simp] theorem State.setAside_lossNum (s : State) (a : ASide) : (s.setAside a).lossNum = s.lossNum := rfl
@[simp] theorem State.setAside_waves (s : State) (a : ASide) : (s.setAside a).waves = s.waves := rfl
@[simp] theorem State.setAside_waveNum (s : State) (a : ASide) : (s.setAside a).waveNum = s.waveNum := rfl
@[simp] theorem State.setAside_stopped (s : State) (a : ASide) : (s.setAside a).stopped = s.stopped := rfl
@[simp] theorem State.setAside_binds (s : State) (a : ASide) : (s.setAside a).binds = s.binds := rfl
@[simp] theorem State.setAside_agenda (s : State) (a : ASide) : (s.setAside a).agenda = s.agenda := rfl
@[simp] theorem State.setAside_tick (s : State) (a : ASide) : (s.setAside a).tick = s.tick := rfl
@[simp] theorem State.setAside_act (s : State) (a : ASide) : (s.setAside a).act = s.act := rfl

@[simp] theorem State.setX_mem (s : State) (x : XSide) : (s.setX x).mem = s.mem := rfl
@[simp] theorem State.setX_deep (s : State) (x : XSide) : (s.setX x).deep = s.deep := rfl
@[simp] theorem State.setX_pages (s : State) (x : XSide) : (s.setX x).pages = s.pages := rfl
@[simp] theorem State.setX_frames (s : State) (x : XSide) : (s.setX x).frames = s.frames := rfl
@[simp] theorem State.setX_ctxs (s : State) (x : XSide) : (s.setX x).ctxs = s.ctxs := rfl
@[simp] theorem State.setX_dies (s : State) (x : XSide) : (s.setX x).dies = s.dies := rfl
@[simp] theorem State.setX_links (s : State) (x : XSide) : (s.setX x).links = s.links := rfl
@[simp] theorem State.setX_net (s : State) (x : XSide) : (s.setX x).net = s.net := rfl
@[simp] theorem State.setX_pktNum (s : State) (x : XSide) : (s.setX x).pktNum = s.pktNum := rfl
@[simp] theorem State.setX_pairs (s : State) (x : XSide) : (s.setX x).pairs = s.pairs := rfl
@[simp] theorem State.setX_losses (s : State) (x : XSide) : (s.setX x).losses = s.losses := rfl
@[simp] theorem State.setX_lossNum (s : State) (x : XSide) : (s.setX x).lossNum = s.lossNum := rfl
@[simp] theorem State.setX_waves (s : State) (x : XSide) : (s.setX x).waves = s.waves := rfl
@[simp] theorem State.setX_waveNum (s : State) (x : XSide) : (s.setX x).waveNum = s.waveNum := rfl
@[simp] theorem State.setX_stopped (s : State) (x : XSide) : (s.setX x).stopped = s.stopped := rfl
@[simp] theorem State.setX_binds (s : State) (x : XSide) : (s.setX x).binds = s.binds := rfl
@[simp] theorem State.setX_agenda (s : State) (x : XSide) : (s.setX x).agenda = s.agenda := rfl
@[simp] theorem State.setX_tick (s : State) (x : XSide) : (s.setX x).tick = s.tick := rfl
@[simp] theorem State.setX_act (s : State) (x : XSide) : (s.setX x).act = s.act := rfl

@[simp] theorem State.setM_mem (s : State) (m : MSide) : (s.setM m).mem = s.mem := rfl
@[simp] theorem State.setM_deep (s : State) (m : MSide) : (s.setM m).deep = s.deep := rfl
@[simp] theorem State.setM_pages (s : State) (m : MSide) : (s.setM m).pages = s.pages := rfl
@[simp] theorem State.setM_frames (s : State) (m : MSide) : (s.setM m).frames = s.frames := rfl
@[simp] theorem State.setM_ctxs (s : State) (m : MSide) : (s.setM m).ctxs = s.ctxs := rfl
@[simp] theorem State.setM_dies (s : State) (m : MSide) : (s.setM m).dies = s.dies := rfl
@[simp] theorem State.setM_links (s : State) (m : MSide) : (s.setM m).links = s.links := rfl
@[simp] theorem State.setM_net (s : State) (m : MSide) : (s.setM m).net = s.net := rfl
@[simp] theorem State.setM_pktNum (s : State) (m : MSide) : (s.setM m).pktNum = s.pktNum := rfl
@[simp] theorem State.setM_pairs (s : State) (m : MSide) : (s.setM m).pairs = s.pairs := rfl
@[simp] theorem State.setM_losses (s : State) (m : MSide) : (s.setM m).losses = s.losses := rfl
@[simp] theorem State.setM_lossNum (s : State) (m : MSide) : (s.setM m).lossNum = s.lossNum := rfl
@[simp] theorem State.setM_waves (s : State) (m : MSide) : (s.setM m).waves = s.waves := rfl
@[simp] theorem State.setM_waveNum (s : State) (m : MSide) : (s.setM m).waveNum = s.waveNum := rfl
@[simp] theorem State.setM_stopped (s : State) (m : MSide) : (s.setM m).stopped = s.stopped := rfl
@[simp] theorem State.setM_binds (s : State) (m : MSide) : (s.setM m).binds = s.binds := rfl
@[simp] theorem State.setM_agenda (s : State) (m : MSide) : (s.setM m).agenda = s.agenda := rfl
@[simp] theorem State.setM_tick (s : State) (m : MSide) : (s.setM m).tick = s.tick := rfl
@[simp] theorem State.setM_act (s : State) (m : MSide) : (s.setM m).act = s.act := rfl

@[simp] theorem State.setTside_mem (s : State) (t : TSide) : (s.setTside t).mem = s.mem := rfl
@[simp] theorem State.setTside_deep (s : State) (t : TSide) : (s.setTside t).deep = s.deep := rfl
@[simp] theorem State.setTside_pages (s : State) (t : TSide) : (s.setTside t).pages = s.pages := rfl
@[simp] theorem State.setTside_frames (s : State) (t : TSide) : (s.setTside t).frames = s.frames := rfl
@[simp] theorem State.setTside_ctxs (s : State) (t : TSide) : (s.setTside t).ctxs = s.ctxs := rfl
@[simp] theorem State.setTside_dies (s : State) (t : TSide) : (s.setTside t).dies = s.dies := rfl
@[simp] theorem State.setTside_links (s : State) (t : TSide) : (s.setTside t).links = s.links := rfl
@[simp] theorem State.setTside_net (s : State) (t : TSide) : (s.setTside t).net = s.net := rfl
@[simp] theorem State.setTside_pktNum (s : State) (t : TSide) : (s.setTside t).pktNum = s.pktNum := rfl
@[simp] theorem State.setTside_pairs (s : State) (t : TSide) : (s.setTside t).pairs = s.pairs := rfl
@[simp] theorem State.setTside_losses (s : State) (t : TSide) : (s.setTside t).losses = s.losses := rfl
@[simp] theorem State.setTside_lossNum (s : State) (t : TSide) : (s.setTside t).lossNum = s.lossNum := rfl
@[simp] theorem State.setTside_waves (s : State) (t : TSide) : (s.setTside t).waves = s.waves := rfl
@[simp] theorem State.setTside_waveNum (s : State) (t : TSide) : (s.setTside t).waveNum = s.waveNum := rfl
@[simp] theorem State.setTside_stopped (s : State) (t : TSide) : (s.setTside t).stopped = s.stopped := rfl
@[simp] theorem State.setTside_binds (s : State) (t : TSide) : (s.setTside t).binds = s.binds := rfl
@[simp] theorem State.setTside_agenda (s : State) (t : TSide) : (s.setTside t).agenda = s.agenda := rfl
@[simp] theorem State.setTside_tick (s : State) (t : TSide) : (s.setTside t).tick = s.tick := rfl
@[simp] theorem State.setTside_act (s : State) (t : TSide) : (s.setTside t).act = s.act := rfl

@[simp] theorem State.setCtx_mem (s : State) (k : Nat) (x : Ctx) : (s.setCtx k x).mem = s.mem := rfl
@[simp] theorem State.setCtx_deep (s : State) (k : Nat) (x : Ctx) : (s.setCtx k x).deep = s.deep := rfl
@[simp] theorem State.setCtx_pages (s : State) (k : Nat) (x : Ctx) : (s.setCtx k x).pages = s.pages := rfl
@[simp] theorem State.setCtx_frames (s : State) (k : Nat) (x : Ctx) : (s.setCtx k x).frames = s.frames := rfl
@[simp] theorem State.setCtx_chairs (s : State) (k : Nat) (x : Ctx) : (s.setCtx k x).chairs = s.chairs := rfl
@[simp] theorem State.setCtx_dies (s : State) (k : Nat) (x : Ctx) : (s.setCtx k x).dies = s.dies := rfl
@[simp] theorem State.setCtx_links (s : State) (k : Nat) (x : Ctx) : (s.setCtx k x).links = s.links := rfl
@[simp] theorem State.setCtx_net (s : State) (k : Nat) (x : Ctx) : (s.setCtx k x).net = s.net := rfl
@[simp] theorem State.setCtx_pktNum (s : State) (k : Nat) (x : Ctx) : (s.setCtx k x).pktNum = s.pktNum := rfl
@[simp] theorem State.setCtx_pairs (s : State) (k : Nat) (x : Ctx) : (s.setCtx k x).pairs = s.pairs := rfl
@[simp] theorem State.setCtx_losses (s : State) (k : Nat) (x : Ctx) : (s.setCtx k x).losses = s.losses := rfl
@[simp] theorem State.setCtx_lossNum (s : State) (k : Nat) (x : Ctx) : (s.setCtx k x).lossNum = s.lossNum := rfl
@[simp] theorem State.setCtx_waves (s : State) (k : Nat) (x : Ctx) : (s.setCtx k x).waves = s.waves := rfl
@[simp] theorem State.setCtx_waveNum (s : State) (k : Nat) (x : Ctx) : (s.setCtx k x).waveNum = s.waveNum := rfl
@[simp] theorem State.setCtx_stopped (s : State) (k : Nat) (x : Ctx) : (s.setCtx k x).stopped = s.stopped := rfl
@[simp] theorem State.setCtx_binds (s : State) (k : Nat) (x : Ctx) : (s.setCtx k x).binds = s.binds := rfl
@[simp] theorem State.setCtx_agenda (s : State) (k : Nat) (x : Ctx) : (s.setCtx k x).agenda = s.agenda := rfl
@[simp] theorem State.setCtx_tick (s : State) (k : Nat) (x : Ctx) : (s.setCtx k x).tick = s.tick := rfl
@[simp] theorem State.setCtx_act (s : State) (k : Nat) (x : Ctx) : (s.setCtx k x).act = s.act := rfl

@[simp] theorem State.updCtx_mem (s : State) (k : Nat) (f : Ctx → Ctx) : (s.updCtx k f).mem = s.mem := rfl
@[simp] theorem State.updCtx_deep (s : State) (k : Nat) (f : Ctx → Ctx) : (s.updCtx k f).deep = s.deep := rfl
@[simp] theorem State.updCtx_pages (s : State) (k : Nat) (f : Ctx → Ctx) : (s.updCtx k f).pages = s.pages := rfl
@[simp] theorem State.updCtx_frames (s : State) (k : Nat) (f : Ctx → Ctx) : (s.updCtx k f).frames = s.frames := rfl
@[simp] theorem State.updCtx_chairs (s : State) (k : Nat) (f : Ctx → Ctx) : (s.updCtx k f).chairs = s.chairs := rfl
@[simp] theorem State.updCtx_dies (s : State) (k : Nat) (f : Ctx → Ctx) : (s.updCtx k f).dies = s.dies := rfl
@[simp] theorem State.updCtx_links (s : State) (k : Nat) (f : Ctx → Ctx) : (s.updCtx k f).links = s.links := rfl
@[simp] theorem State.updCtx_net (s : State) (k : Nat) (f : Ctx → Ctx) : (s.updCtx k f).net = s.net := rfl
@[simp] theorem State.updCtx_pktNum (s : State) (k : Nat) (f : Ctx → Ctx) : (s.updCtx k f).pktNum = s.pktNum := rfl
@[simp] theorem State.updCtx_pairs (s : State) (k : Nat) (f : Ctx → Ctx) : (s.updCtx k f).pairs = s.pairs := rfl
@[simp] theorem State.updCtx_losses (s : State) (k : Nat) (f : Ctx → Ctx) : (s.updCtx k f).losses = s.losses := rfl
@[simp] theorem State.updCtx_lossNum (s : State) (k : Nat) (f : Ctx → Ctx) : (s.updCtx k f).lossNum = s.lossNum := rfl
@[simp] theorem State.updCtx_waves (s : State) (k : Nat) (f : Ctx → Ctx) : (s.updCtx k f).waves = s.waves := rfl
@[simp] theorem State.updCtx_waveNum (s : State) (k : Nat) (f : Ctx → Ctx) : (s.updCtx k f).waveNum = s.waveNum := rfl
@[simp] theorem State.updCtx_stopped (s : State) (k : Nat) (f : Ctx → Ctx) : (s.updCtx k f).stopped = s.stopped := rfl
@[simp] theorem State.updCtx_binds (s : State) (k : Nat) (f : Ctx → Ctx) : (s.updCtx k f).binds = s.binds := rfl
@[simp] theorem State.updCtx_agenda (s : State) (k : Nat) (f : Ctx → Ctx) : (s.updCtx k f).agenda = s.agenda := rfl
@[simp] theorem State.updCtx_tick (s : State) (k : Nat) (f : Ctx → Ctx) : (s.updCtx k f).tick = s.tick := rfl
@[simp] theorem State.updCtx_act (s : State) (k : Nat) (f : Ctx → Ctx) : (s.updCtx k f).act = s.act := rfl

@[simp] theorem State.setDie_mem (s : State) (d : Nat) (x : Die) : (s.setDie d x).mem = s.mem := rfl
@[simp] theorem State.setDie_deep (s : State) (d : Nat) (x : Die) : (s.setDie d x).deep = s.deep := rfl
@[simp] theorem State.setDie_pages (s : State) (d : Nat) (x : Die) : (s.setDie d x).pages = s.pages := rfl
@[simp] theorem State.setDie_frames (s : State) (d : Nat) (x : Die) : (s.setDie d x).frames = s.frames := rfl
@[simp] theorem State.setDie_chairs (s : State) (d : Nat) (x : Die) : (s.setDie d x).chairs = s.chairs := rfl
@[simp] theorem State.setDie_ctxs (s : State) (d : Nat) (x : Die) : (s.setDie d x).ctxs = s.ctxs := rfl
@[simp] theorem State.setDie_links (s : State) (d : Nat) (x : Die) : (s.setDie d x).links = s.links := rfl
@[simp] theorem State.setDie_net (s : State) (d : Nat) (x : Die) : (s.setDie d x).net = s.net := rfl
@[simp] theorem State.setDie_pktNum (s : State) (d : Nat) (x : Die) : (s.setDie d x).pktNum = s.pktNum := rfl
@[simp] theorem State.setDie_pairs (s : State) (d : Nat) (x : Die) : (s.setDie d x).pairs = s.pairs := rfl
@[simp] theorem State.setDie_losses (s : State) (d : Nat) (x : Die) : (s.setDie d x).losses = s.losses := rfl
@[simp] theorem State.setDie_lossNum (s : State) (d : Nat) (x : Die) : (s.setDie d x).lossNum = s.lossNum := rfl
@[simp] theorem State.setDie_waves (s : State) (d : Nat) (x : Die) : (s.setDie d x).waves = s.waves := rfl
@[simp] theorem State.setDie_waveNum (s : State) (d : Nat) (x : Die) : (s.setDie d x).waveNum = s.waveNum := rfl
@[simp] theorem State.setDie_stopped (s : State) (d : Nat) (x : Die) : (s.setDie d x).stopped = s.stopped := rfl
@[simp] theorem State.setDie_binds (s : State) (d : Nat) (x : Die) : (s.setDie d x).binds = s.binds := rfl
@[simp] theorem State.setDie_agenda (s : State) (d : Nat) (x : Die) : (s.setDie d x).agenda = s.agenda := rfl
@[simp] theorem State.setDie_tick (s : State) (d : Nat) (x : Die) : (s.setDie d x).tick = s.tick := rfl
@[simp] theorem State.setDie_act (s : State) (d : Nat) (x : Die) : (s.setDie d x).act = s.act := rfl

@[simp] theorem State.updDie_mem (s : State) (d : Nat) (f : Die → Die) : (s.updDie d f).mem = s.mem := rfl
@[simp] theorem State.updDie_deep (s : State) (d : Nat) (f : Die → Die) : (s.updDie d f).deep = s.deep := rfl
@[simp] theorem State.updDie_pages (s : State) (d : Nat) (f : Die → Die) : (s.updDie d f).pages = s.pages := rfl
@[simp] theorem State.updDie_frames (s : State) (d : Nat) (f : Die → Die) : (s.updDie d f).frames = s.frames := rfl
@[simp] theorem State.updDie_chairs (s : State) (d : Nat) (f : Die → Die) : (s.updDie d f).chairs = s.chairs := rfl
@[simp] theorem State.updDie_ctxs (s : State) (d : Nat) (f : Die → Die) : (s.updDie d f).ctxs = s.ctxs := rfl
@[simp] theorem State.updDie_links (s : State) (d : Nat) (f : Die → Die) : (s.updDie d f).links = s.links := rfl
@[simp] theorem State.updDie_net (s : State) (d : Nat) (f : Die → Die) : (s.updDie d f).net = s.net := rfl
@[simp] theorem State.updDie_pktNum (s : State) (d : Nat) (f : Die → Die) : (s.updDie d f).pktNum = s.pktNum := rfl
@[simp] theorem State.updDie_pairs (s : State) (d : Nat) (f : Die → Die) : (s.updDie d f).pairs = s.pairs := rfl
@[simp] theorem State.updDie_losses (s : State) (d : Nat) (f : Die → Die) : (s.updDie d f).losses = s.losses := rfl
@[simp] theorem State.updDie_lossNum (s : State) (d : Nat) (f : Die → Die) : (s.updDie d f).lossNum = s.lossNum := rfl
@[simp] theorem State.updDie_waves (s : State) (d : Nat) (f : Die → Die) : (s.updDie d f).waves = s.waves := rfl
@[simp] theorem State.updDie_waveNum (s : State) (d : Nat) (f : Die → Die) : (s.updDie d f).waveNum = s.waveNum := rfl
@[simp] theorem State.updDie_stopped (s : State) (d : Nat) (f : Die → Die) : (s.updDie d f).stopped = s.stopped := rfl
@[simp] theorem State.updDie_binds (s : State) (d : Nat) (f : Die → Die) : (s.updDie d f).binds = s.binds := rfl
@[simp] theorem State.updDie_agenda (s : State) (d : Nat) (f : Die → Die) : (s.updDie d f).agenda = s.agenda := rfl
@[simp] theorem State.updDie_tick (s : State) (d : Nat) (f : Die → Die) : (s.updDie d f).tick = s.tick := rfl
@[simp] theorem State.updDie_act (s : State) (d : Nat) (f : Die → Die) : (s.updDie d f).act = s.act := rfl

@[simp] theorem State.setLink_mem (s : State) (l : Nat) (x : Link) : (s.setLink l x).mem = s.mem := rfl
@[simp] theorem State.setLink_deep (s : State) (l : Nat) (x : Link) : (s.setLink l x).deep = s.deep := rfl
@[simp] theorem State.setLink_pages (s : State) (l : Nat) (x : Link) : (s.setLink l x).pages = s.pages := rfl
@[simp] theorem State.setLink_frames (s : State) (l : Nat) (x : Link) : (s.setLink l x).frames = s.frames := rfl
@[simp] theorem State.setLink_chairs (s : State) (l : Nat) (x : Link) : (s.setLink l x).chairs = s.chairs := rfl
@[simp] theorem State.setLink_ctxs (s : State) (l : Nat) (x : Link) : (s.setLink l x).ctxs = s.ctxs := rfl
@[simp] theorem State.setLink_dies (s : State) (l : Nat) (x : Link) : (s.setLink l x).dies = s.dies := rfl
@[simp] theorem State.setLink_net (s : State) (l : Nat) (x : Link) : (s.setLink l x).net = s.net := rfl
@[simp] theorem State.setLink_pktNum (s : State) (l : Nat) (x : Link) : (s.setLink l x).pktNum = s.pktNum := rfl
@[simp] theorem State.setLink_pairs (s : State) (l : Nat) (x : Link) : (s.setLink l x).pairs = s.pairs := rfl
@[simp] theorem State.setLink_losses (s : State) (l : Nat) (x : Link) : (s.setLink l x).losses = s.losses := rfl
@[simp] theorem State.setLink_lossNum (s : State) (l : Nat) (x : Link) : (s.setLink l x).lossNum = s.lossNum := rfl
@[simp] theorem State.setLink_waves (s : State) (l : Nat) (x : Link) : (s.setLink l x).waves = s.waves := rfl
@[simp] theorem State.setLink_waveNum (s : State) (l : Nat) (x : Link) : (s.setLink l x).waveNum = s.waveNum := rfl
@[simp] theorem State.setLink_stopped (s : State) (l : Nat) (x : Link) : (s.setLink l x).stopped = s.stopped := rfl
@[simp] theorem State.setLink_binds (s : State) (l : Nat) (x : Link) : (s.setLink l x).binds = s.binds := rfl
@[simp] theorem State.setLink_agenda (s : State) (l : Nat) (x : Link) : (s.setLink l x).agenda = s.agenda := rfl
@[simp] theorem State.setLink_tick (s : State) (l : Nat) (x : Link) : (s.setLink l x).tick = s.tick := rfl
@[simp] theorem State.setLink_act (s : State) (l : Nat) (x : Link) : (s.setLink l x).act = s.act := rfl

@[simp] theorem State.setPage_mem (s : State) (l : Nat) (p : Page) : (s.setPage l p).mem = s.mem := rfl
@[simp] theorem State.setPage_deep (s : State) (l : Nat) (p : Page) : (s.setPage l p).deep = s.deep := rfl
@[simp] theorem State.setPage_frames (s : State) (l : Nat) (p : Page) : (s.setPage l p).frames = s.frames := rfl
@[simp] theorem State.setPage_chairs (s : State) (l : Nat) (p : Page) : (s.setPage l p).chairs = s.chairs := rfl
@[simp] theorem State.setPage_ctxs (s : State) (l : Nat) (p : Page) : (s.setPage l p).ctxs = s.ctxs := rfl
@[simp] theorem State.setPage_dies (s : State) (l : Nat) (p : Page) : (s.setPage l p).dies = s.dies := rfl
@[simp] theorem State.setPage_links (s : State) (l : Nat) (p : Page) : (s.setPage l p).links = s.links := rfl
@[simp] theorem State.setPage_net (s : State) (l : Nat) (p : Page) : (s.setPage l p).net = s.net := rfl
@[simp] theorem State.setPage_pktNum (s : State) (l : Nat) (p : Page) : (s.setPage l p).pktNum = s.pktNum := rfl
@[simp] theorem State.setPage_pairs (s : State) (l : Nat) (p : Page) : (s.setPage l p).pairs = s.pairs := rfl
@[simp] theorem State.setPage_losses (s : State) (l : Nat) (p : Page) : (s.setPage l p).losses = s.losses := rfl
@[simp] theorem State.setPage_lossNum (s : State) (l : Nat) (p : Page) : (s.setPage l p).lossNum = s.lossNum := rfl
@[simp] theorem State.setPage_waves (s : State) (l : Nat) (p : Page) : (s.setPage l p).waves = s.waves := rfl
@[simp] theorem State.setPage_waveNum (s : State) (l : Nat) (p : Page) : (s.setPage l p).waveNum = s.waveNum := rfl
@[simp] theorem State.setPage_stopped (s : State) (l : Nat) (p : Page) : (s.setPage l p).stopped = s.stopped := rfl
@[simp] theorem State.setPage_binds (s : State) (l : Nat) (p : Page) : (s.setPage l p).binds = s.binds := rfl
@[simp] theorem State.setPage_agenda (s : State) (l : Nat) (p : Page) : (s.setPage l p).agenda = s.agenda := rfl
@[simp] theorem State.setPage_tick (s : State) (l : Nat) (p : Page) : (s.setPage l p).tick = s.tick := rfl
@[simp] theorem State.setPage_act (s : State) (l : Nat) (p : Page) : (s.setPage l p).act = s.act := rfl

/-! ### Reading a place after writing one -/

theorem State.chair_setChair (s : State) (ch e : Nat) (x : Chair) :
    (s.setChair ch x).chair e = if e = ch then x else s.chair e := SMap.get_ins ({} : Chair) s.chairs ch e x

@[simp] theorem State.chair_setChair_self (s : State) (ch : Nat) (x : Chair) : (s.setChair ch x).chair ch = x := by
  simp [State.chair_setChair]

@[simp] theorem State.chair_setChair_ne (s : State) {ch e : Nat} (x : Chair) (h : e ≠ ch) :
    (s.setChair ch x).chair e = s.chair e := by simp [State.chair_setChair, h]

theorem Chair.core_setCore (x : Chair) (c e : Nat) (y : Core) :
    (x.setCore c y).core e = if e = c then y else x.core e := SMap.get_ins ({} : Core) x.cores c e y

@[simp] theorem Chair.core_setCore_self (x : Chair) (c : Nat) (y : Core) : (x.setCore c y).core c = y := by
  simp [Chair.core_setCore]

@[simp] theorem Chair.core_setCore_ne (x : Chair) {c e : Nat} (y : Core) (h : e ≠ c) :
    (x.setCore c y).core e = x.core e := by simp [Chair.core_setCore, h]

@[simp] theorem State.core_setChair_self (s : State) (ch c : Nat) (x : Chair) :
    (s.setChair ch x).core ch c = x.core c := by simp [State.core]

@[simp] theorem State.core_setChair_ne (s : State) {ch e : Nat} (c : Nat) (x : Chair) (h : e ≠ ch) :
    (s.setChair ch x).core e c = s.core e c := by simp [State.core, h]

theorem State.core_setCore (s : State) (ch c e k : Nat) (y : Core) :
    (s.setCore ch c y).core e k = if e = ch ∧ k = c then y else s.core e k := by
  unfold State.setCore State.core
  rw [State.chair_setChair]
  by_cases h : e = ch
  · subst h; simp [Chair.core_setCore]
  · simp [h]

@[simp] theorem State.core_setCore_self (s : State) (ch c : Nat) (y : Core) : (s.setCore ch c y).core ch c = y := by
  simp [State.core_setCore]

@[simp] theorem State.core_updCore_self (s : State) (ch c : Nat) (f : Core → Core) :
    (s.updCore ch c f).core ch c = f (s.core ch c) := by simp [State.updCore]

@[simp] theorem State.chair_setCore_self (s : State) (ch c : Nat) (y : Core) :
    (s.setCore ch c y).chair ch = (s.chair ch).setCore c y := by simp [State.setCore]

@[simp] theorem State.chair_setCore_ne (s : State) {ch e : Nat} (c : Nat) (y : Core) (h : e ≠ ch) :
    (s.setCore ch c y).chair e = s.chair e := by simp [State.setCore, h]

@[simp] theorem State.setChair_setChair (s : State) (ch : Nat) (x y : Chair) :
    (s.setChair ch x).setChair ch y = s.setChair ch y := by simp [State.setChair]

@[simp] theorem Chair.setCore_setCore (x : Chair) (c : Nat) (y z : Core) :
    (x.setCore c y).setCore c z = x.setCore c z := by simp [Chair.setCore]

@[simp] theorem State.setCore_setCore (s : State) (ch c : Nat) (y z : Core) :
    (s.setCore ch c y).setCore ch c z = s.setCore ch c z := by simp [State.setCore]

@[simp] theorem State.setMe_setMe (s : State) (y z : Core) : (s.setMe y).setMe z = s.setMe z := by
  simp [State.setMe]

@[simp] theorem State.setHere_setHere (s : State) (x y : Chair) : (s.setHere x).setHere y = s.setHere y := by
  simp [State.setHere]

@[simp] theorem State.here_setHere (s : State) (x : Chair) : (s.setHere x).here = x := by
  simp [State.here, State.setHere]

@[simp] theorem State.here_setGf (s : State) (g : Gaffer) : (s.setGf g).here = { s.here with gf := g } := by
  simp [State.here, State.setGf]

@[simp] theorem State.gf_setHere (s : State) (x : Chair) : (s.setHere x).gf = x.gf := by simp [State.gf]

@[simp] theorem State.gf_setGf (s : State) (g : Gaffer) : (s.setGf g).gf = g := by simp [State.gf]

@[simp] theorem State.me_setMe (s : State) (y : Core) : (s.setMe y).me = y := by simp [State.me, State.setMe]

@[simp] theorem State.here_setMe (s : State) (y : Core) : (s.setMe y).here = s.here.setCore s.act.core y := by
  simp [State.here, State.setMe]

@[simp] theorem State.aside_setAside (s : State) (a : ASide) : (s.setAside a).aside = a := by
  simp [State.aside, State.setAside]

@[simp] theorem State.me_setAside (s : State) (a : ASide) : (s.setAside a).me = { s.me with a := a } := by
  simp [State.setAside]

@[simp] theorem State.xside_setX (s : State) (x : XSide) : (s.setX x).xside = x := by simp [State.xside, State.setX]

@[simp] theorem State.me_setX (s : State) (x : XSide) : (s.setX x).me = { s.me with x := x } := by simp [State.setX]

theorem State.ctx_setCtx (s : State) (k j : Nat) (x : Ctx) :
    (s.setCtx k x).ctx j = if j = k then x else s.ctx j := SMap.get_ins ({} : Ctx) s.ctxs k j x

@[simp] theorem State.ctx_setCtx_self (s : State) (k : Nat) (x : Ctx) : (s.setCtx k x).ctx k = x := by
  simp [State.ctx_setCtx]

@[simp] theorem State.ctx_updCtx_self (s : State) (k : Nat) (f : Ctx → Ctx) : (s.updCtx k f).ctx k = f (s.ctx k) := by
  simp [State.updCtx]

theorem State.die_setDie (s : State) (d j : Nat) (x : Die) :
    (s.setDie d x).die j = if j = d then x else s.die j := SMap.get_ins ({} : Die) s.dies d j x

@[simp] theorem State.die_setDie_self (s : State) (d : Nat) (x : Die) : (s.setDie d x).die d = x := by
  simp [State.die_setDie]

@[simp] theorem State.die_updDie_self (s : State) (d : Nat) (f : Die → Die) : (s.updDie d f).die d = f (s.die d) := by
  simp [State.updDie]

theorem State.link_setLink (s : State) (l j : Nat) (x : Link) :
    (s.setLink l x).link j = if j = l then x else s.link j := SMap.get_ins ({} : Link) s.links l j x

@[simp] theorem State.link_setLink_self (s : State) (l : Nat) (x : Link) : (s.setLink l x).link l = x := by
  simp [State.link_setLink]

/-! ## The chair -/

@[simp] theorem Chair.setCore_st (x : Chair) (c : Nat) (y : Core) : (x.setCore c y).st = x.st := rfl
@[simp] theorem Chair.setCore_tenant (x : Chair) (c : Nat) (y : Core) : (x.setCore c y).tenant = x.tenant := rfl
@[simp] theorem Chair.setCore_ctx (x : Chair) (c : Nat) (y : Core) : (x.setCore c y).ctx = x.ctx := rfl
@[simp] theorem Chair.setCore_idx (x : Chair) (c : Nat) (y : Core) : (x.setCore c y).idx = x.idx := rfl
@[simp] theorem Chair.setCore_cycle (x : Chair) (c : Nat) (y : Core) : (x.setCore c y).cycle = x.cycle := rfl
@[simp] theorem Chair.setCore_budget (x : Chair) (c : Nat) (y : Core) : (x.setCore c y).budget = x.budget := rfl
@[simp] theorem Chair.setCore_clock (x : Chair) (c : Nat) (y : Core) : (x.setCore c y).clock = x.clock := rfl
@[simp] theorem Chair.setCore_req (x : Chair) (c : Nat) (y : Core) : (x.setCore c y).req = x.req := rfl
@[simp] theorem Chair.setCore_gf (x : Chair) (c : Nat) (y : Core) : (x.setCore c y).gf = x.gf := rfl
@[simp] theorem Chair.setCore_ring (x : Chair) (c : Nat) (y : Core) : (x.setCore c y).ring = x.ring := rfl
@[simp] theorem Chair.setCore_handles (x : Chair) (c : Nat) (y : Core) : (x.setCore c y).handles = x.handles := rfl
@[simp] theorem Chair.setCore_quads (x : Chair) (c : Nat) (y : Core) : (x.setCore c y).quads = x.quads := rfl
@[simp] theorem Chair.setCore_gfault (x : Chair) (c : Nat) (y : Core) : (x.setCore c y).gfault = x.gfault := rfl
@[simp] theorem Chair.setCore_halt (x : Chair) (c : Nat) (y : Core) : (x.setCore c y).halt = x.halt := rfl
@[simp] theorem Chair.setCore_frame (x : Chair) (c : Nat) (y : Core) : (x.setCore c y).frame = x.frame := rfl
@[simp] theorem Chair.setCore_withdrawn (x : Chair) (c : Nat) (y : Core) : (x.setCore c y).withdrawn = x.withdrawn := rfl
@[simp] theorem Chair.setCore_started (x : Chair) (c : Nat) (y : Core) : (x.setCore c y).started = x.started := rfl

@[simp] theorem Chair.setHandle_st (x : Chair) (h : BitVec 6) (v : Handle) : (x.setHandle h v).st = x.st := rfl
@[simp] theorem Chair.setHandle_tenant (x : Chair) (h : BitVec 6) (v : Handle) : (x.setHandle h v).tenant = x.tenant := rfl
@[simp] theorem Chair.setHandle_ctx (x : Chair) (h : BitVec 6) (v : Handle) : (x.setHandle h v).ctx = x.ctx := rfl
@[simp] theorem Chair.setHandle_idx (x : Chair) (h : BitVec 6) (v : Handle) : (x.setHandle h v).idx = x.idx := rfl
@[simp] theorem Chair.setHandle_cycle (x : Chair) (h : BitVec 6) (v : Handle) : (x.setHandle h v).cycle = x.cycle := rfl
@[simp] theorem Chair.setHandle_budget (x : Chair) (h : BitVec 6) (v : Handle) : (x.setHandle h v).budget = x.budget := rfl
@[simp] theorem Chair.setHandle_clock (x : Chair) (h : BitVec 6) (v : Handle) : (x.setHandle h v).clock = x.clock := rfl
@[simp] theorem Chair.setHandle_req (x : Chair) (h : BitVec 6) (v : Handle) : (x.setHandle h v).req = x.req := rfl
@[simp] theorem Chair.setHandle_gf (x : Chair) (h : BitVec 6) (v : Handle) : (x.setHandle h v).gf = x.gf := rfl
@[simp] theorem Chair.setHandle_ring (x : Chair) (h : BitVec 6) (v : Handle) : (x.setHandle h v).ring = x.ring := rfl
@[simp] theorem Chair.setHandle_cores (x : Chair) (h : BitVec 6) (v : Handle) : (x.setHandle h v).cores = x.cores := rfl
@[simp] theorem Chair.setHandle_quads (x : Chair) (h : BitVec 6) (v : Handle) : (x.setHandle h v).quads = x.quads := rfl
@[simp] theorem Chair.setHandle_gfault (x : Chair) (h : BitVec 6) (v : Handle) : (x.setHandle h v).gfault = x.gfault := rfl
@[simp] theorem Chair.setHandle_halt (x : Chair) (h : BitVec 6) (v : Handle) : (x.setHandle h v).halt = x.halt := rfl
@[simp] theorem Chair.setHandle_frame (x : Chair) (h : BitVec 6) (v : Handle) : (x.setHandle h v).frame = x.frame := rfl
@[simp] theorem Chair.setHandle_withdrawn (x : Chair) (h : BitVec 6) (v : Handle) : (x.setHandle h v).withdrawn = x.withdrawn := rfl
@[simp] theorem Chair.setHandle_started (x : Chair) (h : BitVec 6) (v : Handle) : (x.setHandle h v).started = x.started := rfl

@[simp] theorem Chair.setQuad_st (x : Chair) (q : Nat) (u : Quad) : (x.setQuad q u).st = x.st := rfl
@[simp] theorem Chair.setQuad_tenant (x : Chair) (q : Nat) (u : Quad) : (x.setQuad q u).tenant = x.tenant := rfl
@[simp] theorem Chair.setQuad_ctx (x : Chair) (q : Nat) (u : Quad) : (x.setQuad q u).ctx = x.ctx := rfl
@[simp] theorem Chair.setQuad_idx (x : Chair) (q : Nat) (u : Quad) : (x.setQuad q u).idx = x.idx := rfl
@[simp] theorem Chair.setQuad_cycle (x : Chair) (q : Nat) (u : Quad) : (x.setQuad q u).cycle = x.cycle := rfl
@[simp] theorem Chair.setQuad_budget (x : Chair) (q : Nat) (u : Quad) : (x.setQuad q u).budget = x.budget := rfl
@[simp] theorem Chair.setQuad_clock (x : Chair) (q : Nat) (u : Quad) : (x.setQuad q u).clock = x.clock := rfl
@[simp] theorem Chair.setQuad_req (x : Chair) (q : Nat) (u : Quad) : (x.setQuad q u).req = x.req := rfl
@[simp] theorem Chair.setQuad_gf (x : Chair) (q : Nat) (u : Quad) : (x.setQuad q u).gf = x.gf := rfl
@[simp] theorem Chair.setQuad_ring (x : Chair) (q : Nat) (u : Quad) : (x.setQuad q u).ring = x.ring := rfl
@[simp] theorem Chair.setQuad_cores (x : Chair) (q : Nat) (u : Quad) : (x.setQuad q u).cores = x.cores := rfl
@[simp] theorem Chair.setQuad_handles (x : Chair) (q : Nat) (u : Quad) : (x.setQuad q u).handles = x.handles := rfl
@[simp] theorem Chair.setQuad_gfault (x : Chair) (q : Nat) (u : Quad) : (x.setQuad q u).gfault = x.gfault := rfl
@[simp] theorem Chair.setQuad_halt (x : Chair) (q : Nat) (u : Quad) : (x.setQuad q u).halt = x.halt := rfl
@[simp] theorem Chair.setQuad_frame (x : Chair) (q : Nat) (u : Quad) : (x.setQuad q u).frame = x.frame := rfl
@[simp] theorem Chair.setQuad_withdrawn (x : Chair) (q : Nat) (u : Quad) : (x.setQuad q u).withdrawn = x.withdrawn := rfl
@[simp] theorem Chair.setQuad_started (x : Chair) (q : Nat) (u : Quad) : (x.setQuad q u).started = x.started := rfl

@[simp] theorem Chair.askHalt_st (x : Chair) (h : Bool) : (x.askHalt h).st = x.st := by unfold Chair.askHalt; split <;> [rfl; (split <;> rfl)]
@[simp] theorem Chair.askHalt_tenant (x : Chair) (h : Bool) : (x.askHalt h).tenant = x.tenant := by unfold Chair.askHalt; split <;> [rfl; (split <;> rfl)]
@[simp] theorem Chair.askHalt_ctx (x : Chair) (h : Bool) : (x.askHalt h).ctx = x.ctx := by unfold Chair.askHalt; split <;> [rfl; (split <;> rfl)]
@[simp] theorem Chair.askHalt_idx (x : Chair) (h : Bool) : (x.askHalt h).idx = x.idx := by unfold Chair.askHalt; split <;> [rfl; (split <;> rfl)]
@[simp] theorem Chair.askHalt_cycle (x : Chair) (h : Bool) : (x.askHalt h).cycle = x.cycle := by unfold Chair.askHalt; split <;> [rfl; (split <;> rfl)]
@[simp] theorem Chair.askHalt_budget (x : Chair) (h : Bool) : (x.askHalt h).budget = x.budget := by unfold Chair.askHalt; split <;> [rfl; (split <;> rfl)]
@[simp] theorem Chair.askHalt_clock (x : Chair) (h : Bool) : (x.askHalt h).clock = x.clock := by unfold Chair.askHalt; split <;> [rfl; (split <;> rfl)]
@[simp] theorem Chair.askHalt_req (x : Chair) (h : Bool) : (x.askHalt h).req = x.req := by unfold Chair.askHalt; split <;> [rfl; (split <;> rfl)]
@[simp] theorem Chair.askHalt_gf (x : Chair) (h : Bool) : (x.askHalt h).gf = x.gf := by unfold Chair.askHalt; split <;> [rfl; (split <;> rfl)]
@[simp] theorem Chair.askHalt_ring (x : Chair) (h : Bool) : (x.askHalt h).ring = x.ring := by unfold Chair.askHalt; split <;> [rfl; (split <;> rfl)]
@[simp] theorem Chair.askHalt_cores (x : Chair) (h : Bool) : (x.askHalt h).cores = x.cores := by unfold Chair.askHalt; split <;> [rfl; (split <;> rfl)]
@[simp] theorem Chair.askHalt_handles (x : Chair) (h : Bool) : (x.askHalt h).handles = x.handles := by unfold Chair.askHalt; split <;> [rfl; (split <;> rfl)]
@[simp] theorem Chair.askHalt_quads (x : Chair) (h : Bool) : (x.askHalt h).quads = x.quads := by unfold Chair.askHalt; split <;> [rfl; (split <;> rfl)]
@[simp] theorem Chair.askHalt_gfault (x : Chair) (h : Bool) : (x.askHalt h).gfault = x.gfault := by unfold Chair.askHalt; split <;> [rfl; (split <;> rfl)]
@[simp] theorem Chair.askHalt_frame (x : Chair) (h : Bool) : (x.askHalt h).frame = x.frame := by unfold Chair.askHalt; split <;> [rfl; (split <;> rfl)]
@[simp] theorem Chair.askHalt_withdrawn (x : Chair) (h : Bool) : (x.askHalt h).withdrawn = x.withdrawn := by unfold Chair.askHalt; split <;> [rfl; (split <;> rfl)]
@[simp] theorem Chair.askHalt_started (x : Chair) (h : Bool) : (x.askHalt h).started = x.started := by unfold Chair.askHalt; split <;> [rfl; (split <;> rfl)]

/-! ## The core -/

@[simp] theorem Core.setQueue_phase (y : Core) (e : Nat) (q : List QWord) : (y.setQueue e q).phase = y.phase := rfl
@[simp] theorem Core.setQueue_pos (y : Core) (e : Nat) (q : List QWord) : (y.setQueue e q).pos = y.pos := rfl
@[simp] theorem Core.setQueue_tag (y : Core) (e : Nat) (q : List QWord) : (y.setQueue e q).tag = y.tag := rfl
@[simp] theorem Core.setQueue_d (y : Core) (e : Nat) (q : List QWord) : (y.setQueue e q).d = y.d := rfl
@[simp] theorem Core.setQueue_spc (y : Core) (e : Nat) (q : List QWord) : (y.setQueue e q).spc = y.spc := rfl
@[simp] theorem Core.setQueue_spc0 (y : Core) (e : Nat) (q : List QWord) : (y.setQueue e q).spc0 = y.spc0 := rfl
@[simp] theorem Core.setQueue_dgpc (y : Core) (e : Nat) (q : List QWord) : (y.setQueue e q).dgpc = y.dgpc := rfl
@[simp] theorem Core.setQueue_dlis (y : Core) (e : Nat) (q : List QWord) : (y.setQueue e q).dlis = y.dlis := rfl
@[simp] theorem Core.setQueue_pin (y : Core) (e : Nat) (q : List QWord) : (y.setQueue e q).pin = y.pin := rfl
@[simp] theorem Core.setQueue_sp (y : Core) (e : Nat) (q : List QWord) : (y.setQueue e q).sp = y.sp := rfl
@[simp] theorem Core.setQueue_taken (y : Core) (e : Nat) (q : List QWord) : (y.setQueue e q).taken = y.taken := rfl
@[simp] theorem Core.setQueue_buf (y : Core) (e : Nat) (q : List QWord) : (y.setQueue e q).buf = y.buf := rfl
@[simp] theorem Core.setQueue_sem (y : Core) (e : Nat) (q : List QWord) : (y.setQueue e q).sem = y.sem := rfl
@[simp] theorem Core.setQueue_waited (y : Core) (e : Nat) (q : List QWord) : (y.setQueue e q).waited = y.waited := rfl
@[simp] theorem Core.setQueue_since (y : Core) (e : Nat) (q : List QWord) : (y.setQueue e q).since = y.since := rfl
@[simp] theorem Core.setQueue_issued (y : Core) (e : Nat) (q : List QWord) : (y.setQueue e q).issued = y.issued := rfl
@[simp] theorem Core.setQueue_adds (y : Core) (e : Nat) (q : List QWord) : (y.setQueue e q).adds = y.adds := rfl
@[simp] theorem Core.setQueue_took (y : Core) (e : Nat) (q : List QWord) : (y.setQueue e q).took = y.took := rfl
@[simp] theorem Core.setQueue_rec_ (y : Core) (e : Nat) (q : List QWord) : (y.setQueue e q).rec_ = y.rec_ := rfl
@[simp] theorem Core.setQueue_a (y : Core) (e : Nat) (q : List QWord) : (y.setQueue e q).a = y.a := rfl
@[simp] theorem Core.setQueue_x (y : Core) (e : Nat) (q : List QWord) : (y.setQueue e q).x = y.x := rfl
@[simp] theorem Core.setQueue_m (y : Core) (e : Nat) (q : List QWord) : (y.setQueue e q).m = y.m := rfl
@[simp] theorem Core.setQueue_t (y : Core) (e : Nat) (q : List QWord) : (y.setQueue e q).t = y.t := rfl
@[simp] theorem Core.setQueue_n (y : Core) (e : Nat) (q : List QWord) : (y.setQueue e q).n = y.n := rfl
@[simp] theorem Core.setQueue_f (y : Core) (e : Nat) (q : List QWord) : (y.setQueue e q).f = y.f := rfl
@[simp] theorem Core.setQueue_spad (y : Core) (e : Nat) (q : List QWord) : (y.setQueue e q).spad = y.spad := rfl
@[simp] theorem Core.setQueue_pushed (y : Core) (e : Nat) (q : List QWord) : (y.setQueue e q).pushed = y.pushed := rfl
@[simp] theorem Core.setQueue_later (y : Core) (e : Nat) (q : List QWord) : (y.setQueue e q).later = y.later := rfl

@[simp] theorem Core.setSem_phase (y : Core) (k v : Nat) : (y.setSem k v).phase = y.phase := by unfold Core.setSem; split <;> rfl
@[simp] theorem Core.setSem_pos (y : Core) (k v : Nat) : (y.setSem k v).pos = y.pos := by unfold Core.setSem; split <;> rfl
@[simp] theorem Core.setSem_tag (y : Core) (k v : Nat) : (y.setSem k v).tag = y.tag := by unfold Core.setSem; split <;> rfl
@[simp] theorem Core.setSem_d (y : Core) (k v : Nat) : (y.setSem k v).d = y.d := by unfold Core.setSem; split <;> rfl
@[simp] theorem Core.setSem_spc (y : Core) (k v : Nat) : (y.setSem k v).spc = y.spc := by unfold Core.setSem; split <;> rfl
@[simp] theorem Core.setSem_spc0 (y : Core) (k v : Nat) : (y.setSem k v).spc0 = y.spc0 := by unfold Core.setSem; split <;> rfl
@[simp] theorem Core.setSem_dgpc (y : Core) (k v : Nat) : (y.setSem k v).dgpc = y.dgpc := by unfold Core.setSem; split <;> rfl
@[simp] theorem Core.setSem_dlis (y : Core) (k v : Nat) : (y.setSem k v).dlis = y.dlis := by unfold Core.setSem; split <;> rfl
@[simp] theorem Core.setSem_pin (y : Core) (k v : Nat) : (y.setSem k v).pin = y.pin := by unfold Core.setSem; split <;> rfl
@[simp] theorem Core.setSem_sp (y : Core) (k v : Nat) : (y.setSem k v).sp = y.sp := by unfold Core.setSem; split <;> rfl
@[simp] theorem Core.setSem_taken (y : Core) (k v : Nat) : (y.setSem k v).taken = y.taken := by unfold Core.setSem; split <;> rfl
@[simp] theorem Core.setSem_buf (y : Core) (k v : Nat) : (y.setSem k v).buf = y.buf := by unfold Core.setSem; split <;> rfl
@[simp] theorem Core.setSem_queues (y : Core) (k v : Nat) : (y.setSem k v).queues = y.queues := by unfold Core.setSem; split <;> rfl
@[simp] theorem Core.setSem_waited (y : Core) (k v : Nat) : (y.setSem k v).waited = y.waited := by unfold Core.setSem; split <;> rfl
@[simp] theorem Core.setSem_since (y : Core) (k v : Nat) : (y.setSem k v).since = y.since := by unfold Core.setSem; split <;> rfl
@[simp] theorem Core.setSem_issued (y : Core) (k v : Nat) : (y.setSem k v).issued = y.issued := by unfold Core.setSem; split <;> rfl
@[simp] theorem Core.setSem_adds (y : Core) (k v : Nat) : (y.setSem k v).adds = y.adds := by unfold Core.setSem; split <;> rfl
@[simp] theorem Core.setSem_took (y : Core) (k v : Nat) : (y.setSem k v).took = y.took := by unfold Core.setSem; split <;> rfl
@[simp] theorem Core.setSem_rec_ (y : Core) (k v : Nat) : (y.setSem k v).rec_ = y.rec_ := by unfold Core.setSem; split <;> rfl
@[simp] theorem Core.setSem_a (y : Core) (k v : Nat) : (y.setSem k v).a = y.a := by unfold Core.setSem; split <;> rfl
@[simp] theorem Core.setSem_x (y : Core) (k v : Nat) : (y.setSem k v).x = y.x := by unfold Core.setSem; split <;> rfl
@[simp] theorem Core.setSem_m (y : Core) (k v : Nat) : (y.setSem k v).m = y.m := by unfold Core.setSem; split <;> rfl
@[simp] theorem Core.setSem_t (y : Core) (k v : Nat) : (y.setSem k v).t = y.t := by unfold Core.setSem; split <;> rfl
@[simp] theorem Core.setSem_n (y : Core) (k v : Nat) : (y.setSem k v).n = y.n := by unfold Core.setSem; split <;> rfl
@[simp] theorem Core.setSem_f (y : Core) (k v : Nat) : (y.setSem k v).f = y.f := by unfold Core.setSem; split <;> rfl
@[simp] theorem Core.setSem_spad (y : Core) (k v : Nat) : (y.setSem k v).spad = y.spad := by unfold Core.setSem; split <;> rfl
@[simp] theorem Core.setSem_pushed (y : Core) (k v : Nat) : (y.setSem k v).pushed = y.pushed := by unfold Core.setSem; split <;> rfl
@[simp] theorem Core.setSem_later (y : Core) (k v : Nat) : (y.setSem k v).later = y.later := by unfold Core.setSem; split <;> rfl

@[simp] theorem Core.takeSem_phase (y : Core) (k n t : Nat) : (y.takeSem k n t).phase = y.phase := by simp [Core.takeSem]
@[simp] theorem Core.takeSem_pos (y : Core) (k n t : Nat) : (y.takeSem k n t).pos = y.pos := by simp [Core.takeSem]
@[simp] theorem Core.takeSem_tag (y : Core) (k n t : Nat) : (y.takeSem k n t).tag = y.tag := by simp [Core.takeSem]
@[simp] theorem Core.takeSem_d (y : Core) (k n t : Nat) : (y.takeSem k n t).d = y.d := by simp [Core.takeSem]
@[simp] theorem Core.takeSem_spc (y : Core) (k n t : Nat) : (y.takeSem k n t).spc = y.spc := by simp [Core.takeSem]
@[simp] theorem Core.takeSem_spc0 (y : Core) (k n t : Nat) : (y.takeSem k n t).spc0 = y.spc0 := by simp [Core.takeSem]
@[simp] theorem Core.takeSem_dgpc (y : Core) (k n t : Nat) : (y.takeSem k n t).dgpc = y.dgpc := by simp [Core.takeSem]
@[simp] theorem Core.takeSem_dlis (y : Core) (k n t : Nat) : (y.takeSem k n t).dlis = y.dlis := by simp [Core.takeSem]
@[simp] theorem Core.takeSem_pin (y : Core) (k n t : Nat) : (y.takeSem k n t).pin = y.pin := by simp [Core.takeSem]
@[simp] theorem Core.takeSem_sp (y : Core) (k n t : Nat) : (y.takeSem k n t).sp = y.sp := by simp [Core.takeSem]
@[simp] theorem Core.takeSem_taken (y : Core) (k n t : Nat) : (y.takeSem k n t).taken = y.taken := by simp [Core.takeSem]
@[simp] theorem Core.takeSem_buf (y : Core) (k n t : Nat) : (y.takeSem k n t).buf = y.buf := by simp [Core.takeSem]
@[simp] theorem Core.takeSem_queues (y : Core) (k n t : Nat) : (y.takeSem k n t).queues = y.queues := by simp [Core.takeSem]
@[simp] theorem Core.takeSem_waited (y : Core) (k n t : Nat) : (y.takeSem k n t).waited = y.waited := by simp [Core.takeSem]
@[simp] theorem Core.takeSem_since (y : Core) (k n t : Nat) : (y.takeSem k n t).since = y.since := by simp [Core.takeSem]
@[simp] theorem Core.takeSem_issued (y : Core) (k n t : Nat) : (y.takeSem k n t).issued = y.issued := by simp [Core.takeSem]
@[simp] theorem Core.takeSem_adds (y : Core) (k n t : Nat) : (y.takeSem k n t).adds = y.adds := by simp [Core.takeSem]
@[simp] theorem Core.takeSem_rec_ (y : Core) (k n t : Nat) : (y.takeSem k n t).rec_ = y.rec_ := by simp [Core.takeSem]
@[simp] theorem Core.takeSem_a (y : Core) (k n t : Nat) : (y.takeSem k n t).a = y.a := by simp [Core.takeSem]
@[simp] theorem Core.takeSem_x (y : Core) (k n t : Nat) : (y.takeSem k n t).x = y.x := by simp [Core.takeSem]
@[simp] theorem Core.takeSem_m (y : Core) (k n t : Nat) : (y.takeSem k n t).m = y.m := by simp [Core.takeSem]
@[simp] theorem Core.takeSem_t (y : Core) (k n t : Nat) : (y.takeSem k n t).t = y.t := by simp [Core.takeSem]
@[simp] theorem Core.takeSem_n (y : Core) (k n t : Nat) : (y.takeSem k n t).n = y.n := by simp [Core.takeSem]
@[simp] theorem Core.takeSem_f (y : Core) (k n t : Nat) : (y.takeSem k n t).f = y.f := by simp [Core.takeSem]
@[simp] theorem Core.takeSem_spad (y : Core) (k n t : Nat) : (y.takeSem k n t).spad = y.spad := by simp [Core.takeSem]
@[simp] theorem Core.takeSem_pushed (y : Core) (k n t : Nat) : (y.takeSem k n t).pushed = y.pushed := by simp [Core.takeSem]
@[simp] theorem Core.takeSem_later (y : Core) (k n t : Nat) : (y.takeSem k n t).later = y.later := by simp [Core.takeSem]

@[simp] theorem Core.raise_phase (y : Core) (f : Fl) : (y.raise f).phase = y.phase := rfl
@[simp] theorem Core.raise_pos (y : Core) (f : Fl) : (y.raise f).pos = y.pos := rfl
@[simp] theorem Core.raise_tag (y : Core) (f : Fl) : (y.raise f).tag = y.tag := rfl
@[simp] theorem Core.raise_d (y : Core) (f : Fl) : (y.raise f).d = y.d := rfl
@[simp] theorem Core.raise_spc (y : Core) (f : Fl) : (y.raise f).spc = y.spc := rfl
@[simp] theorem Core.raise_spc0 (y : Core) (f : Fl) : (y.raise f).spc0 = y.spc0 := rfl
@[simp] theorem Core.raise_dgpc (y : Core) (f : Fl) : (y.raise f).dgpc = y.dgpc := rfl
@[simp] theorem Core.raise_dlis (y : Core) (f : Fl) : (y.raise f).dlis = y.dlis := rfl
@[simp] theorem Core.raise_pin (y : Core) (f : Fl) : (y.raise f).pin = y.pin := rfl
@[simp] theorem Core.raise_sp (y : Core) (f : Fl) : (y.raise f).sp = y.sp := rfl
@[simp] theorem Core.raise_taken (y : Core) (f : Fl) : (y.raise f).taken = y.taken := rfl
@[simp] theorem Core.raise_buf (y : Core) (f : Fl) : (y.raise f).buf = y.buf := rfl
@[simp] theorem Core.raise_queues (y : Core) (f : Fl) : (y.raise f).queues = y.queues := rfl
@[simp] theorem Core.raise_sem (y : Core) (f : Fl) : (y.raise f).sem = y.sem := rfl
@[simp] theorem Core.raise_waited (y : Core) (f : Fl) : (y.raise f).waited = y.waited := rfl
@[simp] theorem Core.raise_since (y : Core) (f : Fl) : (y.raise f).since = y.since := rfl
@[simp] theorem Core.raise_issued (y : Core) (f : Fl) : (y.raise f).issued = y.issued := rfl
@[simp] theorem Core.raise_adds (y : Core) (f : Fl) : (y.raise f).adds = y.adds := rfl
@[simp] theorem Core.raise_took (y : Core) (f : Fl) : (y.raise f).took = y.took := rfl
@[simp] theorem Core.raise_rec_ (y : Core) (f : Fl) : (y.raise f).rec_ = y.rec_ := rfl
@[simp] theorem Core.raise_a (y : Core) (f : Fl) : (y.raise f).a = y.a := rfl
@[simp] theorem Core.raise_m (y : Core) (f : Fl) : (y.raise f).m = y.m := rfl
@[simp] theorem Core.raise_t (y : Core) (f : Fl) : (y.raise f).t = y.t := rfl
@[simp] theorem Core.raise_n (y : Core) (f : Fl) : (y.raise f).n = y.n := rfl
@[simp] theorem Core.raise_f (y : Core) (f : Fl) : (y.raise f).f = y.f := rfl
@[simp] theorem Core.raise_spad (y : Core) (f : Fl) : (y.raise f).spad = y.spad := rfl
@[simp] theorem Core.raise_pushed (y : Core) (f : Fl) : (y.raise f).pushed = y.pushed := rfl
@[simp] theorem Core.raise_later (y : Core) (f : Fl) : (y.raise f).later = y.later := rfl

@[simp] theorem Core.retire_phase (y : Core) (e t : Nat) : (y.retire e t).phase = y.phase := by unfold Core.retire; split <;> rfl
@[simp] theorem Core.retire_pos (y : Core) (e t : Nat) : (y.retire e t).pos = y.pos := by unfold Core.retire; split <;> rfl
@[simp] theorem Core.retire_tag (y : Core) (e t : Nat) : (y.retire e t).tag = y.tag := by unfold Core.retire; split <;> rfl
@[simp] theorem Core.retire_d (y : Core) (e t : Nat) : (y.retire e t).d = y.d := by unfold Core.retire; split <;> rfl
@[simp] theorem Core.retire_spc (y : Core) (e t : Nat) : (y.retire e t).spc = y.spc := by unfold Core.retire; split <;> rfl
@[simp] theorem Core.retire_spc0 (y : Core) (e t : Nat) : (y.retire e t).spc0 = y.spc0 := by unfold Core.retire; split <;> rfl
@[simp] theorem Core.retire_dgpc (y : Core) (e t : Nat) : (y.retire e t).dgpc = y.dgpc := by unfold Core.retire; split <;> rfl
@[simp] theorem Core.retire_dlis (y : Core) (e t : Nat) : (y.retire e t).dlis = y.dlis := by unfold Core.retire; split <;> rfl
@[simp] theorem Core.retire_pin (y : Core) (e t : Nat) : (y.retire e t).pin = y.pin := by unfold Core.retire; split <;> rfl
@[simp] theorem Core.retire_sp (y : Core) (e t : Nat) : (y.retire e t).sp = y.sp := by unfold Core.retire; split <;> rfl
@[simp] theorem Core.retire_taken (y : Core) (e t : Nat) : (y.retire e t).taken = y.taken := by unfold Core.retire; split <;> rfl
@[simp] theorem Core.retire_buf (y : Core) (e t : Nat) : (y.retire e t).buf = y.buf := by unfold Core.retire; split <;> rfl
@[simp] theorem Core.retire_sem (y : Core) (e t : Nat) : (y.retire e t).sem = y.sem := by unfold Core.retire; split <;> rfl
@[simp] theorem Core.retire_adds (y : Core) (e t : Nat) : (y.retire e t).adds = y.adds := by unfold Core.retire; split <;> rfl
@[simp] theorem Core.retire_took (y : Core) (e t : Nat) : (y.retire e t).took = y.took := by unfold Core.retire; split <;> rfl
@[simp] theorem Core.retire_rec_ (y : Core) (e t : Nat) : (y.retire e t).rec_ = y.rec_ := by unfold Core.retire; split <;> rfl
@[simp] theorem Core.retire_a (y : Core) (e t : Nat) : (y.retire e t).a = y.a := by unfold Core.retire; split <;> rfl
@[simp] theorem Core.retire_x (y : Core) (e t : Nat) : (y.retire e t).x = y.x := by unfold Core.retire; split <;> rfl
@[simp] theorem Core.retire_m (y : Core) (e t : Nat) : (y.retire e t).m = y.m := by unfold Core.retire; split <;> rfl
@[simp] theorem Core.retire_t (y : Core) (e t : Nat) : (y.retire e t).t = y.t := by unfold Core.retire; split <;> rfl
@[simp] theorem Core.retire_n (y : Core) (e t : Nat) : (y.retire e t).n = y.n := by unfold Core.retire; split <;> rfl
/-- A FAB word that starts leaves the registers that it has read (R298). -/
@[simp] theorem Core.retire_f (y : Core) (e t : Nat) :
    (y.retire e t).f = if e = 6 then { y.f with cap := none } else y.f := by
  unfold Core.retire; split <;> rfl
@[simp] theorem Core.retire_spad (y : Core) (e t : Nat) : (y.retire e t).spad = y.spad := by unfold Core.retire; split <;> rfl
@[simp] theorem Core.retire_pushed (y : Core) (e t : Nat) : (y.retire e t).pushed = y.pushed := by unfold Core.retire; split <;> rfl
@[simp] theorem Core.retire_later (y : Core) (e t : Nat) : (y.retire e t).later = y.later := by unfold Core.retire; split <;> rfl

theorem Core.semv_setSem (y : Core) (k j v : Nat) :
    (y.setSem k v).semv j = if j = k ∧ k ≠ 0 then v else y.semv j := by
  unfold Core.semv Core.setSem
  by_cases hk : k = 0
  · simp [hk]
  · by_cases hj : j = 0
    · subst hj
      have : ¬(0 = k) := fun h => hk h.symm
      simp [this]
    · by_cases h : j = k
      · subst h; simp [hk]
      · simp [hk, hj, h]

@[simp] theorem Core.semv_zero (y : Core) : y.semv 0 = 0 := rfl

theorem Core.queue_setQueue (y : Core) (e j : Nat) (q : List QWord) :
    (y.setQueue e q).queue j = if j = e then q else y.queue j := SMap.get_put [] y.queues e j q

/-- The unit at the head has left its queue; the other queues are as they were. -/
theorem Core.queue_retire (y : Core) (e j t : Nat) :
    (y.retire e t).queue j = if j = e then ((headUnit (y.queue e)).map (·.2.2)).getD (y.queue e) else y.queue j := by
  unfold Core.retire
  by_cases h : j = e
  · subst h
    cases hq : headUnit (y.queue j) with
    | none => simp [Core.queue]
    | some r =>
      have := Core.queue_setQueue y j j r.2.2
      simpa [Core.queue] using this
  · cases hq : headUnit (y.queue e) with
    | none => simp [h, Core.queue]
    | some r =>
      have := Core.queue_setQueue y e j r.2.2
      simpa [h, Core.queue] using this

/-! ## The gaffer -/

@[simp] theorem Gaffer.setReg_ready (g : Gaffer) (r : BitVec 6) (v : Word) : (g.setReg r v).ready = g.ready := by unfold Gaffer.setReg; split <;> rfl
@[simp] theorem Gaffer.setReg_pc (g : Gaffer) (r : BitVec 6) (v : Word) : (g.setReg r v).pc = g.pc := by unfold Gaffer.setReg; split <;> rfl
@[simp] theorem Gaffer.setReg_isram (g : Gaffer) (r : BitVec 6) (v : Word) : (g.setReg r v).isram = g.isram := by unfold Gaffer.setReg; split <;> rfl
@[simp] theorem Gaffer.setReg_dsram (g : Gaffer) (r : BitVec 6) (v : Word) : (g.setReg r v).dsram = g.dsram := by unfold Gaffer.setReg; split <;> rfl
@[simp] theorem Gaffer.setReg_levels (g : Gaffer) (r : BitVec 6) (v : Word) : (g.setReg r v).levels = g.levels := by unfold Gaffer.setReg; split <;> rfl
@[simp] theorem Gaffer.setReg_depth (g : Gaffer) (r : BitVec 6) (v : Word) : (g.setReg r v).depth = g.depth := by unfold Gaffer.setReg; split <;> rfl
@[simp] theorem Gaffer.setReg_head (g : Gaffer) (r : BitVec 6) (v : Word) : (g.setReg r v).head = g.head := by unfold Gaffer.setReg; split <;> rfl
@[simp] theorem Gaffer.setReg_prom (g : Gaffer) (r : BitVec 6) (v : Word) : (g.setReg r v).prom = g.prom := by unfold Gaffer.setReg; split <;> rfl
@[simp] theorem Gaffer.setReg_ds (g : Gaffer) (r : BitVec 6) (v : Word) : (g.setReg r v).ds = g.ds := by unfold Gaffer.setReg; split <;> rfl
@[simp] theorem Gaffer.setReg_dt (g : Gaffer) (r : BitVec 6) (v : Word) : (g.setReg r v).dt = g.dt := by unfold Gaffer.setReg; split <;> rfl
@[simp] theorem Gaffer.setReg_taken (g : Gaffer) (r : BitVec 6) (v : Word) : (g.setReg r v).taken = g.taken := by unfold Gaffer.setReg; split <;> rfl
@[simp] theorem Gaffer.setReg_leave (g : Gaffer) (r : BitVec 6) (v : Word) : (g.setReg r v).leave = g.leave := by unfold Gaffer.setReg; split <;> rfl
@[simp] theorem Gaffer.setReg_lits (g : Gaffer) (r : BitVec 6) (v : Word) : (g.setReg r v).lits = g.lits := by unfold Gaffer.setReg; split <;> rfl
@[simp] theorem Gaffer.setReg_emitted (g : Gaffer) (r : BitVec 6) (v : Word) : (g.setReg r v).emitted = g.emitted := by unfold Gaffer.setReg; split <;> rfl
@[simp] theorem Gaffer.setReg_breaks (g : Gaffer) (r : BitVec 6) (v : Word) : (g.setReg r v).breaks = g.breaks := by unfold Gaffer.setReg; split <;> rfl
@[simp] theorem Gaffer.setReg_shadows (g : Gaffer) (r : BitVec 6) (v : Word) : (g.setReg r v).shadows = g.shadows := by unfold Gaffer.setReg; split <;> rfl
@[simp] theorem Gaffer.setReg_resume (g : Gaffer) (r : BitVec 6) (v : Word) : (g.setReg r v).resume = g.resume := by unfold Gaffer.setReg; split <;> rfl
@[simp] theorem Gaffer.setReg_drain (g : Gaffer) (r : BitVec 6) (v : Word) : (g.setReg r v).drain = g.drain := by unfold Gaffer.setReg; split <;> rfl
@[simp] theorem Gaffer.setReg_untaken (g : Gaffer) (r : BitVec 6) (v : Word) : (g.setReg r v).untaken = g.untaken := by unfold Gaffer.setReg; split <;> rfl
@[simp] theorem Gaffer.setReg_short (g : Gaffer) (r : BitVec 6) (v : Word) : (g.setReg r v).short = g.short := by unfold Gaffer.setReg; split <;> rfl
@[simp] theorem Gaffer.setReg_save (g : Gaffer) (r : BitVec 6) (v : Word) : (g.setReg r v).save = g.save := by unfold Gaffer.setReg; split <;> rfl
@[simp] theorem Gaffer.setReg_waited (g : Gaffer) (r : BitVec 6) (v : Word) : (g.setReg r v).waited = g.waited := by unfold Gaffer.setReg; split <;> rfl
@[simp] theorem Gaffer.setReg_waitOn (g : Gaffer) (r : BitVec 6) (v : Word) : (g.setReg r v).waitOn = g.waitOn := by unfold Gaffer.setReg; split <;> rfl
@[simp] theorem Gaffer.setReg_exited (g : Gaffer) (r : BitVec 6) (v : Word) : (g.setReg r v).exited = g.exited := by unfold Gaffer.setReg; split <;> rfl
@[simp] theorem Gaffer.setReg_quiet (g : Gaffer) (r : BitVec 6) (v : Word) : (g.setReg r v).quiet = g.quiet := by unfold Gaffer.setReg; split <;> rfl
@[simp] theorem Gaffer.setReg_issued (g : Gaffer) (r : BitVec 6) (v : Word) : (g.setReg r v).issued = g.issued := by unfold Gaffer.setReg; split <;> rfl

@[simp] theorem Gaffer.setPromise_g (g : Gaffer) (c k v : Nat) : (g.setPromise c k v).g = g.g := by unfold Gaffer.setPromise; split <;> rfl
@[simp] theorem Gaffer.setPromise_ready (g : Gaffer) (c k v : Nat) : (g.setPromise c k v).ready = g.ready := by unfold Gaffer.setPromise; split <;> rfl
@[simp] theorem Gaffer.setPromise_pc (g : Gaffer) (c k v : Nat) : (g.setPromise c k v).pc = g.pc := by unfold Gaffer.setPromise; split <;> rfl
@[simp] theorem Gaffer.setPromise_isram (g : Gaffer) (c k v : Nat) : (g.setPromise c k v).isram = g.isram := by unfold Gaffer.setPromise; split <;> rfl
@[simp] theorem Gaffer.setPromise_dsram (g : Gaffer) (c k v : Nat) : (g.setPromise c k v).dsram = g.dsram := by unfold Gaffer.setPromise; split <;> rfl
@[simp] theorem Gaffer.setPromise_levels (g : Gaffer) (c k v : Nat) : (g.setPromise c k v).levels = g.levels := by unfold Gaffer.setPromise; split <;> rfl
@[simp] theorem Gaffer.setPromise_depth (g : Gaffer) (c k v : Nat) : (g.setPromise c k v).depth = g.depth := by unfold Gaffer.setPromise; split <;> rfl
@[simp] theorem Gaffer.setPromise_head (g : Gaffer) (c k v : Nat) : (g.setPromise c k v).head = g.head := by unfold Gaffer.setPromise; split <;> rfl
@[simp] theorem Gaffer.setPromise_ds (g : Gaffer) (c k v : Nat) : (g.setPromise c k v).ds = g.ds := by unfold Gaffer.setPromise; split <;> rfl
@[simp] theorem Gaffer.setPromise_dt (g : Gaffer) (c k v : Nat) : (g.setPromise c k v).dt = g.dt := by unfold Gaffer.setPromise; split <;> rfl
@[simp] theorem Gaffer.setPromise_taken (g : Gaffer) (c k v : Nat) : (g.setPromise c k v).taken = g.taken := by unfold Gaffer.setPromise; split <;> rfl
@[simp] theorem Gaffer.setPromise_leave (g : Gaffer) (c k v : Nat) : (g.setPromise c k v).leave = g.leave := by unfold Gaffer.setPromise; split <;> rfl
@[simp] theorem Gaffer.setPromise_lits (g : Gaffer) (c k v : Nat) : (g.setPromise c k v).lits = g.lits := by unfold Gaffer.setPromise; split <;> rfl
@[simp] theorem Gaffer.setPromise_emitted (g : Gaffer) (c k v : Nat) : (g.setPromise c k v).emitted = g.emitted := by unfold Gaffer.setPromise; split <;> rfl
@[simp] theorem Gaffer.setPromise_breaks (g : Gaffer) (c k v : Nat) : (g.setPromise c k v).breaks = g.breaks := by unfold Gaffer.setPromise; split <;> rfl
@[simp] theorem Gaffer.setPromise_shadows (g : Gaffer) (c k v : Nat) : (g.setPromise c k v).shadows = g.shadows := by unfold Gaffer.setPromise; split <;> rfl
@[simp] theorem Gaffer.setPromise_resume (g : Gaffer) (c k v : Nat) : (g.setPromise c k v).resume = g.resume := by unfold Gaffer.setPromise; split <;> rfl
@[simp] theorem Gaffer.setPromise_drain (g : Gaffer) (c k v : Nat) : (g.setPromise c k v).drain = g.drain := by unfold Gaffer.setPromise; split <;> rfl
@[simp] theorem Gaffer.setPromise_untaken (g : Gaffer) (c k v : Nat) : (g.setPromise c k v).untaken = g.untaken := by unfold Gaffer.setPromise; split <;> rfl
@[simp] theorem Gaffer.setPromise_short (g : Gaffer) (c k v : Nat) : (g.setPromise c k v).short = g.short := by unfold Gaffer.setPromise; split <;> rfl
@[simp] theorem Gaffer.setPromise_save (g : Gaffer) (c k v : Nat) : (g.setPromise c k v).save = g.save := by unfold Gaffer.setPromise; split <;> rfl
@[simp] theorem Gaffer.setPromise_waited (g : Gaffer) (c k v : Nat) : (g.setPromise c k v).waited = g.waited := by unfold Gaffer.setPromise; split <;> rfl
@[simp] theorem Gaffer.setPromise_waitOn (g : Gaffer) (c k v : Nat) : (g.setPromise c k v).waitOn = g.waitOn := by unfold Gaffer.setPromise; split <;> rfl
@[simp] theorem Gaffer.setPromise_exited (g : Gaffer) (c k v : Nat) : (g.setPromise c k v).exited = g.exited := by unfold Gaffer.setPromise; split <;> rfl
@[simp] theorem Gaffer.setPromise_quiet (g : Gaffer) (c k v : Nat) : (g.setPromise c k v).quiet = g.quiet := by unfold Gaffer.setPromise; split <;> rfl
@[simp] theorem Gaffer.setPromise_issued (g : Gaffer) (c k v : Nat) : (g.setPromise c k v).issued = g.issued := by unfold Gaffer.setPromise; split <;> rfl

@[simp] theorem Gaffer.setLevel_g (g : Gaffer) (lv : Nat) (l : Level) : (g.setLevel lv l).g = g.g := rfl
@[simp] theorem Gaffer.setLevel_ready (g : Gaffer) (lv : Nat) (l : Level) : (g.setLevel lv l).ready = g.ready := rfl
@[simp] theorem Gaffer.setLevel_pc (g : Gaffer) (lv : Nat) (l : Level) : (g.setLevel lv l).pc = g.pc := rfl
@[simp] theorem Gaffer.setLevel_isram (g : Gaffer) (lv : Nat) (l : Level) : (g.setLevel lv l).isram = g.isram := rfl
@[simp] theorem Gaffer.setLevel_dsram (g : Gaffer) (lv : Nat) (l : Level) : (g.setLevel lv l).dsram = g.dsram := rfl
@[simp] theorem Gaffer.setLevel_depth (g : Gaffer) (lv : Nat) (l : Level) : (g.setLevel lv l).depth = g.depth := rfl
@[simp] theorem Gaffer.setLevel_head (g : Gaffer) (lv : Nat) (l : Level) : (g.setLevel lv l).head = g.head := rfl
@[simp] theorem Gaffer.setLevel_prom (g : Gaffer) (lv : Nat) (l : Level) : (g.setLevel lv l).prom = g.prom := rfl
@[simp] theorem Gaffer.setLevel_ds (g : Gaffer) (lv : Nat) (l : Level) : (g.setLevel lv l).ds = g.ds := rfl
@[simp] theorem Gaffer.setLevel_dt (g : Gaffer) (lv : Nat) (l : Level) : (g.setLevel lv l).dt = g.dt := rfl
@[simp] theorem Gaffer.setLevel_taken (g : Gaffer) (lv : Nat) (l : Level) : (g.setLevel lv l).taken = g.taken := rfl
@[simp] theorem Gaffer.setLevel_leave (g : Gaffer) (lv : Nat) (l : Level) : (g.setLevel lv l).leave = g.leave := rfl
@[simp] theorem Gaffer.setLevel_lits (g : Gaffer) (lv : Nat) (l : Level) : (g.setLevel lv l).lits = g.lits := rfl
@[simp] theorem Gaffer.setLevel_emitted (g : Gaffer) (lv : Nat) (l : Level) : (g.setLevel lv l).emitted = g.emitted := rfl
@[simp] theorem Gaffer.setLevel_breaks (g : Gaffer) (lv : Nat) (l : Level) : (g.setLevel lv l).breaks = g.breaks := rfl
@[simp] theorem Gaffer.setLevel_shadows (g : Gaffer) (lv : Nat) (l : Level) : (g.setLevel lv l).shadows = g.shadows := rfl
@[simp] theorem Gaffer.setLevel_resume (g : Gaffer) (lv : Nat) (l : Level) : (g.setLevel lv l).resume = g.resume := rfl
@[simp] theorem Gaffer.setLevel_drain (g : Gaffer) (lv : Nat) (l : Level) : (g.setLevel lv l).drain = g.drain := rfl
@[simp] theorem Gaffer.setLevel_untaken (g : Gaffer) (lv : Nat) (l : Level) : (g.setLevel lv l).untaken = g.untaken := rfl
@[simp] theorem Gaffer.setLevel_short (g : Gaffer) (lv : Nat) (l : Level) : (g.setLevel lv l).short = g.short := rfl
@[simp] theorem Gaffer.setLevel_save (g : Gaffer) (lv : Nat) (l : Level) : (g.setLevel lv l).save = g.save := rfl
@[simp] theorem Gaffer.setLevel_waited (g : Gaffer) (lv : Nat) (l : Level) : (g.setLevel lv l).waited = g.waited := rfl
@[simp] theorem Gaffer.setLevel_waitOn (g : Gaffer) (lv : Nat) (l : Level) : (g.setLevel lv l).waitOn = g.waitOn := rfl
@[simp] theorem Gaffer.setLevel_exited (g : Gaffer) (lv : Nat) (l : Level) : (g.setLevel lv l).exited = g.exited := rfl
@[simp] theorem Gaffer.setLevel_quiet (g : Gaffer) (lv : Nat) (l : Level) : (g.setLevel lv l).quiet = g.quiet := rfl
@[simp] theorem Gaffer.setLevel_issued (g : Gaffer) (lv : Nat) (l : Level) : (g.setLevel lv l).issued = g.issued := rfl

@[simp] theorem Gaffer.setSram_g (g : Gaffer) (a n v : Nat) : (g.setSram a n v).g = g.g := rfl
@[simp] theorem Gaffer.setSram_ready (g : Gaffer) (a n v : Nat) : (g.setSram a n v).ready = g.ready := rfl
@[simp] theorem Gaffer.setSram_pc (g : Gaffer) (a n v : Nat) : (g.setSram a n v).pc = g.pc := rfl
@[simp] theorem Gaffer.setSram_isram (g : Gaffer) (a n v : Nat) : (g.setSram a n v).isram = g.isram := rfl
@[simp] theorem Gaffer.setSram_levels (g : Gaffer) (a n v : Nat) : (g.setSram a n v).levels = g.levels := rfl
@[simp] theorem Gaffer.setSram_depth (g : Gaffer) (a n v : Nat) : (g.setSram a n v).depth = g.depth := rfl
@[simp] theorem Gaffer.setSram_head (g : Gaffer) (a n v : Nat) : (g.setSram a n v).head = g.head := rfl
@[simp] theorem Gaffer.setSram_prom (g : Gaffer) (a n v : Nat) : (g.setSram a n v).prom = g.prom := rfl
@[simp] theorem Gaffer.setSram_ds (g : Gaffer) (a n v : Nat) : (g.setSram a n v).ds = g.ds := rfl
@[simp] theorem Gaffer.setSram_dt (g : Gaffer) (a n v : Nat) : (g.setSram a n v).dt = g.dt := rfl
@[simp] theorem Gaffer.setSram_taken (g : Gaffer) (a n v : Nat) : (g.setSram a n v).taken = g.taken := rfl
@[simp] theorem Gaffer.setSram_leave (g : Gaffer) (a n v : Nat) : (g.setSram a n v).leave = g.leave := rfl
@[simp] theorem Gaffer.setSram_lits (g : Gaffer) (a n v : Nat) : (g.setSram a n v).lits = g.lits := rfl
@[simp] theorem Gaffer.setSram_emitted (g : Gaffer) (a n v : Nat) : (g.setSram a n v).emitted = g.emitted := rfl
@[simp] theorem Gaffer.setSram_breaks (g : Gaffer) (a n v : Nat) : (g.setSram a n v).breaks = g.breaks := rfl
@[simp] theorem Gaffer.setSram_shadows (g : Gaffer) (a n v : Nat) : (g.setSram a n v).shadows = g.shadows := rfl
@[simp] theorem Gaffer.setSram_resume (g : Gaffer) (a n v : Nat) : (g.setSram a n v).resume = g.resume := rfl
@[simp] theorem Gaffer.setSram_drain (g : Gaffer) (a n v : Nat) : (g.setSram a n v).drain = g.drain := rfl
@[simp] theorem Gaffer.setSram_untaken (g : Gaffer) (a n v : Nat) : (g.setSram a n v).untaken = g.untaken := rfl
@[simp] theorem Gaffer.setSram_short (g : Gaffer) (a n v : Nat) : (g.setSram a n v).short = g.short := rfl
@[simp] theorem Gaffer.setSram_save (g : Gaffer) (a n v : Nat) : (g.setSram a n v).save = g.save := rfl
@[simp] theorem Gaffer.setSram_waited (g : Gaffer) (a n v : Nat) : (g.setSram a n v).waited = g.waited := rfl
@[simp] theorem Gaffer.setSram_waitOn (g : Gaffer) (a n v : Nat) : (g.setSram a n v).waitOn = g.waitOn := rfl
@[simp] theorem Gaffer.setSram_exited (g : Gaffer) (a n v : Nat) : (g.setSram a n v).exited = g.exited := rfl
@[simp] theorem Gaffer.setSram_quiet (g : Gaffer) (a n v : Nat) : (g.setSram a n v).quiet = g.quiet := rfl
@[simp] theorem Gaffer.setSram_issued (g : Gaffer) (a n v : Nat) : (g.setSram a n v).issued = g.issued := rfl

@[simp] theorem Gaffer.spent_g (g : Gaffer) (t : Nat) : (g.spent t).g = g.g := rfl
@[simp] theorem Gaffer.spent_ready (g : Gaffer) (t : Nat) : (g.spent t).ready = g.ready := rfl
@[simp] theorem Gaffer.spent_pc (g : Gaffer) (t : Nat) : (g.spent t).pc = g.pc := rfl
@[simp] theorem Gaffer.spent_isram (g : Gaffer) (t : Nat) : (g.spent t).isram = g.isram := rfl
@[simp] theorem Gaffer.spent_dsram (g : Gaffer) (t : Nat) : (g.spent t).dsram = g.dsram := rfl
@[simp] theorem Gaffer.spent_levels (g : Gaffer) (t : Nat) : (g.spent t).levels = g.levels := rfl
@[simp] theorem Gaffer.spent_depth (g : Gaffer) (t : Nat) : (g.spent t).depth = g.depth := rfl
@[simp] theorem Gaffer.spent_head (g : Gaffer) (t : Nat) : (g.spent t).head = g.head := rfl
@[simp] theorem Gaffer.spent_prom (g : Gaffer) (t : Nat) : (g.spent t).prom = g.prom := rfl
@[simp] theorem Gaffer.spent_ds (g : Gaffer) (t : Nat) : (g.spent t).ds = g.ds := rfl
@[simp] theorem Gaffer.spent_dt (g : Gaffer) (t : Nat) : (g.spent t).dt = g.dt := rfl
@[simp] theorem Gaffer.spent_taken (g : Gaffer) (t : Nat) : (g.spent t).taken = g.taken := rfl
@[simp] theorem Gaffer.spent_leave (g : Gaffer) (t : Nat) : (g.spent t).leave = g.leave := rfl
@[simp] theorem Gaffer.spent_emitted (g : Gaffer) (t : Nat) : (g.spent t).emitted = g.emitted := rfl
@[simp] theorem Gaffer.spent_breaks (g : Gaffer) (t : Nat) : (g.spent t).breaks = g.breaks := rfl
@[simp] theorem Gaffer.spent_shadows (g : Gaffer) (t : Nat) : (g.spent t).shadows = g.shadows := rfl
@[simp] theorem Gaffer.spent_resume (g : Gaffer) (t : Nat) : (g.spent t).resume = g.resume := rfl
@[simp] theorem Gaffer.spent_drain (g : Gaffer) (t : Nat) : (g.spent t).drain = g.drain := rfl
@[simp] theorem Gaffer.spent_untaken (g : Gaffer) (t : Nat) : (g.spent t).untaken = g.untaken := rfl
@[simp] theorem Gaffer.spent_short (g : Gaffer) (t : Nat) : (g.spent t).short = g.short := rfl
@[simp] theorem Gaffer.spent_save (g : Gaffer) (t : Nat) : (g.spent t).save = g.save := rfl
@[simp] theorem Gaffer.spent_exited (g : Gaffer) (t : Nat) : (g.spent t).exited = g.exited := rfl
@[simp] theorem Gaffer.spent_quiet (g : Gaffer) (t : Nat) : (g.spent t).quiet = g.quiet := rfl

/-- g0 reads zero (R68). -/
@[simp] theorem Gaffer.reg_zero (g : Gaffer) : g.reg 0 = 0 := rfl

theorem Gaffer.reg_setReg (g : Gaffer) (r q : BitVec 6) (v : Word) :
    (g.setReg r v).reg q = if q = r ∧ r ≠ 0 then v else g.reg q := by
  unfold Gaffer.reg Gaffer.setReg
  by_cases hr : r = 0
  · rw [if_pos hr, if_neg (fun h : q = r ∧ r ≠ 0 => h.2 hr)]
  · rw [if_neg hr]
    by_cases hq : q = 0
    · subst hq; rw [if_pos rfl, if_pos rfl, if_neg (fun h => hr h.1.symm)]
    · rw [if_neg hq, if_neg hq, SMap.get_put]
      by_cases h : q = r
      · subst h; rw [if_pos rfl, if_pos ⟨rfl, hr⟩]
      · rw [if_neg (fun e => h (BitVec.eq_of_toNat_eq e)), if_neg (fun e => h e.1)]

/-! ## The A-side and the X-side -/

@[simp] theorem ASide.setReg_ag (y : ASide) (r : BitVec 5) (v : Word) : (y.setReg r v).ag = y.ag := by unfold ASide.setReg; split <;> rfl
@[simp] theorem ASide.setReg_v (y : ASide) (r : BitVec 5) (v : Word) : (y.setReg r v).v = y.v := by unfold ASide.setReg; split <;> rfl
@[simp] theorem ASide.setReg_vacr (y : ASide) (r : BitVec 5) (v : Word) : (y.setReg r v).vacr = y.vacr := by unfold ASide.setReg; split <;> rfl
@[simp] theorem ASide.setReg_pcfg (y : ASide) (r : BitVec 5) (v : Word) : (y.setReg r v).pcfg = y.pcfg := by unfold ASide.setReg; split <;> rfl
@[simp] theorem ASide.setReg_pqva (y : ASide) (r : BitVec 5) (v : Word) : (y.setReg r v).pqva = y.pqva := by unfold ASide.setReg; split <;> rfl
@[simp] theorem ASide.setReg_tags (y : ASide) (r : BitVec 5) (v : Word) : (y.setReg r v).tags = y.tags := by unfold ASide.setReg; split <;> rfl
@[simp] theorem ASide.setReg_pins (y : ASide) (r : BitVec 5) (v : Word) : (y.setReg r v).pins = y.pins := by unfold ASide.setReg; split <;> rfl
@[simp] theorem ASide.setReg_watch (y : ASide) (r : BitVec 5) (v : Word) : (y.setReg r v).watch = y.watch := by unfold ASide.setReg; split <;> rfl
@[simp] theorem ASide.setReg_tlb (y : ASide) (r : BitVec 5) (v : Word) : (y.setReg r v).tlb = y.tlb := by unfold ASide.setReg; split <;> rfl
@[simp] theorem ASide.setReg_skip (y : ASide) (r : BitVec 5) (v : Word) : (y.setReg r v).skip = y.skip := by unfold ASide.setReg; split <;> rfl
@[simp] theorem ASide.setReg_vacId (y : ASide) (r : BitVec 5) (v : Word) : (y.setReg r v).vacId = y.vacId := by unfold ASide.setReg; split <;> rfl
@[simp] theorem ASide.setReg_bq (y : ASide) (r : BitVec 5) (v : Word) : (y.setReg r v).bq = y.bq := by unfold ASide.setReg; split <;> rfl
@[simp] theorem ASide.setReg_pend (y : ASide) (r : BitVec 5) (v : Word) : (y.setReg r v).pend = y.pend := by unfold ASide.setReg; split <;> rfl
@[simp] theorem ASide.setReg_dq (y : ASide) (r : BitVec 5) (v : Word) : (y.setReg r v).dq = y.dq := by unfold ASide.setReg; split <;> rfl
@[simp] theorem ASide.setReg_sq (y : ASide) (r : BitVec 5) (v : Word) : (y.setReg r v).sq = y.sq := by unfold ASide.setReg; split <;> rfl
@[simp] theorem ASide.setReg_xa (y : ASide) (r : BitVec 5) (v : Word) : (y.setReg r v).xa = y.xa := by unfold ASide.setReg; split <;> rfl
@[simp] theorem ASide.setReg_ax (y : ASide) (r : BitVec 5) (v : Word) : (y.setReg r v).ax = y.ax := by unfold ASide.setReg; split <;> rfl
@[simp] theorem ASide.setReg_po (y : ASide) (r : BitVec 5) (v : Word) : (y.setReg r v).po = y.po := by unfold ASide.setReg; split <;> rfl
@[simp] theorem ASide.setReg_late (y : ASide) (r : BitVec 5) (v : Word) : (y.setReg r v).late = y.late := by unfold ASide.setReg; split <;> rfl

@[simp] theorem ASide.setGen_a (y : ASide) (g : BitVec 4) (x : AGen) : (y.setGen g x).a = y.a := rfl
@[simp] theorem ASide.setGen_v (y : ASide) (g : BitVec 4) (x : AGen) : (y.setGen g x).v = y.v := rfl
@[simp] theorem ASide.setGen_vacr (y : ASide) (g : BitVec 4) (x : AGen) : (y.setGen g x).vacr = y.vacr := rfl
@[simp] theorem ASide.setGen_pcfg (y : ASide) (g : BitVec 4) (x : AGen) : (y.setGen g x).pcfg = y.pcfg := rfl
@[simp] theorem ASide.setGen_pqva (y : ASide) (g : BitVec 4) (x : AGen) : (y.setGen g x).pqva = y.pqva := rfl
@[simp] theorem ASide.setGen_tags (y : ASide) (g : BitVec 4) (x : AGen) : (y.setGen g x).tags = y.tags := rfl
@[simp] theorem ASide.setGen_pins (y : ASide) (g : BitVec 4) (x : AGen) : (y.setGen g x).pins = y.pins := rfl
@[simp] theorem ASide.setGen_watch (y : ASide) (g : BitVec 4) (x : AGen) : (y.setGen g x).watch = y.watch := rfl
@[simp] theorem ASide.setGen_tlb (y : ASide) (g : BitVec 4) (x : AGen) : (y.setGen g x).tlb = y.tlb := rfl
@[simp] theorem ASide.setGen_skip (y : ASide) (g : BitVec 4) (x : AGen) : (y.setGen g x).skip = y.skip := rfl
@[simp] theorem ASide.setGen_vacId (y : ASide) (g : BitVec 4) (x : AGen) : (y.setGen g x).vacId = y.vacId := rfl
@[simp] theorem ASide.setGen_bq (y : ASide) (g : BitVec 4) (x : AGen) : (y.setGen g x).bq = y.bq := rfl
@[simp] theorem ASide.setGen_pend (y : ASide) (g : BitVec 4) (x : AGen) : (y.setGen g x).pend = y.pend := rfl
@[simp] theorem ASide.setGen_dq (y : ASide) (g : BitVec 4) (x : AGen) : (y.setGen g x).dq = y.dq := rfl
@[simp] theorem ASide.setGen_sq (y : ASide) (g : BitVec 4) (x : AGen) : (y.setGen g x).sq = y.sq := rfl
@[simp] theorem ASide.setGen_xa (y : ASide) (g : BitVec 4) (x : AGen) : (y.setGen g x).xa = y.xa := rfl
@[simp] theorem ASide.setGen_ax (y : ASide) (g : BitVec 4) (x : AGen) : (y.setGen g x).ax = y.ax := rfl
@[simp] theorem ASide.setGen_po (y : ASide) (g : BitVec 4) (x : AGen) : (y.setGen g x).po = y.po := rfl
@[simp] theorem ASide.setGen_late (y : ASide) (g : BitVec 4) (x : AGen) : (y.setGen g x).late = y.late := rfl

@[simp] theorem ASide.setTag_a (y : ASide) (st w : Nat) (t : Tag) : (y.setTag st w t).a = y.a := rfl
@[simp] theorem ASide.setTag_ag (y : ASide) (st w : Nat) (t : Tag) : (y.setTag st w t).ag = y.ag := rfl
@[simp] theorem ASide.setTag_v (y : ASide) (st w : Nat) (t : Tag) : (y.setTag st w t).v = y.v := rfl
@[simp] theorem ASide.setTag_vacr (y : ASide) (st w : Nat) (t : Tag) : (y.setTag st w t).vacr = y.vacr := rfl
@[simp] theorem ASide.setTag_pcfg (y : ASide) (st w : Nat) (t : Tag) : (y.setTag st w t).pcfg = y.pcfg := rfl
@[simp] theorem ASide.setTag_pqva (y : ASide) (st w : Nat) (t : Tag) : (y.setTag st w t).pqva = y.pqva := rfl
@[simp] theorem ASide.setTag_pins (y : ASide) (st w : Nat) (t : Tag) : (y.setTag st w t).pins = y.pins := rfl
@[simp] theorem ASide.setTag_watch (y : ASide) (st w : Nat) (t : Tag) : (y.setTag st w t).watch = y.watch := rfl
@[simp] theorem ASide.setTag_tlb (y : ASide) (st w : Nat) (t : Tag) : (y.setTag st w t).tlb = y.tlb := rfl
@[simp] theorem ASide.setTag_skip (y : ASide) (st w : Nat) (t : Tag) : (y.setTag st w t).skip = y.skip := rfl
@[simp] theorem ASide.setTag_vacId (y : ASide) (st w : Nat) (t : Tag) : (y.setTag st w t).vacId = y.vacId := rfl
@[simp] theorem ASide.setTag_bq (y : ASide) (st w : Nat) (t : Tag) : (y.setTag st w t).bq = y.bq := rfl
@[simp] theorem ASide.setTag_pend (y : ASide) (st w : Nat) (t : Tag) : (y.setTag st w t).pend = y.pend := rfl
@[simp] theorem ASide.setTag_dq (y : ASide) (st w : Nat) (t : Tag) : (y.setTag st w t).dq = y.dq := rfl
@[simp] theorem ASide.setTag_sq (y : ASide) (st w : Nat) (t : Tag) : (y.setTag st w t).sq = y.sq := rfl
@[simp] theorem ASide.setTag_xa (y : ASide) (st w : Nat) (t : Tag) : (y.setTag st w t).xa = y.xa := rfl
@[simp] theorem ASide.setTag_ax (y : ASide) (st w : Nat) (t : Tag) : (y.setTag st w t).ax = y.ax := rfl
@[simp] theorem ASide.setTag_po (y : ASide) (st w : Nat) (t : Tag) : (y.setTag st w t).po = y.po := rfl
@[simp] theorem ASide.setTag_late (y : ASide) (st w : Nat) (t : Tag) : (y.setTag st w t).late = y.late := rfl

/-- a0 reads zero (R112). -/
@[simp] theorem ASide.reg_zero (y : ASide) : y.reg 0 = 0 := rfl

theorem ASide.reg_setReg (y : ASide) (r q : BitVec 5) (v : Word) :
    (y.setReg r v).reg q = if q = r ∧ r ≠ 0 then v else y.reg q := by
  unfold ASide.reg ASide.setReg
  by_cases hr : r = 0
  · rw [if_pos hr, if_neg (fun h : q = r ∧ r ≠ 0 => h.2 hr)]
  · rw [if_neg hr]
    by_cases hq : q = 0
    · subst hq; rw [if_pos rfl, if_pos rfl, if_neg (fun h => hr h.1.symm)]
    · rw [if_neg hq, if_neg hq, SMap.get_put]
      by_cases h : q = r
      · subst h; rw [if_pos rfl, if_pos ⟨rfl, hr⟩]
      · rw [if_neg (fun e => h (BitVec.eq_of_toNat_eq e)), if_neg (fun e => h e.1)]

theorem ASide.gen_setGen (y : ASide) (g h : BitVec 4) (x : AGen) :
    (y.setGen g x).gen h = if h = g then x else y.gen h := by
  unfold ASide.gen ASide.setGen
  rw [SMap.get_put]
  by_cases e : h = g
  · subst e; simp
  · have hn : h.toNat ≠ g.toNat := fun q => e (BitVec.eq_of_toNat_eq q)
    simp [e, hn]

@[simp] theorem XSide.setS_v (y : XSide) (r : BitVec 6) (v : Word) : (y.setS r v).v = y.v := by unfold XSide.setS; split <;> rfl
@[simp] theorem XSide.setS_p (y : XSide) (r : BitVec 6) (v : Word) : (y.setS r v).p = y.p := by unfold XSide.setS; split <;> rfl
@[simp] theorem XSide.setS_vtype (y : XSide) (r : BitVec 6) (v : Word) : (y.setS r v).vtype = y.vtype := by unfold XSide.setS; split <;> rfl
@[simp] theorem XSide.setS_drow (y : XSide) (r : BitVec 6) (v : Word) : (y.setS r v).drow = y.drow := by unfold XSide.setS; split <;> rfl
@[simp] theorem XSide.setS_flags (y : XSide) (r : BitVec 6) (v : Word) : (y.setS r v).flags = y.flags := by unfold XSide.setS; split <;> rfl
@[simp] theorem XSide.setS_frm (y : XSide) (r : BitVec 6) (v : Word) : (y.setS r v).frm = y.frm := by unfold XSide.setS; split <;> rfl
@[simp] theorem XSide.setS_fly (y : XSide) (r : BitVec 6) (v : Word) : (y.setS r v).fly = y.fly := by unfold XSide.setS; split <;> rfl
@[simp] theorem XSide.setS_lane (y : XSide) (r : BitVec 6) (v : Word) : (y.setS r v).lane = y.lane := by unfold XSide.setS; split <;> rfl
@[simp] theorem XSide.setS_defq (y : XSide) (r : BitVec 6) (v : Word) : (y.setS r v).defq = y.defq := by unfold XSide.setS; split <;> rfl
@[simp] theorem XSide.setS_scalarAt (y : XSide) (r : BitVec 6) (v : Word) : (y.setS r v).scalarAt = y.scalarAt := by unfold XSide.setS; split <;> rfl
@[simp] theorem XSide.setS_vectorAt (y : XSide) (r : BitVec 6) (v : Word) : (y.setS r v).vectorAt = y.vectorAt := by unfold XSide.setS; split <;> rfl

@[simp] theorem XSide.setV_s (y : XSide) (r : BitVec 9) (v : Vec) : (y.setV r v).s = y.s := rfl
@[simp] theorem XSide.setV_p (y : XSide) (r : BitVec 9) (v : Vec) : (y.setV r v).p = y.p := rfl
@[simp] theorem XSide.setV_vtype (y : XSide) (r : BitVec 9) (v : Vec) : (y.setV r v).vtype = y.vtype := rfl
@[simp] theorem XSide.setV_drow (y : XSide) (r : BitVec 9) (v : Vec) : (y.setV r v).drow = y.drow := rfl
@[simp] theorem XSide.setV_flags (y : XSide) (r : BitVec 9) (v : Vec) : (y.setV r v).flags = y.flags := rfl
@[simp] theorem XSide.setV_frm (y : XSide) (r : BitVec 9) (v : Vec) : (y.setV r v).frm = y.frm := rfl
@[simp] theorem XSide.setV_fly (y : XSide) (r : BitVec 9) (v : Vec) : (y.setV r v).fly = y.fly := rfl
@[simp] theorem XSide.setV_lane (y : XSide) (r : BitVec 9) (v : Vec) : (y.setV r v).lane = y.lane := rfl
@[simp] theorem XSide.setV_defq (y : XSide) (r : BitVec 9) (v : Vec) : (y.setV r v).defq = y.defq := rfl
@[simp] theorem XSide.setV_scalarAt (y : XSide) (r : BitVec 9) (v : Vec) : (y.setV r v).scalarAt = y.scalarAt := rfl
@[simp] theorem XSide.setV_vectorAt (y : XSide) (r : BitVec 9) (v : Vec) : (y.setV r v).vectorAt = y.vectorAt := rfl

@[simp] theorem XSide.setP_s (y : XSide) (r : BitVec 5) (v : BitVec 32) : (y.setP r v).s = y.s := by unfold XSide.setP; split <;> rfl
@[simp] theorem XSide.setP_v (y : XSide) (r : BitVec 5) (v : BitVec 32) : (y.setP r v).v = y.v := by unfold XSide.setP; split <;> rfl
@[simp] theorem XSide.setP_vtype (y : XSide) (r : BitVec 5) (v : BitVec 32) : (y.setP r v).vtype = y.vtype := by unfold XSide.setP; split <;> rfl
@[simp] theorem XSide.setP_drow (y : XSide) (r : BitVec 5) (v : BitVec 32) : (y.setP r v).drow = y.drow := by unfold XSide.setP; split <;> rfl
@[simp] theorem XSide.setP_flags (y : XSide) (r : BitVec 5) (v : BitVec 32) : (y.setP r v).flags = y.flags := by unfold XSide.setP; split <;> rfl
@[simp] theorem XSide.setP_frm (y : XSide) (r : BitVec 5) (v : BitVec 32) : (y.setP r v).frm = y.frm := by unfold XSide.setP; split <;> rfl
@[simp] theorem XSide.setP_fly (y : XSide) (r : BitVec 5) (v : BitVec 32) : (y.setP r v).fly = y.fly := by unfold XSide.setP; split <;> rfl
@[simp] theorem XSide.setP_lane (y : XSide) (r : BitVec 5) (v : BitVec 32) : (y.setP r v).lane = y.lane := by unfold XSide.setP; split <;> rfl
@[simp] theorem XSide.setP_defq (y : XSide) (r : BitVec 5) (v : BitVec 32) : (y.setP r v).defq = y.defq := by unfold XSide.setP; split <;> rfl
@[simp] theorem XSide.setP_scalarAt (y : XSide) (r : BitVec 5) (v : BitVec 32) : (y.setP r v).scalarAt = y.scalarAt := by unfold XSide.setP; split <;> rfl
@[simp] theorem XSide.setP_vectorAt (y : XSide) (r : BitVec 5) (v : BitVec 32) : (y.setP r v).vectorAt = y.vectorAt := by unfold XSide.setP; split <;> rfl

/-- s0 reads zero (R134). -/
@[simp] theorem XSide.sreg_zero (y : XSide) : y.sreg 0 = 0 := rfl

/-- p0 reads all ones (R134). -/
@[simp] theorem XSide.preg_zero (y : XSide) : y.preg 0 = BitVec.allOnes 32 := rfl

theorem XSide.sreg_setS (y : XSide) (r q : BitVec 6) (v : Word) :
    (y.setS r v).sreg q = if q = r ∧ r ≠ 0 then v else y.sreg q := by
  unfold XSide.sreg XSide.setS
  by_cases hr : r = 0
  · rw [if_pos hr, if_neg (fun h : q = r ∧ r ≠ 0 => h.2 hr)]
  · rw [if_neg hr]
    by_cases hq : q = 0
    · subst hq; rw [if_pos rfl, if_pos rfl, if_neg (fun h => hr h.1.symm)]
    · rw [if_neg hq, if_neg hq, SMap.get_put]
      by_cases h : q = r
      · subst h; rw [if_pos rfl, if_pos ⟨rfl, hr⟩]
      · rw [if_neg (fun e => h (BitVec.eq_of_toNat_eq e)), if_neg (fun e => h e.1)]

theorem XSide.preg_setP (y : XSide) (r q : BitVec 5) (v : BitVec 32) :
    (y.setP r v).preg q = if q = r ∧ r ≠ 0 then v else y.preg q := by
  unfold XSide.preg XSide.setP
  by_cases hr : r = 0
  · rw [if_pos hr, if_neg (fun h : q = r ∧ r ≠ 0 => h.2 hr)]
  · rw [if_neg hr]
    by_cases hq : q = 0
    · subst hq; rw [if_pos rfl, if_pos rfl, if_neg (fun h => hr h.1.symm)]
    · rw [if_neg hq, if_neg hq, SMap.get_put]
      by_cases h : q = r
      · subst h; rw [if_pos rfl, if_pos ⟨rfl, hr⟩]
      · rw [if_neg (fun e => h (BitVec.eq_of_toNat_eq e)), if_neg (fun e => h e.1)]

theorem XSide.vreg_setV (y : XSide) (r q : BitVec 9) (v : Vec) :
    (y.setV r v).vreg q = if q = r then v else y.vreg q := by
  unfold XSide.vreg XSide.setV
  rw [SMap.get_put]
  by_cases e : q = r
  · subst e; simp
  · have hn : q.toNat ≠ r.toNat := fun h => e (BitVec.eq_of_toNat_eq h)
    simp [e, hn]

end Sys2Proof.Machine
end

