-- ==== Sys2Proof/Laws/Engine.lean ====
section
/-!
SUPPORT. What the shared endings of an engine's words do: leaving the queue (R13), adding a signal (R16, R106), and a
level C fault (R222, R224).
-/

namespace Sys2Proof.Machine

open Sys2Proof

theorem amount_pos (c : BitVec 2) : amount c ≠ 0 := by
  unfold amount
  exact Nat.ne_of_gt (Nat.pow_pos (by decide))

/-- What recording a level C fault changes: the core's record and the chair's halt. -/
theorem recordC_frame (ch c : Nat) (r : Rec) (s : State) :
    onlyChair ch s (recordC ch c r s) ∧
      (recordC ch c r s).chair ch =
        { s.chair ch with cores := ((recordC ch c r s).chair ch).cores, halt := ((recordC ch c r s).chair ch).halt } ∧
      (∀ e, e ≠ c → (recordC ch c r s).core ch e = s.core ch e) ∧
      (recordC ch c r s).core ch c = { s.core ch c with rec_ := ((recordC ch c r s).core ch c).rec_ } := by
  have aux : ∀ keep : Bool, ∀ x, x = (if keep then s.chair ch else
        (s.chair ch).setCore c { (s.chair ch).core c with rec_ := some r }).askHalt false →
      x = { s.chair ch with cores := x.cores, halt := x.halt } ∧ (∀ e, e ≠ c → x.core e = (s.chair ch).core e) ∧
        x.core c = { (s.chair ch).core c with rec_ := (x.core c).rec_ } := by
    intro keep x hx
    have hc : ∀ z : Chair, z.askHalt false = { z with halt := (z.askHalt false).halt } := by
      intro z
      unfold Chair.askHalt
      repeat' split
      all_goals rfl
    cases keep with
    | true =>
      rw [if_pos rfl, hc] at hx
      rw [hx]
      exact ⟨rfl, fun _ _ => rfl, rfl⟩
    | false =>
      rw [if_neg Bool.false_ne_true, hc] at hx
      rw [hx]
      refine ⟨rfl, fun e he => Chair.core_setCore_ne (s.chair ch) _ he, ?_⟩
      have e := Chair.core_setCore_self (s.chair ch) c { (s.chair ch).core c with rec_ := some r }
      exact e.trans (by rw [show ∀ h, ({ (s.chair ch).setCore c { (s.chair ch).core c with rec_ := some r } with
        halt := h } : Chair).core c = _ from fun _ => e])
  unfold recordC
  simp only
  split
  · exact ⟨⟨rfl, fun _ _ => rfl⟩, rfl, fun _ _ => rfl, rfl⟩
  · obtain ⟨h1, h2, h3⟩ := aux _ _ rfl
    refine ⟨⟨rfl, fun e he => by simp [he]⟩, ?_, fun e he => ?_, ?_⟩
    · rw [State.chair_setChair_self]
      exact h1
    · rw [State.core_setChair_self]
      exact h2 e he
    · rw [State.core_setChair_self]
      exact h3

/-- In an open chair the first fault of a core is recorded, and the chair's halt is asked for in the present cycle. -/
theorem recordC_open {ch c : Nat} {r : Rec} {s : State} (ho : (s.chair ch).open_ = true)
    (hr : (s.core ch c).rec_ = none) (hh : (s.chair ch).halt = none) :
    ((recordC ch c r s).core ch c).rec_ = some r ∧
      ((recordC ch c r s).chair ch).halt = some { cycle := (s.chair ch).cycle } := by
  have hr' : ((s.chair ch).core c).rec_ = none := hr
  unfold recordC
  simp only [ho, hr', Bool.true_eq_false, if_false, Bool.false_eq_true]
  refine ⟨?_, ?_⟩
  · rw [State.core_setChair_self]
    simp [Chair.core, Chair.setCore]
  · rw [State.chair_setChair_self]
    simp [Chair.askHalt, hh]

/-- Adding to a semaphore: the value rises to at most 0xFFFF, and above it a fault is recorded (R106); or the addition is
put off to a later cycle (R105, R224). -/
theorem addSem_core (ch c k amt : Nat) (g : Sig) (eng : Nat) (s : State) :
    onlyChair ch s (addSem ch c k amt g eng s) ∧
      (addSem ch c k amt g eng s).chair ch =
        { s.chair ch with
          cores := ((addSem ch c k amt g eng s).chair ch).cores
          halt := ((addSem ch c k amt g eng s).chair ch).halt } ∧
      (∀ e, e ≠ c → (addSem ch c k amt g eng s).core ch e = s.core ch e) ∧
      (addSem ch c k amt g eng s).core ch c =
        { s.core ch c with
          sem := ((addSem ch c k amt g eng s).core ch c).sem
          adds := ((addSem ch c k amt g eng s).core ch c).adds
          rec_ := ((addSem ch c k amt g eng s).core ch c).rec_
          later := ((addSem ch c k amt g eng s).core ch c).later } ∧
      (∀ j, ((addSem ch c k amt g eng s).core ch c).semv j =
        if j = k ∧ k ≠ 0 ∧ amt ≠ 0 ∧ addLater ch c k amt s = false then Nat.min ((s.core ch c).semv k + amt) 0xFFFF
        else (s.core ch c).semv j) ∧
      ((addSem ch c k amt g eng s).core ch c).later =
        (if k ≠ 0 ∧ amt ≠ 0 ∧ addLater ch c k amt s = true then (s.core ch c).later ++ [(k, amt, g, eng)]
        else (s.core ch c).later) ∧
      ((k = 0 ∨ (s.core ch c).semv k + amt ≤ 0xFFFF) →
        ((addSem ch c k amt g eng s).chair ch).halt = (s.chair ch).halt ∧
        ((addSem ch c k amt g eng s).core ch c).rec_ = (s.core ch c).rec_) := by
  unfold addSem
  simp only
  split
  · rename_i h0
    refine ⟨⟨rfl, fun _ _ => rfl⟩, rfl, fun _ _ => rfl, rfl, fun j => ?_, ?_, fun _ => ⟨rfl, rfl⟩⟩
    · rw [if_neg]
      rintro ⟨-, hk, ha, -⟩
      rcases h0 with h | h <;> contradiction
    · rw [if_neg]
      rintro ⟨hk, ha, -⟩
      rcases h0 with h | h <;> contradiction
  rename_i h0
  obtain ⟨hk, ha⟩ := not_or.1 h0
  split
  · rename_i hl
    have hs1 := State.core_setCore_self s ch c
      { s.core ch c with later := (s.core ch c).later ++ [(k, amt, g, eng)] }
    refine ⟨⟨rfl, fun e he => State.chair_setCore_ne s c _ he⟩, ?_, fun e he => ?_, ?_, fun j => ?_, ?_, fun _ => ?_⟩
    · unfold State.updCore
      rw [State.chair_setCore_self]; rfl
    · unfold State.updCore
      simp [State.core, he]
    · unfold State.updCore
      rw [hs1]
    · rw [if_neg (fun h => by rw [hl] at h; exact absurd h.2.2.2 (by decide))]
      unfold State.updCore
      rw [hs1]
      rfl
    · rw [if_pos ⟨hk, ha, hl⟩]
      unfold State.updCore
      rw [hs1]
    · unfold State.updCore
      rw [hs1, State.chair_setCore_self]
      exact ⟨rfl, rfl⟩
  · rename_i hl
    have hl : addLater ch c k amt s = false := by simpa using hl
    generalize hy : ({ (s.core ch c).setSem k (Nat.min ((s.core ch c).semv k + amt) 0xFFFF) with
      adds := _ } : Core) = y
    have hy1 : y = { s.core ch c with sem := y.sem, adds := y.adds } := by
      rw [← hy]
      unfold Core.setSem
      split <;> rfl
    have hy2 : ∀ j, y.semv j = if j = k ∧ k ≠ 0 ∧ amt ≠ 0 ∧ addLater ch c k amt s = false then Nat.min ((s.core ch c).semv k + amt) 0xFFFF
        else (s.core ch c).semv j := by
      intro j
      have e : y.semv j = ((s.core ch c).setSem k (Nat.min ((s.core ch c).semv k + amt) 0xFFFF)).semv j := by
        rw [← hy]; rfl
      rw [e, Core.semv_setSem]
      exact if_congr (by simp [ha, hl]) rfl rfl
    have hs1 : onlyChair ch s (s.setCore ch c y) := ⟨rfl, fun e he => State.chair_setCore_ne s c y he⟩
    have hs2 : (s.setCore ch c y).chair ch = { s.chair ch with cores := ((s.setCore ch c y).chair ch).cores } := by
      rw [State.chair_setCore_self]; rfl
    have hs3 : ∀ e, e ≠ c → (s.setCore ch c y).core ch e = s.core ch e := by
      intro e he
      simp [State.core, he]
    have hs4 : (s.setCore ch c y).core ch c = y := State.core_setCore_self s ch c y
    split
    · rename_i hv
      obtain ⟨⟨r1, r2⟩, r3, r4, r5⟩ := recordC_frame ch c { g.record 0x29 eng with sem := k }
        (s.setCore ch c y)
      generalize recordC ch c { g.record 0x29 eng with sem := k } (s.setCore ch c y) = t at *
      rw [hs4] at r5
      refine ⟨⟨?_, fun e he => (r2 e he).trans (hs1.2 e he)⟩, ?_, fun e he => (r4 e he).trans (hs3 e he), ?_, ?_, ?_, ?_⟩
      · rw [r1]; rfl
      · rw [r3, hs2]
      · rw [r5, hy1]
      · intro j
        rw [← hy2 j, r5]; rfl
      · rw [if_neg (fun h => by rw [hl] at h; exact absurd h.2.2 (by decide)), r5, hy1]
      · intro h
        rcases h with h | h
        · exact absurd h hk
        · omega
    · refine ⟨hs1, ?_, hs3, ?_, ?_, ?_, ?_⟩
      · rw [hs2]
      · have hr : y.rec_ = (s.core ch c).rec_ := by rw [hy1]
        have hl2 : y.later = (s.core ch c).later := by rw [hy1]
        rw [hs4, hr, hl2]
        exact hy1
      · intro j
        rw [hs4]
        exact hy2 j
      · rw [if_neg (fun h => by rw [hl] at h; exact absurd h.2.2 (by decide)), hs4, hy1]
      · intro _
        rw [hs4, hs2, hy1]
        exact ⟨rfl, rfl⟩

/-- What leaving the queue does: nothing but the running core changes. -/
theorem retire_taken (s : State) (y : Core) : engTaken s (retire (s.setMe y)) y := by
  unfold engTaken retire
  rw [State.me_setMe, State.setMe_act, State.here_setMe, State.setMe_setMe]
  rfl

/-- What leaving the queue with a signal does (R16). -/
theorem retireSig_word (s : State) (y : Core) : engWord s (retireSig (s.setMe y)) y := by
  have ht : retire (s.setMe y) = s.setMe (y.retire s.act.eng s.here.cycle) := retire_taken s y
  have hsig : (s.setMe y).sig = s.sig := rfl
  unfold retireSig
  rw [ht, hsig]
  unfold addSig
  obtain ⟨⟨a1, a2⟩, a3, a4, a5, a6, a8, a7⟩ := addSem_core s.act.chair s.act.core s.sig.sem.toNat s.sig.amt s.sig
    s.act.eng (s.setMe (y.retire s.act.eng s.here.cycle))
  change onlyChairs _ (addSem s.act.chair s.act.core s.sig.sem.toNat s.sig.amt s.sig s.act.eng
    (s.setMe (y.retire s.act.eng s.here.cycle))) at a1
  simp only [State.setMe_act] at *
  generalize addSem s.act.chair s.act.core s.sig.sem.toNat s.sig.amt s.sig s.act.eng
    (s.setMe (y.retire s.act.eng s.here.cycle)) = t at *
  have hact : t.act = s.act := by rw [a1]; rfl
  have hme : (s.setMe (y.retire s.act.eng s.here.cycle)).core s.act.chair s.act.core =
      y.retire s.act.eng s.here.cycle := State.me_setMe s _
  have hch : (s.setMe (y.retire s.act.eng s.here.cycle)).chair s.act.chair =
      s.here.setCore s.act.core (y.retire s.act.eng s.here.cycle) := State.here_setMe s _
  have hsem : (y.retire s.act.eng s.here.cycle).semv = y.semv := by
    funext k
    unfold Core.semv
    rw [Core.retire_sem]
  have hloff : ∀ k, addLater s.act.chair s.act.core k (s.signals k)
      (s.setMe (y.retire s.act.eng s.here.cycle)) = s.putsOff y k := by
    intro k
    have e1 : (s.here.setCore s.act.core (y.retire s.act.eng s.here.cycle)).core s.act.core =
        y.retire s.act.eng s.here.cycle := Chair.core_setCore_self _ _ _
    unfold addLater State.putsOff
    simp only [hch, e1, hsem, Core.retire_took]
    rfl
  rw [hme] at a5 a6 a7 a8
  rw [hch] at a3 a7
  have htme : t.me = t.core s.act.chair s.act.core := by unfold State.me; rw [hact]
  have hth : t.here = t.chair s.act.chair := by unfold State.here; rw [hact]
  have hamt : ∀ k, s.signals k = if k = s.sig.sem.toNat ∧ s.sig.sem.toNat ≠ 0 ∧ s.sig.amt ≠ 0 then s.sig.amt else 0 := by
    intro k
    unfold State.signals State.sig
    simp only
    by_cases h0 : s.act.clause.ssem = 0
    · simp [h0]
    · have : s.act.clause.ssem.toNat ≠ 0 := fun h => h0 (BitVec.eq_of_toNat_eq h)
      rw [if_neg h0]
      by_cases hk : k = s.act.clause.ssem.toNat
      · subst hk
        rw [if_pos ⟨this, rfl⟩, if_pos ⟨rfl, this, amount_pos _⟩]
      · rw [if_neg (fun h => hk h.2), if_neg (fun h => hk h.1)]
  have hself : ∀ k, s.signals k ≠ 0 → k = s.sig.sem.toNat ∧ s.sig.sem.toNat ≠ 0 ∧ s.sig.amt ≠ 0 := by
    intro k hk
    by_contra hn
    rw [hamt k, if_neg hn] at hk
    exact hk rfl
  refine ⟨⟨?_, fun e he => ?_⟩, ?_, fun e he => ?_, ?_, fun k => ?_, fun k hk => ?_, fun h0 => ?_, fun h => ?_⟩
  · rw [a1]; rfl
  · rw [a2 e he]
    exact State.chair_setCore_ne s s.act.core _ he
  · rw [hth, a3]; rfl
  · rw [hth]
    have := a4 e he
    unfold State.core at this
    rw [this, hch, Chair.core_setCore_ne _ _ he]
  · rw [htme, a5]
  · rw [htme, a6 k, hsem]
    by_cases hk : s.signals k = 0
    · rw [if_neg, if_pos (.inl hk)]
      rintro ⟨rfl, h1, h2, -⟩
      rw [hamt, if_pos ⟨rfl, h1, h2⟩] at hk
      exact h2 hk
    · obtain ⟨rfl, h1, h2⟩ := hself k hk
      have e : s.signals s.sig.sem.toNat = s.sig.amt := by rw [hamt, if_pos ⟨rfl, h1, h2⟩]
      rw [← e, hloff]
      cases s.putsOff y s.sig.sem.toNat
      · rw [if_pos ⟨rfl, h1, hk, rfl⟩, if_neg (by simp [hk])]
      · rw [if_neg (fun h => absurd h.2.2.2 (by decide)), if_pos (.inr rfl)]
  · obtain ⟨rfl, h1, h2⟩ := hself k hk
    have e : s.signals s.sig.sem.toNat = s.sig.amt := by rw [hamt, if_pos ⟨rfl, h1, h2⟩]
    rw [htme, a8, ← e, hloff, Core.retire_later]
    cases hp : s.putsOff y s.sig.sem.toNat
    · simp
    · rw [if_pos ⟨h1, hk, rfl⟩, if_pos rfl]
  · rw [htme, a8, Core.retire_later, if_neg]
    rintro ⟨h1, h2, -⟩
    have := h0 s.sig.sem.toNat
    rw [hamt, if_pos ⟨rfl, h1, h2⟩] at this
    exact h2 this
  · have hp : s.sig.sem.toNat = 0 ∨ (y.retire s.act.eng s.here.cycle).semv s.sig.sem.toNat + s.sig.amt ≤ 0xFFFF := by
      by_cases h0 : s.sig.sem.toNat = 0
      · exact .inl h0
      · refine .inr ?_
        have := h s.sig.sem.toNat
        rw [hamt] at this
        rw [hsem]
        by_cases hz : s.sig.amt = 0
        · rw [hz]
          simpa [hz] using this
        · rwa [if_pos ⟨rfl, h0, hz⟩] at this
    obtain ⟨b1, b2⟩ := a7 hp
    rw [hth, htme, b1, b2]
    exact ⟨rfl, Core.retire_rec_ y _ _⟩

end Sys2Proof.Machine
end

