-- ==== Sys2Proof/Laws/Aside.lean ====
section
/-!
SUPPORT. What the shared endings of the A-side's words do.
-/

namespace Sys2Proof.Machine

open Sys2Proof

/-- The A-side after an engine's word. -/
theorem engWord_aside {s t : State} {y : Core} (h : engWord s t y) : t.aside = y.a := by
  unfold State.aside
  rw [h.2.2.2.1]
  simp

/-- A word that is done at issue leaves the A-side as given and signals. -/
theorem aDone_word (s : State) (a : ASide) : engWord s (aDone a s) { s.me with a := a } :=
  retireSig_word s { s.me with a := a }

theorem ASide.setReg_eta (y : ASide) (d : BitVec 5) (v : Word) : y.setReg d v = { y with a := (y.setReg d v).a } := by
  unfold ASide.setReg
  split <;> rfl

/-- A word that writes an A-side register writes nothing else (R112, R122). -/
theorem aResult_word (s : State) (d : BitVec 5) (v : Word) :
    engWord s (aResult d v s) { s.me with a := { s.aside with a := (aResult d v s).aside.a } } ∧
      ∀ r, (aResult d v s).aside.reg r = if r = d ∧ d ≠ 0 then v else s.aside.reg r := by
  have h := aDone_word s (s.aside.setReg d v)
  have e := engWord_aside h
  change (aResult d v s).aside = _ at e
  simp only at e
  rw [e]
  refine ⟨?_, fun r => ?_⟩
  · rw [← ASide.setReg_eta]
    exact h
  · unfold ASide.setReg ASide.reg
    by_cases hd : d = 0
    · subst hd
      simp
    · by_cases hr : r = 0
      · subst hr
        rw [if_pos rfl, if_pos rfl, if_neg (fun h => hd h.1.symm)]
      · have e2 : r.toNat = d.toNat ↔ r = d := ⟨BitVec.eq_of_toNat_eq, fun h => by rw [h]⟩
        simp only [hd, hr, if_false, SMap.get_put, e2, ne_eq, not_false_eq_true, and_true]

end Sys2Proof.Machine
end

