-- ==== Sys2Proof/Laws/Gaffer.lean ====
section
/-!
SUPPORT. What going on from a gaffer word can do (R72, R78), and what the shared endings of the gaffer's words do.
-/

namespace Sys2Proof.Machine

open Sys2Proof

/-- The parts of a chair that the flow of control never touches. -/
def Chair.flowsTo (x y : Chair) : Prop :=
  y = { x with gf := y.gf, budget := y.budget, halt := y.halt } ∧ sameButFlow x.gf y.gf

theorem Chair.flowsTo_refl (x : Chair) : x.flowsTo x := ⟨rfl, rfl⟩

theorem Chair.flowsTo_trans {x y z : Chair} (h : x.flowsTo y) (k : y.flowsTo z) : x.flowsTo z := by
  obtain ⟨h1, h2⟩ := h
  obtain ⟨k1, k2⟩ := k
  unfold sameButFlow at h2 k2
  constructor
  · rw [k1, h1]
  · unfold sameButFlow
    rw [k2, h2]

theorem Chair.restartBudget_flows (x : Chair) : x.flowsTo x.restartBudget := ⟨rfl, rfl⟩

theorem Chair.pc_flows (x : Chair) (pc : BitVec 13) : x.flowsTo { x with gf := { x.gf with pc := pc } } := ⟨rfl, rfl⟩

/-- The end of a pass is a matter of the flow of control alone. -/
theorem Chair.passEnd_flows {x y : Chair} {lv : Nat} (h : x.passEnd lv = some y) : x.flowsTo y := by
  unfold Chair.passEnd at h
  dsimp only at h
  repeat' split at h
  all_goals first
    | (obtain ⟨pc, -, rfl⟩ := Option.map_eq_some_iff.1 h)
    | (injection h with h; subst h)
  all_goals exact ⟨rfl, rfl⟩

theorem Chair.fallThrough_flows {x y : Chair} {n : Nat} (h : x.fallThrough n = some y) : x.flowsTo y := by
  induction n generalizing x y with
  | zero =>
    obtain ⟨pc, -, rfl⟩ := Option.map_eq_some_iff.1 h
    exact x.pc_flows pc
  | succ lv ih =>
    unfold Chair.fallThrough at h
    simp only at h
    split at h
    · split at h
      · exact absurd h (by simp)
      · rename_i z hz
        split at h
        · exact Chair.flowsTo_trans (Chair.passEnd_flows hz) (Chair.flowsTo_trans (z.pc_flows _) (ih h))
        · cases h
          exact Chair.passEnd_flows hz
    · obtain ⟨pc, -, rfl⟩ := Option.map_eq_some_iff.1 h
      exact x.pc_flows pc

theorem Chair.flow_flows {x y : Chair} (h : x.flow = some y) : x.flowsTo y := by
  unfold Chair.flow at h
  simp only at h
  split at h
  · split at h
    · obtain ⟨pc, -, rfl⟩ := Option.map_eq_some_iff.1 h
      exact ⟨rfl, rfl⟩
    · split at h
      · cases h
        exact ⟨rfl, rfl⟩
      · refine Chair.flowsTo_trans ?_ (Chair.fallThrough_flows h)
        exact ⟨rfl, rfl⟩
  · exact Chair.fallThrough_flows h

theorem Chair.takenAt_flows (y z : Chair) : y.flowsTo (y.takenAt z) := ⟨rfl, rfl⟩

/-- Going on from a word changes the flow of control, and at the end of a LOOPP's pass the yield budget, alone. -/
theorem Chair.advance_flows {x y : Chair} (h : x.advance = some y) : x.flowsTo y := by
  unfold Chair.advance at h
  obtain ⟨z, hz, rfl⟩ := Option.map_eq_some_iff.1 h
  split
  · exact Chair.flowsTo_trans (Chair.flow_flows hz) (z.takenAt_flows _)
  · exact Chair.flow_flows hz

/-- The level whose body holds a word is active. -/
theorem Gaffer.levelAt_lt {g : Gaffer} {pc : BitVec 13} {lv : Nat} (h : g.levelAt pc = some lv) : lv < g.depth := by
  simpa using List.mem_of_find?_eq_some h

/-- Outside every loop no level holds a word. -/
theorem Gaffer.levelAt_flat {g : Gaffer} (hd : g.depth = 0) (pc : BitVec 13) : g.levelAt pc = none := by
  cases h : g.levelAt pc with
  | none => rfl
  | some lv => exact absurd (Gaffer.levelAt_lt h) (by omega)

theorem Chair.flow_flat {x y : Chair} (hd : x.gf.depth = 0) (h : x.flow = some y) :
    y.budget = x.budget ∧ y.halt = x.halt := by
  unfold Chair.flow at h
  simp only [Gaffer.levelAt_flat hd, Option.elim, Chair.fallThrough] at h
  split at h
  · split at h
    · obtain ⟨pc, -, rfl⟩ := Option.map_eq_some_iff.1 h
      exact ⟨rfl, rfl⟩
    · split at h
      · cases h
        exact ⟨rfl, rfl⟩
      · obtain ⟨pc, -, rfl⟩ := Option.map_eq_some_iff.1 h
        exact ⟨rfl, rfl⟩
  · obtain ⟨pc, -, rfl⟩ := Option.map_eq_some_iff.1 h
    exact ⟨rfl, rfl⟩

/-- Outside every loop the budget and the halt stay. -/
theorem Chair.advance_flat {x y : Chair} (hd : x.gf.depth = 0) (h : x.advance = some y) :
    y.budget = x.budget ∧ y.halt = x.halt := by
  unfold Chair.advance at h
  obtain ⟨z, hz, rfl⟩ := Option.map_eq_some_iff.1 h
  have := Chair.flow_flat hd hz
  split <;> exact this

theorem Chair.flow_plain {x : Chair} (h : x.gf.plain) :
    x.flow = some { x with gf := { x.gf with pc := x.gf.pc + 1 } } := by
  obtain ⟨hds, hpc, hlv⟩ := h
  have hs : pcSucc x.gf.pc = some (x.gf.pc + 1) := by
    unfold pcSucc
    rw [if_neg (by omega)]
  unfold Chair.flow
  rw [if_neg (by simp [hds])]
  cases hd : x.gf.levelAt x.gf.pc with
  | none => simp [Chair.fallThrough, hs]
  | some n =>
    simp only [Option.elim]
    unfold Chair.fallThrough
    rw [if_neg (fun e => hlv n (Gaffer.levelAt_lt hd) e.symm), hs]
    rfl

/-- No request is taken where neither a drain nor a save begins. -/
theorem Gaffer.tookSoft_same {g h : Gaffer} (hd : h.drain = g.drain) (hs : h.save = g.save) : g.tookSoft h = false := by
  unfold Gaffer.tookSoft
  rw [hd, hs]
  cases g.drain <;> cases g.save <;> rfl

/-- From a plain word control goes on to the next one. -/
theorem Chair.advance_plain {x : Chair} (h : x.gf.plain) :
    x.advance = some { x with gf := { x.gf with pc := x.gf.pc + 1 } } := by
  unfold Chair.advance
  rw [Chair.flow_plain h, Option.map_some, if_neg]
  exact Bool.eq_false_iff.1 (Gaffer.tookSoft_same rfl rfl)

theorem sameMemory_setGf (s : State) (g : Gaffer) : sameMemory s (s.setGf g) := by
  refine ⟨⟨fun _ => rfl, fun _ => rfl⟩, fun _ => rfl, fun _ => rfl, ?_, ?_⟩ <;>
  · intro ch c _
    by_cases h : ch = s.act.chair
    · subst h
      simp [State.core, State.setGf, State.here, Chair.core]
    · simp [State.core, State.setGf, h]

/-- A change of the running chair's gaffer, budget and halt leaves every memory as it was. -/
theorem sameMemory_setHere {s : State} {x : Chair} (h : x.cores = s.here.cores) : sameMemory s (s.setHere x) := by
  refine ⟨⟨fun _ => rfl, fun _ => rfl⟩, fun _ => rfl, fun _ => rfl, ?_, ?_⟩ <;>
  · intro ch c _
    by_cases e : ch = s.act.chair
    · subst e
      simp only [State.core, State.setHere, State.chair_setChair_self, Chair.core, h]
      rfl
    · simp [State.core, State.setHere, e]

/-- What `gafDone` does: the word is issued, and control goes on. -/
theorem gafDone_word (s : State) : gafWord s (gafDone s) s.gf := by
  unfold gafDone
  simp only
  generalize hx : ({ s.here with gf := s.here.gf.spent s.here.cycle } : Chair) = x
  have hf : x.flowsTo (x.advance.getD x) := by
    cases ha : x.advance with
    | none => exact x.flowsTo_refl
    | some y => exact Chair.advance_flows ha
  have hg : x.gf = s.gf.spent s.here.cycle := by rw [← hx]; rfl
  obtain ⟨h1, h2⟩ := hf
  refine ⟨⟨rfl, fun e he => ?_⟩, ?_, ?_, ?_, ?_, ?_⟩
  · simp [State.setHere, he]
  · rw [State.here_setHere, State.gf_setHere]
    rw [h1, ← hx]
  · rw [State.gf_setHere, ← hg]
    exact h2
  · intro hd
    rw [State.here_setHere]
    have hd' : x.gf.depth = 0 := by rw [hg]; exact hd
    cases ha : x.advance with
    | none => rw [← hx]; exact ⟨rfl, rfl⟩
    | some y =>
      have := Chair.advance_flat hd' ha
      rw [← hx] at this
      exact this
  · intro hp
    have hp' : x.gf.plain := by rw [hg]; exact hp
    rw [Chair.advance_plain hp', Option.getD_some, State.gf_setHere, State.here_setHere]
    refine ⟨?_, ?_, ?_⟩
    · show ({ x.gf with pc := x.gf.pc + 1 } : Gaffer) = _
      rw [hg]; rfl
    · show x.budget = _
      rw [← hx]
    · show x.halt = _
      rw [← hx]
  · refine sameMemory_setHere ?_
    rw [h1, ← hx]

/-- A word that has changed the gaffer to `g` and then goes on. -/
theorem gafDone_setGf (s : State) (g : Gaffer) : gafWord s (gafDone (s.setGf g)) g := by
  have h := gafDone_word (s.setGf g)
  rw [State.gf_setGf] at h
  obtain ⟨⟨h1, h2⟩, h3, h4, h5, h6, h7⟩ := h
  rw [State.here_setGf] at h3 h4 h5 h6
  have ha : (s.setGf g).act = s.act := rfl
  refine ⟨⟨?_, fun e he => ?_⟩, ?_, h4, h5, h6, ?_⟩
  · rw [h1]; rfl
  · rw [h2 e (by rw [ha]; exact he)]
    simp [State.setGf, he]
  · rw [h3]
  · obtain ⟨⟨a1, a2⟩, a3, a4, a5, a6⟩ := h7
    obtain ⟨⟨b1, b2⟩, b3, b4, b5, b6⟩ := sameMemory_setGf s g
    exact ⟨⟨fun a => (a1 a).trans (b1 a), fun i => (a2 i).trans (b2 i)⟩, fun a => (a3 a).trans (b3 a),
      fun i => (a4 i).trans (b4 i), fun ch c a => (a5 ch c a).trans (b5 ch c a),
      fun ch c i => (a6 ch c i).trans (b6 ch c i)⟩

/-- What a register result does: the register is written (g0 excepted), it lands after `lat` cycles, and control goes
on (R69). -/
theorem gafResult_word (s : State) (d : BitVec 6) (v : Word) (lat : Nat) :
    (∀ r, (gafResult d v lat s).gf.reg r = if r = d ∧ d ≠ 0 then v else s.gf.reg r) ∧
    (∀ r, SMap.get 0 (gafResult d v lat s).gf.ready r =
      if r = d.toNat ∧ d ≠ 0 then s.here.cycle + lat else SMap.get 0 s.gf.ready r) ∧
    gafWord s (gafResult d v lat s)
      { s.gf with g := (gafResult d v lat s).gf.g, ready := (gafResult d v lat s).gf.ready } := by
  have hw := gafDone_setGf s { s.gf.setReg d v with
    ready := if d = 0 then s.gf.ready else SMap.put 0 s.gf.ready d.toNat (s.here.cycle + lat) }
  change gafWord s (gafResult d v lat s) _ at hw
  have hf := hw.2.2.1
  unfold sameButFlow at hf
  have hg : (gafResult d v lat s).gf.g = (s.gf.setReg d v).g := by rw [hf]; rfl
  have hr : (gafResult d v lat s).gf.ready =
      if d = 0 then s.gf.ready else SMap.put 0 s.gf.ready d.toNat (s.here.cycle + lat) := by rw [hf]; rfl
  refine ⟨fun r => ?_, fun r => ?_, ?_⟩
  · rw [← Gaffer.reg_setReg]
    unfold Gaffer.reg
    rw [hg]
  · rw [hr]
    by_cases hd : d = 0
    · rw [if_pos hd, if_neg (fun h : r = d.toNat ∧ d ≠ 0 => h.2 hd)]
    · rw [if_neg hd, SMap.get_put]
      exact if_congr (by simp only [and_iff_left hd]) rfl rfl
  · rw [hg, hr]
    have e : ({ s.gf.setReg d v with
        ready := if d = 0 then s.gf.ready else SMap.put 0 s.gf.ready d.toNat (s.here.cycle + lat) } : Gaffer) =
      { s.gf with
        g := (s.gf.setReg d v).g
        ready := if d = 0 then s.gf.ready else SMap.put 0 s.gf.ready d.toNat (s.here.cycle + lat) } := by
      unfold Gaffer.setReg
      split <;> rfl
    rw [← e]
    exact hw

/-- What a level G fault does: it is recorded with its code, the chair's halt is asked for, and no register, core or
memory changes (R71); a chair wait that had passed is given back. -/
theorem raiseG_fault (s : State) (cause : Nat) (code : BitVec 20) (hw : s.gf.waited = false) :
    let t := raiseG cause s code
    onlyChair s.act.chair s t ∧ t.here.gfault = some (cause, code) ∧
      t.here = { s.here with
        gfault := t.here.gfault, halt := t.here.halt, gf := { s.gf with waited := false, waitOn := none } } ∧
      (s.here.halt = none → t.here.halt = some { cycle := s.here.cycle }) ∧ sameMemory s t := by
  have hw' : s.here.gf.waited = false := hw
  unfold raiseG
  simp only [hw', Bool.false_eq_true, if_false]
  generalize hx : ({ s.here with
    gfault := some (cause, code), gf := { s.here.gf with waited := false, waitOn := none } } : Chair) = x
  have ha : x.askHalt false = { x with halt := (x.askHalt false).halt } := by
    unfold Chair.askHalt
    split
    · rfl
    · split <;> rfl
  refine ⟨⟨rfl, fun e he => ?_⟩, ?_, ?_, ?_, ?_⟩
  · simp [State.setHere, he]
  · rw [State.here_setHere, ha, ← hx]
  · rw [State.here_setHere, ha, ← hx]; rfl
  · intro hh
    rw [State.here_setHere, ← hx]
    simp [Chair.askHalt, hh]
  · refine sameMemory_setHere ?_
    rw [ha, ← hx]

end Sys2Proof.Machine
end

