-- ==== Sys2Proof/Laws/Memory.lean ====
section
/-!
SUPPORT. The laws of a space of atoms: a read after a write, and that every operation keeps the canonical form.
-/

namespace Sys2Proof.Machine

open Sys2Proof

/-! ## Reading after writing -/

/-- The byte listed at an address, whatever state its atom is in. -/
def Space.raw (m : Space) (a : Nat) : Byte := SMap.get 0 m.bytes a

/-- An atom that holds no datum reads as zero; any other reads as what is listed (R158). -/
theorem Space.byte_eq (m : Space) (a : Nat) :
    m.byte a = if m.atomAt a = .vacant ∨ m.atomAt a = .poison then 0 else m.raw a := by
  unfold Space.byte Space.raw
  cases m.atomAt a <;> rfl

@[simp] theorem Space.raw_setByte (m : Space) (a b : Nat) (v : Byte) :
    (m.setByte a v).raw b = if b = a then v else m.raw b := SMap.get_put 0 m.bytes a b v

theorem Space.raw_setBytes (m : Space) (a b : Nat) (vs : List Byte) :
    (m.setBytes a vs).raw b = if a ≤ b ∧ b < a + vs.length then vs.getD (b - a) 0 else m.raw b := by
  induction vs generalizing m a with
  | nil => simp [Space.setBytes]
  | cons v vs ih =>
    rw [Space.setBytes, ih, Space.raw_setByte]
    by_cases h : b = a
    · subst h
      simp
    · by_cases h1 : a ≤ b ∧ b < a + (v :: vs).length
      · have h1' : a + 1 ≤ b ∧ b < a + 1 + vs.length := by simp at h1; omega
        rw [if_pos h1, if_pos h1', show b - a = (b - (a + 1)) + 1 by omega]
        rfl
      · have h1' : ¬(a + 1 ≤ b ∧ b < a + 1 + vs.length) := by simp at h1; omega
        rw [if_neg h1, if_neg h1', if_neg h]

@[simp] theorem Space.atoms_setBytes (m : Space) (a : Nat) (vs : List Byte) :
    (m.setBytes a vs).atoms = m.atoms := by
  induction vs generalizing m a with
  | nil => rfl
  | cons v vs ih => rw [Space.setBytes, ih]; rfl

@[simp] theorem Space.atom_setBytes (m : Space) (a i : Nat) (vs : List Byte) :
    (m.setBytes a vs).atom i = m.atom i := by simp [Space.atom]

theorem Space.raw_clearAtom (m : Space) (i b : Nat) :
    (m.clearAtom i).raw b = if b / 32 = i then 0 else m.raw b := by
  unfold Space.clearAtom
  rw [Space.raw_setBytes]
  by_cases h : b / 32 = i
  · rw [if_pos h, if_pos (by rw [List.length_replicate]; omega)]
    exact List.getD_replicate _ (by omega)
  · rw [if_neg h, if_neg (by rw [List.length_replicate]; omega)]

@[simp] theorem Space.atom_clearAtom (m : Space) (i j : Nat) : (m.clearAtom i).atom j = m.atom j :=
  Space.atom_setBytes m _ j _

@[simp] theorem Space.atom_opened (m : Space) (i j : Nat) : (m.opened i).atom j = m.atom j := by
  unfold Space.opened
  split
  · exact Space.atom_clearAtom m i j
  · exact Space.atom_clearAtom m i j
  · rfl
  · rfl

/-- An opened atom lists the bytes that it reads as. -/
theorem Space.raw_opened (m : Space) (i b : Nat) :
    (m.opened i).raw b = if b / 32 = i then m.byte b else m.raw b := by
  have hb : b / 32 = i → m.atomAt b = m.atom i := fun h => by unfold Space.atomAt; rw [h]
  unfold Space.opened
  split
  · rename_i hs
    rw [Space.raw_clearAtom]
    split
    · rename_i h
      rw [Space.byte_eq, hb h, hs, if_pos (.inl rfl)]
    · rfl
  · rename_i hs
    rw [Space.raw_clearAtom]
    split
    · rename_i h
      rw [Space.byte_eq, hb h, hs, if_pos (.inr rfl)]
    · rfl
  · rename_i hs
    split
    · rename_i h
      rw [Space.byte_eq, hb h, hs, if_neg (by simp)]
    · rfl
  · rename_i hs
    split
    · rename_i h
      rw [Space.byte_eq, hb h, hs, if_neg (by simp)]
    · rfl

theorem Space.atom_storeIn (m : Space) (a i : Nat) (vs : List Byte) :
    (m.storeIn a vs).atom i = if i = a / 32 then .home else m.atom i := by
  have h : ((m.opened (a / 32)).setBytes a vs).atom i = m.atom i := by
    rw [Space.atom_setBytes, Space.atom_opened]
  unfold Space.atom at h ⊢
  rw [← h]
  unfold Space.storeIn
  simp only [SMap.get_put]

theorem Space.raw_storeIn (m : Space) (a b : Nat) (vs : List Byte) :
    (m.storeIn a vs).raw b = if a ≤ b ∧ b < a + vs.length then vs.getD (b - a) 0
      else if b / 32 = a / 32 then m.byte b else m.raw b := by
  rw [← Space.raw_opened, ← Space.raw_setBytes]
  rfl

/-- A store in one atom: its bytes are written, the atom's other bytes read as before, and it is HOME (R116). -/
theorem Space.byte_storeIn {m : Space} {a : Nat} (b : Nat) {vs : List Byte} (hv : a % 32 + vs.length ≤ 32) :
    (m.storeIn a vs).byte b = if a ≤ b ∧ b < a + vs.length then vs.getD (b - a) 0 else m.byte b := by
  rw [Space.byte_eq, Space.raw_storeIn]
  unfold Space.atomAt
  rw [Space.atom_storeIn]
  by_cases h : b / 32 = a / 32
  · rw [if_pos h, if_neg (by simp), if_pos h]
  · rw [if_neg h, if_neg h, if_neg (c := a ≤ b ∧ b < a + vs.length) (by omega),
      if_neg (c := a ≤ b ∧ b < a + vs.length) (by omega), Space.byte_eq]
    rfl

/-- A store byte by byte writes its bytes and no others (R116). -/
theorem Space.byte_store (m : Space) (a b : Nat) (vs : List Byte) :
    (m.store a vs).byte b = if a ≤ b ∧ b < a + vs.length then vs.getD (b - a) 0 else m.byte b := by
  induction vs generalizing m a with
  | nil => simp [Space.store]
  | cons v vs ih =>
    rw [Space.store, ih, Space.byte_storeIn b (by simp; omega)]
    by_cases h : b = a
    · subst h
      simp
    · by_cases h1 : a ≤ b ∧ b < a + (v :: vs).length
      · have h1' : a + 1 ≤ b ∧ b < a + 1 + vs.length := by simp at h1; omega
        rw [if_pos h1, if_pos h1', show b - a = (b - (a + 1)) + 1 by omega]
        rfl
      · have h1' : ¬(a + 1 ≤ b ∧ b < a + 1 + vs.length) := by simp at h1; omega
        have h2 : ¬(a ≤ b ∧ b < a + [v].length) := by simp; omega
        rw [if_neg h1, if_neg h1', if_neg h2]

/-! ## The canonical form -/

theorem Space.wf_iff (m : Space) :
    m.wf = true ↔ SMap.canon 0 m.bytes = true ∧ SMap.canon .vacant m.atoms = true := by
  simp [Space.wf]

@[simp] theorem Space.wf_empty : ({} : Space).wf = true := rfl

/-- The errors of a space play no part in its canonical form. -/
theorem Space.wf_errs {m : Space} (es : List Nat) (h : m.wf = true) : ({ m with errs := es } : Space).wf = true := h

theorem Space.wf_setByte {m : Space} (a : Nat) (v : Byte) (h : m.wf = true) : (m.setByte a v).wf = true := by
  rw [Space.wf_iff] at h ⊢
  exact ⟨SMap.canon_put a v h.1, h.2⟩

theorem Space.wf_setBytes {m : Space} (a : Nat) (vs : List Byte) (h : m.wf = true) :
    (m.setBytes a vs).wf = true := by
  induction vs generalizing m a with
  | nil => exact h
  | cons v vs ih => exact ih (a + 1) (Space.wf_setByte a v h)

theorem Space.wf_setAtom {m : Space} (i : Nat) (st : AtomState) (h : m.wf = true) :
    ({ m with atoms := SMap.put .vacant m.atoms i st } : Space).wf = true := by
  rw [Space.wf_iff] at h ⊢
  exact ⟨h.1, SMap.canon_put i st h.2⟩

theorem Space.wf_putAtom {m : Space} (i : Nat) (st : AtomState) (bs : List Byte) (h : m.wf = true) :
    (m.putAtom i st bs).wf = true := by
  unfold Space.putAtom Space.clearAtom
  apply Space.wf_setAtom
  split
  · exact Space.wf_setBytes _ _ h
  · exact Space.wf_setBytes _ _ (Space.wf_setBytes _ _ h)

theorem Space.wf_vacate {m : Space} (i : Nat) (h : m.wf = true) : (m.vacate i).wf = true :=
  Space.wf_putAtom i .vacant [] h

theorem Space.wf_toPoison {m : Space} (i : Nat) (h : m.wf = true) : (m.toPoison i).wf = true :=
  Space.wf_errs _ (Space.wf_putAtom i .poison [] h)

theorem Space.wf_opened {m : Space} (i : Nat) (h : m.wf = true) : (m.opened i).wf = true := by
  unfold Space.opened Space.clearAtom
  split
  · exact Space.wf_setBytes _ _ h
  · exact Space.wf_setBytes _ _ h
  · exact h
  · exact h

theorem Space.wf_storeIn {m : Space} (a : Nat) (bs : List Byte) (h : m.wf = true) : (m.storeIn a bs).wf = true :=
  Space.wf_setAtom _ _ (Space.wf_setBytes a bs (Space.wf_opened _ h))

theorem Space.wf_store {m : Space} (a : Nat) (bs : List Byte) (h : m.wf = true) : (m.store a bs).wf = true := by
  induction bs generalizing m a with
  | nil => exact h
  | cons b bs ih => exact ih (a + 1) (Space.wf_storeIn a [b] h)

theorem Space.wf_setWord {m : Space} (a : Nat) (w : Word) (h : m.wf = true) : (m.setWord a w).wf = true := by
  unfold Space.setWord
  cases m.atomAt a
  all_goals first
    | exact h
    | exact Space.wf_storeIn a _ h
    | exact Space.wf_setBytes a _ h

theorem Space.wf_upset {m : Space} (i : Nat) (h : m.wf = true) : (m.upset i).wf = true := by
  unfold Space.upset
  split
  · exact h
  · exact h

/-- A fold of operations that keep the form keeps it. -/
theorem Space.wf_foldl {α : Type} {f : Space → α → Space} {m : Space} (xs : List α)
    (hf : ∀ m x, m.wf = true → (f m x).wf = true) (h : m.wf = true) : (xs.foldl f m).wf = true := by
  induction xs generalizing m with
  | nil => exact h
  | cons x xs ih => exact ih (hf m x h)

theorem sortedFrom_filter {α : Type} {m : SMap α} {lo : Nat} (p : Nat × α → Bool)
    (h : SMap.sortedFrom lo m = true) : SMap.sortedFrom lo (m.filter p) = true := by
  induction m generalizing lo with
  | nil => rfl
  | cons e m ih =>
    obtain ⟨j, v⟩ := e
    simp only [SMap.sortedFrom, Bool.and_eq_true, decide_eq_true_eq] at h
    rw [List.filter_cons]
    split
    · simp only [SMap.sortedFrom, Bool.and_eq_true, decide_eq_true_eq]
      exact ⟨h.1, ih h.2⟩
    · exact SMap.sortedFrom_le (ih h.2) (by omega)

theorem canon_filter {α : Type} [DecidableEq α] {d : α} {m : SMap α} (p : Nat × α → Bool)
    (h : SMap.canon d m = true) : SMap.canon d (m.filter p) = true := by
  simp only [SMap.canon, Bool.and_eq_true, List.all_eq_true, decide_eq_true_eq] at h ⊢
  exact ⟨sortedFrom_filter p h.1, fun e he => h.2 e (List.mem_filter.1 he).1⟩

theorem canon_foldl_put {α β : Type} [DecidableEq α] {d : α} {m : SMap α} (xs : List β) (k : β → Nat) (v : β → α)
    (h : SMap.canon d m = true) : SMap.canon d (xs.foldl (fun m x => SMap.put d m (k x) (v x)) m) = true := by
  induction xs generalizing m with
  | nil => exact h
  | cons x xs ih => exact ih (SMap.canon_put _ _ h)

theorem canon_movedInto {α : Type} [DecidableEq α] {d : α} (src : SMap α) {dst : SMap α} (lo n dest : Nat)
    (h : SMap.canon d dst = true) : SMap.canon d (movedInto d src dst lo n dest) = true :=
  canon_foldl_put _ _ _ (canon_filter _ h)

/-- A moved range leaves both spaces in canonical form. -/
theorem moveRange_wf {src dst : Space} (lo n dest : Nat) (hs : src.wf = true) (hd : dst.wf = true) :
    (moveRange src dst lo n dest).1.wf = true ∧ (moveRange src dst lo n dest).2.wf = true := by
  rw [Space.wf_iff] at hs hd
  simp only [moveRange, Space.wf_iff]
  exact ⟨⟨canon_filter _ hs.1, canon_filter _ hs.2⟩, canon_movedInto _ _ _ _ hd.1, canon_movedInto _ _ _ _ hd.2⟩

theorem vacateRange_wf {m : Space} (lo n : Nat) (h : m.wf = true) : (vacateRange m lo n).wf = true :=
  (moveRange_wf lo n 0 h Space.wf_empty).1

theorem moveWithin_wf {m : Space} (lo n dest : Nat) (h : m.wf = true) : (moveWithin m lo n dest).wf = true := by
  have h1 := moveRange_wf lo n 0 h Space.wf_empty
  exact (moveRange_wf 0 n dest h1.2 h1.1).2

theorem writePieces_wf {m : Space} (ps : List Piece) (bs : List Byte) (h : m.wf = true) :
    (writePieces ps bs m).wf = true := by
  induction ps generalizing m bs with
  | nil => exact h
  | cons p ps ih =>
    rw [writePieces]
    split
    · exact ih _ (Space.wf_storeIn _ _ h)
    · exact ih _ (Space.wf_storeIn _ _ h)

theorem vacatePieces_wf {m : Space} (ps : List Piece) (h : m.wf = true) : (vacatePieces ps m).wf = true :=
  Space.wf_foldl ps (fun _ p h => Space.wf_vacate p.atom h) h

theorem tileAtoms_wf {m : Space} (base : Nat) (t : Tile) (h : m.wf = true) : (tileAtoms base t m).wf = true :=
  Space.wf_foldl _ (fun _ _ h => Space.wf_putAtom _ _ _ h) h

theorem Space.wf_restate {m : Space} (i : Nat) (st : AtomState) (h : m.wf = true) : (m.restate i st).wf = true :=
  Space.wf_setAtom i st h

theorem Space.wf_device {m : Space} (a : Nat) (bs : List Byte) (h : m.wf = true) : (m.device a bs).wf = true := by
  induction bs generalizing m a with
  | nil => exact h
  | cons b bs ih =>
    rw [Space.device]
    refine ih (a + 1) ?_
    split
    · exact Space.wf_toPoison _ h
    · split <;> first | exact Space.wf_storeIn a [b] h | exact h

theorem writeParts_wf {m : Space} (ps : List (Nat × Nat)) (bs : List Byte) (h : m.wf = true) :
    (writeParts ps bs m).wf = true := by
  induction ps generalizing m bs with
  | nil => exact h
  | cons p ps ih => exact ih _ (Space.wf_device _ _ h)

/-- One atom of ACCRD or ACCWR leaves the scratchpad in canonical form. -/
theorem tileAtom_wf {y : Core} (op : MOp) (i : Nat) (h : y.spad.wf = true) : (tileAtom op y i).spad.wf = true := by
  unfold tileAtom
  split
  · exact Space.wf_putAtom _ _ _ h
  · exact Space.wf_vacate _ h
  · exact h

/-- Reset memory lists nothing. -/
theorem reset_mem : State.reset.mem = {} := rfl

end Sys2Proof.Machine
end

