-- ==== Sys2Proof/Tests/Slice0.lean ====
section
/-!
SUPPORT. Tests on small states: words written out from the manual, ill-formed terms, single steps with results taken from the
manual, and for every statement a state and operands that meet its hypotheses.
-/

set_option maxRecDepth 20000

namespace Sys2Proof.Tests

open Sys2Proof Sys2Proof.Machine Sys2Proof.Claims

/-! ## Small states -/

/-- Chair 0 runs context 0, of tenant 0, whose accesses and transfers have a turn at die 0 (R323); nothing else. -/
def base : State := State.reset.withChair.updDie 0 fun d => { d with stackSlots := [(0, 1)], xferSlots := [(0, 1)] }

/-- A gaffer of chair 0. -/
def withGf (g : Gaffer) : State := base.setGf g

/-- Core 0 of chair 0. -/
def withCore (y : Core) : State := base.setCore 0 0 y

/-- The next state of an outcome that has one. -/
def after (r : Res) : State :=
  match r with
  | .next t => t
  | _ => base

/-- The outcome has a next state. -/
def goesOn (r : Res) : Bool :=
  match r with
  | .next _ => true
  | _ => false

/-! ## The hypotheses of the statements can be met: the gaffer -/

/-- A gaffer in a loop body of five words, at its last word in its last pass. -/
def loopGf : Gaffer :=
  { pc := 6, depth := 1, levels := [(0, { n := 3, k := 2, start := 2, last := 6, n0 := 3 })], g := [(1, 0x10), (2, 7)] }

theorem witness_GafferArithmeticWritesItsResult :
    wellFormed (.bfi 3 1 60 3) = true ∧ gafValue loopGf (.bfi 3 1 60 3) = some (3, 0, 1) ∧
    gafValue loopGf (.div 3 1 0) = some (3, 0xFFFFFFFFFFFFFFFF, 24) ∧ gafValue loopGf (.div 3 1 2) = some (3, 2, 24) := by
  decide

theorem witness_GafferReadsNopAndLiterals :
    gafReads (withGf loopGf) (.csrr 5 0x024) = some (5, 2) ∧
    (let g := { loopGf with ds := true, taken := true, dt := 4 }
     g.ds = true ∧ g.leave = none ∧ g.taken = true) ∧
    (let g := { loopGf with levels := [(0, { n := 3, k := 1, start := 2, last := 6 })] }
     g.ds = false ∧ g.depth = 0 + 1 ∧ (g.level 0).pre = false ∧ g.pc = (g.level 0).last ∧
       (g.level 0).k + 1 < (g.level 0).n + (g.level 0).s1 ∧ g.drain = none) ∧
    (loopGf.ds = false ∧ loopGf.depth = 1 ∧ (loopGf.level 0).pre = false ∧ loopGf.pc = (loopGf.level 0).last ∧
      loopGf.pc.toNat < 8191 ∧ (loopGf.level 0).start.toNat ≤ (loopGf.level 0).last.toNat ∧ loopGf.drain = none ∧ (loopGf.level 0).n + (loopGf.level 0).s1 ≤ (loopGf.level 0).k + 1) ∧
    (({ loopGf with lits := [1] } : Gaffer).lits.length < 2) ∧ 2 ≤ ({ loopGf with lits := [1, 2] } : Gaffer).lits.length ∧
    (3 : BitVec 4) ≠ 0 := by
  decide

theorem witness_DataSramAccesses :
    (((loopGf.reg 1).toNat : Int) + (0xFFE8 : BitVec 20).toInt = (0xFFF8 : Nat) ∧ 0xFFF8 % 8 = 0 ∧ 0xFFF8 + 8 ≤ 0x10000) ∧
    (((loopGf.reg 1).toNat : Int) + (0xFFFEC : BitVec 20).toInt = -4) ∧
    (((loopGf.reg 1).toNat : Int) + (0xFFEC : BitVec 20).toInt = (0xFFFC : Nat) ∧ 0xFFFC % 4 = 0 ∧ 0xFFFC + 4 ≤ 0x10000 ∧
      0xFFFC % 8 ≠ 0) := by
  decide

/-- An address below 0 meets the hypothesis of the fault clauses. -/
theorem witness_DataSramAccesses_fault :
    ∀ p : Nat, ((loopGf.reg 1).toNat : Int) + (0xFFFEC : BitVec 20).toInt = p → p % 8 = 0 → 0x10000 < p + 8 := by
  intro p h
  exact absurd h (by rw [show ((loopGf.reg 1).toNat : Int) + (0xFFFEC : BitVec 20).toInt = -4 from by decide]; omega)

theorem witness_BranchesLeaveADelaySlot :
    branchOf loopGf (.bne 1 2 (-4)) = some (true, 2, 0) ∧ mayGo loopGf 2 ∧
    branchOf loopGf (.jal 9 1) = some (true, 7, 9) ∧ ¬mayGo loopGf 7 ∧
    branchOf loopGf (.beq 1 2 (-4)) = some (false, 2, 0) := by
  unfold mayGo; decide

theorem witness_LoopsStartAndBreak :
    ((0 : BitVec 2).toNat = ({} : Gaffer).depth ∧ 1 ≤ (8191 : BitVec 20).toNat ∧
      ({} : Gaffer).pc.toNat + (8191 : BitVec 20).toNat ≤ 8191 ∧ (({} : Gaffer).reg 0).toNat ≤ 0xFFFFFFFF ∧
      ({} : Gaffer).resume = none ∧ base.here.req = false ∧ (({} : Gaffer).reg 0).toNat = 0) ∧
    (let g : Gaffer := { loopGf with pc := 3 }
     (1 : BitVec 2).toNat = g.depth ∧ (∀ e, e < g.depth → (g.level e).start.toNat ≤ g.pc.toNat + 1 ∧
       g.pc.toNat + (3 : BitVec 20).toNat ≤ (g.level e).last.toNat) ∧ (g.reg 2).toNat ≠ 0 ∧
       (g.reg 2).toNat ≤ 0xFFFFFFFF ∧ g.resume = none) ∧
    ({} : Gaffer).pc.toNat + (4 : BitVec 20).toNat < 8191 ∧
    (0 : BitVec 2).toNat < loopGf.depth ∧ (0 : BitVec 2).toNat ≠ loopGf.depth ∧ loopGf.depth ≤ (1 : BitVec 2).toNat := by
  decide

theorem witness_GafferFaultsArePrecise : (withGf loopGf).gf.waited = false ∧ (withGf loopGf).here.halt = none := by
  decide

/-- R77: a body inside the innermost active body and outside an outer one does not nest; R68: li has 32 bits. -/
theorem test_bodies_nest_in_every_level :
    ({ pc := 3, depth := 2, levels := [(0, { n := 1, start := 7, last := 9 }), (1, { n := 1, start := 2, last := 9 })] } : Gaffer).nests 8
      = false ∧
    ({ depth := 1, levels := [(0, { n := 1, k := 2 ^ 32 + 5 })] } : Gaffer).li 0 = 5 := by
  decide

/-- R71, R85: what a chair wait takes of a Pin that holds less comes back in full, and no more. -/
theorem test_chair_wait_gives_back_what_it_took :
    let y : Core := { phase := .detached, sem := [(5, 4)], sp := [(5, 4)], pin := [(5, 1)] }
    let x := ((withGf { breaks := [{ core := 0, tag := 9, d := 4, counters := [(5, 4)], taken := true }] }).setCore 0 0 y).here
    let z := x.chairTake 5 4
    SMap.get 0 (z.core 0).pin 5 = 0 ∧ SMap.get 0 ((z.chairGive 5 4).core 0).pin 5 = 1 ∧
      ((z.chairGive 5 4).core 0).semv 5 = 4 := by
  decide

/-! ## Emission and joining -/

/-- `SADD s1, s2, s3` with a signal of sem5, as a word to emit. -/
def emitWord : Word := 0x000502000420C000

/-- A gaffer with core 3 away under tag 9. -/
def awayGf : Gaffer := { g := [(1, 0xFFF7), (2, 8)], breaks := [{ core := 3, tag := 9, d := 4 }], head := 5 }

theorem witness_EmissionsTakeTheNextSlotOrFaultOrWait :
    (emits awayGf (.emit 1 emitWord) = some (emitWord, 1) ∧ 1 ≤ engOf emitWord ∧ engOf emitWord ≤ 7 ∧
      awayGf.litBad emitWord (selected awayGf 1) = false ∧
      (awayGf.promoteAll emitWord ((withGf awayGf).here.counted (selected awayGf 1))).toBool = true ∧
      (withGf { awayGf with head := 0 }).here.ringRoom = true) ∧
    emits awayGf (.emitp 0 2) = some (8, 0) ∧ engOf 8 = 0 ∧
    ({ awayGf with emitted := [(2, 1, 0x000F)] } : Gaffer).litBad emitWord (selected awayGf 1) = true ∧
    (awayGf.promoteAll 0x050002000420C000 ((withGf awayGf).here.counted (selected awayGf 1))).toBool = false ∧
    (withGf { awayGf with head := 256 }).here.ringRoom = false := by
  decide

/-- R61: a DETACH opens a span for every core it selects that is not away at emission, an EXITED one too. -/
theorem test_detach_opens_a_span_for_an_exited_core :
    (((withGf awayGf).setCore 0 1 { phase := .exited }).here.beginBreaks 0x0000070009000000 0x000A 5).map (·.core) = [1] := by
  decide

theorem witness_PromisesFormatsAndExpectations :
    ¬isSemWord emitWord ∧ clauseAmt 5 0 = 1 ∧
    (let cl := clauseOf 0x050602000420C000
     (({} : Gaffer).promise 0 cl.wsem.toNat < clauseAmt cl.wsem cl.wcnt) ∧
      clauseAmt cl.wsem cl.wcnt ≤ ({ prom := [(256 * 0 + 5, 1)] } : Gaffer).promise 0 cl.wsem.toNat) ∧
    0xFFFF < promised { prom := [(256 * 0 + 5, 0xFFFF)] } emitWord 0 5 ∧
    ¬(0xFFFF < (awayGf.reg 1).toNat) ∧ 0xFFFF < (({ g := [(1, 0x10000)] } : Gaffer).reg 1).toNat := by
  unfold isSemWord; decide

/-- SEMADD of 3 to sem5, which passes, or would go above 0xFFFF; and SEMWAIT for 3 that the counter does not cover. -/
theorem witness_PromisesFormatsAndExpectations_sem :
    isSemWord 0x0000070905000003 ∧ isSemWord 0x0000070A05000003 ∧
    semOpnd 0x0000070905000003 = (5, 3) ∧ waitTaken {} 0x0000070905000003 0 5 + 3 ≤ 0xFFFF ∧
    (field 32 8 (0x0000070905000003 : Word) = 0x09 ∧
      0xFFFF < waitTaken { prom := [(5, 0xFFFD)] } 0x0000070905000003 0 5 + 3) ∧
    (field 32 8 (0x0000070A05000003 : Word) = 0x0A ∧ waitTaken { prom := [(5, 2)] } 0x0000070A05000003 0 5 < 3) ∧
    (clauseOf 0x0005070805000003).ssem = 5 ∧ semPromised {} 0x0005070805000003 0 5 = 4 := by
  unfold isSemWord; decide

theorem witness_PromisesFormatsAndExpectations_fmt :
    (∀ c, actsOn (withGf { awayGf with breaks := [] }).here 1 c →
      (withGf { awayGf with breaks := [] }).gf.openBreak c = none ∧
        ((withGf { awayGf with breaks := [] }).here.core c).m.fmtq.length < 16) ∧
    (∃ c, actsOn (withGf awayGf).here 2 c ∧ ((withGf awayGf).gf.openBreak c).isSome) := by
  refine ⟨?_, 3, by unfold actsOn; decide, by decide⟩
  intro c h
  have : ∀ c ∈ maskCores (selected (withGf { awayGf with breaks := [] }).gf 1),
      (withGf { awayGf with breaks := [] }).gf.openBreak c = none ∧
        ((withGf { awayGf with breaks := [] }).here.core c).m.fmtq.length < 16 := by decide
  exact this c h

theorem witness_JoinsAndChairWaitsGoOnWhenTheCoresArrive :
    (withGf { awayGf with head := 0 }).gf.litPending = false ∧ (withGf { awayGf with head := 0 }).here.ringRoom = true ∧
    (let s := withGf { awayGf with g := [(2, 7)], head := 0 }
     ∀ c ∈ maskCores ((s.gf.reg 2).setWidth 16), s.here.arrived c = true ∧ s.gf.openBreak c = none) ∧
    (∃ c ∈ maskCores (((withGf awayGf).gf.reg 2).setWidth 16),
      ((withGf awayGf).here.core c).phase ≠ .exited ∧ ((withGf awayGf).gf.openBreak c).isSome) ∧
    (∀ c ∈ maskCores (selected base.gf 0), (base.here.core c).phase = .exited ∨
      ((base.here.core c).phase = .drafting ∧ base.gf.openBreak c = none ∧ (base.here.core c).pos = base.gf.head ∧
        ((1 : BitVec 1) = 1 → (base.here.core c).still = true))) := by
  decide

theorem witness_ReturnQueuePops :
    (let s := (withGf { g := [(2, 1)] }).setCore 0 0 { x := { lane := [7, 8] } }
     (∀ c ∈ maskCores ((s.gf.reg 2).setWidth 16),
       (s.here.core c).ripe keyLane (s.here.core c).x.lane.length s.here.cycle ≠ 0) ∧
      (let y := s.here.core ((s.gf.reg 0).toNat % 16)
       y.ripe keyLane y.x.lane.length s.here.cycle ≠ 0)) ∧
    (∀ c ∈ maskCores (((withGf {}).gf.reg 1).setWidth 16),
      ((withGf {}).here.core c).ripe keyLane ((withGf {}).here.core c).x.lane.length (withGf {}).here.cycle ≠ 0) ∧
    (base.here.core ((base.gf.reg 0).toNat % 16)).x.lane = [] ∧ (4 : BitVec 3).toNat ≤ 4 ∧
    (let s := (withGf { g := [(2, 1)] }).setCore 0 0 { phase := .exited }
     ∃ c ∈ maskCores ((s.gf.reg 2).setWidth 16), (s.here.core c).x.lane = [] ∧ (s.here.core c).phase = .exited) ∧
    (let s := (withGf { g := [(2, 1)] }).setCore 0 0 { x := { lane := [7] }, pushed := [(keyLane, (0, 1))] }
     (∀ c ∈ maskCores ((s.gf.reg 2).setWidth 16), (s.here.core c).x.lane ≠ [] ∨ (s.here.core c).phase ≠ .exited) ∧
       (∃ c ∈ maskCores ((s.gf.reg 2).setWidth 16),
         (s.here.core c).ripe keyLane (s.here.core c).x.lane.length s.here.cycle = 0) ∧
       (s.here.core 0).x.lane ≠ []) := by
  decide

/-- Context 0 runs a kernel of die 0 with a range of ten in chunks of at least two. -/
def kernelState : State :=
  let s := base.setCtx 0 { base.ctx 0 with kernel := some (0, 4) }
  s.updDie 0 fun y => { y with kernels := [{ seq := 4, words := [0, 0, 0, 10] }] }

theorem witness_GrabAndStepServeTheLaunch :
    ((kernelState.kernelOf (kernelState.ctxOf kernelState.act.chair)).map fun e => (e.1, e.2.rcount)) = some (0, 10) ∧
    (kernelState.ctx (kernelState.ctxOf kernelState.act.chair)).desc1 1 54 1 = 0 ∧
    (kernelState.ctx (kernelState.ctxOf kernelState.act.chair)).desc1 1 55 1 = 0 ∧
    (∀ c, c < 16 → (kernelState.here.core c).phase = .exited ∨ ((kernelState.here.core c).phase = .drafting ∧
      kernelState.gf.openBreak c = none ∧ (kernelState.here.core c).pos = kernelState.gf.head ∧
      (kernelState.here.core c).still = true)) ∧
    (kernelState.kernelOf 0).any (fun e => e.2.marked = none ∧ e.2.groups.length ≥ e.2.maxDie) = true ∧
    kernelState.here.withdrawn = false ∧ (kernelState.setHere { kernelState.here with withdrawn := true }).here.withdrawn = true := by
  decide

theorem witness_YieldExitAndWaitQuiet :
    base.gf.depth = 0 ∧ base.here.st = .run ∧ base.gf.drain = none ∧ base.gf.ds = false ∧ (base.setHere { base.here with req := true }).here.softReady = true ∧
    base.gf.litPending = false ∧ (∀ c, c < 16 → (base.here.core c).phase ≠ .joining) ∧
    (withGf { emitted := [(2, 1, 1)] }).gf.litPending = true ∧ base.gf.quiet = none ∧
    (∀ c, c < 16 → (base.here.core c).phase ≠ .drafting ∨
      ((base.here.core c).pos = base.gf.head ∧ (base.here.core c).queue 6 = [])) := by
  decide

/-- Chair 0 in handler mode. -/
def handlerState : State :=
  base.setHere { base.here with
    st := .halted,
    frame := { base.here.frame with handler := true, levelC := true, savedG := (List.range 8).map fun i => (56 + i, 1) },
    gf := { g := [(1, 0x8)] } }

theorem witness_TrapHandlerWordsAndResume :
    handlerState.here.frame.handler = true ∧ base.here.frame.handler = false ∧ base.gf.waited = false ∧
    base.here.halt = none ∧ handlerState.here.frame.levelC = true ∧ handlerState.here.frame.mode = false ∧
    handlerState.here.frame.held = none ∧ handlerState.here.frame.inner = none ∧ handlerState.here.frame.cont.trap = false ∧
    (List.range 8).map (fun i => 56 + i) = handlerState.here.frame.savedG.map (·.1) := by
  decide

theorem witness_ContextImagesMoveThroughDataSram :
    handlerState.here.frame.handler = true ∧ (handlerState.gf.reg 1).toNat + (0xFDA8 : BitVec 20).toNat = 0xFDB0 ∧
    0xFDB0 % 8 = 0 ∧ 0xFDB0 + 592 ≤ 0x10000 ∧ 0x10000 < 0xFDB8 + 592 ∧ imageOk (List.replicate 74 0) = true ∧
    imageOk (List.replicate 74 0xFFFFFFFFFFFFFFFF) = false := by
  decide

/-! ## The access side -/

/-- Four levels of page table from frame 0x1000 and a 2 MiB page at virtual 0, readable and writable, in frame 0x400
(R204, R205). -/
def pageTables (leaf : Word) : Space :=
  (((({} : Space).setWord 0x1000000 0x1001001).setWord 0x1001000 0x1002001).setWord 0x1002000 0x1003001).setWord
    0x1003000 leaf

/-- Chair 0 runs context 0, whose page table maps a 2 MiB page at virtual 0 by a leaf. -/
def pagedWith (leaf : Word) : State :=
  let s := { base with mem := pageTables leaf }
  let c := s.ctx 0
  s.setCtx 0 { c with desc := 0x1000000 :: c.desc.drop 1 }

def paged : State := pagedWith 0x400117

/-- Core 0 of a paged state. -/
def pagedCore (y : Core) : State := paged.setCore 0 0 y

theorem witness_AsideWordsWriteTheirRegisterOrGenerator :
    asideValue (withCore { a := { a := [(1, 5), (2, 7)] } }) (.amul 3 1 2 0) = some (3, 35) ∧
    genValue { a := [(1, 5)], ag := [(2, { pos := 3, lim := 8 })] } (.agnextW 2 1) =
      some (2, { pos := 0, lim := 8 }) := by
  decide

/-- An A-side with a generator at its limit, and a data queue with one free entry. -/
def accSide : ASide :=
  { a := [(1, 0x10), (2, 0x13)], ag := [(1, { base := 0x40, stride := 128, pos := 7, lim := 8 })],
    dq := [(0, List.replicate 15 { id := 1 })], sq := [(0, [5])] }

theorem witness_AccessesIssueTheirBytes :
    (accOf accSide (.ldqs 0 1 0)).isSome = true ∧
    ((ldqAcc accSide false true 0 1 0).ready (withCore { a := accSide }) ∧ ¬(ldqAcc accSide false true 0 1 0).past) ∧
    ¬(ldqAcc accSide false true 0 1 1).ready (withCore { a := accSide }) ∧
    ((ldqAcc accSide false true 1 1 1).ready (withCore { a := accSide }) ∧ (ldqAcc accSide false true 1 1 1).past) ∧
    (∃ g ∈ (atAcc accSide .atadd 8 3 2 [1] .core).segs, g.1.toNat % 8 ≠ 0) ∧
    (∀ g ∈ (atAcc accSide .atadd 8 3 1 [2] .core).segs, g.1.toNat % 8 = 0) := by
  refine ⟨by decide, ⟨⟨?_, by intro q n h; exact absurd h (by simp [ldqAcc])⟩, ?_⟩, ?_, ⟨⟨?_, ?_⟩, ?_⟩, by decide, by decide⟩
  · intro q n h; cases h; decide
  · simp only [ldqAcc, atLimit]; decide
  · intro h; exact absurd (h.1 0 2 rfl) (by decide)
  · intro q n h; cases h; decide
  · intro q n h; exact absurd h (by simp [ldqAcc])
  · simp only [ldqAcc, atLimit]; decide

/-- The pages of a store resolve; nothing is due for its page. -/
theorem witness_AccessesIssueTheirBytes_pages :
    (match resolve 0 0 { r := false, w := true } [(0x3C, 8)] paged with
     | (.ok ps, u) => ps.length == 2 &&
         ps.all (fun q => decide ((u.page q.2).epoch < 4096) && decide ((u.page q.2).window < 65536))
     | _ => false) = true ∧
    (∀ n, (SMap.get {} paged.aside.watch n).kind = 0) := by
  refine ⟨by decide, fun n => rfl⟩

/-- R116, R228: a dropped STQ gives back its two entries, ahead of the third, and its generator's position. -/
theorem test_dropped_store_gives_back :
    let y : ASide := { ag := [(2, { pos := 9 })], sq := [(0, [3])],
                       pend := [{ id := 4, op := .store, took := { gen := some (2, 8, 9), sq := some (0, [1, 2]) } }] }
    let z := y.unissue (y.pend.headD { id := 0, op := .load })
    z.sqs 0 = [1, 2, 3] ∧ (z.gen 2).pos = 8 ∧ z.pend = [] := by
  decide

/-- A paged state with one pending access of core 0. -/
def pendState (op : AOp) : State :=
  pagedCore { a := { pend := [{ id := 4, op := op, segs := [(0x40, 8)], data := List.replicate 8 1, dst := .reg 3 }] } }

theorem witness_PendingAccessesAndAtomicsArePerformed :
    ∀ op ∈ [AOp.load, .store, .atcas],
      (((pendState op).core 0 0).a.pend.find? (·.id = 4)).isSome = true ∧ ((pendState op).chair 0).alive = true ∧
      ((pendState op).core 0 0).recorded 1 4 = false ∧
      ((pendState op).core 0 0).a.pend.all (fun p => !p.stuck && p.at_ == ((pendState op).chair 0).cycle) = true ∧
      APend.clear (pendState op) ((pendState op).ctxOf 0) 4 ((pendState op).core 0 0).a.pend = true ∧
      (match resolve 0 0 { r := decide (op ≠ .store), w := decide (op ≠ .load) } [(0x40, 8)] (pendState op) with
       | (.ok qs, u) => (checkAtoms u.mem (decide (op ≠ .load)) (qs.map (·.1))).isNone && (u.chair 0).open_ &&
           qs.all fun q => !u.ganged q.1.pa
       | _ => false) = true := by
  decide

/-- The same chair with its halt behind it in time: its frame is not closed, and no word issues. -/
theorem witness_PendingAccessesAndAtomicsArePerformed_frozen :
    let s := pendState .load
    let s := s.setChair 0 { s.chair 0 with halt := some { cycle := 4 }, cycle := 5 }
    (s.chair 0).alive = true ∧ (s.chair 0).open_ = false ∧
    (match resolve 0 0 { r := true } [(0x40, 8)] s with
     | (.ok _, u) => !(u.chair 0).open_
     | _ => false) = true := by
  decide

/-- R225: what a load gives a register of a frozen chair is in flight, to land a cycle after the restart. -/
theorem test_captured_load_is_in_flight :
    let s := pendState .load
    let t := after (exec (.loadDataReturn 0 0 4) (s.setChair 0 { s.chair 0 with halt := some { cycle := 4 }, cycle := 5 }))
    (t.core 0 0).a.reg 3 = 0 ∧ (t.core 0 0).a.late.map (fun r => (r.d, r.at_)) = [(3, 6)] ∧ (t.core 0 0).a.pend = [] := by
  decide

/-- A probe cache of one set: way 0 holds block 0x800, VALID, and way 1 block 0x1000, EVICTING. -/
def probeSide : ASide :=
  { a := [(1, 0x812), (2, 0x1900)], pcfg := 0x800,
    tags := [(0, { st := .valid, block := 0x800 }), (1, { st := .evicting, block := 0x1000 })] }

theorem witness_OrderingWordsOutcomesAndProbes :
    (outcome (withCore { a := { xa := [true] } }) { xa := [true] } .xa0 = some (false, {}) ∧
      outcome base {} .xa1 = none ∧ ({} : ASide).po = [] ∧ ({} : ASide).bq = none ∧
      (({} : ASide).tags.any fun t => t.2.probing) = false ∧ (({ tags := [(0, { st := .filling })] } : ASide).tags.any fun t => t.2.probing) = true ∧
      ({ bq := some true } : ASide).bq = some true ∧ 32 ≤ ({ ax := List.replicate 32 true } : ASide).ax.length) ∧
    ((pendState .fence).core 0 0).a.pend.map (fun p => (p.op, p.stuck, p.at_)) = [(.fence, false, 0)] ∧
    APend.clear (pendState .fence) 0 4 ((pendState .fence).core 0 0).a.pend = true ∧
    probeSide.pcfg.getLsbD 11 = true ∧ ({} : ASide).pcfg.getLsbD 11 = false ∧
    (.ofNat 64 ((probeSide.reg 1).toNat / 2048 * 2048) = (0x800 : Word) ∧
      (0x800 : Word).toNat / 2048 % 2 ^ (field 8 3 probeSide.pcfg).toNat = 0) ∧
    ((probeSide.tag 0 0).block = 0x800 ∧ (probeSide.tag 0 0).st = .valid) ∧
    ((probeSide.tag 0 2).st = .invalid ∧ (∀ v, v < 2 → (probeSide.tag 0 v).st ≠ .invalid) ∧
      (∀ v, v < 4 → ((probeSide.tag 0 v).block ≠ 0x1800 ∨ (probeSide.tag 0 v).st = .invalid) ∧
        (probeSide.tag 0 v).next = none)) ∧
    (let s := pagedCore { a := probeSide }
     (match probeRange 0 0 { r := true, w := true } 0x1800 2048 s with
      | ((ts, none), _) => ts.all fun t => !pteNarrow t.pte
      | _ => false) = true ∧ s.here.ownOk 0 (2 * 2048) 2048 = true ∧ s.here.ownOk 0 0 2048 = true ∧
      (s.setHere { s.here with handles := [(3, { st := .held 1, len := 2048 })] }).here.ownOk 0 0 2048 = false) := by
  decide

theorem witness_OrderingWordsOutcomesAndProbes_fill :
    let s := pagedCore { a := { probeSide with
      tags := [(0, { st := .filling, block := 0x800 }),
      (1, { st := .evicting, block := 0x1000 })] } }
    (s.chair 0).alive = true ∧ (s.core 0 0).tagRecorded 0 = false ∧
    (∀ k, k < 4 → (SMap.get {} (s.core 0 0).a.watch k).kind = 0) ∧
    (s.chair 0).ownOk 0 ((s.core 0 0).a.slot 0 0) 2048 = true ∧ (s.chair 0).ownOk 0 ((s.core 0 0).a.slot 0 1) 2048 = true ∧
    blockWaits 0 0 0x800 s = false ∧ blockWaits 0 0 0x1000 s = false ∧
    (match translate 0 0 ((s.core 0 0).a.tag 0 0).block s with
     | (some tr, u) => (moveAll 0 {} (blockPairs 0 0 (tr.pa 0x800) ((s.core 0 0).a.slot 0 0) true) u).2.2.isNone &&
         (moveAll 0 {} (blockPairs 0 0 (tr.pa 0x1000) ((s.core 0 0).a.slot 0 1) false) u).2.2.isNone
     | _ => false) = true := by
  decide

theorem witness_RangeProbesPinTheirRange :
    probeRangeOk 0x1000 0x2000 ∧ probeRangeOk 0 (2 ^ 30) ∧ ¬probeRangeOk 0 0 ∧ ¬probeRangeOk 0 (2 ^ 30 + 1) ∧
    ¬probeRangeOk 0x100000000000000 8 ∧
    paged.aside.still = true ∧ (probeRange 0 0 { r := true } 0x1000 0x2000 paged).1.2 = none ∧
    (let r := probeRange 0 0 { r := true } 0x40000000 8 paged
     r.1.2 = some (.none, 0x40000000) ∧ r.2.here.open_ = true ∧ r.2.me.rec_ = none) ∧
    paged.aside.pins.length < 16 ∧ 16 ≤ ({ pins := List.replicate 16 (0, 1) } : ASide).pins.length ∧
    (probeRange 0 0 { r := true } 0x1000 0x2000 (pagedWith 0x800000000400117)).1.2 = some (.deep, 0x1000) := by
  unfold probeRangeOk; decide

/-- h3 is held by core 0, h4 offered by core 1 to core 0. -/
def handleState : State :=
  let s := withCore { a := { a := [(1, 2), (2, 16), (3, 0x40000000)] } }
  s.setHere { s.here with handles := [(3, { st := .held 0 }), (4, { st := .offered 1 0 })] }

theorem witness_HandlesPassBetweenCoresAndWatchSlotsAreSet :
    handleState.me.stillBefore handleState.act.n 1 = true ∧ (handleState.here.handle 3).st = .held 0 ∧
    (handleState.aside.reg 1).toNat ≤ 15 ∧ (handleState.here.core 2).phase ≠ .exited ∧
    (handleState.here.handle 4).st = .offered 1 0 ∧ 15 < (handleState.aside.reg 2).toNat ∧
    (handleState.here.handle 5).st = .free ∧ (handleState.aside.reg 3).toNat = 2 ^ 30 ∧
    (handleState.aside.reg 0).toNat = 0 ∧ (3 : BitVec 2) ≠ 0 := by
  decide

theorem witness_HandlesPassBetweenCoresAndWatchSlotsAreSet_wait :
    ∀ o, (handleState.here.handle 3).st ≠ .offered o 0 := by
  intro o h
  exact absurd h (by rw [show (handleState.here.handle 3).st = .held 0 from by decide]; simp)

/-! ## The execute side -/

theorem witness_XsideWordsIssueWithTheirResult :
    xResult { s := [(1, 5), (2, 3)] } (.ssub 4 1 2) = some (true, 2, toS 4 2) ∧
    xResult { p := [(1, 0x0F)] } (.pcnt 4 1) = some (false, 2, toS 4 4) := by
  decide

theorem witness_VectorWordsComputeTheirActiveElements :
    ((vecInt { vtype := .i8 } (.vadds 1 2 3 4)).map fun r => (r.1, r.2.1)) = some (1, 2) ∧
    VType.fmt VType.bf16 = some bf16 ∧
    ((vecFlt { vtype := .bf16 } bf16 (.vfma 1 2 3 4)).map fun r => (r.1, r.2.1, r.2.2.1)) = some (4, 1, 2) ∧
    VType.fmt VType.u8 = none ∧ needsFloat (.vfadd 0 1 2 3) = true := by
  decide

theorem witness_ComparesWriteTheirActiveLanes :
    ((vecCmp { vtype := .i16 } fp16 (.vclt 1 2 3 4)).map fun r => (r.1, r.2.1, r.2.2.1)) = some (false, 1, 2) ∧
    ((vecCmp { vtype := .f16 } fp16 (.vfceq 1 2 3 4)).map fun r => (r.1, r.2.1, r.2.2.1)) = some (true, 1, 2) ∧
    VType.fmt VType.f16 = some fp16 := by
  decide

theorem witness_ConversionsConvertEveryElement : VType.fmt ({} : XSide).vtype ≠ none := by decide

theorem witness_ReductionsAndCompression :
    VType.fmt VType.i32 = none ∧ VType.fmt ({} : XSide).vtype = some fp32 ∧ (1 : BitVec 2) ≠ 3 ∧
    activeInts { vtype := .i32, p := [(1, 0)] } 1 0 = [] ∧ activeInts { vtype := .i32, p := [(1, 3)] } 1 0 = [0, 0] ∧
    activeElems 32 (({ p := [(1, 0)] } : XSide).preg 1) 0 = [] ∧
    (unpack fp32 0x7FC00000).isNan = true ∧ (unpack fp32 0x3F800000).isNan = false := by
  decide

theorem witness_XsideQueuesSelectAndDeferral :
    ({ dq := [(0, [{ id := 3, data := some 9, at_ := 2 }, { id := 4 }])] } : ASide).dqs 0 =
      { id := 3, data := some 9, at_ := 2 } :: [{ id := 4 }] ∧
    2 ≤ (base.setHere { base.here with cycle := 2 }).here.cycle ∧ base.here.cycle < 2 ∧
    ({ dq := [(1, [{ id := 3, data := none }])] } : ASide).dqs 1 = { id := 3, data := none } :: [] ∧
    (({} : ASide).sqs 0).length < 16 ∧ 16 ≤ (({ sq := [(0, List.replicate 16 0)] } : ASide).sqs 0).length ∧
    ({} : XSide).lane.length < 16 ∧ 16 ≤ ({ lane := List.replicate 16 0 } : XSide).lane.length ∧
    ({} : ASide).xa.length < 32 ∧ 32 ≤ ({ xa := List.replicate 32 true } : ASide).xa.length ∧
    ((List.range 32).filter fun n => (({ p := [(1, 0)] } : XSide).preg 1).getLsbD n) = [] ∧
    ((List.range 32).filter fun n => (({ p := [(1, 6)] } : XSide).preg 1).getLsbD n) = [1, 2] ∧
    ({} : XSide).defq.length < 256 ∧ 256 ≤ ({ defq := List.replicate 256 ⟨0, [(0, 0)]⟩ } : XSide).defq.length := by
  decide

theorem witness_ResultsLandInTheirRegister :
    let f : Inflight := { dest := .s 3, val := 8, at_ := 2, sig := { sem := 5, amt := 1 } }
    let l : Inflight := { dest := .vvp 3 2, val := 8, at_ := 3 }
    let s := withCore { x := { fly := [l, f, f] } }
    let s := s.setChair 0 { s.chair 0 with cycle := 2 }
    (s.chair 0).st = .run ∧ (s.core 0 0).x.fly = [l] ++ f :: [f] ∧ f.at_ ≤ (s.chair 0).cycle ∧
      (∀ q ∈ [l], f.at_ < q.at_) ∧ (∀ q ∈ [f], f.at_ ≤ q.at_) ∧
      (s.core 0 0).semv f.sig.sem.toNat + f.sig.amt ≤ 0xFFFF ∧
      SMap.get 0 (s.core 0 0).took f.sig.sem.toNat ≠ (s.chair 0).cycle + 1 := by
  decide

/-! ## The furnace -/

/-- A chair whose core 1 waits for the furnace with LEASE at the head of its queue, core 2 having lapsed. -/
def leaseState : State :=
  let s := (base.setCore 0 1 { m := { lease := .waiting 4 }, queues := [(3, [{ w := 0x0000030000000004 }])] }).setCore 0 2
    { m := { lease := .lapsed 3 } }
  s.setChair 0 { s.chair 0 with cycle := 9 }

/-- The cores of quad 0 hold no lease; which of them ask, by the cyclic order after the last holder. -/
theorem witness_LeasesPointersFormatsAndMwait :
    base.mside.lease = .none ∧ ((leaseState.core 0 2).m.lease = .lapsed 3) ∧ (leaseState.chair 0).st = .run ∧
    (leaseState.ctx (leaseState.ctxOf 0)).desc1 1 54 1 = 0 ∧ (leaseState.ctx (leaseState.ctxOf 0)).desc1 1 55 1 = 0 ∧
    (∀ d, d < 4 → ((leaseState.chair 0).core d).m.lease.holds = false) ∧
    ((leaseState.chair 0).quad 0).busy ≤ (leaseState.chair 0).cycle ∧
    ((leaseState.chair 0).quad 0).freeAt < (leaseState.chair 0).cycle ∧
    ((leaseState.chair 0).core 1).m.lease.asks = true ∧ ((leaseState.chair 0).core 2).m.lease.asks = true ∧
    (∀ d, d < 4 → ((leaseState.chair 0).core d).m.lease.asks = true →
      (1 % 4 + 3 - ((leaseState.chair 0).quad 0).last % 4) % 4 ≤ (d % 4 + 3 - ((leaseState.chair 0).quad 0).last % 4) % 4) ∧
    (headUnit ((leaseState.core 0 1).queue 3)).isSome = true ∧
    (let s := withCore { m := { lease := .holding 3, idle := 256 } }
     (s.chair 0).st = .run ∧ (s.core 0 0).m.lease = .holding 3 ∧ 256 ≤ (s.core 0 0).m.idle) ∧
    ((0 : Int) + (0x20 : BitVec 19).toInt < 0x50000) ∧ (0 : Int) + (0x7FFE0 : BitVec 19).toInt < 0 ∧
    (0x4FFE0 : Int) + (0x20 : BitVec 19).toInt = 0x50000 ∧
    (let e : FmtEntry := { val := 5, stamp := 7, old := true }
     (e :: [] : List FmtEntry) = [e] ∧ e.old = true) ∧
    base.fmtNew = false ∧ (withCore { pushed := [(keyFmt, (0, 1))], m := { fmtq := [{ val := 5, stamp := 7 }] } }).fmtNew = true ∧
    ¬(1 ≤ ((7 : BitVec 28) - 9).toNat ∧ ((7 : BitVec 28) - 9).toNat < 2 ^ 27) ∧ base.mside.fmtq = [] ∧
    base.mside.pend = [] ∧ (({ pend := [{ id := 1, op := .accz 0 0 }] } : MSide).pend ≠ []) := by
  decide

/-- A core that holds the lease, with an INT8 operand word and operand blocks in two bank groups. -/
def mmaState : State :=
  withCore { m := {
    lease := .holding 2, mp := [(1, 0x14000)],
    fmtq := [{ val := 0x2200000000000000, stamp := 0, old := true }] } }

/-- A block of another core's handle, a tile that is POISON or lost, and a POISON operand atom. -/
theorem witness_FurnaceCommandsStartAndLand_faults :
    (let s := mmaState.setHere { mmaState.here with handles := [(3, { st := .held 1, base := 0x13C00 / 32, len := 2 })] }
     ∃ e ∈ reads 0x2200000000000000 0 0x13C00, s.here.ownOk 0 e.1 e.2 = false) ∧
    (∀ e ∈ reads 0x2200000000000000 0 0x14000, mmaState.here.ownOk 0 e.1 e.2 = true) ∧ mmaState.mside.pend = [] ∧
    (({ tiles := [(3, { st := .poison })] } : MSide).tile 3).st = .poison ∧
    (({ tiles := [(3, { st := .home, err := true })] } : MSide).tile 3).bad = true ∧
    (let s := withCore { mmaState.me with spad := ({} : Space).toPoison 1 }
     1 ∈ (reads 0x2200000000000000 0 0x14000).flatMap (fun e => atomsOf e.1 e.2) ∧ s.me.spad.atom 1 = .poison) := by
  decide

theorem witness_FurnaceCommandsStartAndLand :
    formatHead mmaState 0x2200000000000000 ∧ mmaAdmits mmaState 3 0x2200000000000000 0 0x14000 ∧
    (mmaState.mside.tile 3).st ≠ .held ∧ (({ tiles := [(3, { st := .held })] } : MSide).tile 3).st = .held ∧
    (mmaState.here.quad 0).busy ≤ mmaState.here.cycle ∧ operandWordOk 0x2200000000000001 = false ∧
    ¬oneGroup 0x13FE0 1024 ∧ oneGroup 0x13C00 1024 ∧ 0 / 0x14000 = 0x13C00 / 0x14000 ∧ base.mside.lease = .none ∧
    (let p : MPend := { id := 1, op := .mma 3 [] false 0 4 }
     let s := withCore { m := { lease := .lapsed 2, pend := [p] } }
     let s := s.setChair 0 { s.chair 0 with cycle := 4 }
     (s.chair 0).st = .run ∧ (s.core 0 0).m.nextMma = some p ∧ 4 ≤ (s.chair 0).cycle ∧
       ((s.core 0 0).m.tile 3).real ≠ .poison ∧ s.mside.lease = .lapsed 2) := by
  unfold formatHead mmaAdmits oneGroup; decide

/-- An output word for FP32, and a core with tiles 3 and 4 HOME. -/
def tileState : State :=
  withCore { m := {
    tiles := [(3, { st := .home, data := [(0, 5)] }), (4, { st := .home })],
    fmtq := [{ val := 0x8000000000000000, stamp := 0, old := true }] } }

theorem witness_TileWordsStartAndTakeEffect :
    tileWord tileState.mside (.accz 3 1) = some (.accz 3 1) ∧ tilesFree tileState.mside [3, 4] ∧
    ¬tilesFree { tiles := [(3, { st := .held })] } [3] ∧
    ((({ tiles := [(3, { st := .poison })] } : MSide).tile 3).st = .poison ∧ ({} : MSide).pend = []) ∧
    formatHead tileState 0x8000000000000000 ∧ outputWordOk 0x8000000000000000 = true ∧
    outputWordOk 0x8500000000000000 = false ∧
    (∀ t ∈ tilesOf 3 1, (tileState.mside.tile t).st ≠ .poison ∧ (tileState.mside.tile t).real ≠ .poison ∧
      (tileState.mside.tile t).bad = false) := by
  unfold tilesFree formatHead; decide

/-- A started word of core 0 on its tiles. -/
def startedState (op : MOp) : State :=
  withCore { m := { tiles := [(3, { st := .home, data := [(0, 5)] })], pend := [{ id := 1, op := op }] } }

theorem witness_TileWordsStartAndTakeEffect_complete :
    ∀ op ∈ [MOp.accz 3 0, .accrel 3 0, .accmv 5 3 1] ++ [.accrd 3 0x20 0 5, .accwr 3 0x20 0 5],
      ((startedState op).chair 0).open_ = true ∧ ((startedState op).core 0 0).recorded 3 1 = false ∧ 5 < 128 * (0 + 1) ∧
      (((startedState op).core 0 0).m.pend.find? (·.id = 1)).isSome = true ∧
      ((startedState op).core 0 0).m.pend.takeWhile (·.id ≠ 1) = [] := by
  decide

theorem witness_TileWordsStartAndTakeEffect_admit :
    tileAdmits tileState.here 0 (.accz 3 1) ∧
    tileAdmits (startedState (.accrd 3 0x20 0 0)).here 0 (.accrd 3 0x20 0 0) ∧ 0x20 % 32 = 0 ∧
    (∀ n ∈ tilesOf 5 1, n ∉ tilesOf 3 1) := by
  refine ⟨⟨by decide, by intro off n h; exact absurd h (by simp [MOp.extent])⟩, ⟨by decide, ?_⟩, by decide, by decide⟩
  intro off n h
  have : off = 0x20 ∧ n = 4096 := by
    simp [MOp.extent] at h; omega
  obtain ⟨rfl, rfl⟩ := this
  decide

theorem witness_AccwbWritesItsRows :
    let op : MOp := .accwb 3 0 false [(0x40, 128)] 0 0 [3]
    ((startedState op).chair 0).open_ = true ∧ ((startedState op).core 0 0).recorded 3 1 = false ∧ (((startedState op).core 0 0).m.pend.find? (·.id = 1)).isSome = true ∧
    (∀ t ∈ tilesOf 3 0, ((startedState op).mside.tile t).real ≠ .poison ∧ ((startedState op).mside.tile t).bad = false) ∧
    0x40 + 128 ≤ 0x50000 ∧ (startedState op).here.ownOk 0 0x40 128 = true ∧
    (∀ i ∈ atomsOf 0x40 128, (startedState op).me.spad.atom i ≠ .poison ∧ (startedState op).me.spad.atom i ≠ .replica ∧
      (startedState op).me.spad.bad i = false) := by
  decide

theorem witness_AccwbWritesItsRows_memory :
    let p : MPend := { id := 1, op := .accwb 3 0 true [(0x40, 128)] 0 0 [3] }
    let s := pagedCore { m := { tiles := [(3, { st := .held })], pend := [p] } }
    ((probeRows 0 0 p 0 [(0x40, 128)] (atTiles s 0 0)).1).isSome = true := by
  decide

/-! ## The transfer engine -/

/-- Core 0 of a paged state with one command at the head of queue 1 and handle 3 held by it over atoms 4 and 5. -/
def xferState (k : XCmd) (sp : Space := {}) : State :=
  let s := pagedCore { t := { xq := [(1, { cmds := [k] })] }, spad := sp }
  s.setHere { s.here with handles := [(3, { st := .held 0, base := 4, len := 2 })] }

/-- A MOVE of one atom from virtual 0x40 to the region of handle 3. -/
def moveOne : XOpnd := { kind := .move, src := .mem 0x40, dst := .sp 3 128, len := 32 }

theorem witness_TransferWordsEnterAndControlQueues :
    ((xCommandOf {} (.move (.toSp 3 4 (.reg 2)) 1 64)).map fun c => (c.1, c.2.1, c.2.2.len)) = some (1, true, 64) ∧
    (let s : State := { base with act := { eng := 4 } }
     s.act.eng = 4 ∧ (s.tside.queue 1).cmds.length < 8 ∧ s.tside.record = none) ∧
    (tileSides .move {} (.toSp 3 4 (.gen 2)) 64).limitBad = false ∧
    (tileSides .move { ag := [(2, { pos := 8, lim := 8 })] } (.toSp 3 4 (.gen 2)) 64).limitBad = true ∧
    8 ≤ (({ xq := [(1, { cmds := List.replicate 8 { op := moveOne } })] } : TSide).queue 1).cmds.length ∧
    ({ record := some (2, 1) } : TSide).record = some (2, 1) ∧ base.act.clause = {} ∧
    ((xCommandOf {} (.kick 2 0)).map fun c => (c.1, c.2.1)) = some (0, false) := by
  decide

theorem witness_TransferCommandsStartTheirTurn :
    (let s := xferState { op := moveOne }
     (s.chair 0).open_ = true ∧ (headCmd s 0 0 1).map (·.st) = some .queued ∧
     (sideOk (s.chair 0) 0 moveOne false (moveOne.source (s.chair 0)) && sideOk (s.chair 0) 0 moveOne true moveOne.dst) =
       true ∧ limitsOk (s.chair 0) 0 moveOne = true ∧ limitsOk (s.chair 0) 0 { moveOne with len := 48 } = false ∧ limitsOk (s.chair 0) 0 { moveOne with len := 0 } = false ∧
     sideOk (s.chair 0) 0 { moveOne with src := .sp 4 128, dst := .mem 0x40 } false (.sp 4 128) = false ∧
     (match probeAll 0 0 (moveOne.need false) (moveOne.ranges 0 moveOne.src)
          (updHead 0 0 1 (fun k => { k with st := .probing }) (atXfer s 0 0)) with
      | ((ts, none), u) => (probeAll 0 0 (moveOne.need true) (moveOne.ranges 0 moveOne.dst) u).1.2.isNone &&
          narrowOk moveOne ts moveOne.src
      | _ => false) = true) ∧
    (let s := xferState { op := { kind := .arrive 64, src := .sp 3 0x400 } }
     (s.chair 0).inRegion 0 0x400 16 = false ∧ (s.core 0 0).a.meetsRegion 0x400 16 = false ∧
       (s.core 0 0).spad.atomAt 0x400 = .vacant ∧ spadNat s 0 0 0x400 / 2 ^ 31 % 2 = 0 ∧
       (s.core 0 0).spad.bad (0x400 / 32) = false ∧ 0x400 + 16 ≤ 0x50000 ∧ 0x400 % 16 = 0) ∧
    (let s := xferState { op := { kind := .arrive 64, src := .sp 3 0x400 } } ((({} : Space).setWord 0x400 0x80000003))
     spadNat s 0 0 0x400 / 2 ^ 31 % 2 = 1 ∧ (s.core 0 0).spad.atomAt 0x400 = .home) ∧
    (let s := xferState { op := { kind := .kick 2 } }
     SMap.get [] (s.core 0 0).t.chains 2 = [] ∧ (s.core 0 0).t.record = none ∧
       (headCmd s 0 0 1).map (fun k => (k.sub, k.chidx)) = some (none, 0)) := by
  decide

/-- Places in memory and in a scratchpad with an atom in each state. -/
theorem witness_AtomEventsFollowTheTable :
    apart (.mem 0x20) (.sp 0 0 0x20) ∧ apart (.sp 0 0 0x20) (.sp 0 0 0x40) ∧
    (let s := { base with mem := { atoms := [(1, .home), (2, .replica), (3, .poison), (5, .home)], errs := [5] } }
     s.atomOf (.mem 0x20) = .home ∧ s.atomOf (.mem 0x40) = .replica ∧ s.atomOf (.mem 0x60) = .poison ∧
       s.atomOf (.mem 0x80) = .vacant ∧ s.badAt (.mem 0xA0) = true ∧ s.badAt (.mem 0x20) = false) ∧
    (List.replicate 32 (0 : Byte)).length = 32 := by
  unfold apart; decide

theorem witness_TransferCommandsComplete :
    (let s := xferState { op := moveOne, st := .moving, next := 1 }
     (s.chair 0).open_ = true ∧ (headCmd s 0 0 1).map (fun k => (k.st, k.sub)) = some (.moving, none) ∧
       moveOne.len ≤ 32 * 1 ∧ ((s.chair 0).handle 3).st ≠ .free) ∧
    (let s := xferState { op := moveOne, st := .moving }
     let s := { s with mem := s.mem.store 0x400040 [1, 2] }
     (match translate 0 0 0x40 s with
      | (some tr, u) => !pteNarrow tr.pte && !u.ganged (tr.pa 0x40) && u.mem.atom (tr.pa 0x40 / 32) == .home &&
          !u.mem.bad (tr.pa 0x40 / 32)
      | _ => false) = true ∧
     ((s.chair 0).handle 3).st = .held 0 ∧ ((s.chair 0).handle 3).home = 0 ∧ 128 % 32 = 0 ∧
     (∀ e, e < 16 → (s.core 0 e).t.armed = []) ∧ tablesWait 0 0 0x40 { r := true } s = false ∧
     s.reaches (dieOf 0) 0x400040 = true ∧ (∀ b ∈ s.binds, b.ch ≠ 0) ∧
     (s.core 0 0).spad.atom 4 = .vacant ∧ (s.core 0 0).spad.bad 4 = false) := by
  decide

/-! ## Near memory -/

/-- Core 0 of a paged state that owns pseudo-channel 2 of its die as a gang and may take pseudo-channel 3, with an arena. -/
def nmState (n : NSide) : State :=
  let s := pagedCore { a := { a := [(1, 0x10000), (2, 0x40), (3, 0x50), (4, 0xC000)] }, n := n }
  let s := s.setChan (0, 2) { grant := some 0, gang := some { ch := 0, core := 0 } }
  let s := s.setChan (0, 3) { grant := some 0 }
  s.setCtx 0 { s.ctx 0 with arenas := [{ base := 0x10000, len := 0x20000 }] }

theorem witness_NearMemoryWordsIssue :
    ((descriptorWord [0, 0, 0x100000001, 0] (.nmred 2 3)).map fun r => (r.1, r.2.1)) = some (3, 64) ∧
    portFree (nmState {}) ∧ (nmState {}).me.n.fifo.length < 8 ∧
    descBehind 0x40 64 (nmState {}) = false ∧
    descBehind 0x40 64 ((nmState {}).setAside { pend := [{ id := 1, op := .store, segs := [(0x48, 8)] }] }) = true ∧
    descBehind 0x40 64 ((nmState {}).setAside { pend := [{ id := 1, op := .store, segs := [(0x80, 8)] }] }) = false ∧
    ¬portFree (nmState { pend := [{ id := 1, op := .brd 2 0 }] }) ∧
    (nmBase 3 (nmState {})).toNat % 64 ≠ 0 ∧ (nmBase 2 (nmState {})).toNat % 64 = 0 ∧
    (match resolve 0 0 { r := true } [(0x40, 64)] (nmState {}) with
     | (.ok ps, u) => (checkAtoms u.mem false (ps.map (·.1))).isNone && (ps.all fun q => !u.ganged q.1.pa)
     | _ => false) = true ∧
    homeWaits (nmState {}) [0, 0, 0x100000001, 0] = false ∧
    homeWaits ((nmState {}).setChan (chanOf 0x1003000) { gang := some { ch := 0, core := 0 } }) [0, 0, 0x100000001, 0] = true ∧
    (nmState {}).me.n.fifo = [] ∧ nmredOk [0, 0, 0x100000001, 0] = true ∧ nmredOk [1, 0, 0x100000001, 0] = false ∧
    ownGang 2 (nmState {}) = none ∧ onFault (nmState {}) 0 3 = none ∧ (nmState {}).me.n.turning 2 = false ∧
    (0x10000 % 0x10000 = 0 ∧ 0x10000 + 0x10000 * 2 ≤ 0x10000 + 0x20000) ∧
    arenaBad (nmState {}) 0 0x40000 0x10000 = false ∧ canonical 0x40000 = true ∧
    (match access 0 0 0xC000 { r := true } (nmState {}) with
     | (.ok x, _) => !pteNarrow x.pte && pteTier x.pte == 0 && decide (0x10000 ≤ x.size) && 0xC000 % 16384 == 0
     | _ => false) = true ∧
    (match access 0 0 0x40000000 { r := true } (nmState {}) with
     | (.error .none, _) => 0x40000000 % 16384 == 0
     | _ => false) = true := by
  unfold portFree; decide

theorem witness_NearMemoryWordsIssue_pop :
    let s := nmState { fifo := [{ id := 4, result := some 9 }] }
    s.me.n.ready = true ∧ (s.aside.dqs 1).length < 16 ∧ s.me.n.fifo = { id := 4, result := some 9, at_ := 0 } :: [] ∧
      0 ≤ s.here.cycle ∧ s.here.cycle < 3 := by
  decide

/-- A command at work at core 0, its result slot reserved. -/
def workState (op : NOp) (next : Nat := 0) : State :=
  nmState { pend := [{ id := 4, op := op, accepted := true, next := next }], fifo := [{ id := 4 }] }

theorem witness_NearMemoryResults :
    (let s := nmState { pend := [{ id := 4, op := .brd 2 0 }] }
     (s.chair 0).open_ = true ∧ (s.core 0 0).n.pend.find? (fun q => !q.accepted) = some { id := 4, op := .brd 2 0 } ∧
       unitBusy s { id := 4, op := .brd 2 0 } = false ∧ s.joined (dieOf 0) 0 = true ∧ s.joined (dieOf 0) 5 = false) ∧
    (let p : NPend := { id := 4, op := .brd 2 0, accepted := true }
     let s := workState (.brd 2 0)
     nmAtWork s 0 0 p ∧ resultsStand 0 0 4 s = true ∧ gangFault s 0 0 2 = none ∧ bankBehind 2 4 (s.core 0 0).n.pend = false ∧
       (s.chan (dieOf 0, 2)).gang = some { ch := 0, core := 0 }) ∧
    dw [0, 0, 0x100000001, 0] 3 48 16 = 0 ∧ shard (workState (.nmatt [])) 0 [] = [] ∧
    (let op : NOp := .nmred [0, 0, 0x100000001, 0]
     (nmRows 0 0 op.moves { id := 4, op := op, accepted := true } (workState op)).1.toBool = true ∧
       ({ id := 4, op := op, accepted := true } : NPend).cnt = 0) ∧
    (match unitPieces 0 0 { r := true, w := true } [(0x80, 8)] none (workState (.nmopt [])) with
     | (.ok x, u) => x.2.all fun t => decide ((u.page t).epoch < 4096) && decide ((u.page t).window < 65536)
     | _ => false) = true := by
  unfold nmAtWork; decide

theorem witness_BankPoolAndArenaCommandsComplete :
    nmAtWork (workState (.bankOff 2)) 0 0 { id := 4, op := .bankOff 2, accepted := true } ∧
    bankBehind 2 4 ((workState (.bankOff 2)).core 0 0).n.pend = false ∧ gangFault (workState (.bankOff 2)) 0 0 2 = none ∧
    (∀ e ∈ (workState (.bankOff 2)).ctxs, e.2.logHeld = []) ∧
    onFault (workState (.bankOn 3)) 0 3 = none ∧ inFlight (workState (.bankOn 3)) (0, 3) = false ∧
    (match unitRead 0 0 [(0x400, 1024)] (some (0, 2)) (workState (.bcst 2 0x400)) with
     | (.ok (bs, _), _) => bs.length == 1024
     | _ => false) = true ∧
    (∀ i ∈ atomsOf 0x404000 64, (workState (.bmac 2 0 0x4000 0x404000 0)).mem.damaged i = false) ∧
    poolHeld (workState (.pool 0x10000 1)) 0 0x10000 0x10000 = false ∧
    poolGanged (workState (.pool 0x10000 1)) 0 1 0x10000 = false ∧ walk (workState (.pool 0 1)) 0 0x200000 = none ∧
    arenaBad (workState (.arena 0x40000 0x10000)) 0 0x40000 0x10000 = false ∧
    (let s := (workState (.arena 0x40000 0)).setCtx 0
       { (workState (.arena 0x40000 0)).ctx 0 with arenas := [{ base := 0x40000, len := 0x10000 }] }
     (s.ctx 0).arenas.find? (·.base == 0x40000) = some { base := 0x40000, len := 0x10000 }) := by
  unfold nmAtWork; decide

/-- A 64 KiB page of the arena, backed by a frame of stack 0. -/
theorem witness_BankPoolAndArenaCommandsComplete_page :
    let m := ((((({} : Space).setWord 0x1000000 0x1001001).setWord 0x1001000 0x1002001).setWord 0x1002000 0x1003001).setWord
      0x1003000 0x1004001).setWord 0x1004080 0x41010F
    (match walk { workState (.pool 0x10000 1) with mem := m } 0 0x10000 with
     | some x => x.size == 0x10000 && pteTier x.pte == 0 && !pteNarrow x.pte && x.leaf % 8 == 0 &&
         m.atomAt x.leaf == .home && decide (ptePfn x.pte * 4096 + 0x10000 ≤ x.leaf)
     | none => false) = true := by
  decide

/-! ## The fabric port and the barriers -/

/-- A paged state whose context is the only rank of its job, with HOME atoms at 0x400040 and a held message. -/
def fabState : State :=
  let s := pagedCore { a := { a := [(1, 0x40), (2, 0x80), (3, 0x50000)] }, f := { inbox := [{ tag := 1 }] } }
  { s with mem := s.mem.store 0x400080 [1, 2, 3] }

theorem witness_FabricWordsSendAndReceive :
    fabFree fabState true ∧ lenOk 32 = true ∧ lenOk 0x1000000 = true ∧ (fabRegs 1 2 0 fabState).a.toNat % 32 = 0 ∧
    (fabRegs 1 2 0 fabState).b.toNat % 32 = 0 ∧
    (let s := fabState.setCore 0 0 { fabState.me with a := { pend := [{ id := 1, op := .store }] } }
     s.me.f.ready = true ∧ s.me.released 3 = false) ∧
    destRank .package fabState = some 0 ∧ destRank .system fabState = some 0 ∧
    (match sourceAtoms 0x80 64 fabState with
     | (some pas, u) => decide ((pas.map (· / 32)).Nodup) && (pas.all fun pa => !u.mem.bad (pa / 32)) && pas.length == 2
     | _ => false) = true ∧
    (let o : XOpnd := { kind := .move, dst := .sp 5 0x40, len := 32 }
     sideOk fabState.here 0 o true o.dst = true ∧ sideLimit fabState.here 0 o true o.dst = true) ∧
    (fabRegs 3 0 0 fabState).a = 0x50000 ∧ (field 48 16 (0x50000 : Word) = 0 ∧ field 24 8 (0x50000 : Word) = 0 ∧ (field 12 4 (0x50000 : Word)).toNat = 0) ∧
    destOk .package 0 0 fabState = true ∧
    (let q := fabState.me.f.inbox
     (q.take (fabState.me.ripe keyInbox q.length fabState.here.cycle)).find? (fun m => !m.held) = some { tag := 1 }) ∧
    (({} : Core).f.inbox.take (({} : Core).ripe keyInbox 0 0)).find? (fun m => !m.held) = none ∧
    ((takeFirst (·.held) ([{ tag := 1, held := true }] : List Msg)).isSome = true) ∧
    takeFirst (·.held) fabState.me.f.inbox = none ∧
    fabState.losses.find? (fun l => l.id == 0 && l.job == myJob fabState) = none ∧
    (let s := { fabState with losses := [{ id := 0x40, job := 0, count := 1 }] }
     (s.losses.find? (fun l => l.id == (s.aside.reg 1).toNat && l.job == myJob s)).isSome = true) := by
  unfold fabFree; decide

/-- A packet in the fabric for rank 0 of job 0. -/
def inNet (p : Pkt) : State := { fabState with net := [p] }

theorem witness_FabricPacketsAndWaves :
    (let p : Pkt := { num := 7, ty := .putData, addr := 0x40, data := [(.home, List.replicate 32 1)] }
     pktAt (inNet p) 7 = some p ∧ rankCtx (inNet p) 0 0 = some 0 ∧
     (match homeAtoms p.pos 0 { w := true } 0x40 1 (inNet p) with
      | (.ok pas, u) => pas.all fun pa => !u.mem.bad (pa / 32) && u.mem.atom (pa / 32) == .vacant
      | _ => false) = true) ∧
    (let p : Pkt := { num := 7, ty := .getReq, addr := 0x80, len := 32 }
     (match homeAtoms p.pos 0 { r := true, w := true, vac := true } 0x80 1 (inNet p) with
      | (.ok pas, u) => pas.all fun pa => !u.mem.bad (pa / 32)
      | _ => false) = true) ∧
    (let p : Pkt := { num := 7, ty := .getResp, h := 5, arg := 0x40, data := [(.home, List.replicate 32 1)], fid := 2 }
     let s := inNet p
     destChair s p 0 = some 0 ∧ (s.chair 0).takesPackets = true ∧ (s.core 0 0).spad.atom 2 = .vacant ∧
       (s.core 0 0).spad.bad 2 = false ∧ (∀ e, e < 16 → (s.core 0 e).t.armed = []) ∧ (∀ b ∈ s.binds, b.ch ≠ 0)) ∧
    (let p : Pkt := { num := 7, ty := .message, tag := 3 }
     let s := inNet p
     destChair s p p.dcore = some 0 ∧ (s.core 0 0).f.inbox.length < 64 ∧ messageBefore s p = false ∧
       (s.ctx (s.ctxOf 0)).desc1 1 54 1 = 0 ∧ (s.ctx (s.ctxOf 0)).desc1 1 55 1 = 0) ∧
    (let p : Pkt := { num := 7, ty := .reply }
     let s := (inNet p).setCore 0 0 { (inNet p).me with f := { pend := [{ id := 0, left := 1, sig := {} }] } }
     pktAt s 7 = some p ∧ destChair s p p.score = some 0 ∧ p.code = 0 ∧ p.bar = .arrive 0 ∧ p.lost = [] ∧
       p.bar.counts = false ∧ replyDue 0 0 p s = true ∧ ({ p with bar := .init 2 .system (some 5) } : Pkt).bar.counts = false) ∧
    (let s := withGf { quiet := some { sc := 3, wave := 0 } }
     s.waves.find? (fun w => w.job == 0 && w.sys == false) = none ∧ waveAsked 0 false s = true) ∧
    (let w : Wave := { job := 0, sys := false, num := 2, pass1 := some (1, 1, 0) }
     ({ base with waves := [w] }.waves.find? (fun w => w.job == 0 && w.sys == false)) = some w ∧
       w.pass1 = some (1, 1, 0) ∧ (base.chair 0).ctx = some 0) := by
  decide

/-- R160, R313: the first atom of a data packet may be written before the rest of it. -/
theorem test_packet_lands_atom_by_atom :
    let p : Pkt := { num := 7, ty := .putData, addr := 0x40, data := [(.home, List.replicate 32 1), (.home, List.replicate 32 2)] }
    let t := landTurn 7 (inNet p)
    t.mem.byte 0x400040 = 1 ∧ t.mem.byte 0x400060 = 0 ∧ t.net.map (fun q => (q.addr, q.data.length)) = [(0x60, 1)] := by
  decide

/-- A paged state with a barrier word of package scope at virtual 0x40: TARGET 2, COUNT 1. -/
def barState : State :=
  let s := fabState
  { s with mem := s.mem.storeIn 0x400040 (leBytes 16 (2 * 2 ^ 96 + 2 ^ 64 + 3 * 2 ^ 27)) }

/-- A barrier word of no valid TARGET, and one of core scope for another core. -/
theorem witness_BarrierWordsAct :
    (∀ o ∈ [BarOp.init 2 .package none, .arrive 255, .wait true, .wait false, .link true 4],
      fabFree barState o.writes ∧ barState.me.f.frank.toNat = (myCtx barState).rank ∧
      (match barPlace o (fabRegs 1 0 0 barState).a barState with
       | (.ok pa, u) => pa % 16 == 0 && (barCheck o pa (fun w => bwGroup w 0 0) barState).isNone && bwPhase (u.barWord pa) == false &&
           bwValid (u.barWord pa) && u.mem.atom (pa / 32) == .home && !u.mem.bad (pa / 32)
       | _ => false) = true) ∧
    barState.me.f.links.length < 8 ∧ barState.act.clause.ssem = 0 ∧
    bwTarget 0 = 0 ∧ 5 ≤ bwScope (BitVec.ofNat 128 (2 ^ 96 + 5 * 2 ^ 27)) ∧
    (bwValid (BitVec.ofNat 128 (2 ^ 96 + 2 ^ 20)) = true ∧ bwGroup (BitVec.ofNat 128 (2 ^ 96 + 2 ^ 20)) 0 0 = false) := by
  unfold fabFree; decide

theorem witness_BarrierWordsAct_system :
    let p : Pkt := { num := 7, ty := .barrier, bar := .arrive 1, addr := 0x40 }
    let s := { barState with net := [p], mem := barState.mem.storeIn 0x400040 (leBytes 16 (2 * 2 ^ 96 + 4 * 2 ^ 27)) }
    pktAt s 7 = some p ∧ rankCtx s 0 0 = some 0 ∧
    (match walk s 0 0x40 with
     | some x => !walkWaits s 0 0x40 && s.served 0 (x.pa 0x40) && p.code == 0 && pteR x.pte && pteW x.pte && !pteNarrow x.pte && pteTier x.pte == 0 && (s.page x).st == .resident &&
         !s.ganged (x.pa 0x40) && (barCheck p.bar (x.pa 0x40) (fun w => bwScope w == 4) s).isNone
     | none => false) = true := by
  decide

/-! ## Core control -/

/-- A chair with two words of an emitted stream: `SADD` for core 0 in slot 0 and a marker in slot 1. -/
def ringState (y : Core) : State :=
  let s := pagedCore y
  let x := s.chair 0
  s.setChair 0 { x with
    ring := [(0, { item := .word 0x000502000420C000, esn := 0, cores := 1 }), (1, { item := .joinpt 9, esn := 1 }),
      (2, { item := .word 0x0000070009000000, esn := 2, cores := 1 })]
    gf := { x.gf with head := 3, breaks := [{ core := 0, tag := 9, d := 4, joinEsn := some 7, taken := true }] } }

theorem witness_CoresTakeFetchLeaveAndRejoin :
    (let s := ringState {}
     (s.chair 0).mayTake 0 = true ∧ (s.core 0 0).phase = .drafting ∧ (s.core 0 0).pos ≠ (s.chair 0).gf.head ∧
       (SMap.get {} (s.chair 0).ring 0).item = .word 0x000502000420C000 ∧
       (SMap.get {} (s.chair 0).ring 0).cores.getLsbD 0 = true ∧ ((s.core 0 0).queue 2).length < 32 ∧
       s.act.lawful = true ∧ (SMap.get {} (s.chair 0).ring 1).item = .joinpt 9 ∧
       (SMap.get {} (s.chair 0).ring 0).cores.getLsbD 1 = false ∧ isDetach 0x0000070009000000 = true ∧
       isDetach 0x000502000420C000 = false) ∧
    (let y : Core := { queues := [(2, List.replicate 32 { w := 0 })] }
     32 ≤ (y.queue 2).length ∧ ({ base with act := { lawful := false } } : State).act.lawful = false) ∧
    tailLits [{ w := 0x000007FF00000008 }, { w := 0x000007FF00000000 }] = 8 :: 0 :: [] ∧
    (let s := ringState { phase := .joining, d := 4 }
     (s.chair 0).open_ = true ∧ (s.chair 0).joinEsn 0 = some 7 ∧ ((ringState { phase := .joining }).chair 0).joinEsn 0 = none) ∧
    (let y : Core := { tag := some 9, pin := [(5, 1)] }
     y.tag = some 9 ∧ ¬(∀ k, k < 256 → SMap.get 0 y.pin k ≤ SMap.get 0 y.sp k)) ∧
    (∀ k, k < 256 → SMap.get 0 ({} : Core).pin k ≤ SMap.get 0 ({} : Core).sp k) ∧
    (({} : Core).tag ≠ some 9) ∧ brsOutcome {} 0 .vs = some (false, {}) ∧ brsOutcome {} 0 .ax1 = none ∧
    brsOutcome { a := { xa := [true] }, queues := [(1, [{ w := 0x0000012801000000 }])] } 0 .xa1 = none ∧
    brsOutcome { a := { xa := [true], bq := some false }, queues := [(1, [{ w := 0x0000012801000000 }])] } 0 .xa1 =
      some (true, { bq := some false }) ∧
    brsOutcome { a := { ax := [true] }, pushed := [(keyAx, (4, 1))] } 4 .ax1 = none ∧
    brsOutcome { a := { ax := [true] }, pushed := [(keyAx, (4, 1))] } 5 .ax1 = some (true, {}) := by
  decide

/-- A detached core with a word of its stream at virtual 0x100, in an executable page. -/
theorem witness_CoresTakeFetchLeaveAndRejoin_fetch :
    let s := (pagedWith 0x8000000000400113).setCore 0 0 { phase := .detached, spc := 0x100 }
    let s := { s with mem := s.mem.setWord 0x400100 0x000502000420C000 }
    let s := s.setCtx 0 { s.ctx 0 with sealed := [(0x100, leBytes 8 0x000502000420C000)] }
    (s.chair 0).mayTake 0 = true ∧ (s.core 0 0).buf = none ∧
    (match access 0 0 0x100 { x := true } s with
     | (.ok t, u) => !u.ganged (t.pa 0x100) && !u.mem.damaged (t.pa 0x100 / 32) &&
         u.mem.word (t.pa 0x100) == 0x000502000420C000
     | _ => false) = true ∧
    (s.ctx 0).measured 0x100 0x000502000420C000 = true ∧ (s.ctx 0).measured 0x100 0 = false ∧
    (promoteStream 0x000502000420C000 []).isSome = true ∧ promoteStream 0x050502000420C000 [] = none := by
  decide

theorem witness_SystemWordsOfTheCore :
    ((SMap.get (0, 0) (withCore { adds := [(5, (9, 1))] }).me.adds 5).1 ≠ 0 ∧ SMap.get 0 base.me.took 5 ≠ base.here.cycle + 1) ∧
    (base.me.semv 5 + (0xFFFF : BitVec 16).toNat ≤ 0xFFFF) ∧
    SMap.get 0 (withCore { took := [(5, 1)] }).me.took 5 = (withCore { took := [(5, 1)] }).here.cycle + 1 ∧
    (0xFFFF < (withCore { sem := [(5, 1)] }).me.semv 5 + (0xFFFF : BitVec 16).toNat ∧ base.here.open_ = true ∧
      base.me.rec_ = none ∧ base.act.clause.ssem = 0) ∧
    (withCore { sem := [(5, 3)] }).here.waitPasses 0 7 5 3 = true ∧ base.here.waitPasses 0 7 5 3 = false ∧
    base.me.stillBefore base.act.n 7 = true ∧ (withCore { f := { barw := some { pa := 0, g0 := 0 } } }).me.stillBefore 0 7 = false ∧
    base.aside.busy 3 = false ∧ base.me.xsideBefore base.act.n = true ∧ base.me.asideBefore base.act.n = true ∧
    base.me.issuedBefore 6 base.act.n = true ∧ VType.ofCode 4 = some .i8 ∧ csrValue base 0x011 = some 0 ∧
    (0 : Word).toNat % 128 = 0 ∧ (0x40 : Word).toNat % 128 ≠ 0 ∧
    (∀ n ∈ [({ w := true } : Need), { r := true }],
      (match resolve 0 0 n [(0, partLen 0)] paged with
       | (.ok ps, u) => (ps.all fun q => !u.ganged q.1.pa) && (checkAtoms u.mem n.w (ps.map (·.1))).isNone &&
           (ps.map (·.2)).all fun t => decide ((u.page t).epoch < 4096) && decide ((u.page t).window < 65536)
       | _ => false) = true) := by
  decide

/-- A chair whose every core has left, with its gaffer at EXIT. -/
def endState : State :=
  let x := base.chair 0
  base.setChair 0 { x with gf := { x.gf with exited := true } }

/-- A chair with a level G fault, or with a record of core 2, and a halt that is due. -/
def faultState (g : Option (Nat × BitVec 20)) (hard : Bool) : State :=
  let s := if g.isNone && !hard then base.setCore 0 2 { rec_ := some { code := 0x1F, prov := {} } } else base
  let x := s.chair 0
  s.setChair 0 { x with gfault := g, halt := some { cycle := 4, hard := hard }, cycle := 5 }

theorem witness_ChairsHaltSaveAndRestore :
    ((endState.chair 0).st = .run ∧ (endState.chair 0).halt = none ∧ (endState.chair 0).finished = true ∧
      (endState.chair 0).leaves 0 endState = false ∧
      ({ endState.chair 0 with withdrawn := true } : Chair).leaves 0 endState = true) ∧
    (let s := base.setCore 0 0 { queues := [(2, [{ w := 0x0000020B00000000 }])] }
     let x := s.chair 0
     let s := s.setChair 0 { x with gf := { x.gf with exited := true } }
     deadlocked 0 s = true ∧ (s.core 0 0).localStall 2 = true ∧ (s.core 0 0).rec_ = none) ∧
    (base.ctx (base.ctxOf 0)).desc1 1 0 44 ≤ (base.setChair 0 { base.chair 0 with budget := 65536 }).here.budget ∧
    (base.chair 0).working = true ∧ handlerState.here.working = true ∧ (base.chair 0).hasExited = false ∧
    (base.ctx 0).st ≠ .free ∧ (base.ctx 0).st ≠ .dead ∧ (base.chair 0).live ≠ [] ∧
    (∀ e ∈ [((some (9, 3) : Option (Nat × BitVec 20)), false), (none, false), (none, true)],
      ((faultState e.1 e.2).chair 0).haltDue = true ∧ ((faultState e.1 e.2).chair 0).st = .run ∧
      ((faultState e.1 e.2).chair 0).frame.handler = false ∧ ((faultState e.1 e.2).ctx 0).st = .running ∧
      bankWork 0 (faultState e.1 e.2) = false ∧
      ((List.range 16).all fun c => !Core.outside 0 c (dropGangs 0 (faultState e.1 e.2))) = true) ∧
    ((faultState none false).chair 0).recCores ≠ 0 ∧ ((faultState none true).chair 0).recCores = 0 ∧
    (base.ctx 0).routes 9 = false ∧
    (let s := base.setCtx 0 { base.ctx 0 with desc := [0, 0, 0xFFFFFFFFFFFFFFFF, 0] }
     (s.ctx 0).routes 9 = true) ∧
    (let s := base.setChair 0 { base.chair 0 with gf := { save := some none } }
     (s.chair 0).st = .run ∧ (s.chair 0).halt = none ∧ (s.chair 0).gf.save = some none ∧
       (s.chair 0).gathered true (List.range 16) = true ∧ blockGanged 0 0 s = false ∧
       ((List.range 16).all fun c => !(s.chair 0).neverArrives c && ((s.chair 0).core c).n.pend.isEmpty) = true) ∧
    (let s := withGf { awayGf with save := some none }
     (s.chair 0).gf.save = some none ∧ (s.chair 0).neverArrives 3 = true ∧ s.gf.ds = false ∧ s.gf.depth = 0) ∧
    (let s := base.setChair 0 { base.chair 0 with st := .halted, frame := { (base.chair 0).frame with hard := true } }
     (s.chair 0).st = .halted ∧ (s.chair 0).frame.handler = false ∧ (s.chair 0).halt = none ∧ (s.chair 0).frame.hard = true ∧
       (s.ctx 0).st ≠ .dead ∧ blockGanged 0 0 s = false) := by
  decide

/-- A hard pre-emption finds the gaffer at a CHAIRW in a delay slot, which waits for a core that is leaving. -/
theorem witness_ChairsHaltSaveAndRestore_waits :
    (let x := (withGf { ds := true, isram := [(0, 0x0000005901000000)] }).here
     let s := base.setChair 0 { x with halt := some { cycle := 4, hard := true }, cycle := 5 }
     let s := s.setCore 0 3 { phase := .leaving }
     slotHalts 0 s = true ∧ (s.chair 0).haltDue = false ∧ (s.chair 0).halt = some { cycle := 4, hard := true }) := by
  decide

/-- Context 0 RUNNING on no chair, with one chair saved, and chair 1 of its tenant free. -/
def savedState : State :=
  let s := State.reset.setCtx 0 { st := .running, saved := [(2, { chair := { st := .saved } })] }
  s.setChair 1 { tenant := some 0 }

theorem witness_ChairsHaltSaveAndRestore_restore :
    (savedState.ctx 0).st = .running ∧ (savedState.chair 1).tenant = some ((savedState.ctx 0).desc1 1 58 6) ∧
    (savedState.chair 1).ctx = none ∧ blockGanged 0 2 savedState = false ∧ savedState.mem.errs = [] ∧ (∀ i, savedState.mem.atom i ≠ .poison) ∧
    (savedState.ctx 0).saved.find? (fun e => e.1 == 2) = some (2, { chair := { st := .saved } }) := by
  refine ⟨by decide, by decide, by decide, by decide, by decide, ?_, by decide⟩
  intro i
  show AtomState.vacant ≠ .poison
  decide

/-! ## Contexts, kernels and graphs -/

/-- A descriptor within the limits of R221: context 3, with a save area and a log in stack 0. -/
def goodDesc : List Word := [3, 65536, 0, 0, 0x10000, 0x0010000010000000, 0, 0]

/-- Die 0 READY. -/
def readyDie : State := State.reset.updDie 0 fun y => { y with ready := true }

/-- A container header and one code descriptor of one word. -/
def codeContainer (key : Byte) : List Byte :=
  leBytes 4 0x31585745 ++ leBytes 2 1 ++ leBytes 2 0 ++ List.replicate 56 0 ++
    (leBytes 8 (key.toNat * 16) ++ leBytes 8 0 ++ leBytes 8 8 ++ leBytes 8 240 ++ List.replicate 144 0) ++ List.replicate 8 0

theorem witness_ContextsLoadResumeDieAndFree :
    (readyDie.die 0).serves = true ∧ descOk goodDesc = true ∧ (readyDie.ctx 3).st = .free ∧ jobOk readyDie 7 0 = true ∧
    rankOk 0 [] = true ∧ rankOk 2 [] = false ∧ rankOk 2 [1] = true ∧
    descOk [] = false ∧ (base.ctx 0).st ≠ .free ∧ (base.ctx 0).st ≠ .dead ∧
    (let s := readyDie.setCtx 3 { st := .loading }
     (s.ctx 3).st = .loading ∧ (s.ctx 3).image = [] ∧ (s.ctx 3).placed = 0 ∧ (s.ctx 3).next = 0 ∧ containerOk [] = false) ∧
    (let s := base.setCtx 0 { base.ctx 0 with st := .preempted }
     (s.ctx 0).st = .preempted ∧ unsaved s 0 = false) ∧
    (let s := base.setCtx 0 { base.ctx 0 with st := .dead }
     let s := { s with frames := [(8, 1)] }
     (s.ctx 0).st = .dead ∧ (8, 0 + 1) ∈ s.frames ∧ (s.chair 0).ctx = some 0) := by
  decide

theorem witness_ContextsLoadResumeDieAndFree_container :
    (∀ b ∈ (segmentAt (codeContainer 0) 0).sig, b = 0) ∧
    (let g := segmentAt ((codeContainer 0).take 144 ++ [1] ++ (codeContainer 0).drop 145) 0
     ∃ b ∈ g.sig, b ≠ 0) ∧
    containerOk (codeContainer 0) = true ∧ (segments (codeContainer 0)).length = 1 ∧
    (readyDie.die 0).key 0 = [] ∧ (((readyDie.updDie 0 fun y => { y with keys := [(0, [1])] }).die 0).key 0) ≠ [] := by
  decide

/-- A launch record of context 3 on one die, and a ready context with a free chair of its tenant. -/
def goodRecord : List Word := [0x0003110000000000, 0, 0, 0, 0, 0, 0, 0]

def launchState : State :=
  let s := readyDie.setCtx 3 { st := .ready, desc := goodDesc }
  s.setChair 0 { tenant := some 0 }

/-- The kernel of `goodRecord` in a state of its own. -/
def kernelIn (st : KernelState) : State :=
  let s := launchState.updDie 0 fun y => { y with kernels := [{ seq := 5, words := goodRecord, st := st }], launchQ := [5] }
  s

theorem witness_KernelsAreLaunchedIssuedAndRetired :
    (launchState.die 0).launches = true ∧ (launchState.die 0).launchQ.length < 64 ∧ recordOk launchState goodRecord = true ∧
    wordField goodRecord 0 60 4 ≠ 1 ∧ recordOk State.reset goodRecord = false ∧
    (let s := kernelIn .queued
     (s.die 0).launchQ = 5 :: [] ∧ (s.die 0).queuedGraph 5 = false ∧ streamsWait s { seq := 5, words := goodRecord } = false ∧
       streamsWait (s.setChan (chanOf 0x100) { gang := some { ch := 0, core := 0 } })
         { seq := 5, words := [0x0003110000000000, 0, 0, 0, 1, 0x100, 0, 0] } = true ∧ kernelIs s 0 5 .queued ∧ ((s.die 0).kernel 5).map (·.st) = some .queued ∧ (s.die 0).entries < 256 ∧
       (streamPages s { seq := 5, words := goodRecord }).isSome = true) ∧
    (let d : Die := { launchQ := [5], graphs := [{ seq := 5, queued := true }] }
     d.launchQ = 5 :: [] ∧ d.queuedGraph 5 = true ∧ d.entries < 256 ∧ (d.graph 5).isSome = true) ∧
    256 ≤ ({ kernels := List.replicate 256 { seq := 1, words := [], st := .waiting } } : Die).entries ∧
    streamPages { launchState with mem := launchState.mem.setWord 0x108 1 } { seq := 5, words := [0x0003110000000000, 0, 0, 0, 1, 0x100, 0, 0] } = some [] ∧
    streamPages { launchState with mem := launchState.mem.setWord 0x108 4096 } { seq := 5, words := [0x0003110000000000, 0, 0, 0, 1, 0x100, 0, 0] } = none ∧
    (let s := kernelIn .waiting
     let z : Kernel := { seq := 5, words := goodRecord, st := .waiting }
     (s.die 0).kernel 5 = some z ∧ kernelReady s z = true ∧ heldBack s (s.die 0) z = false ∧ (s.ctx z.ctxId).st = .ready ∧
       (s.ctx z.ctxId).kernel = none ∧ chairsFree s z = true ∧ choiceOk s z 0 [0] = true) ∧
    ((∀ i ∈ atomsOf 0 0, (kernelIn .issuing).mem.damaged i = false) ∧ ((kernelIn .issuing).ctx 3).st = .ready) ∧
    (let s := (kernelIn .running).setCtx 3 { st := .running, desc := goodDesc, kernel := some (0, 5) }
     let s := s.setChair 0 { st := .exited, tenant := some 0, ctx := some 3 }
     (s.ctx 3).st = .running ∧ (s.ctx 3).kernel = some (0, 5) ∧ allExited s 3 = true) := by
  unfold kernelIs; decide

/-- A launch on two dies, and a kernel of higher priority that lacks chairs. -/
theorem witness_KernelsAreLaunchedIssuedAndRetired_withdraw :
    let z : Kernel := { seq := 5, words := [0x0003120000000000, 0, 0, 0, 0, 0, 0, 0], st := .running, dies := [0, 1] }
    let a : Kernel := { seq := 6, words := [0x0004110000000000, 0, 0, 0, 0, 0, 0, 0], st := .waiting }
    let s := (readyDie.setCtx 3 { st := .running, desc := goodDesc }).setCtx 4
      { st := .ready, desc := [4, 65536 + 3 * 2 ^ 56, 0, 0, 0x10000, 0x0010000010000000, 0, 0] }
    let s := s.updDie 0 fun y => { y with kernels := [z, a] }
    z.marked = none ∧ z.minDie < z.groups.length ∧ wanted s (s.die 0) z = true ∧
    (let x : Chair := { st := .exited, ctx := some 3, idx := 1 }
     x.ctx = some z.ctxId ∧ x.st = .exited ∧ z.groups.getLast? = some (z.group x.idx)) := by
  decide

/-- A graph in memory at 0x1000: one condition node of a type, and the sink; and its launch record. -/
def graphState (typ : Nat) (more : List (Nat × Word)) : State :=
  let m := more.foldl (fun (m : Space) (e : Nat × Word) => m.setWord e.1 e.2) {}
  { readyDie with mem := m, dies := [(0, { ready := true, graphs := [{ seq := 2, nodes :=
    [(0, { words := [BitVec.ofNat 64 (typ * 2 ^ 60), 0, 0x2000, 0x2040] }), (1, { words := [5 * 2 ^ 60, 0, 0x3000, 0], count := 1 })] }] })] }

theorem witness_GraphsRunTheirNodes :
    (readyDie.die 0).launches = true ∧ (readyDie.die 0).launchQ.length < 64 ∧
    (let s := graphState 2 [(0x2000, 1)]
     ((s.die 0).graph 2).map (fun g => (g.ready 1, g.finished, g.nodes.length, g.halted)) = some (true, false, 2, false) ∧
       s.ganged 0x2000 = false ∧ rangeInMem 0x2000 8 = true ∧ s.mem.damaged (0x2000 / 32) = false ∧
       (s.mem.toPoison 0x100).damaged (0x2000 / 32) = true ∧ (s.die 0).entries < 256 ∧
       ((s.die 0).graph 2).bind (graphCtx s) = none ∧ s.mem.word 0x2000 ≠ 0 ∧ s.mem.word 0x2040 = 0) ∧
    (let s := graphState 0 []
     s.gangedIn 0x2000 64 = false ∧ streamsWait s { seq := 0, words := recordAt s 0x2000 } = false) ∧
    (let g : Graph := { seq := 2, cancelled := true, nodes := [(0, { words := [3 * 2 ^ 60, 0, 0, 0] })] }
     g.halted = true ∧ g.ready 0 = true) ∧
    (let m : Space := ({} : Space).store 0x3000 [1]
     m.bad (0x3000 / 32) = false ∧ m.atom (0x3000 / 32) = .home ∧ (m.toPoison (0x3000 / 32)).atom (0x3000 / 32) = .poison ∧
       ({ m with errs := [0x3000 / 32] } : Space).bad (0x3000 / 32) = true) ∧
    (let g : Graph := { seq := 2, nodes := [(0, { words := [0, 0, 0x5000, 0], tenant := some 0 })] }
     g.served readyDie 0 = false ∧ g.served (readyDie.updDie 0 fun y => { y with xferSlots := [(0, 1)] }) 0 = true ∧
       ({ seq := 2, nodes := [(0, { words := [1 * 2 ^ 60, 0, 0, 0] })] } : Graph).served readyDie 0 = true) ∧
    (let s := graphState 1 []
     ((s.die 0).graph 2).map (fun g => ((g.node 0).typ, (g.node 1).typ)) = some (1, 5) ∧
       (nodePairs false 0x2000 0x2040 1 s).1 = none ∧ rangeInMem 0x2000 32 = true ∧ rangeInMem 0x2040 32 = true ∧
       rangeInMem (2 ^ 60) 32 = false) ∧
    (let g : Graph := {
       seq := 2, nodes := [(0, { words := [3 * 2 ^ 60, 0, 0, 0] }),
       (1, { words := [1 * 2 ^ 60 + 1 * 2 ^ 57, 0, 0, 0], st := .done })] }
     g.halted = false ∧ g.nodes.map (·.1) = List.range g.nodes.length ∧ (g.node 1).st = .done ∧ 0 ∈ (g.node 1).forward) ∧
    graphOk readyDie [] = false ∧ wordField [0x1000000000000000] 0 60 4 = 1 := by
  decide

/-! ## Pages, links and the die controllers -/

/-- The page of `paged` with a record, whose leaf lies at 0x1003000. -/
def pageState (leaf : Word) (p : Page) : State := { pagedWith leaf with pages := [(0x1003000, p)] }

/-- A leaf with PLACE set, so that the derailleur may move its page. -/
def placed : Word := 0x2000000000400117

/-- The same leaf with INFL set. -/
def placedMoving : Word := 0x2000000000400197

theorem witness_PagesMoveAndAtomsAreScrubbed :
    (let s := pageState placed { ctx := some 0, epoch := 4096, dies := [(1, 3072)] }
     s.wf = true ∧ 4096 ≤ (pageOf s 0x1003000).epoch ∧ homeDie (frameAt s 0x1003000) = 0 ∧
       movable s (trOf s 0x1003000) (pageOf s 0x1003000) = true ∧ homeDie 0x1800000000 = 1 ∧
       frameOk s 0x1800000000 (sizeAt s 0x1003000) = true ∧ s.ganged 0x1003000 = false ∧
       freeFrame s 1 0x200000 = some 0x1800000000 ∧
       movable { s with chairs := [(0, { ctx := some 0, cores := [(0, { a := { pins := [(0, 64)] } })] })] }
         (trOf s 0x1003000) (pageOf s 0x1003000) = false ∧
       (∀ e, e < 8 → e ≠ 1 → SMap.get 0 (pageOf s 0x1003000).dies e < 3072)) ∧
    65536 ≤ (pageOf (pageState placed { window := 65536 }) 0x1003000).window ∧
    (let s := pageState placed { ctx := some 0 }
     0x1003000 ∈ pageLeaves s ∧ (∀ e ∈ pageLeaves s, (pageRec s 0x1003000).window ≤ (pageRec s e).window) ∧
       s.ganged 0x1003000 = false ∧ demotable s 0 0x1003000 = true ∧ inHost 0x8000000000000 = true ∧
       inHost (0x8000000000000 + 0x200000 - 1) = true ∧ emptyIn s.mem 0x8000000000000 0x200000 = true ∧
       claimed s false 0x8000000000000 0x200000 = false ∧ claimed s true 0 0x200000 = false ∧
       0 + 0x200000 ≤ 2 ^ 43 ∧ streamHeld s 0x1003000 = false) ∧
    (let s := pageState placedMoving { st := .migrating, target := 0x1800000000 }
     let s := (s.setLink (Config.hubBase + 0) { st := .up }).setLink (Config.hubBase + 1) { st := .up }
     (pageOf s 0x1003000).st = .migrating ∧ s.gangedIn 0x400000 0x200000 = false ∧
       s.gangedIn 0x1800000000 0x200000 = false ∧ s.reaches (homeDie 0x400000) 0x1800000000 = true ∧
       leafSound s 0x1003000 0x400000 0x200000 ∧
       leafSound s 0x1003000 0x1800000000 0x200000 ∧ Claims.paged 0x400000 0x200000 ∧
       disjoint 0x400000 0x200000 0x1800000000 0x200000) ∧
    (let s := pageState 0x800000000000097 { st := .arriving, ctx := some 0 }
     (pageOf s 0x1003000).st = .arriving ∧ arrivalDie s 0 0x200000 = some (homeDie 0x600000) ∧ frameOk s 0x600000 0x200000 = true ∧
       s.ganged 0x1003000 = false ∧ s.gangedIn 0x600000 0x200000 = false ∧ leafSound s 0x1003000 0x600000 0x200000) := by
  unfold leafSound disjoint Claims.paged; decide

theorem witness_PagesMoveAndAtomsAreScrubbed_remap :
    (paged.ctx 0).st ≠ .free ∧ (walk paged 0 0x40).isSome = true ∧ remapOk 0x400117 0x400113 = true ∧
    sameHome 0x400117 0x400113 = true ∧ sameHome 0x400117 0x600113 = false ∧ pinnedAt paged { leaf := 0x1003000, pte := 0x400117, base := 0, size := 0x200000 } = false ∧
    pinnedAt (pagedCore { a := { pins := [(0, 64)] } }) { leaf := 0x1003000, pte := 0x400117, base := 0, size := 0x200000 } = true ∧
    remapOk 0x400117 0x8000000000400113 = false ∧ remapOk 0x8000000000400113 0x400117 = false ∧
    (let s := { paged with mem := paged.mem.store 0x400040 [1], frames := [(0x400, 1)] }
     inStack 0x400040 = true ∧ s.ganged 0x400040 = false ∧ s.mem.atom (0x400040 / 32) = .home ∧
       ownerAt s 0x400040 = some 0 ∧ ownerAt { s with frames := [] } 0x400040 = some 0) ∧
    (let s := { base with mem := ({} : Space).store 0x400040 [1] }
     ownerAt s 0x400040 = none ∧ s.mem.atom (0x400040 / 32) = .home ∧ s.ganged 0x400040 = false) ∧
    (let s := withCore { spad := ({} : Space).store 0x60 [1], m := { tiles := [(3, { st := .home })] } }
     (s.core 0 0).spad.atom (0x60 / 32) = .home ∧ ((s.core 0 0).m.tile 3).st = .home ∧ (s.chair 0).ctx = some 0 ∧
       0x60 < 0x50000) ∧
    (State.reset.chair 0).ctx = none := by
  decide

/-- Die 0's hub link and the port of a flash controller UP, and a page without a stream. -/
theorem witness_PagesMoveAndAtomsAreScrubbed_deep :
    let s := (pageState 0x800000000000097 { st := .arriving, ctx := some 0 }).setLink (Config.hubBase + 0) { st := .up }
    let s := s.setLink (Config.flashPort 0) { st := .up }
    deepReach s 0 0 = true ∧ xferServed s 0x1003000 = true ∧ walkWaits s 0 0x40 = false ∧
    streamHeld s 0x1003000 = false ∧ s.gangedIn 0x600000 0x200000 = false := by
  decide

/-- A link with one unacknowledged flit on its forward side. -/
def linkState (st : LinkState) (replays : Nat) (sent : Nat) : State :=
  State.reset.setLink 3 { st := st, fwd := { nextSeq := 1, sent := sent, unacked := [{ seq := 0, pkt := 4, at_ := 0 }], replays := replays } }

theorem witness_LinksTrainRetryStopAndResume :
    (linkExists 3 = true ∧ linkExists 0xFFFFFF = false ∧ linkDies 3 ≠ []) ∧
    ((linkState .training 0 1).link 3).st = .training ∧ ((linkState .up 0 1).link 3).st = .up ∧
    ((linkState .retry 7 1).link 3).fwd.replays < 8 ∧ 8 ≤ ((linkState .retry 8 1).link 3).fwd.replays ∧
    ((linkState .up 0 513).link 3).fwd.missing = true ∧ ((linkState .up 0 512).link 3).fwd.missing = false ∧
    (let s := State.reset.setLink 3 { st := .retry, fwd := { replays := 2 } }
     ((s.link 3).side 0).replaying = false ∧ ((s.link 3).side 1).replays = 0) ∧
    ((linkState .up 0 1).link 3).moves = true ∧
    (((linkState .up 0 1).link 3).side 0).unacked.find? (·.seq = 0) = some { seq := 0, pkt := 4, at_ := 0 } ∧
    (({ base with losses := [{ id := 6, job := 0, count := 1 }] } : State).losses.find? (·.id = 6)).isSome = true ∧
    ((linkState .stopped 0 1).link 3).st = .stopped ∧ SMap.sortedFrom 0 (linkState .stopped 0 1).links = true := by
  decide

theorem witness_DieControllersServeTheHost :
    (State.reset.die 7).stage = 0 ∧ ((State.reset.updDie 7 fun y => { y with stage := 4 }).die 7).stage ≠ 0 ∧
    rangeInMem 0x100 1 = true ∧ readyDie.gangedIn 0x100 1 = false ∧ (readyDie.die (homeDie 0x100)).ready = true ∧
    (let s := (readyDie.setLink Config.portBase { st := .up }).setLink (Config.hubBase + 0) { st := .up }
     hostWay 0x100 s = true ∧ hostWay 0x100 readyDie = false) ∧
    hostTarget readyDie 0x100 = none ∧ readyDie.mem.atomAt 0x100 = .vacant ∧ readyDie.mem.bad (0x100 / 32) = false ∧
    (readyDie.die 0).serves = true ∧ ((0x0000000200000001 : Word).toNat % 2 ^ 32 < (0x0000000200000001 : Word).toNat / 2 ^ 32) ∧
    ((2 : Word).toNat = (readyDie.die 0).pooln.toNat + [0x10000, 0x20000].length ∧ poolOk readyDie 0 [0x10000, 0x20000] = true) ∧
    (let d : Die := { pooln := 2, pool := [0x10000, 0x20000] }
     (1 : Word).toNat < d.pooln.toNat ∧ d.pooln.toNat - (1 : Word).toNat ≤ d.pool.length ∧
       ({ d with pool := [] } : Die).pool.length < d.pooln.toNat - (1 : Word).toNat) ∧
    ((0x0000000100000001 : Word).toNat / 2 ^ 32 ≤ (0x0000000100000001 : Word).toNat % 2 ^ 32 ∧ 65535 < (65536 : Word).toNat) ∧
    ((0xFFF00000000000BF : Word).toNat % 256 = 191 ∧ (0xFFF00000000000BF : Word).toNat / 256 % 2 ^ 44 = 0 ∧
      (readyDie.chan (0, 191)).gang = none) ∧
    (∀ e ∈ readyDie.ctxs, e.2.st = .loading → e.2.die ≠ 0) ∧ (List.replicate 97 (0 : Byte)).length = 97 ∧
    (readyDie.chair 5).ctx = none ∧ dieOf 31 = 0 ∧ (List.replicate 48 (0 : Byte)).length = 48 := by
  decide

theorem witness_DieControllersServeTheHost_slots : ∀ t, tenantRuns readyDie 0 t = false := by
  intro t
  rfl

theorem witness_DieControllersServeTheHost_heat :
    0 ∈ ctxsOn base 0 ∧ (base.chair 0).ctx = some 0 ∧ (base.chair 0).hasExited = false ∧
    (base.chair 0).live ≠ [] := by
  decide

/-! ## The machine as a whole -/

theorem witness_EncodingAndDecodingAreInverse :
    (Instr.vadd 0 3 1 2).engine.isSome = true ∧ wellFormed (.vadd 0 3 1 2) = true ∧
    clauseOk { wsem := 255, wcnt := 3, ssem := 1, scnt := 2 } (.vadd 0 3 1 2) = true ∧
    (decode 0x00000210000C0202 []).toBool = true := by
  decide

/-- `ADD g3, g1, g2` at PC 0. -/
def addState : State := { withGf { isram := [(0, 0x000000010C108000)], g := [(1, 5), (2, 7)] } with agenda := [.gaffer 0] }

theorem witness_StepRunsTheDecodedInstruction :
    (let s := State.reset.withFetchWord 64 0x0000000000000000
     s.agenda = .gaffer 0 :: [] ∧ s.stopped = false ∧ (s.chair 0).gafferMoves = true ∧
       (gafDecode (Claims.wordAt (s.chair 0)) (s.chair 0).gf.lits).map (·.instr) = some .nop ∧
       (s.chair 0).gf.misplaced ⟨{}, .nop⟩ = false ∧ (Claims.met (s.chair 0) ⟨{}, .nop⟩).gf.stageOn 0 = true ∧
       (s.chair 0).gf.ds = false ∧ (Claims.met (s.chair 0) ⟨{}, .nop⟩).waitClause {} = .pass (s.chair 0) ∧
       (s.chair 0).gf.landed (s.chair 0).cycle .nop = true ∧ (s.chair 0).advance.isSome = true) ∧
    (let s := State.reset.withFetchWord 64 0x000002000420C000
     s.agenda = .engine 0 0 2 :: [] ∧ s.stopped = false ∧ (s.chair 0).open_ = true ∧
       headUnit ((s.core 0 0).queue 2) = some ([], { w := 0x000002000420C000 }, []) ∧
       (s.core 0 0).mayStart 2 (s.chair 0).cycle { w := 0x000002000420C000 } = true ∧
       (s.chair 0).engineWait 0 2 (clauseOf 0x000002000420C000) = (true, s.chair 0) ∧
       (decode 0x000002000420C000 []).toBool = true) ∧
    (let s := State.reset.withFetchWord 64 0x0000070400000000
     s.agenda = .control 0 0 :: [] ∧ (s.core 0 0).buf = some { w := 0x0000070400000000 } ∧
       (s.chair 0).engineWait 0 8 (clauseOf 0x0000070400000000) = (true, s.chair 0) ∧
       (decode 0x0000070400000000 []).toBool = true) ∧
    (Instr.linkResume 3).engine = none ∧ whileStopped (.linkResume 3) = true ∧ (Instr.kernelRetire 0 1).engine = none := by
  decide

/-- A core that takes a legal and an illegal ring word, and one that fetches a word of its stream. -/
theorem witness_StepRunsTheDecodedInstruction_taking :
    (let s := { ringState {} with agenda := [.event (.ringTake 0 0)] }
     s.stopped = false ∧
       (SMap.get ({} : Slot) (s.chair 0).ring ((s.core 0 0).pos.toNat % 256)).item = .word 0x000502000420C000) ∧
    admits false 0x000502000420C000 [] = true ∧ admits false 0 [] = false ∧ admits true 0x0000070009000000 [] = false ∧
    (walk (pagedWith 0x8000000000400113) 0 0x100).isSome = true := by
  decide

theorem witness_GafferWordsThatDoNotRun :
    (State.reset.withFetchWord 64 0x000000FE00000000).agenda = .gaffer 0 :: [] ∧
    gafDecode 0x000000FE00000000 [] = none ∧
    ((gafDecode 0x0000000000000000 []).map fun d => (withGf { isram := [] }).gf.misplaced { d with clause := { ssem := 0x40 } }) =
      some true ∧
    (let g : Gaffer := { loopGf with levels := [(0, { n := 3, k := 0, start := 2, last := 6, s1 := 1 })] }
     Claims.isLitInstr .nop = false ∧ g.stageOn 1 = false ∧ g.stageOn 0 = true) ∧
    slotForbids (.jal 1 4) = true ∧ (base.here.waitClause { wsem := 5 } = .forward) ∧
    (let s := withGf { prom := [(5, 1)] }
     s.here.waitClause { wsem := 0 } = .pass s.here) ∧
    (({ ready := [(3, 9)] } : Gaffer).landed 2 (.add 1 3 3) = false) ∧
    (let s := withGf { pc := 8191 }
     s.here.advance.isNone = true ∧ staysPut .nop = false) := by
  decide

theorem witness_EveryStepKeepsMemoryCanonical : State.reset.wf = true ∧ goesOn (step addState) = true := by decide

theorem witness_RoundingPicksTheValueItsModeNames :
    (roundTo fp32 .rne false 0x1000001 0) = (0x4B800000, flNX) ∧ flNX &&& flOF = 0 ∧
    (roundTo fp16 .rtz true 1 100) = (0xFBFF, flOF ||| flNX) ∧
    (roundTo fp16 .rdn true 0x801 0) = (0xE801, flNX) ∧ (roundTo fp16 .rup false 1 100) = (0x7C00, flOF ||| flNX) ∧
    (roundTo bf16 (.dith 512) false 0x1010 0) = (0x4581, flNX) ∧ (roundTo bf16 (.dith 511) false 0x1010 0) = (0x4580, flNX) ∧
    (roundTo bf16 .rtz false 0x1010 0) = (0x4580, flNX) ∧ Claims.finite (unpack bf16 0x4581) = true := by
  decide

theorem witness_ArrivalsCompleteAtMostOneGeneration :
    barState.mem.atomAt 0x400040 = .home ∧ 0x400040 % 16 = 0 ∧ bwCount (barState.barWord 0x400040) + 1 ≥ bwTarget (barState.barWord 0x400040) ∧
    bwCount (barState.barWord 0x400040) + 0 < bwTarget (barState.barWord 0x400040) := by
  decide

theorem witness_FloatFormatsHaveTheirFields :
    (fp16, 5, 10, 15, 0x7BFF, 0x0400) ∈ [(fp32, 8, 23, 127, 0x7F7FFFFF, 0x00800000), (bf16, 8, 7, 127, 0x7F7F, 0x0080),
      (fp16, 5, 10, 15, 0x7BFF, 0x0400)] ∧ 0 < 30 ∧ 30 < 2 ^ 5 - 1 ∧ 0x7BFF < 2 ^ (5 + 10) ∧
    Claims.finite (unpack fp16 0x7BFF) = true := by
  decide
/-! ## Words written out from the encodings of the manual -/

/-- A word with its literals decodes to an instruction. -/
noncomputable def reads (e : BitVec 64 × List (BitVec 32) × Instr) : Bool :=
  match decode e.1 e.2.1 with
  | .ok d => d.instr == e.2.2
  | .error _ => false

/-- The words of R26, R74, R75, R21, written from their forms in R21. -/
theorem test_decode_gaffer_arithmetic : ([
    (0x0000000000000000, [], .nop),
    (0x000000010420C000, [], .add 1 2 3),
    (0x0000000204210000, [], .sub 1 2 4),
    (0x0000000304214000, [], .mul 1 2 5),
    (0x0000000404218000, [], .mulh 1 2 6),
    (0x000000050421C000, [], .mulhu 1 2 7),
    (0x0000000604220000, [], .div 1 2 8),
    (0x0000000704224000, [], .divu 1 2 9),
    (0x0000000804228000, [], .rem 1 2 10),
    (0x000000090422C000, [], .and 1 2 11),
    (0x0000000A04230000, [], .or 1 2 12),
    (0x0000000B04234000, [], .xor 1 2 13),
    (0x0000000C04238000, [], .shl 1 2 14),
    (0x0000000D0423C000, [], .shr 1 2 15),
    (0x0000000E04240000, [], .sar 1 2 16),
    (0x0000000F04244000, [], .min 1 2 17),
    (0x0000001004248000, [], .max 1 2 18),
    (0x000000110424C000, [], .minu 1 2 19),
    (0x0000001204250000, [], .maxu 1 2 20),
    (0x0000001304254000, [], .seq 1 2 21),
    (0x0000001404258000, [], .slt 1 2 22),
    (0x000000150425C000, [], .sltu 1 2 23),
    (0x000000161050083C, [], .bfx 4 5 8 15),
    (0x000000171050083C, [], .bfi 4 5 8 15),
    (0x0000001818700000, [], .clz 6 7),
    (0x0000001918700000, [], .popc 6 7),
    (0x00000020209FFFFE, [], .addi 8 9 (-2)),
    (0x00000021209FFFFD, [], .andi 8 9 (-3)),
    (0x00000022209FFFFC, [], .ori 8 9 (-4)),
    (0x00000023209FFFFB, [], .xori 8 9 (-5)),
    (0x0000002420900028, [], .shli 8 9 40),
    (0x0000002520900029, [], .shri 8 9 41),
    (0x000000262090002A, [], .sari 8 9 42),
    (0x0000002720900005, [], .slti 8 9 5),
    (0x0000002820012345, [], .lui 8 0x12345)].all reads) = true := by
  decide

/-- The words of R26, R72, R76, R77, R21, written from their forms in R21. -/
theorem test_decode_gaffer_memory_and_control : ([
    (0x0000003028B00010, [], .ldl 10 11 16),
    (0x0000003128B00010, [], .stl 10 11 16),
    (0x0000003228B00010, [], .ldlw 10 11 16),
    (0x0000003328B00010, [], .stlw 10 11 16),
    (0x00000038042FFFFC, [], .beq 1 2 (-4)),
    (0x00000039042FFFFC, [], .bne 1 2 (-4)),
    (0x0000003A042FFFFC, [], .blt 1 2 (-4)),
    (0x0000003B042FFFFC, [], .bge 1 2 (-4)),
    (0x0000003C042FFFFC, [], .bltu 1 2 (-4)),
    (0x0000003D042FFFFC, [], .bgeu 1 2 (-4)),
    (0x0000003EFC0FFFFC, [], .jal 63 (-4)),
    (0x0000003FF8300007, [], .jalr 62 3 7),
    (0x0000004040200009, [], .loop 1 2 9),
    (0x0000004140200009, [], .loopp 1 2 9),
    (0x0000004280500000, [], .lbrk 2 5)].all reads) = true := by
  decide

/-- The words of R26, R65, R80, R81, R87 to R92, R228, R229, written from their forms in R21. -/
theorem test_decode_gaffer_emission_and_system : ([
    (0x0000004824000000, [0x55667788, 0x11223344], .emit 9 0x1122334455667788),
    (0x0000004924400000, [], .emitp 9 4),
    (0x0000004A00700900, [0x00400202, 0x00000210], .emitt 0 7 18 0x0000021000400202),
    (0x0000004B25E00000, [], .fmt 9 30),
    (0x0000004C243C8000, [], .expect 9 3 200),
    (0x0000005000000003, [], .joinpt 3),
    (0x0000005100900000, [], .joinw 9),
    (0x0000005210000002, [], .detq 4 2),
    (0x0000005300900001, [], .chairw 9 1),
    (0x0000005410902000, [], .gpop 4 9 4),
    (0x0000005510900000, [], .gpopn 4 9),
    (0x0000005808000000, [], .grab 2),
    (0x0000005908000000, [], .step 2),
    (0x0000005A00000000, [], .yield),
    (0x0000005B00000000, [], .exit),
    (0x0000005C100000FF, [], .semrd 4 255),
    (0x0000005D00000003, [], .wquiet 3),
    (0x0000006028000024, [], .csrr 10 0x024),
    (0x000000610050000A, [], .csrw 5 0x00A),
    (0x0000006100500045, [], .fselWrite 5),
    (0x00000062000ABCDE, [], .trap 0xABCDE),
    (0x0000006300000000, [], .resume),
    (0x0000006400000001, [], .reinject 1),
    (0x0000006500500008, [], .savectx 5 8),
    (0x0000006600500008, [], .restctx 5 8),
    (0x000004FF00000800, [], .lit 4 0x800)].all reads) = true := by
  decide

/-- The words of R27, R119 to R121, R126 to R128, R131, R132, written from their forms in R21. -/
theorem test_decode_aside_memory : ([
    (0x0000010013100000, [], .ldqMv 0 3 1),
    (0x0000010045F00000, [], .ldq 2 5 15),
    (0x0000010145F00000, [], .ldqs 2 5 15),
    (0x0000010155000000, [], .ldqsMv 2 5 0),
    (0x0000010266118000, [], .ldqg 3 6 1 1 1),
    (0x0000010266108000, [], .ldqg 3 6 1 1 0),
    (0x0000010276110000, [], .ldqgMv 3 6 1 0),
    (0x00000103A2000000, [], .stq 1 2 0),
    (0x0000010482700000, [], .stqs 0 2 7),
    (0x000001083B800000, [], .lds 7 14 0),
    (0x00000109453FFFF8, [], .sts 8 20 (-8)),
    (0x0000010A1D000008, [], .ldsq 3 20 8),
    (0x0000013021400000, [], .probe 4 5),
    (0x0000013101400000, [], .pevict 5),
    (0x00000132214C0000, [], .rprobe 4 5 6),
    (0x00000132214D0000, [], .rprobeWait 4 5 6),
    (0x00000133014C0000, [], .runpin 5 6),
    (0x0000013829180600, [], .atadd 5 4 12 .package),
    (0x0000013908860800, [], .atfadd 1 2 3 .system),
    (0x0000013A08860800, [], .atmin 1 2 3 .system),
    (0x0000013B08860800, [], .atmax 1 2 3 .system),
    (0x0000013C08860800, [], .atxch 1 2 3 .system),
    (0x0000013E08860800, [], .ator 1 2 3 .system),
    (0x0000013F08860800, [], .atand 1 2 3 .system),
    (0x0000013D08864200, [], .atcas 1 2 3 4 .chair),
    (0x0000014000000002, [], .fence .die),
    (0x0000014100000003, [], .rel .package),
    (0x0000014200000000, [], .acq .core),
    (0x0000014884E00000, [], .hgive 33 7),
    (0x0000014984000000, [], .htake 33),
    (0x0000014A84090000, [], .hquery 9 33),
    (0x00000150190A0002, [], .watch 3 4 5 2)].all reads) = true := by
  decide

/-- The words of R27, R99, R118, R122, written from their forms in R21. -/
theorem test_decode_aside_arithmetic : ([
    (0x0000011021160000, [], .aadd 4 4 11),
    (0x0000011108860000, [], .asub 1 2 3),
    (0x0000011208860002, [], .amul 1 2 3 2),
    (0x0000011320D40000, [], .ashl 4 3 10),
    (0x0000011408860001, [], .ashr 1 2 3 1),
    (0x0000011508860000, [], .aand 1 2 3),
    (0x0000011608860000, [], .aor 1 2 3),
    (0x0000011708860001, [], .amin 1 2 3 1),
    (0x0000011808860000, [], .amax 1 2 3 0),
    (0x0000011908860001, [], .aslt 1 2 3 1),
    (0x0000011A58000100, [], .aaddi 11 0 (.imm 256)),
    (0x0000011A50000000, [0x5E000000], .aaddi 10 0 (.lit1 0x5E000000)),
    (0x0000011A50000000, [0x80000000, 1], .aaddi 10 0 (.lit2 0x0000000180000000)),
    (0x00000120352D8000, [], .agset 3 10 11 12),
    (0x0000012035000001, [], .agsetB 3 10),
    (0x0000012135000000, [], .agnext 3 10),
    (0x0000012135000001, [], .agnextW 3 10),
    (0x0000012236800000, [], .agpos 3 13),
    (0x0000012334000002, [], .agrd 8 3 2),
    (0x000001283B000000, [], .bqpush (.nz 7)),
    (0x000001282C000000, [], .bqpush (.z 5)),
    (0x0000012901000001, [], .bqskip .xa1 1),
    (0x0000012905000001, [], .bqskip .vs 1),
    (0x0000012907000009, [], .bqskip .hit 9),
    (0x0000012802000000, [], .bqpush .xa0),
    (0x0000012806000000, [], .bqpush .vc)].all reads) = true := by
  decide

/-- The words of R28, R142, R147, R136, written from their forms in R21. -/
theorem test_decode_xside_scalar_and_predicate : ([
    (0x000002000C108000, [], .sadd 3 1 2),
    (0x00000201F3DF8000, [], .ssub 60 61 62),
    (0x00000202F3DF8000, [], .smul 60 61 62),
    (0x00000203F3DF8000, [], .sand 60 61 62),
    (0x00000204F3DF8000, [], .sor 60 61 62),
    (0x00000205F3DF8000, [], .sxor 60 61 62),
    (0x00000206F3DF8000, [], .sshl 60 61 62),
    (0x00000207F3DF8000, [], .sshr 60 61 62),
    (0x00000208F3DF8000, [], .sfadd 60 61 62),
    (0x00000209F3DF8000, [], .sfmul 60 61 62),
    (0x0000020A14600000, [], .smov 5 (.reg 6)),
    (0x0000020A14000000, [0xFFFFFFFF], .smov 5 (.lit 0xFFFFFFFF)),
    (0x0000020B14001800, [], .spopq 5 3),
    (0x0000020C00500000, [], .spushg 5),
    (0x0000020D00300000, [], .bqout 3),
    (0x0000025224000000, [], .dqcnt 9),
    (0x0000023808860000, [], .pand 1 2 3),
    (0x0000023908860000, [], .por 1 2 3),
    (0x0000023A08860000, [], .pxor 1 2 3),
    (0x0000023B08800000, [], .pnot 1 2),
    (0x0000023C00814000, [], .pany 40 2),
    (0x0000023D00814000, [], .pcnt 40 2),
    (0x0000025900000007, [], .vsett .i32)].all reads) = true := by
  decide

/-- The words of R28, R143, R144, R146, written from their forms in R21. -/
theorem test_decode_xside_vector : ([
    (0x00000210000C0202, [], .vadd 0 3 1 2),
    (0x000002113FFE5805, [], .vsub 7 511 300 5),
    (0x000002123FFE5805, [], .vmul 7 511 300 5),
    (0x000002133FFE5805, [], .vmulh 7 511 300 5),
    (0x000002143FFE5805, [], .vmin 7 511 300 5),
    (0x000002153FFE5805, [], .vmax 7 511 300 5),
    (0x000002163FFE5800, [], .vabs 7 511 300),
    (0x000002173FFE5800, [], .vneg 7 511 300),
    (0x000002180020120A, [], .vand 0 8 9 10),
    (0x000002190020120A, [], .vor 0 8 9 10),
    (0x0000021A0020120A, [], .vxor 0 8 9 10),
    (0x0000021C0020120A, [], .vshl 0 8 9 10),
    (0x0000021D0020120A, [], .vshr 0 8 9 10),
    (0x0000021E0020120A, [], .vsar 0 8 9 10),
    (0x0000021F0020120A, [], .vadds 0 8 9 10),
    (0x0000021B00201200, [], .vnot 0 8 9),
    (0x000002231020120A, [], .vfma 2 8 9 10),
    (0x00000220F820120A, [], .vfadd 31 8 9 10),
    (0x00000221F820120A, [], .vfsub 31 8 9 10),
    (0x00000222F820120A, [], .vfmul 31 8 9 10),
    (0x00000224F820120A, [], .vfmin 31 8 9 10),
    (0x00000225F820120A, [], .vfmax 31 8 9 10),
    (0x0000022608201200, [], .vfabs 1 8 9),
    (0x0000022708201200, [], .vfneg 1 8 9),
    (0x0000022808201200, [], .vrcp 1 8 9),
    (0x0000022908201200, [], .vrsq 1 8 9),
    (0x0000022A08201200, [], .vexp2 1 8 9),
    (0x0000022B08201200, [], .vlog2 1 8 9),
    (0x0000023401000202, [], .vfclt 0 4 1 2),
    (0x00000230314201FF, [], .vceq 6 5 256 511),
    (0x00000231314201FF, [], .vclt 6 5 256 511),
    (0x00000232314201FF, [], .vcle 6 5 256 511),
    (0x00000233314201FF, [], .vfceq 6 5 256 511),
    (0x00000235314201FF, [], .vfcle 6 5 256 511),
    (0x00000236314201FF, [], .vfcun 6 5 256 511)].all reads) = true := by
  decide

/-- The words of R28, R148 to R157, written from their forms in R21. -/
theorem test_decode_xside_movement : ([
    (0x0000024000500000, [], .vpopq 0 20 0),
    (0x0000024118568000, [], .vpushq 3 1 21),
    (0x0000024218040404, [], .vsel 3 1 2 4),
    (0x0000024318047E00, [], .vbcast 3 1 63),
    (0x0000024418040404, [], .vperm 3 1 2 4),
    (0x00000245180405FF, [], .vrot 3 1 2 511),
    (0x0000024600FF2005, [], .vext 63 400 5),
    (0x0000024706407E05, [], .vins 400 63 5),
    (0x0000025A18040400, [], .vmov 3 1 2),
    (0x0000024800280201, [], .vcvt 10 1 .bf16),
    (0x00000249002C0201, [], .vcvtd 11 1 .bf16),
    (0x0000024A002C1801, [], .vpack 11 12 1),
    (0x0000024B002C1800, [], .vunpk 11 12 0),
    (0x0000024F00A00600, [], .vfrsum 0 5 3),
    (0x0000024C20A00600, [], .vrsum 4 5 3),
    (0x0000024D20A00600, [], .vrmax 4 5 3),
    (0x0000024E20A00600, [], .vrmin 4 5 3),
    (0x0000025018000E09, [], .defer 3 7 9),
    (0x0000025100500006, [], .drain 20 6),
    (0x0000025800A01800, [], .vcompnm 40 12 0)].all reads) = true := by
  decide

/-- The words of R29, R191, R192, R195, R197, R199, R200, written from their forms in R21. -/
theorem test_decode_furnace : ([
    (0x0000030000000001, [], .lease 1),
    (0x0000030100000000, [], .unlease),
    (0x00000302FF8F0000, [], .mma 511 1 14),
    (0x00000303011A0000, [], .mmat 2 3 4),
    (0x0000030410014000, [], .mset 1 0x14000),
    (0x00000305F007FFE0, [], .minc 15 (-32)),
    (0x0000030603800003, [], .accz 7 3),
    (0x0000030703824003, [], .accrd 7 9 3),
    (0x0000030800804000, [], .accwr 1 1 0),
    (0x0000030900408000, [], .accwb 0 (.gen 2) 0),
    (0x000003090227C001, [], .accwb 4 (.mem 31) 1),
    (0x000003090203C001, [], .accwb 4 (.sp 15) 1),
    (0x0000030A03FD0003, [], .accmv 7 500 3),
    (0x0000030B03800003, [], .accrel 7 3),
    (0x0000030C00000000, [], .mwait),
    (0x0000030D00000000, [], .fmtskip)].all reads) = true := by
  decide

/-- The words of R30, R163, R167, R171 to R177, written from their forms in R21. -/
theorem test_decode_transfer : ([
    (0x0000040004605000, [2048], .move (.toSp 1 0xA00 (.reg 6)) 0 2048),
    (0x000004000E533FFE, [64], .move (.toMem (.gen 5) 3 0x27FF) 3 64),
    (0x0000040010660002, [64], .move (.memMem 4 (.reg 6)) 1 64),
    (0x000004001C04002C, [96], .movePull 7 5 2 96),
    (0x000004011C60002C, [96], .dup (.toSp 7 5 (.reg 6)) 2 96),
    (0x0000040200600000, [32], .drop (.mem (.reg 6)) 0 32),
    (0x0000040224020040, [32], .drop (.sp 9 8) 0 32),
    (0x0000040326220040, [32], .promote (.toMem (.gen 2) 9 8) 0 32),
    (0x000004040840A000, [1], .move2d (.toSp 2 0x1400 (.reg 4)) 0 1),
    (0x000004050842A000, [7], .move3d (.toMem (.reg 4) 2 0x1400) 0 7),
    (0x0000040610000000, [0x00200000, 0x00200401], .xshape 1 0x0020040100200000),
    (0x0000040750000006, [], .kick 5 3),
    (0x0000040850000000, [32], .chlink 5 32),
    (0x0000040900621002, [0xFFFFFFFF], .arrive 6 33 1 0xFFFFFFFF),
    (0x0000040A02300000, [128], .xfill (.gen 3) 0 0 128),
    (0x0000040B00000004, [], .xcancel 2),
    (0x0000040C88000004, [], .xstat 17 2)].all reads) = true := by
  decide

/-- The words of R31, R245, written from their forms in R21. -/
theorem test_decode_near_memory : ([
    (0x0000050022800000, [], .nmred 2 5),
    (0x000005017F800000, [], .nmatt 7 31),
    (0x0000050232800000, [], .nmopt 3 5),
    (0x0000050332800000, [], .nmmask 3 5),
    (0x0000050410088000, [], .nmbankOn 17),
    (0x00000504005F8000, [], .nmbankOff 191),
    (0x0000050504888000, [], .nmbcst 17 9),
    (0x0000050634888000, [], .nmbmac 17 3 9),
    (0x0000050770088000, [], .nmbrd 17 7),
    (0x0000050820000000, [], .nmpop 1),
    (0x0000050903000000, [65536], .nmpool 6 65536),
    (0x0000050A03000000, [0x23450000, 1], .nmarena 6 0x0000000123450000)].all reads) = true := by
  decide

/-- The words of R32, R283, R298, written from their forms in R21. -/
theorem test_decode_fabric : ([
    (0x0000060021406000, [0x100], .put 4 5 .package 256),
    (0x0000060131C28000, [0x200], .getw 2 6 7 .system 512),
    (0x0000060250046000, [], .amsend 10 0 4 .package),
    (0x0000060308C20000, [], .mrecv 1 2 3),
    (0x0000060400000000, [], .mdone),
    (0x0000060538000000, [], .qrepair 7),
    (0x0000060820010000, [3], .barinit 4 .die none 3),
    (0x0000060850040001, [0x1000], .barinit 10 .core (some 1) 4096),
    (0x0000060920000001, [], .barv 4 1),
    (0x0000060A20040000, [], .barw 4 1),
    (0x0000060B202C0000, [], .barsem 4 5 1)].all reads) = true := by
  decide

/-- The words of R33, R64, R109, R236, R237, written from their forms in R21. -/
theorem test_decode_core_control : ([
    (0x0000070003000000, [0x5F000000, 0], .detach 3 0x000000005F000000),
    (0x0000070103000000, [], .join 3),
    (0x0000070200FFFFFA, [], .jmps (-6)),
    (0x0000070380000013, [], .brs .ax0 19),
    (0x0000070320FFFFFF, [], .brs .xa1 (-1)),
    (0x00000703C0000001, [], .brs .vc 1),
    (0x0000070400000000, [], .cexit),
    (0x000007080C000000, [], .seminit 12 0),
    (0x00000709FF00FFFF, [], .semadd 255 65535),
    (0x0000070A09000001, [], .semwait 9 1),
    (0x0000070B00000000, [], .cfence .core),
    (0x0000070B00004000, [], .cfence .system),
    (0x0000071028000003, [], .xsave 5 3),
    (0x0000071128000001, [], .xrest 5 1),
    (0x0000071218000010, [], .csrrc 3 0x010),
    (0x0000071318000011, [], .csrwc 0x011 3),
    (0x0000071318000031, [], .acondWrite 3),
    (0x0000071318000032, [], .pcfgWrite 3),
    (0x0000071318000033, [], .pqvaWrite 3),
    (0x0000071318000039, [], .frankWrite 3)].all reads) = true := by
  decide

/-! ## Ill-formed terms -/

/-- Each static limit refuses a term that breaks it. -/
theorem test_wellFormed_refuses : ([
    .bfx 1 2 60 4, .bfi 1 2 63 1, .loop 0 1 0, .loop 0 1 8192, .loopp 0 1 0, .expect 0 1 0, .detq 1 3, .gpop 1 2 5, .wquiet 0,
    .wquiet 5, .csrr 1 0x02A, .csrw 1 0x020, .lit 8 0, .amul 1 2 3 3, .bqskip .vs 0, .watch 0 1 0 0, .drain 511 1,
    .vcompnm 511 1 0, .vcompnm 2 1 3, .lease 0, .lease 65, .mset 0 0x50000, .mset 0 0x10, .minc 0 1, .accz 511 1,
    .accrd 500 0 12, .accwr 500 0 12, .accwb 511 (.sp 0) 1, .accmv 4 6 2, .accmv 0 511 1, .accrel 511 1,
    .move (.toSp 0 0x2800 (.reg 0)) 0 32, .movePull 0 0x2800 0 32, .dup (.toMem (.reg 0) 0 0x2800) 0 32,
    .drop (.sp 0 0x2800) 0 32, .promote (.toSp 0 0x3FFF (.reg 0)) 0 32, .move2d (.memMem 0 (.reg 0)) 0 0,
    .move3d (.toSp 0 0x2800 (.reg 0)) 0 0, .chlink 0 0, .chlink 0 33, .nmbankOff 192, .nmbankOn 192, .nmbcst 192 0,
    .nmbmac 192 0 0, .nmbrd 192 0, .nmpool 0 0, .nmpool 0 65537, .put 0 0 .die 32, .getw 0 0 0 .core 32, .mrecv 3 3 0,
    .barinit 0 .core none 0, .barv 0 0, .barsem 0 0 0, .detach 0 4, .detach 0 0x0200000000000000, .csrrc 0 0x020,
    .csrwc 0x004 0, .csrwc 0x039 0] : List Instr).all (fun i => !wellFormed i) = true := by
  decide

/-- The clause limits of R16, R17, R19 and R62, and the places of R33. -/
theorem test_clauses_and_places_refuse :
    clauseOk { wcnt := 1 } (.vadd 0 1 2 3) = false ∧ clauseOk { scnt := 1 } (.vadd 0 1 2 3) = false ∧
    clauseOk { ssem := 1 } .nop = false ∧ clauseOk { scnt := 1 } .nop = false ∧ clauseOk { wsem := 1 } (.lit 0 0) = false ∧
    clauseOk { wsem := 1 } .cexit = false ∧ clauseOk { ssem := 1 } (.join 0) = false ∧
    placeOk true (.detach 0 0) = false ∧ placeOk false .cexit = false := by
  decide

/-- Words that the forms, the opcode map or the literal counts make illegal (R20, R21, R23). -/
theorem test_decode_refuses : ([
    (0x0000001A00000000, []), (0x0000000100000001, []), (0x0000001604215001, []), (0x0000004800000000, [0]),
    (0x0000005000000100, []), (0x0000010310000000, []), (0x000001000000FFFF, []), (0x0000012800000000, []),
    (0x000001400000000D, []), (0x0000011A58000100, [1]), (0x000002590000000A, []), (0x0000024100030000, []),
    (0x0000030000000041, []), (0x0000030600004000, []), (0x0000040000080000, [32]), (0x0000040000000001, [32]),
    (0x0000040000000000, []), (0x0000050860000000 ||| 0x80000000, []), (0x0000060021402000, [32]),
    (0x0000060318010000 ||| 0x00020000, []), (0x0000070380000000 ||| 0x60000000, []), (0x0000071218000020, []),
    (0x0000080000000000, [])] : List (BitVec 64 × List (BitVec 32))).all (fun e =>
      match decode e.1 e.2 with
      | .ok _ => false
      | .error _ => true) = true := by
  decide

/-! ## Single steps -/

def gRun (i : Instr) (g : Gaffer) : Gaffer := (after (exec i (withGf g))).gf

def aRun (i : Instr) (a : ASide) : ASide := ((after (exec i (withCore { a := a }))).core 0 0).a

def xRun (i : Instr) (x : XSide) : XSide := ((after (exec i (withCore { x := x }))).core 0 0).x

/-- The result that an X-side word has sent on its way. -/
def xOut (i : Instr) (x : XSide) : Inflight := (xRun i x).fly.headD default

/-- The corners that R74 names. -/
theorem test_gaffer_arithmetic :
    (gRun (.add 3 1 2) { g := [(1, 0xFFFFFFFFFFFFFFFF), (2, 2)] }).reg 3 = 1 ∧
    (gRun (.mulh 3 1 2) { g := [(1, 0xFFFFFFFFFFFFFFFF), (2, 2)] }).reg 3 = 0xFFFFFFFFFFFFFFFF ∧
    (gRun (.mulhu 3 1 2) { g := [(1, 0xFFFFFFFFFFFFFFFF), (2, 2)] }).reg 3 = 1 ∧
    (gRun (.div 3 1 2) { g := [(1, 0x8000000000000000), (2, 0xFFFFFFFFFFFFFFFF)] }).reg 3 = 0x8000000000000000 ∧
    (gRun (.div 3 1 2) { g := [(1, 0xFFFFFFFFFFFFFFF9), (2, 2)] }).reg 3 = 0xFFFFFFFFFFFFFFFD ∧
    (gRun (.rem 3 1 2) { g := [(1, 0xFFFFFFFFFFFFFFF9), (2, 2)] }).reg 3 = 0xFFFFFFFFFFFFFFFF ∧
    (gRun (.divu 3 1 2) { g := [(1, 7)] }).reg 3 = 0xFFFFFFFFFFFFFFFF ∧ (gRun (.rem 3 1 2) { g := [(1, 7)] }).reg 3 = 7 ∧
    (gRun (.clz 3 2) {}).reg 3 = 64 ∧ (gRun (.add 0 1 1) { g := [(1, 1)] }).reg 0 = 0 := by
  decide

/-- BFX, BFI, SAR and LUI (R74, R75). -/
theorem test_gaffer_fields :
    (gRun (.bfx 3 1 8 15) { g := [(1, 0x123456789ABCDEF0)] }).reg 3 = 0xBCDE ∧
    (gRun (.bfi 3 1 8 15) { g := [(1, 0xFFFF1234), (3, 0xAAAAAAAAAAAAAAAA)] }).reg 3 = 0xAAAAAAAAAA1234AA ∧
    (gRun (.sar 3 1 2) { g := [(1, 0x8000000000000000), (2, 68)] }).reg 3 = 0xF800000000000000 ∧
    (gRun (.lui 3 0x80000) {}).reg 3 = 0xFFFFFFFF80000000 := by
  decide

/-- R76: little-endian, and LDLW sign-extends. -/
theorem test_data_sram :
    (gRun (.stl 1 0 8) { g := [(1, 0x8877665544332211)] }).sram 9 1 = 0x22 ∧
    (gRun (.ldlw 3 0 12) (gRun (.stl 1 0 8) { g := [(1, 0x8877665544332211)] })).reg 3 = 0xFFFFFFFF88776655 := by
  decide

/-- R72: JALR reads the old register before it writes the link; R77: LOOP with N = 0 goes past its end. -/
theorem test_gaffer_control :
    (gRun (.jalr 3 3 1) { g := [(3, 40)], pc := 7 }).dt = 41 ∧ (gRun (.jalr 3 3 1) { g := [(3, 40)], pc := 7 }).reg 3 = 9 ∧
    (gRun (.loop 0 1 5) { pc := 10 }).pc = 16 ∧ (gRun (.loop 0 1 5) { pc := 10, g := [(1, 2)] }).pc = 11 := by
  decide

/-- R122. -/
theorem test_aside_arithmetic :
    (aRun (.amul 3 1 2 1) { a := [(1, 0xFFFFFFFFFFFFFFFF), (2, 5)] }).reg 3 = 0xFFFFFFFFFFFFFFFF ∧
    (aRun (.amul 3 1 2 2) { a := [(1, 0xFFFFFFFFFFFFFFFF), (2, 5)] }).reg 3 = 4 ∧
    (aRun (.ashr 3 1 2 1) { a := [(1, 0xFFFFFFFFFFFFFF00), (2, 4)] }).reg 3 = 0xFFFFFFFFFFFFFFF0 ∧
    (aRun (.aslt 3 1 2 0) { a := [(1, 0xFFFFFFFFFFFFFFFF), (2, 0)] }).reg 3 = 1 ∧
    (aRun (.aslt 3 1 2 1) { a := [(1, 0xFFFFFFFFFFFFFFFF), (2, 0)] }).reg 3 = 0 ∧
    (aRun (.aaddi 3 0 (.lit1 0x80000000)) {}).reg 3 = 0xFFFFFFFF80000000 := by
  decide

/-- The example of R152: three lanes of 0x3F808000 convert to BF16, to even and by the dither of row 1. -/
theorem test_convert_example :
    let x : XSide := { v := [(1, 0x3F8080003F8080003F808000)], drow := 1 }
    ((List.range 3).map fun e => elem (xOut (.vcvt 10 1 .bf16) x).val 16 e) = [0x3F80, 0x3F80, 0x3F80] ∧
    ((List.range 3).map fun e => elem (xOut (.vcvtd 11 1 .bf16) x).val 16 e) = [0x3F81, 0x3F80, 0x3F81] ∧
    (xRun (.vcvtd 11 1 .bf16) x).drow = 2 := by
  decide

/-- The example of R157: groups of four FP32 lanes, 2:4. -/
theorem test_compress_example :
    let x : XSide := { v := [(12, 0x40A0000040A0000040A00000BF8000003F800000C0800000408000007FC00000 <<< 256 |||
      0x800000000000000080000000000000003F00000040000000C04000003F800000)] }
    let r := xOut (.vcompnm 40 12 0) x
    ((List.range 9).map fun e => elem r.val 32 e) =
      [0xC0400000, 0x40000000, 0, 0x80000000, 0x7FC00000, 0x40800000, 0x40A00000, 0x40A00000, 0] ∧
    r.val2 = 0x44449449 ∧ r.flags = flCN := by
  decide

/-- The example of R156: two DEFERs and a DRAIN. -/
theorem test_defer_example :
    let x : XSide := { p := [(3, 0x24), (4, 0x40000003)], v := [(7, 0x77 <<< 64), (8, 0x88)] }
    let y := xRun (.defer 4 8 4) (xRun (.defer 3 7 9) x)
    ((List.range 6).map fun n => lane32 (xOut (.drain 20 6) y).val2 n) = [0x902, 0x905, 0x400, 0x401, 0x41E, 0] ∧
    lane32 (xOut (.drain 20 6) y).val 0 = 0x77 ∧ lane32 (xOut (.drain 20 6) y).val 2 = 0x88 ∧
    (xOut (.drain 20 6) y).pval = 0x1F ∧ (xOut (.dqcnt 9) y).val = 0x00020005 := by
  decide

/-- R41 and R153: the exact sum is rounded once, and zeros of both signs give the zero of the mode. -/
theorem test_float_sum :
    (xOut (.vfrsum 1 5 3) { p := [(1, 7)], v := [(3, 0x3F800000BF8000004B800000)] }).val = 0x4B800000 ∧
    (xOut (.vfrsum 1 5 3) { p := [(1, 3)], v := [(3, 0x8000000000000000)], frm := 2 }).val = 0x80000000 ∧
    (xOut (.vfrsum 1 5 3) { v := [(3, 1)] }).val = 0 := by
  decide

/-- R144: NaN operands, subnormal results and ties. -/
theorem test_float_words :
    (xOut (.sfadd 3 1 2) { s := [(1, 0x3F800000), (2, 0x33800000)] }).val = 0x3F800000 ∧
    (xOut (.sfadd 3 1 2) { s := [(1, 0x3F800001), (2, 0x33800000)] }).val = 0x3F800002 ∧
    (xOut (.sfmul 3 1 2) { s := [(1, 0x00800000), (2, 0x3F000000)] }).val = 0x00400000 ∧
    (xOut (.sfadd 3 1 2) { s := [(1, 0x7F800000), (2, 0xFF800000)] }).val = 0x7FC00000 ∧
    elem (xOut (.vfmin 1 3 1 2) { p := [(1, 1)], v := [(1, 0x7FC00000), (2, 0x40000000)] }).val 32 0 = 0x40000000 := by
  decide

/-- R143, R149: saturation, rotation and sign extension under i8. -/
theorem test_vector_words :
    let x : XSide := { vtype := .i8, p := [(1, 0xFFFFFFFF)], v := [(1, 0x80017F), (2, 0xFF0101)] }
    elem (xOut (.vadds 1 3 1 2) x).val 8 0 = 0x7F ∧ elem (xOut (.vadds 1 3 1 2) x).val 8 2 = 0x80 ∧
    (xOut (.vadds 1 3 1 2) x).flags = flSAT ∧ elem (xOut (.vrot 1 3 1 2) x).val 8 0 = 0x80 ∧
    (xOut (.vext 4 1 2) x).val.setWidth 64 = (0xFFFFFFFFFFFFFF80 : Word) ∧
    elem (xOut (.vmulh 1 3 1 2) x).val 8 2 = 0 := by
  decide

/-- R109: what the semaphore words leave. -/
theorem test_semaphores :
    let run := fun i => (after (exec i (withCore {}))).core 0 0
    (run (.seminit 12 7)).semv 12 = 7 ∧ (run (.semadd 12 7)).semv 12 = 7 ∧ (run (.semadd 0 7)).semv 0 = 0 := by
  decide

/-- A turn of the gaffer runs the word at its PC (R68, R74). -/
theorem test_step_runs_add :
    (after (step addState)).gf.reg 3 = 12 ∧ (after (step addState)).gf.pc = 1 := by
  decide

end Sys2Proof.Tests
end

/-!
PROOF. The floating-point formats of R38: what `unpack` reads from a pattern given by its sign, exponent field and fraction,
and which patterns are finite.

A pattern is written `f.zero neg + ex * 2 ^ f.fb + frac`: the zero of the sign is the sign bit alone, at bit `f.eb + f.fb`.
-/

namespace Sys2Proof.Machine

open Sys2Proof

variable (f : FFmt) (neg : Bool) {ex frac : Nat}

/-! ## The three fields of a pattern -/

theorem FFmt.fraction_pattern (hfrac : frac < 2 ^ f.fb) :
    (f.zero neg + ex * 2 ^ f.fb + frac) % 2 ^ f.fb = frac := by
  have hsign : 2 ^ f.fb ∣ f.zero neg := by
    cases neg
    · exact Nat.dvd_zero _
    · exact pow_dvd_pow 2 (Nat.le_add_left ..)
  rw [Nat.add_mod, Nat.mod_eq_zero_of_dvd (hsign.add (Nat.dvd_mul_left ..)), Nat.zero_add, Nat.mod_mod,
    Nat.mod_eq_of_lt hfrac]

/-- Above the fraction stand the exponent field and the sign. -/
theorem FFmt.pattern_div_fraction (hfrac : frac < 2 ^ f.fb) :
    (f.zero neg + ex * 2 ^ f.fb + frac) / 2 ^ f.fb = neg.toNat * 2 ^ f.eb + ex := by
  have hsign : f.zero neg = neg.toNat * 2 ^ f.eb * 2 ^ f.fb := by
    cases neg <;> simp [FFmt.zero, pow_add]
  rw [hsign, ← Nat.add_mul, Nat.add_comm, Nat.add_mul_div_right _ _ (Nat.two_pow_pos _), Nat.div_eq_of_lt hfrac,
    Nat.zero_add]

theorem FFmt.exponent_pattern (hex : ex < 2 ^ f.eb) (hfrac : frac < 2 ^ f.fb) :
    (f.zero neg + ex * 2 ^ f.fb + frac) / 2 ^ f.fb % 2 ^ f.eb = ex := by
  rw [f.pattern_div_fraction neg hfrac, Nat.mul_add_mod_self_right, Nat.mod_eq_of_lt hex]

theorem FFmt.sign_pattern (hex : ex < 2 ^ f.eb) (hfrac : frac < 2 ^ f.fb) :
    ((f.zero neg + ex * 2 ^ f.fb + frac) / 2 ^ (f.eb + f.fb) % 2 == 1) = neg := by
  have hdiv : (f.zero neg + ex * 2 ^ f.fb + frac) / 2 ^ (f.eb + f.fb) = neg.toNat := by
    rw [Nat.add_comm f.eb, pow_add, ← Nat.div_div_eq_div_mul, f.pattern_div_fraction neg hfrac, Nat.add_comm,
      Nat.add_mul_div_right _ _ (Nat.two_pow_pos _), Nat.div_eq_of_lt hex, Nat.zero_add]
  rw [hdiv]
  cases neg <;> rfl

/-! ## What a pattern reads as -/

/-- R38: a normal exponent gives 1 + fraction at its power of two. -/
theorem unpack_normal (hfrac : frac < 2 ^ f.fb) (hpos : 0 < ex) (hex : ex < 2 ^ f.eb - 1) :
    unpack f (f.zero neg + ex * 2 ^ f.fb + frac) = .fin neg (2 ^ f.fb + frac) ((ex : Int) - f.bias - f.fb) := by
  have hlt : ex < 2 ^ f.eb := by omega
  simp only [unpack, f.fraction_pattern neg hfrac, f.exponent_pattern neg hlt hfrac, f.sign_pattern neg hlt hfrac,
    if_neg hex.ne, if_neg hpos.ne']

/-- The highest exponent with a fraction is a NaN, signalling when the fraction is below its top bit. -/
theorem unpack_nan (hfrac : frac < 2 ^ f.fb) (hpos : 0 < frac) :
    unpack f (f.zero neg + (2 ^ f.eb - 1) * 2 ^ f.fb + frac) = .nan (frac < 2 ^ (f.fb - 1)) := by
  have hlt : 2 ^ f.eb - 1 < 2 ^ f.eb := Nat.sub_one_lt (Nat.two_pow_pos _).ne'
  simp only [unpack, f.fraction_pattern neg hfrac, f.exponent_pattern neg hlt hfrac, if_neg hpos.ne', if_true]

/-- A fraction is below its top bit exactly when that bit is 0. -/
theorem FFmt.fraction_lt_top_bit (hfb : 0 < f.fb) (hfrac : frac < 2 ^ f.fb) :
    decide (frac < 2 ^ (f.fb - 1)) = !(frac / 2 ^ (f.fb - 1) % 2 == 1) := by
  have hhalf : 0 < 2 ^ (f.fb - 1) := Nat.two_pow_pos _
  have hquot : frac / 2 ^ (f.fb - 1) < 2 := by
    rw [Nat.div_lt_iff_lt_mul hhalf, ← pow_succ', Nat.sub_add_cancel hfb]
    exact hfrac
  by_cases hbit : frac < 2 ^ (f.fb - 1)
  · simp [hbit, Nat.div_eq_of_lt hbit]
  · have hone : 0 < frac / 2 ^ (f.fb - 1) := Nat.div_pos (Nat.le_of_not_lt hbit) hhalf
    have : frac / 2 ^ (f.fb - 1) = 1 := by omega
    simp [hbit, this]

/-! ## The limits -/

/-- Two exponent bits leave a normal exponent between that of the subnormals and that of the NaNs. -/
theorem FFmt.four_le_exponents (heb : 2 ≤ f.eb) : 4 ≤ 2 ^ f.eb := Nat.pow_le_pow_right (n := 2) (by omega) heb

/-- The smallest normal value has the exponent field 1 and no fraction. -/
theorem unpack_min_normal (heb : 2 ≤ f.eb) :
    unpack f (2 ^ f.fb) = .fin false (2 ^ f.fb) (1 - (f.bias : Int) - f.fb) := by
  have hexp := f.four_le_exponents heb
  simpa [FFmt.zero] using unpack_normal f false (frac := 0) (Nat.two_pow_pos _) Nat.one_pos (by omega)

/-- The largest finite value has the exponent field below the highest and every fraction bit 1. -/
theorem FFmt.maxFin_fields (heb : 2 ≤ f.eb) :
    f.maxFin false = f.zero false + (2 ^ f.eb - 2) * 2 ^ f.fb + (2 ^ f.fb - 1) := by
  have hexp := f.four_le_exponents heb
  have hfrac : 0 < 2 ^ f.fb := Nat.two_pow_pos _
  obtain ⟨k, hk⟩ : ∃ k, 2 ^ f.eb = k + 2 := ⟨2 ^ f.eb - 2, by omega⟩
  simp only [FFmt.maxFin, FFmt.inf, FFmt.zero, hk, Nat.add_sub_cancel, Nat.add_one_mul, Bool.false_eq_true, if_false,
    Nat.reduceSubDiff]
  omega

/-- Below the highest exponent field stands twice the bias, so that the largest power of two is the bias itself. -/
theorem FFmt.two_mul_bias (heb : 1 ≤ f.eb) : 2 * f.bias = 2 ^ f.eb - 2 := by
  rw [FFmt.bias, Nat.mul_sub, ← pow_succ', Nat.sub_add_cancel heb]

theorem unpack_maxFin (heb : 2 ≤ f.eb) :
    unpack f (f.maxFin false) = .fin false (2 ^ (f.fb + 1) - 1) (f.bias - f.fb) := by
  have hexp := f.four_le_exponents heb
  have hfrac : 0 < 2 ^ f.fb := Nat.two_pow_pos _
  have hbias := f.two_mul_bias (by omega)
  rw [f.maxFin_fields heb, unpack_normal f false (by omega) (by omega) (by omega), FVal.fin.injEq, pow_succ]
  exact ⟨rfl, by omega, by omega⟩

/-- A finite value does not have the highest exponent. -/
theorem exponent_ne_of_finite {p : Nat} (hfin : Claims.finite (unpack f p) = true) :
    p / 2 ^ f.fb % 2 ^ f.eb ≠ 2 ^ f.eb - 1 := by
  intro htop
  simp only [unpack, if_pos htop] at hfin
  split at hfin <;> cases hfin

/-- R38: no finite value without the sign bit is above the largest. -/
theorem le_maxFin_of_finite {p : Nat} (hp : p < 2 ^ (f.eb + f.fb)) (hfin : Claims.finite (unpack f p) = true) :
    p ≤ f.maxFin false := by
  have hquot : p / 2 ^ f.fb < 2 ^ f.eb := by
    rwa [Nat.div_lt_iff_lt_mul (Nat.two_pow_pos _), ← pow_add]
  have hne := exponent_ne_of_finite f hfin
  rw [Nat.mod_eq_of_lt hquot] at hne
  have hinf : p < f.inf false := by
    simpa [FFmt.inf] using (Nat.div_lt_iff_lt_mul (Nat.two_pow_pos f.fb)).mp (show p / 2 ^ f.fb < 2 ^ f.eb - 1 by omega)
  exact Nat.le_sub_one_of_lt hinf

end Sys2Proof.Machine

namespace Sys2Proof.Proofs

open Sys2Proof Sys2Proof.Machine

/-- The table of R38: each row holds its format's widths and bias, its largest finite pattern and its smallest normal one. -/
theorem format_table {f : FFmt} {eb fb bias top low : Nat}
    (hrow : (f, eb, fb, bias, top, low) ∈ [(fp32, 8, 23, 127, 0x7F7FFFFF, 0x00800000), (bf16, 8, 7, 127, 0x7F7F, 0x0080),
      (fp16, 5, 10, 15, 0x7BFF, 0x0400)]) :
    f.eb = eb ∧ f.fb = fb ∧ f.bias = bias ∧ f.maxFin false = top ∧ 2 ^ f.fb = low ∧ 2 ≤ f.eb ∧ 0 < f.fb := by
  simp only [List.mem_cons, Prod.mk.injEq, List.not_mem_nil, or_false] at hrow
  obtain ⟨rfl, rfl, rfl, rfl, rfl, rfl⟩ | ⟨rfl, rfl, rfl, rfl, rfl, rfl⟩ | ⟨rfl, rfl, rfl, rfl, rfl, rfl⟩ := hrow
  all_goals decide

/-- Settles O60: each row of the table names its format's own widths and limits, and the clauses hold of every format with
two exponent bits and a fraction. -/
theorem floatFormatsHaveTheirFields : Obligations.FloatFormatsHaveTheirFields := by
  unfold Obligations.FloatFormatsHaveTheirFields
  intro f eb fb bias top low hrow
  obtain ⟨rfl, rfl, rfl, rfl, rfl, heb, hfb⟩ := format_table hrow
  refine ⟨rfl, ?normal, ?nan, unpack_maxFin f heb, unpack_min_normal f heb, fun p => le_maxFin_of_finite f⟩
  case normal =>
    intro neg ex frac hfrac hpos hex
    exact unpack_normal f neg hfrac hpos hex
  case nan =>
    intro neg frac hpos hfrac
    rw [← f.fraction_lt_top_bit hfb hfrac]
    exact unpack_nan f neg hfrac hpos

end Sys2Proof.Proofs

/-!
PROOF. Barrier words (R279, R281): a word written is the word read, what a word is as a list of its fields, and the word
after an arrival.
-/

namespace Sys2Proof.Machine

open Sys2Proof

/-! ## A number and its bytes -/

@[simp] theorem length_leBytes (n v : Nat) : (leBytes n v).length = n := by
  induction n generalizing v with
  | zero => rfl
  | succ n ih => rw [leBytes, List.length_cons, ih]

/-- `n` bytes hold a number modulo 256 ^ n (R1). -/
theorem leNat_leBytes (n v : Nat) : leNat (leBytes n v) = v % 256 ^ n := by
  induction n generalizing v with
  | zero => rw [leBytes, leNat, pow_zero, Nat.mod_one]
  | succ n ih => rw [leBytes, leNat, ih, BitVec.toNat_ofNat, ← Nat.mod_mul, ← pow_succ']

/-- A store in one atom is read back, whatever state the atom was in (R116). -/
theorem Space.getBytes_storeIn {m : Space} {a : Nat} {vs : List Byte} (hv : a % 32 + vs.length ≤ 32) :
    (m.storeIn a vs).getBytes a vs.length = vs := by
  refine List.ext_getElem (by simp [Space.getBytes]) fun i _ hi => ?_
  simp [Space.getBytes, Space.byte_storeIn _ hv, hi]

/-! ## Reading a barrier word -/

/-- A barrier word lies within one atom (R279), so that its 16 bytes are stored as one number. -/
theorem leNat_getBytes_storeIn_barWord (m : Space) {a : Nat} (w : BitVec 128) (ha : a % 16 = 0) :
    leNat ((m.storeIn a (leBytes 16 w.toNat)).getBytes a 16) = w.toNat := by
  have hatom : a % 32 + (leBytes 16 w.toNat).length ≤ 32 := by
    rw [length_leBytes]
    omega
  have hbytes := Space.getBytes_storeIn (m := m) hatom
  rw [length_leBytes] at hbytes
  rw [hbytes, leNat_leBytes]
  exact Nat.mod_eq_of_lt w.isLt

/-- The word written is the word read, in memory and on the deep tier. -/
theorem State.barWord_setBarWord (s : State) {pa : Nat} (w : BitVec 128) (hpa : pa % 16 = 0) :
    (s.setBarWord pa w).barWord pa = w := by
  by_cases hmem : pa < deepPlace 0
  · simp only [State.barWord, State.setBarWord, State.wordSpace, if_pos hmem,
      leNat_getBytes_storeIn_barWord s.mem w hpa, BitVec.ofNat_toNat, BitVec.setWidth_eq]
  · have hdeep : (pa - deepPlace 0) % 16 = 0 := by
      rw [deepPlace] at hmem ⊢
      omega
    simp only [State.barWord, State.setBarWord, State.wordSpace, if_neg hmem,
      leNat_getBytes_storeIn_barWord s.deep w hdeep, BitVec.ofNat_toNat, BitVec.setWidth_eq]

/-- The atom of a word that is written stays HOME. -/
theorem State.atomAt_setBarWord (s : State) {pa : Nat} (w : BitVec 128) (hhome : s.mem.atomAt pa = .home) :
    (s.setBarWord pa w).mem.atomAt pa = .home := by
  unfold State.setBarWord
  split
  · exact (s.mem.atom_storeIn pa _ _).trans (if_pos rfl)
  · exact hhome

@[simp] theorem seeWords_mem (s : State) : (seeWords s).mem = s.mem := rfl

@[simp] theorem barWord_seeWords (s : State) (pa : Nat) : (seeWords s).barWord pa = s.barWord pa := rfl

/-! ## The fields of a barrier word -/

/-- A barrier word by the fields that an arrival works on; `low` holds what stands below PHASE (R279). -/
def barOf (target count gen : BitVec 32) (phase : Bool) (low : BitVec 31) : BitVec 128 :=
  target ++ count ++ gen ++ BitVec.ofBool phase ++ low

section
variable (target count gen : BitVec 32) (phase : Bool) (low : BitVec 31)

@[simp] theorem target_barOf : field 96 32 (barOf target count gen phase low) = target := by
  simp (disch := decide) only [field, barOf, BitVec.extractLsb'_append_eq_of_le]
  exact BitVec.extractLsb'_eq_self

@[simp] theorem count_barOf : field 64 32 (barOf target count gen phase low) = count := by
  simp (disch := decide) only [field, barOf, BitVec.extractLsb'_append_eq_of_le]
  exact BitVec.extractLsb'_append_eq_right

@[simp] theorem gen_barOf : field 32 32 (barOf target count gen phase low) = gen := by
  simp (disch := decide) only [field, barOf, BitVec.extractLsb'_append_eq_of_le]
  exact BitVec.extractLsb'_append_eq_right

@[simp] theorem low_barOf : field 0 31 (barOf target count gen phase low) = low :=
  BitVec.extractLsb'_append_eq_right

@[simp] theorem bwTarget_barOf : bwTarget (barOf target count gen phase low) = target.toNat :=
  congrArg BitVec.toNat (target_barOf ..)

@[simp] theorem bwCount_barOf : bwCount (barOf target count gen phase low) = count.toNat :=
  congrArg BitVec.toNat (count_barOf ..)

@[simp] theorem bwPhase_barOf : bwPhase (barOf target count gen phase low) = phase := by
  simp only [bwPhase, barOf, BitVec.getLsbD_append]
  simp

/-- GEN, PHASE and what stands below are the low 64 bits of a word (R279). -/
theorem append_low64_eq_barOf (w : BitVec 128) :
    target ++ count ++ field 0 64 w = barOf target count (field 32 32 w) (bwPhase w) (field 0 31 w) := by
  refine BitVec.eq_of_getLsbD_eq fun i hi => ?_
  simp only [barOf, BitVec.getLsbD_append, BitVec.getLsbD_extractLsb', BitVec.getLsbD_ofBool, bwPhase]
  grind

end

/-! ## The word after an arrival -/

/-- An arrival that completes the generation starts the next with COUNT at 0, whatever the amount (R281). -/
theorem bwArrive_of_completes {a : Nat} {w : BitVec 128} (h : bwCount w + a ≥ bwTarget w) :
    bwArrive a w = barOf (field 96 32 w) 0 (field 32 32 w + 1) (!bwPhase w) (field 0 31 w) := if_pos h

/-- An arrival short of TARGET is added to COUNT and to nothing else (R281). -/
theorem bwArrive_of_short {a : Nat} {w : BitVec 128} (h : bwCount w + a < bwTarget w) :
    bwArrive a w =
      barOf (field 96 32 w) (BitVec.ofNat 32 (bwCount w + a)) (field 32 32 w) (bwPhase w) (field 0 31 w) := by
  rw [bwArrive, if_neg (Nat.not_le.2 h), append_low64_eq_barOf]

/-- A COUNT short of TARGET fits in its 32 bits. -/
theorem toNat_ofNat_of_lt_bwTarget {n : Nat} {w : BitVec 128} (h : n < bwTarget w) :
    (BitVec.ofNat 32 n).toNat = n := by
  rw [BitVec.toNat_ofNat]
  exact Nat.mod_eq_of_lt (h.trans (field 96 32 w).isLt)

/-- An arrival writes the word after it, and those that wait at the word see it (R281, R286). -/
theorem barWord_arriveAt (s : State) {pa : Nat} (a : Nat) (hpa : pa % 16 = 0) :
    (arriveAt pa a s).barWord pa = bwArrive a (s.barWord pa) := by
  rw [arriveAt, barWord_seeWords, State.barWord_setBarWord s _ hpa]

theorem atomAt_arriveAt (s : State) {pa : Nat} (a : Nat) (hhome : s.mem.atomAt pa = .home) :
    (arriveAt pa a s).mem.atomAt pa = .home := by
  rw [arriveAt, seeWords_mem]
  exact s.atomAt_setBarWord _ hhome

end Sys2Proof.Machine

namespace Sys2Proof.Proofs

open Sys2Proof Sys2Proof.Machine

/-- Settles O59: the word read after the arrival is `bwArrive` of the word before, whose two cases give the fields. -/
theorem arrivalsCompleteAtMostOneGeneration : Obligations.ArrivalsCompleteAtMostOneGeneration := by
  unfold Obligations.ArrivalsCompleteAtMostOneGeneration
  intro s pa a hpa hhome w u
  have hu : u = bwArrive a w := barWord_arriveAt s a hpa
  have hatom : (arriveAt pa a s).mem.atomAt pa = .home := atomAt_arriveAt s a hhome
  by_cases h : bwCount w + a ≥ bwTarget w
  case pos =>
    rw [hu, bwArrive_of_completes h]
    exact ⟨fun _ => ⟨bwCount_barOf .., gen_barOf .., bwPhase_barOf ..⟩, fun hlt => absurd h (Nat.not_le.2 hlt),
      bwTarget_barOf .., low_barOf .., hatom⟩
  case neg =>
    have hlt : bwCount w + a < bwTarget w := Nat.lt_of_not_le h
    have hcount := toNat_ofNat_of_lt_bwTarget hlt
    rw [hu, bwArrive_of_short hlt]
    exact ⟨fun hge => absurd hge h, fun _ => ⟨(bwCount_barOf ..).trans hcount, gen_barOf .., bwPhase_barOf ..⟩,
      bwTarget_barOf .., low_barOf .., hatom⟩

end Sys2Proof.Proofs
